-- ==== Sys2Proof/Word.lean ====
section
/-! DEFINITION. The word types of the DCT transform engine (00_scope.md R10, R12, R13). -/

namespace Sys2Proof

/-- A `u8`: one byte of system memory. -/
abbrev Byte := BitVec 8

/-- A 16-bit quantity: an `i16` symbol or sample, or a quantization divisor. -/
abbrev Half := BitVec 16

/-- A 32-bit register or command word. -/
abbrev Word := BitVec 32

/-- The 64 bits of an IEEE 754 binary64 value (R10): the format of every matrix element, scalar register and
basis constant. -/
abbrev F64 := BitVec 64

end Sys2Proof
end

