-- ==== Sys2Proof/Syntax.lean ====
section
/-! DEFINITION. The 39 commands of the opcode map (30_encoding.md R210), one constructor per row of
spec/opcode_table.json. Register fields name their registers directly (R205); H, W, ROW and COL are the unsigned
4-bit fields X and Y (R206). -/

namespace Sys2Proof

/-- A matrix register number, fields D, A, B (R201, R205). -/
abbrev MReg := Fin 8

/-- A scalar register number, field S (R201, R205). -/
abbrev SReg := Fin 4

/-- The memory element format FMT of MLOAD and MSTORE (R206). -/
inductive Fmt where
  | f64
  | i16
  | u8
deriving DecidableEq, Repr

/-- A command. Operand order is the assembler's (R220). -/
inductive Instr where
  | nop
  | mzero (d : MReg) (h w : Nat)
  | mload (d : MReg) (h w : Nat) (f : Fmt)
  | mstore (a : MReg) (f : Fmt)
  | mget (k : SReg) (a : MReg) (row col : Nat)
  | mset (d : MReg) (k : SReg) (row col : Nat)
  | mmov (d a : MReg)
  | madd (d a b : MReg)
  | msub (d a b : MReg)
  | mdiv (d a b : MReg)
  | memul (d a b : MReg)
  | mmul (d a b : MReg)
  | madds (d a : MReg) (k : SReg)
  | msubs (d a : MReg) (k : SReg)
  | mmuls (d a : MReg) (k : SReg)
  | mdivs (d a : MReg) (k : SReg)
  | mtrans (d a : MReg)
  | mabs (d a : MReg)
  | mround (d a : MReg)
  | mmin (k : SReg) (a : MReg)
  | mmax (k : SReg) (a : MReg)
  | mzigzag (d a : MReg)
  | meq (a b : MReg)
  | fdct (d a : MReg)
  | idct (d a : MReg)
  | quant (d a : MReg)
  | dequant (d a : MReg)
  | lvlsub (d a : MReg)
  | lvladd (d a : MReg)
  | xform (etq erec : Bool)
  | pqclr
  | pqenq
  | pqdeq
  | pqpeek
  | hcount
  | hbuild
  | hassign
  | hemit
  | huff
deriving DecidableEq, Repr

end Sys2Proof
end

