-- ==== Sys2Proof/WellFormed.lean ====
section
/-! DEFINITION. When a command has an encoding: its H, W, ROW and COL operands fit the 4-bit fields X and Y
(30_encoding.md R201, R206). Register numbers and formats fit their fields by their types. A value that fits its
field but is no legal height, width, row or column is well formed: the command raises SHAPE or INDEX when it runs
(R206). -/

namespace Sys2Proof

/-- A value of a 4-bit field, 0 to 15 (R206). -/
def fitsNibble (n : Nat) : Bool := n < 16

/-- The command can be written as a command word. -/
def wellFormed : Instr → Bool
  | .mzero _ h w => fitsNibble h && fitsNibble w
  | .mload _ h w _ => fitsNibble h && fitsNibble w
  | .mget _ _ row col => fitsNibble row && fitsNibble col
  | .mset _ _ row col => fitsNibble row && fitsNibble col
  | .nop | .mstore _ _ | .mmov _ _ | .madd _ _ _ | .msub _ _ _ | .mdiv _ _ _ | .memul _ _ _ | .mmul _ _ _
  | .madds _ _ _ | .msubs _ _ _ | .mmuls _ _ _ | .mdivs _ _ _ | .mtrans _ _ | .mabs _ _ | .mround _ _
  | .mmin _ _ | .mmax _ _ | .mzigzag _ _ | .meq _ _ | .fdct _ _ | .idct _ _ | .quant _ _ | .dequant _ _
  | .lvlsub _ _ | .lvladd _ _ | .xform _ _ | .pqclr | .pqenq | .pqdeq | .pqpeek | .hcount | .hbuild
  | .hassign | .hemit | .huff => true

end Sys2Proof
end

