-- ==== Sys2Proof/Decode.lean ====
section
/-! DEFINITION. The command word: its fields, formats and masks, the decoder, total on every 32-bit word and
refusing an illegal word by name, and the encoder (30_encoding.md R200 to R216). -/

namespace Sys2Proof

/-! ## Fields (R201) -/

def opField (w : Word) : BitVec 8 := w.extractLsb' 0 8
def dField (w : Word) : MReg := (w.extractLsb' 8 3).toFin
def aField (w : Word) : MReg := (w.extractLsb' 11 3).toFin
def bField (w : Word) : MReg := (w.extractLsb' 14 3).toFin
def sField (w : Word) : SReg := (w.extractLsb' 17 2).toFin
def xField (w : Word) : Nat := (w.extractLsb' 19 4).toNat
def yField (w : Word) : Nat := (w.extractLsb' 23 4).toNat
def reservedField (w : Word) : BitVec 5 := w.extractLsb' 27 5

/-! ## Formats (R202) -/

/-- The twelve formats. A format names the fields a command uses. -/
inductive Format where
  | n | rr | rrr | rrs | ab | sa | eg | es | sh | ld | st | xf
deriving DecidableEq, Repr

/-- The decode mask: a 1 at every bit the decoder checks (R202). -/
def Format.mask : Format → Word
  | .n => 0xFFFFFFFF#32
  | .rr => 0xFFFFC0FF#32
  | .rrr => 0xFFFE00FF#32
  | .rrs => 0xFFF9C0FF#32
  | .ab => 0xFFFE07FF#32
  | .sa => 0xFFF9C7FF#32
  | .eg => 0xF801C7FF#32
  | .es => 0xF801F8FF#32
  | .sh => 0xF807F8FF#32
  | .ld => 0xF80638FF#32
  | .st => 0xFFFE07FF#32
  | .xf => 0xFFFFFCFF#32

/-- The format of a command's row in the opcode map (R210). -/
def Instr.format : Instr → Format
  | .nop | .pqclr | .pqenq | .pqdeq | .pqpeek | .hcount | .hbuild | .hassign | .hemit | .huff => .n
  | .mmov _ _ | .mtrans _ _ | .mabs _ _ | .mround _ _ | .mzigzag _ _ | .fdct _ _ | .idct _ _ | .quant _ _
  | .dequant _ _ | .lvlsub _ _ | .lvladd _ _ => .rr
  | .madd _ _ _ | .msub _ _ _ | .mdiv _ _ _ | .memul _ _ _ | .mmul _ _ _ => .rrr
  | .madds _ _ _ | .msubs _ _ _ | .mmuls _ _ _ | .mdivs _ _ _ => .rrs
  | .meq _ _ => .ab
  | .mmin _ _ | .mmax _ _ => .sa
  | .mget _ _ _ _ => .eg
  | .mset _ _ _ _ => .es
  | .mzero _ _ _ => .sh
  | .mload _ _ _ _ => .ld
  | .mstore _ _ => .st
  | .xform _ _ => .xf

/-- The OP value of a command's row in the opcode map (R210). -/
def Instr.opcode : Instr → BitVec 8
  | .nop => 0x01#8
  | .mzero _ _ _ => 0x10#8
  | .mload _ _ _ _ => 0x11#8
  | .mstore _ _ => 0x12#8
  | .mget _ _ _ _ => 0x13#8
  | .mset _ _ _ _ => 0x14#8
  | .mmov _ _ => 0x15#8
  | .madd _ _ _ => 0x18#8
  | .msub _ _ _ => 0x19#8
  | .mdiv _ _ _ => 0x1A#8
  | .memul _ _ _ => 0x1B#8
  | .mmul _ _ _ => 0x1C#8
  | .madds _ _ _ => 0x20#8
  | .msubs _ _ _ => 0x21#8
  | .mmuls _ _ _ => 0x22#8
  | .mdivs _ _ _ => 0x23#8
  | .mtrans _ _ => 0x28#8
  | .mabs _ _ => 0x29#8
  | .mround _ _ => 0x2A#8
  | .mmin _ _ => 0x2B#8
  | .mmax _ _ => 0x2C#8
  | .mzigzag _ _ => 0x2D#8
  | .meq _ _ => 0x2E#8
  | .fdct _ _ => 0x30#8
  | .idct _ _ => 0x31#8
  | .quant _ _ => 0x32#8
  | .dequant _ _ => 0x33#8
  | .lvlsub _ _ => 0x34#8
  | .lvladd _ _ => 0x35#8
  | .xform _ _ => 0x38#8
  | .pqclr => 0x40#8
  | .pqenq => 0x41#8
  | .pqdeq => 0x42#8
  | .pqpeek => 0x43#8
  | .hcount => 0x50#8
  | .hbuild => 0x51#8
  | .hassign => 0x52#8
  | .hemit => 0x53#8
  | .huff => 0x54#8

/-! ## Decoding (R210, R215, R216) -/

/-- Why a command word is illegal, in the order of the four conditions of R215. -/
inductive DecodeError where
  /-- The OP value is not in the opcode map. -/
  | unknownOp
  /-- A reserved bit 31:27 is 1. -/
  | reservedBits
  /-- A bit outside the used fields of the format is 1. -/
  | unusedBits
  /-- FMT is 3 to 7. -/
  | badFmt
deriving DecidableEq, Repr

/-- The FMT field of formats LD and ST (R206). -/
def fmtField (w : Word) : Except DecodeError Fmt :=
  match (bField w).val with
  | 0 => .ok .f64
  | 1 => .ok .i16
  | 2 => .ok .u8
  | _ => .error .badFmt

/-- The row test `(word AND mask) == match` (R210), before the operands `i` are taken. -/
def rowOf (f : Format) (w : Word) (i : Except DecodeError Instr) : Except DecodeError Instr :=
  if reservedField w ≠ 0#5 then .error .reservedBits
  else if w &&& f.mask ≠ (opField w).setWidth 32 then .error .unusedBits
  else i

def decN (w : Word) (i : Instr) : Except DecodeError Instr := rowOf .n w (.ok i)

def decRR (w : Word) (c : MReg → MReg → Instr) : Except DecodeError Instr :=
  rowOf .rr w (.ok (c (dField w) (aField w)))

def decRRR (w : Word) (c : MReg → MReg → MReg → Instr) : Except DecodeError Instr :=
  rowOf .rrr w (.ok (c (dField w) (aField w) (bField w)))

def decRRS (w : Word) (c : MReg → MReg → SReg → Instr) : Except DecodeError Instr :=
  rowOf .rrs w (.ok (c (dField w) (aField w) (sField w)))

def decAB (w : Word) (c : MReg → MReg → Instr) : Except DecodeError Instr :=
  rowOf .ab w (.ok (c (aField w) (bField w)))

def decSA (w : Word) (c : SReg → MReg → Instr) : Except DecodeError Instr :=
  rowOf .sa w (.ok (c (sField w) (aField w)))

/-- The decoder: one command of the opcode map, or the reason the word is illegal (R215, R216). -/
def decode (w : Word) : Except DecodeError Instr :=
  match opField w with
  | 0x01#8 => decN w .nop
  | 0x10#8 => rowOf .sh w (.ok (.mzero (dField w) (xField w) (yField w)))
  | 0x11#8 => rowOf .ld w ((fmtField w).map fun f => .mload (dField w) (xField w) (yField w) f)
  | 0x12#8 => rowOf .st w ((fmtField w).map fun f => .mstore (aField w) f)
  | 0x13#8 => rowOf .eg w (.ok (.mget (sField w) (aField w) (xField w) (yField w)))
  | 0x14#8 => rowOf .es w (.ok (.mset (dField w) (sField w) (xField w) (yField w)))
  | 0x15#8 => decRR w .mmov
  | 0x18#8 => decRRR w .madd
  | 0x19#8 => decRRR w .msub
  | 0x1A#8 => decRRR w .mdiv
  | 0x1B#8 => decRRR w .memul
  | 0x1C#8 => decRRR w .mmul
  | 0x20#8 => decRRS w .madds
  | 0x21#8 => decRRS w .msubs
  | 0x22#8 => decRRS w .mmuls
  | 0x23#8 => decRRS w .mdivs
  | 0x28#8 => decRR w .mtrans
  | 0x29#8 => decRR w .mabs
  | 0x2A#8 => decRR w .mround
  | 0x2B#8 => decSA w .mmin
  | 0x2C#8 => decSA w .mmax
  | 0x2D#8 => decRR w .mzigzag
  | 0x2E#8 => decAB w .meq
  | 0x30#8 => decRR w .fdct
  | 0x31#8 => decRR w .idct
  | 0x32#8 => decRR w .quant
  | 0x33#8 => decRR w .dequant
  | 0x34#8 => decRR w .lvlsub
  | 0x35#8 => decRR w .lvladd
  | 0x38#8 => rowOf .xf w (.ok (.xform (w.getLsbD 8) (w.getLsbD 9)))
  | 0x40#8 => decN w .pqclr
  | 0x41#8 => decN w .pqenq
  | 0x42#8 => decN w .pqdeq
  | 0x43#8 => decN w .pqpeek
  | 0x50#8 => decN w .hcount
  | 0x51#8 => decN w .hbuild
  | 0x52#8 => decN w .hassign
  | 0x53#8 => decN w .hemit
  | 0x54#8 => decN w .huff
  | _ => .error .unknownOp

/-! ## Encoding (R201, R210) -/

def mBits (r : MReg) : BitVec 3 := BitVec.ofNat 3 r.val
def sBits (k : SReg) : BitVec 2 := BitVec.ofNat 2 k.val
def nibble (n : Nat) : BitVec 4 := BitVec.ofNat 4 n

def Fmt.bits : Fmt → BitVec 3
  | .f64 => 0#3
  | .i16 => 1#3
  | .u8 => 2#3

/-- A command word from its fields, most significant first (R201). -/
def pack (op : BitVec 8) (d a b : BitVec 3) (k : BitVec 2) (x y : BitVec 4) : Word :=
  0#5 ++ y ++ x ++ k ++ b ++ a ++ d ++ op

/-- The command word of a well-formed command: its opcode and operand fields, every other bit 0 (R202, R210). -/
def encode (i : Instr) : Word :=
  let op := i.opcode
  match i with
  | .nop | .pqclr | .pqenq | .pqdeq | .pqpeek | .hcount | .hbuild | .hassign | .hemit | .huff =>
    pack op 0 0 0 0 0 0
  | .mzero d h w => pack op (mBits d) 0 0 0 (nibble h) (nibble w)
  | .mload d h w f => pack op (mBits d) 0 f.bits 0 (nibble h) (nibble w)
  | .mstore a f => pack op 0 (mBits a) f.bits 0 0 0
  | .mget k a row col => pack op 0 (mBits a) 0 (sBits k) (nibble row) (nibble col)
  | .mset d k row col => pack op (mBits d) 0 0 (sBits k) (nibble row) (nibble col)
  | .mmov d a | .mtrans d a | .mabs d a | .mround d a | .mzigzag d a | .fdct d a | .idct d a | .quant d a
  | .dequant d a | .lvlsub d a | .lvladd d a => pack op (mBits d) (mBits a) 0 0 0 0
  | .madd d a b | .msub d a b | .mdiv d a b | .memul d a b | .mmul d a b =>
    pack op (mBits d) (mBits a) (mBits b) 0 0 0
  | .madds d a k | .msubs d a k | .mmuls d a k | .mdivs d a k =>
    pack op (mBits d) (mBits a) 0 (sBits k) 0 0
  | .meq a b => pack op 0 (mBits a) (mBits b) 0 0 0
  | .mmin k a | .mmax k a => pack op 0 (mBits a) 0 (sBits k) 0 0
  | .xform etq erec => pack op (0#1 ++ BitVec.ofBool erec ++ BitVec.ofBool etq) 0 0 0 0 0

/-- The decoder on an instruction of the opcode table given as `nbits` bits `w`. A command is one 32-bit word
written whole to CMD, so its bits are the table's bits; bits above `nbits` are 0. -/
def decodeTableWord (nbits w : Nat) : Option Instr :=
  if nbits ≤ 32 then (decode (BitVec.ofNat 32 (w % 2 ^ nbits))).toOption else none

end Sys2Proof
end

