-- ==== Sys2Proof/Config.lean ====
section
/-! DEFINITION. What is fixed for DCTE revision 1 (00_scope.md R9), the reset table of QTAB (10_state.md R81), and
the free values of the points the spec leaves UNSPECIFIED (00_scope.md R19). -/

namespace Sys2Proof.Config

/-- Capacity of the distinct-symbol table (R9). -/
def nsymMax : Nat := 4096

/-- Capacity of the priority queue (R9). -/
def pqCap : Nat := 4096

/-- Longest codeword of the code table (R9). -/
def maxCl : Nat := 64

/-- Capacity of the node arena (R9). -/
def nodeMax : Nat := 8191

/-- One past the highest system-memory address, 2^ADDR_W (R9, R150). -/
def addrTop : Nat := 2 ^ 32

/-- The identification register's constant (10_state.md R62). -/
def idWord : Word := 0x44435401#32

/-- The luminance table K.1 in row-major order, the reset value of QTAB (R81). -/
def qtabRows : List Half :=
  [16, 11, 10, 16, 24, 40, 51, 61] ++ [12, 12, 14, 19, 26, 58, 60, 55] ++
  [14, 13, 16, 24, 40, 57, 69, 56] ++ [14, 17, 22, 29, 51, 87, 80, 62] ++
  [18, 22, 37, 56, 68, 109, 103, 77] ++ [24, 35, 55, 64, 81, 104, 113, 92] ++
  [49, 64, 78, 87, 103, 121, 120, 101] ++ [72, 92, 95, 98, 112, 100, 103, 99]

/-- QTAB after reset (R81). -/
def qtabReset : Vector Half 64 := ⟨qtabRows.toArray, by decide⟩

/-- FREE VALUE. The `n`-th byte drawn for an output region the spec leaves UNSPECIFIED, stored or read by the host
(U1, U2, U3, U5 of 93_implementation_defined.md; log 5). It has no body: nothing can be proved about a particular
byte. -/
opaque freeByte : Nat → Byte

/-- FREE VALUE. The `n`-th word drawn for a register read the spec leaves UNSPECIFIED (U4, U11; log 6), or for a RES
register (U8; log 20). -/
opaque freeWord : Nat → Word

/-- FREE VALUE. The `k`-th 64-bit value of draw `n`, for results the spec leaves UNSPECIFIED (U8; log 20). -/
opaque freeWide : Nat → Nat → BitVec 64

/-- FREE VALUE. The weight of an internal node whose children's weights `x` and `y` together exceed 32 bits. No counted
input has such weights (43_huffman.md R456); tables that came from a device may (log 20). -/
opaque weightOverflow : Word → Word → Word

/-- FREE VALUE. The byte a device with read side effects answers at address `a` in draw `n` (U8; log 20). -/
opaque deviceByte : Nat → Nat → Byte

end Sys2Proof.Config
end

