-- ==== Sys2Proof/Machine/State.lean ====
section
/-! DEFINITION. The state of the machine as plain data (10_state.md), the host's inputs, the errors of
60_exceptions.md R600, and the reset state (R95). -/

namespace Sys2Proof.Machine

/-! ## Matrices and memory -/

/-- The value of a valid matrix register (R50): height, width and the `h * w` elements in row-major order. Cells
outside the rectangle are not state. -/
structure Mat where
  h : Nat
  w : Nat
  e : List F64
deriving DecidableEq, Repr

/-- The shape law of R50 and 00_scope.md R11, and one element for each cell. -/
def Mat.wf (m : Mat) : Bool :=
  1 ≤ m.h && m.h ≤ 8 && 1 ≤ m.w && m.w ≤ 8 && m.e.length == m.h * m.w

/-- System memory (20_memory.md R150): address and byte pairs, addresses strictly rising, no pair holding the byte an
unlisted address reads as. -/
abbrev Memory := List Host.Cell

/-- What a byte nothing has written reads as. DESIGN CHOICE, unsafe for runs from `State.reset` (log 4): the contents
at power-up are the platform's (R95, U17). -/
def Memory.unlisted : Byte := 0#8

/-- The canonical form from address `lo` up. -/
def Memory.wfFrom : Nat → Memory → Bool
  | _, [] => true
  | lo, (a, b) :: t => lo ≤ a && a < Config.addrTop && b != Memory.unlisted && Memory.wfFrom (a + 1) t

/-- The canonical form: equal memories are equal lists. -/
def Memory.wf (m : Memory) : Bool := Memory.wfFrom 0 m

/-- A range of byte addresses: a buffer of 20_memory.md R160, or a range that is the platform's. -/
structure Region where
  base : Nat
  len : Nat
deriving DecidableEq, Repr

/-! ## Host-written configuration -/

/-- The RW registers a host write sets (R63, R65, R70, R72, R73, R80). No command writes them. CTRL and IE are held
by field; reserved bits read 0 and ignore writes (R61), so they are not state. -/
structure Csr where
  rnd : Bool
  pqmax : Bool
  htie : Bool
  doneIe : Bool
  errIe : Bool
  arg0 : Word
  arg1 : Word
  imgDim : Word
  imgSrc : Word
  zzDst : Word
  tqDst : Word
  recDst : Word
  hinAddr : Word
  hinLen : Word
  htabDst : Word
  houtDst : Word
  houtCap : Word
  qtab : Vector Half 64
deriving DecidableEq, Repr

/-- The STATUS bits 4:0 (R64). HSTAGE is a view of the Huffman unit. -/
structure Status where
  busy : Bool
  done : Bool
  err : Bool
  cmdDrop : Bool
  wrDrop : Bool
deriving DecidableEq, Repr

/-- ERRCODE, ERRADDR and ERRINFO (R68, R69). -/
structure ErrRec where
  code : Word
  addr : Word
  info : Word
deriving DecidableEq, Repr

/-! ## Priority queue and Huffman unit -/

/-- An entry of the priority queue (44_pqueue.md R500). -/
structure Entry where
  key : Word
  payload : Word
  seq : Word
deriving DecidableEq, Repr

/-- The heap array `H[0..n-1]` and PQSEQ (R90). The count `n` is the length. -/
structure PQueue where
  heap : List Entry
  seq : Word
deriving DecidableEq, Repr

/-- The empty queue with PQSEQ = 0. -/
def PQueue.empty : PQueue := ⟨[], 0#32⟩

/-- HSTAGE (43_huffman.md R451). -/
inductive HStage where
  | empty
  | counted
  | built
  | assigned
deriving DecidableEq, Repr

/-- One row of the distinct-symbol table: `SYM[i]` and `FREQ[i]` (R91). -/
structure HSym where
  sym : Half
  freq : Word
deriving DecidableEq, Repr

/-- A node of the arena (R455); `left` and `right` are handles. -/
inductive Node where
  | leaf (weight : Word) (sym : Half)
  | internal (weight : Word) (left right : Nat)
deriving DecidableEq, Repr

/-- One codeword: `CLEN[i]`, and `CBITS[i]` in the low bits, first bit most significant (R91). -/
structure Code where
  len : Nat
  bits : BitVec 64
deriving DecidableEq, Repr

/-- The Huffman unit (R91). D is the length of `syms`. Tables a stage does not hold are UNSPECIFIED and unreadable
(U10); here they are empty (log 13). -/
structure Huffman where
  stage : HStage
  syms : List HSym
  nodes : List Node
  root : Nat
  codes : List Code
  total : BitVec 64
deriving DecidableEq, Repr

/-- The unit in stage 0. -/
def Huffman.empty : Huffman := ⟨.empty, [], [], 0, [], 0#64⟩

/-! ## Inputs from outside the machine -/

/-- What the host can do to the machine (20_memory.md R170, 10_state.md R61, 70_reset_and_hazards.md R700). `size` is
the width of a port access in bytes. -/
inductive HostAction where
  | portRead (off : BitVec 12) (size : Nat)
  | portWrite (off : BitVec 12) (size : Nat) (v : Word)
  | memRead (addr : Word)
  | memWrite (addr : Word) (b : Byte)
  | resetAssert
  | resetRelease
deriving DecidableEq, Repr

/-- One input: a host action, or the host leaving the engine a turn (log 1). -/
inductive Input where
  | engineTurn
  | host (act : HostAction)
deriving DecidableEq, Repr

/-- What the last host action got back (the model's own, log 1). -/
inductive Reply where
  | none
  | data (v : Word)
  | byte (b : Byte)
  | written
  | portError
  | noResponse
deriving DecidableEq, Repr

/-! ## The state -/

/-- The machine's state. The last three fields are the model's own (logs 1 and 5). -/
structure State where
  /-- Matrix registers; `none` is `valid = 0` (R50, log 12). -/
  mregs : Vector (Option Mat) 8
  /-- Scalar registers (R53). -/
  sregs : Vector F64 4
  cfg : Csr
  status : Status
  /-- CUR, the value CMD reads (R67, R92). -/
  cmd : Word
  cmdcnt : Word
  errRec : ErrRec
  /-- RES0 to RES3 (R71). -/
  res : Vector Word 4
  /-- HBITS_HI and HBITS_LO (R74). -/
  hbits : BitVec 64
  pq : PQueue
  huff : Huffman
  mem : Memory
  /-- The platform's `mem_ok` (R153), as the ranges that do not answer an engine access. No step changes it. -/
  holes : List Region
  /-- The ranges the platform maps to devices with read side effects (R158). No step changes it. -/
  devices : List Region
  /-- The level of the reset input (R700). -/
  resetPin : Bool
  /-- Inputs not yet taken, oldest first. -/
  inbox : List Input
  reply : Reply
  /-- How many free values have been drawn. -/
  freeIdx : Nat
deriving DecidableEq, Repr

/-- No fault: nothing in the spec stops this machine. The engine's errors (60_exceptions.md R600) are next states. -/
inductive Fault where
deriving DecidableEq, Repr

/-- Why a step has no meaning. -/
inductive Refusal where
  /-- A command without a meaning yet, by its mnemonic; raised by an arm of `exec` only. Safe. No arm raises it. -/
  | notModelled (mnemonic : String)
  /-- The host writes a byte the running command reads or writes, while BUSY is 1. The spec gives such a host no move
  in the model (R170, U6). Raised by the host's memory writes only, never by a command. Safe. -/
  | hostTouchesRunning (addr : Nat)
deriving DecidableEq, Repr

/-! ## Errors of a command -/

/-- The error codes of R600. -/
inductive ErrCode where
  | illegal | dim | index | empty | uninit | shape | imgdim | qzero | bus | pqfull | symcap | seq | houtcap
  | codelen | nosym
deriving DecidableEq, Repr

/-- A raised error: what the error entry records (R601), the output regions it leaves UNSPECIFIED (`dirty`, R261), all
the output regions the command has (`outs`, 20_memory.md R171), whether it leaves the priority queue empty
(43_huffman.md R470), and how many free values the command had drawn (log 20). -/
structure Raise where
  code : ErrCode
  addr : Word
  info : Word
  dirty : List Region
  outs : List Region
  emptiesQueue : Bool
  drawn : Nat
deriving DecidableEq, Repr

/-! ## Reset (R95) -/

/-- The configuration registers after reset. -/
def Csr.reset : Csr where
  rnd := false
  pqmax := false
  htie := false
  doneIe := false
  errIe := false
  arg0 := 0#32
  arg1 := 0#32
  imgDim := 0#32
  imgSrc := 0#32
  zzDst := 0#32
  tqDst := 0#32
  recDst := 0#32
  hinAddr := 0#32
  hinLen := 0#32
  htabDst := 0#32
  houtDst := 0#32
  houtCap := 0#32
  qtab := Config.qtabReset

/-- The machine right after reset (R95). Memory, the platform's holes and devices, the reset input and the model's own
fields are DESIGN CHOICES (logs 1, 3, 4, 5, 16, 20). -/
def State.reset : State where
  mregs := Vector.replicate 8 none
  sregs := Vector.replicate 4 0#64
  cfg := Csr.reset
  status := ⟨false, false, false, false, false⟩
  cmd := 0#32
  cmdcnt := 0#32
  errRec := ⟨0#32, 0#32, 0#32⟩
  res := Vector.replicate 4 0#32
  hbits := 0#64
  pq := PQueue.empty
  huff := Huffman.empty
  mem := []
  holes := []
  devices := []
  resetPin := false
  inbox := []
  reply := .none
  freeIdx := 0

end Sys2Proof.Machine
end

