-- ==== Sys2Proof/Machine/Float.lean ====
section
/-! DEFINITION. IEEE 754 binary64 arithmetic, comparisons and conversions (41_matrix.md R300 to R306, R323 to R325;
00_scope.md R17). Every finite value is an integer number of units of 2^-1074, so each operation is computed exactly on
natural numbers and rounded once, by `packMag`. -/

namespace Sys2Proof.Machine

/-! ## The fields of a binary64 -/

def fSign (x : F64) : Bool := x.msb

/-- The biased exponent, bits 62:52. -/
def fExp (x : F64) : Nat := x.toNat / 2 ^ 52 % 2048

/-- The fraction, bits 51:0. -/
def fFrac (x : F64) : Nat := x.toNat % 2 ^ 52

def fIsNaN (x : F64) : Bool := fExp x == 2047 && fFrac x != 0
def fIsInf (x : F64) : Bool := fExp x == 2047 && fFrac x == 0
def fIsFinite (x : F64) : Bool := fExp x != 2047

/-- Either zero. -/
def fIsZero (x : F64) : Bool := fExp x == 0 && fFrac x == 0

/-- The magnitude of a finite value in units of 2^-1074. -/
def fMag (x : F64) : Nat :=
  if fExp x = 0 then fFrac x else (2 ^ 52 + fFrac x) * 2 ^ (fExp x - 1)

/-- The signed value of a finite binary64 in units of 2^-1074. -/
def fVal (x : F64) : Int := if fSign x then -(fMag x : Int) else fMag x

/-- One, in units of 2^-1074. -/
def fUnit : Nat := 2 ^ 1074

/-- Bits 62:0 of an infinity. -/
def infMag : Nat := 2047 * 2 ^ 52

/-- The canonical NaN (R301). -/
def qNaN : F64 := 0x7FF8000000000000#64

/-- A value from its sign and bits 62:0. -/
def ofSignMag (sgn : Bool) (m : Nat) : F64 := BitVec.ofNat 64 ((if sgn then 2 ^ 63 else 0) + m)

def fInf (sgn : Bool) : F64 := ofSignMag sgn infMag
def fZero (sgn : Bool) : F64 := ofSignMag sgn 0

/-! ## Rounding -/

/-- `q`, or `q + 1` when the remainder `r` of a division by `d` is over the half, or is the half and `q` is odd. -/
def tieEven (q r d : Nat) : Nat := if d < 2 * r ∨ (2 * r = d ∧ q % 2 = 1) then q + 1 else q

/-- Bits 62:0 of the binary64 nearest to `num / den` units of 2^-1074, ties to even, overflow to infinity, subnormals
kept (R300). `k` is the position of the last of the 53 significant bits, 0 in the subnormal range. -/
def packMag (num den : Nat) : Nat :=
  let k := Nat.log2 (num / den) - 52
  let d := den * 2 ^ k
  min (k * 2 ^ 52 + tieEven (num / d) (num % d) d) infMag

/-- `num / den` units of 2^-1074 with the sign `sgn`, rounded once. -/
def roundRat (sgn : Bool) (num den : Nat) : F64 := ofSignMag sgn (packMag num den)

/-- The integer `n` as a binary64 (`f64`, R17). -/
def f64 (n : Int) : F64 := roundRat (n < 0) (n.natAbs * fUnit) 1

/-! ## Arithmetic (R300 to R304) -/

/-- The exact sum rounded once; an exact zero sum is +0 unless both operands are negative (R303). -/
def addFinite (x y : F64) : F64 :=
  let v := fVal x + fVal y
  if v = 0 then fZero (fSign x && fSign y) else roundRat (v < 0) v.natAbs 1

/-- IEEE 754 addition (R300, R301, R303). -/
def fadd (x y : F64) : F64 :=
  if fIsNaN x || fIsNaN y then qNaN
  else if fIsInf x then (if fIsInf y && fSign x != fSign y then qNaN else x)
  else if fIsInf y then y
  else addFinite x y

/-- The value with its sign bit inverted. -/
def fneg (x : F64) : F64 := x ^^^ 0x8000000000000000#64

/-- IEEE 754 subtraction: addition of the negated subtrahend (R300, R302, R303). -/
def fsub (x y : F64) : F64 := fadd x (fneg y)

/-- IEEE 754 multiplication (R300 to R303). -/
def fmul (x y : F64) : F64 :=
  let sgn := fSign x != fSign y
  if fIsNaN x || fIsNaN y then qNaN
  else if fIsInf x || fIsInf y then (if fIsZero x || fIsZero y then qNaN else fInf sgn)
  else roundRat sgn (fMag x * fMag y) fUnit

/-- IEEE 754 division (R300 to R302). -/
def fdiv (x y : F64) : F64 :=
  let sgn := fSign x != fSign y
  if fIsNaN x || fIsNaN y then qNaN
  else if fIsInf x then (if fIsInf y then qNaN else fInf sgn)
  else if fIsInf y then fZero sgn
  else if fIsZero y then (if fIsZero x then qNaN else fInf sgn)
  else roundRat sgn (fMag x * fUnit) (fMag y)

/-- The sign bit cleared, a NaN's other bits kept (R304). -/
def fabs (x : F64) : F64 := x &&& 0x7FFFFFFFFFFFFFFF#64

/-! ## Comparisons (R305) -/

/-- The order of the non-NaN values: bits 62:0 with the sign applied. Both zeros have key 0. -/
def fKey (x : F64) : Int :=
  let m : Int := x.toNat % 2 ^ 63
  if fSign x then -m else m

def flt (x y : F64) : Bool := !fIsNaN x && !fIsNaN y && decide (fKey x < fKey y)
def fgt (x y : F64) : Bool := flt y x
def feq (x y : F64) : Bool := !fIsNaN x && !fIsNaN y && decide (fKey x = fKey y)

/-- Greater or equal, of the range tests of R324 and R325. -/
def fge (x y : F64) : Bool := fgt x y || feq x y

/-! ## Conversions (R323 to R325) -/

/-- The integer nearest to `r / d` above the whole part `q`; at a tie the even one, or with `rm` (half away from zero)
the larger. -/
def roundHalf (rm : Bool) (q r d : Nat) : Nat :=
  if rm then (if d ≤ 2 * r then q + 1 else q) else tieEven q r d

/-- The magnitude of a finite value rounded to an integer. -/
def roundedMag (x : F64) (rm : Bool) : Nat := roundHalf rm (fMag x / fUnit) (fMag x % fUnit) fUnit

/-- Round to an integral binary64 (R323). `rm` is CTRL.RND. -/
def roundInt (x : F64) (rm : Bool) : F64 :=
  if fIsNaN x then qNaN
  else if fIsInf x || fIsZero x then x
  else roundRat (fSign x) (roundedMag x rm * fUnit) 1

/-- The integer part of a finite value, toward zero. -/
def fTrunc (x : F64) : Int :=
  if fSign x then -((fMag x / fUnit : Nat) : Int) else ((fMag x / fUnit : Nat) : Int)

/-- Conversion to `i16`, saturating, NaN to 0 (R324). -/
def toI16 (x : F64) (rm : Bool) : Half :=
  let y := roundInt x rm
  if fIsNaN y then 0#16
  else if fge y (f64 32767) then 0x7FFF#16
  else if fge (f64 (-32768)) y then 0x8000#16
  else BitVec.ofInt 16 (fTrunc y)

/-- Conversion to `u8`, clamped and truncated, NaN to 0 (R325). -/
def clampByte (x : F64) : Byte :=
  if fIsNaN x || fge (f64 0) x then 0#8
  else if fge x (f64 255) then 255#8
  else BitVec.ofInt 8 (fTrunc x)

end Sys2Proof.Machine
end

