-- ==== Sys2Proof/Machine/Mat.lean ====
section
/-! DEFINITION. Operations on matrix values (41_matrix.md), the zigzag order (R332) and the basis ROM
(42_transform.md R401). -/

namespace Sys2Proof.Machine

/-- Element (r, c), 0-based, of the row-major elements. -/
def Mat.get (m : Mat) (r c : Nat) : F64 := m.e.getD (r * m.w + c) 0#64

/-- The `h` by `w` matrix with element `f r c` at (r, c). -/
def Mat.ofFn (h w : Nat) (f : Nat → Nat → F64) : Mat :=
  ⟨h, w, (List.range (h * w)).map fun k => f (k / w) (k % w)⟩

/-- One element replaced (R315). -/
def Mat.set (m : Mat) (r c : Nat) (v : F64) : Mat := { m with e := m.e.set (r * m.w + c) v }

/-- Elementwise image. -/
def Mat.map (f : F64 → F64) (m : Mat) : Mat := Mat.ofFn m.h m.w fun r c => f (m.get r c)

/-- Elementwise image of two matrices of one shape. -/
def Mat.zip (f : F64 → F64 → F64) (a b : Mat) : Mat :=
  Mat.ofFn a.h a.w fun r c => f (a.get r c) (b.get r c)

/-- The transpose, bit for bit (R326). -/
def Mat.trans (m : Mat) : Mat := Mat.ofFn m.w m.h fun r c => m.get c r

/-- One element of the product: from +0.0, the rounded products added for rising `k` (R322). -/
def dotProd (a b : Mat) (n i j : Nat) : F64 :=
  (List.range n).foldl (fun s k => fadd s (fmul (a.get i k) (b.get k j))) (0#64)

/-- The product of two `n` by `n` matrices (R322). -/
def mprod (a b : Mat) (n : Nat) : Mat := Mat.ofFn n n (dotProd a b n)

/-- The row-major scan of R329 and R330: the first element, replaced by each later one that `before` it. -/
def Mat.scan (before : F64 → F64 → Bool) (m : Mat) : F64 :=
  match m.e with
  | [] => 0#64
  | x :: rest => rest.foldl (fun best y => if before y best then y else best) x

/-- The cells of an `h` by `w` matrix in row-major order (R18). -/
def cells (h w : Nat) : List (Nat × Nat) := (List.range (h * w)).map fun k => (k / w, k % w)

/-- Exact equality: one shape and every pair of elements equal (R331). -/
def Mat.sameValue (a b : Mat) : Bool :=
  a.h == b.h && a.w == b.w && (cells a.h a.w).all fun rc => feq (a.get rc.1 rc.2) (b.get rc.1 rc.2)

/-! ## The zigzag order (R332) -/

/-- `ZZ[i]`: the natural index 8 * row + col of the cell visited at position `i`. -/
def zzTable : List Nat :=
  [0, 1, 8, 16, 9, 2, 3, 10] ++ [17, 24, 32, 25, 18, 11, 4, 5] ++ [12, 19, 26, 33, 40, 48, 41, 34] ++
  [27, 20, 13, 6, 7, 14, 21, 28] ++ [35, 42, 49, 56, 57, 50, 43, 36] ++ [29, 22, 15, 23, 30, 37, 44, 51] ++
  [58, 59, 52, 45, 38, 31, 39, 46] ++ [53, 60, 61, 54, 47, 55, 62, 63]

def zz (i : Nat) : Nat := zzTable.getD i 0

/-- The zigzag read of an 8 by 8 matrix (R333). -/
def Mat.zigzag (m : Mat) : Mat := Mat.ofFn 8 8 fun r c => m.get (zz (8 * r + c) / 8) (zz (8 * r + c) % 8)

/-! ## The basis ROM (42_transform.md R401) -/

/-- The magnitudes by index `m`; index 0 is `d`. -/
def basisMag : List F64 :=
  [0x3FD6A09E667F3BCD#64, 0x3FDF6297CFF75CB0#64, 0x3FDD906BCF328D46#64, 0x3FDA9B66290EA1A3#64] ++
  [0x3FD6A09E667F3BCD#64, 0x3FD1C73B39AE68C8#64, 0x3FC87DE2A6AEA963#64, 0x3FB8F8B83C69A60B#64]

/-- `BASIS[k][n]`: row frequency `k`, column sample `n`, by the sign and magnitude table of R401. -/
def basisEntry (k n : Nat) : F64 :=
  let mag (m : Nat) : F64 := basisMag.getD m 0#64
  let j := (2 * n + 1) * k % 32
  if k = 0 then mag 0
  else if j ≤ 8 then mag j
  else if j ≤ 16 then fneg (mag (16 - j))
  else if j ≤ 24 then fneg (mag (j - 16))
  else mag (32 - j)

/-- The ROM. -/
def basis : Mat := Mat.ofFn 8 8 basisEntry

/-- Its transpose. -/
def basisT : Mat := basis.trans

end Sys2Proof.Machine
end

