-- ==== Sys2Proof/Machine/Ops.lean ====
section
/-! DEFINITION. The named operations on memory and registers, the completion of a command (40_command.md R258), the
error entry (60_exceptions.md R610), free values for output regions (20_memory.md R171, 40_command.md R261), and reset
(70_reset_and_hazards.md R700, R702). -/

namespace Sys2Proof.Machine

/-! ## System memory (20_memory.md) -/

/-- The byte at an address. -/
def Memory.read : Memory → Nat → Byte
  | [], _ => Memory.unlisted
  | (k, b) :: t, a => if k = a then b else Memory.read t a

/-- One byte stored, in canonical form. -/
def Memory.write : Memory → Nat → Byte → Memory
  | [], a, b => if b = Memory.unlisted then [] else [(a, b)]
  | (k, c) :: t, a, b =>
    if a < k then (if b = Memory.unlisted then (k, c) :: t else (a, b) :: (k, c) :: t)
    else if a = k then (if b = Memory.unlisted then t else (a, b) :: t)
    else (k, c) :: Memory.write t a b

/-- The `n` bytes from `a` up as a little-endian integer (R155). -/
def Memory.readLE (m : Memory) (a : Nat) : Nat → Nat
  | 0 => 0
  | n + 1 => (m.read a).toNat + 256 * Memory.readLE m (a + 1) n

/-- The `n` low bytes of `v` stored from `a` up, least significant first (R155). -/
def Memory.writeLE (m : Memory) (a v : Nat) : Nat → Memory
  | 0 => m
  | n + 1 => Memory.writeLE (m.write a (BitVec.ofNat 8 v)) (a + 1) (v / 256) n

/-- An address lies in a region. -/
def Region.has (r : Region) (a : Nat) : Bool := r.base ≤ a && a < r.base + r.len

/-- `mem_ok`, with the top of the address space: the byte answers an engine access (R153). -/
def memOk (holes : List Region) (a : Nat) : Bool :=
  a < Config.addrTop && !(holes.any fun r => r.has a)

/-- The first of the `n` bytes from `a` up that does not answer (R153). -/
def firstBad (holes : List Region) (a : Nat) : Nat → Option Nat
  | 0 => none
  | n + 1 => if memOk holes a then firstBad holes (a + 1) n else some a

/-! ## Raising an error (00_scope.md R16, 60_exceptions.md R600, R601) -/

/-- `ERRCODE.CODE` (R600). -/
def ErrCode.toByte : ErrCode → Byte
  | .illegal => 0x01#8
  | .dim => 0x02#8
  | .index => 0x03#8
  | .empty => 0x04#8
  | .uninit => 0x05#8
  | .shape => 0x06#8
  | .imgdim => 0x07#8
  | .qzero => 0x08#8
  | .bus => 0x09#8
  | .pqfull => 0x0A#8
  | .symcap => 0x0B#8
  | .seq => 0x0C#8
  | .houtcap => 0x0D#8
  | .codelen => 0x0E#8
  | .nosym => 0x0F#8

/-- An error that records only `info`. -/
def Raise.plain (c : ErrCode) (info : Word) : Raise := ⟨c, 0#32, info, [], [], false, 0⟩

/-- `BUS` at byte `b`, while element `idx` was being moved (R153, R601). -/
def Raise.bus (write : Bool) (b idx : Nat) : Raise :=
  ⟨.bus, BitVec.ofNat 32 b, BitVec.ofNat 32 ((if write then 2 ^ 31 else 0) + idx % 2 ^ 31), [], [],
    false, 0⟩

/-- The same error of a command with these output regions, leaving them UNSPECIFIED (R261). -/
def Raise.withDirty (rs : List Region) (r : Raise) : Raise := { r with dirty := rs, outs := rs }

/-- The same error of a command with these output regions, leaving them as they are, as 40_command.md R260
and 43_huffman.md R463 state. -/
def Raise.sparing (rs : List Region) (r : Raise) : Raise := { r with dirty := [], outs := rs }

/-- The same error, leaving the priority queue empty (43_huffman.md R470). -/
def Raise.emptying (r : Raise) : Raise := { r with emptiesQueue := true }

/-- The same error, after the command has drawn `n` free values. -/
def Raise.drawing (n : Nat) (r : Raise) : Raise := { r with drawn := n }

/-- A byte tuple, `b3` in bits 31:24 (R601). -/
def tuple4 (b3 b2 b1 b0 : Nat) : Word :=
  BitVec.ofNat 8 b3 ++ BitVec.ofNat 8 b2 ++ BitVec.ofNat 8 b1 ++ BitVec.ofNat 8 b0

/-! ## Engine accesses (00_scope.md R15) -/

/-- One access: its first byte, its width in bytes, and the element index `BUS` records. -/
structure Access where
  addr : Nat
  size : Nat
  idx : Nat
deriving DecidableEq, Repr

/-- One element stored: its access and its value. -/
structure Store where
  acc : Access
  val : Nat
deriving DecidableEq, Repr

/-- The bytes of an access. -/
def Access.region (x : Access) : Region := ⟨x.addr, x.size⟩

/-- `MemRead` of each access in order, stopping at the first that raises `BUS`. -/
def loadAll (holes : List Region) (m : Memory) : List Access → Except Raise (List Nat)
  | [] => .ok []
  | x :: t =>
    match firstBad holes x.addr x.size with
    | some b => .error (Raise.bus false b x.idx)
    | none => (loadAll holes m t).map fun vs => m.readLE x.addr x.size :: vs

/-- `MemWrite` of each store in order, stopping at the first that raises `BUS`. -/
def storeAll (holes : List Region) : List Store → Memory → Except Raise Memory
  | [], m => .ok m
  | x :: t, m =>
    match firstBad holes x.acc.addr x.acc.size with
    | some b => .error (Raise.bus true b x.acc.idx)
    | none => storeAll holes t (m.writeLE x.acc.addr x.val x.acc.size)

/-! ## Register writes -/

def State.setM (s : State) (d : MReg) (m : Mat) : State :=
  { s with mregs := s.mregs.set d.val (some m) d.isLt }

def State.setS (s : State) (k : SReg) (v : F64) : State := { s with sregs := s.sregs.set k.val v k.isLt }

def State.setRes (s : State) (k : Fin 4) (v : Word) : State := { s with res := s.res.set k.val v k.isLt }

def State.setMem (s : State) (m : Memory) : State := { s with mem := m }

def State.setPq (s : State) (q : PQueue) : State := { s with pq := q }

def State.setHuff (s : State) (u : Huffman) : State := { s with huff := u }

def State.setHbits (s : State) (b : BitVec 64) : State := { s with hbits := b }

/-! ## Free values in output regions -/

/-- `n` free values are drawn. -/
def State.draw (s : State) (n : Nat) : State := { s with freeIdx := s.freeIdx + n }

/-- Each byte of a range takes a free value, whether or not it answers an engine access (R171, R261, U1; log 5).
Addresses from 2^32 on name no byte (R150). -/
def State.havocFrom (s : State) (a : Nat) : Nat → State
  | 0 => s
  | n + 1 =>
    let t := if a < Config.addrTop then
        { s with mem := s.mem.write a (Config.freeByte s.freeIdx), freeIdx := s.freeIdx + 1 }
      else s
    State.havocFrom t (a + 1) n

/-- Every byte of the regions becomes UNSPECIFIED. -/
def State.havoc (s : State) (rs : List Region) : State :=
  rs.foldl (fun t r => t.havocFrom r.base r.len) s

/-- Two regions share a byte. -/
def Region.overlaps (r q : Region) : Bool :=
  0 < r.len && 0 < q.len && r.base < q.base + q.len && q.base < r.base + r.len

/-- A byte of an output region lies in another region of the command, input or output (R171). -/
def regionsClash : List Region → List Region → Bool
  | [], _ => false
  | o :: os, ins => ins.any o.overlaps || os.any o.overlaps || regionsClash os ins

/-- What a command that stores to memory has done: the state its pseudocode leaves, its regions (R171), and whether it
read from a device (R158). -/
structure Written where
  state : State
  ins : List Region
  outs : List Region
  device : Bool
deriving DecidableEq, Repr

/-- With a clash among the regions, or a device read, every output byte is UNSPECIFIED after the command ends
(R171, U2; R158, U8). -/
def Written.settle (w : Written) : State :=
  if w.device || regionsClash w.outs w.ins then w.state.havoc w.outs else w.state

/-! ## Devices with read side effects (20_memory.md R158, U8; log 20) -/

/-- A byte of these input regions lies on a device. -/
def State.onDevice (s : State) (ins : List Region) : Bool := ins.any fun r => s.devices.any r.overlaps

/-- `m` with the bytes of a range as a device answers them in draw `k`. -/
def Memory.answeredFrom (k : Nat) (m : Memory) (a : Nat) : Nat → Memory
  | 0 => m
  | n + 1 => Memory.answeredFrom k (m.write a (Config.deviceByte k a)) (a + 1) n

/-- What pass `k` of a command over its input regions reads: memory `m`, or, on a device, free bytes. -/
def State.readView (s : State) (m : Memory) (ins : List Region) (k : Nat) : Memory :=
  if s.onDevice ins then ins.foldl (fun t r => t.answeredFrom (s.freeIdx + k) r.base r.len) m else m

/-- The listed RES registers take free words. -/
def State.freeRes (s : State) (ks : List (Fin 4)) : State :=
  ks.foldl (fun t k => (t.setRes k (Config.freeWord t.freeIdx)).draw 1) s

/-- HBITS takes a free value. -/
def State.freeHbits (s : State) : State := (s.setHbits (Config.freeWide s.freeIdx 0)).draw 1

/-- The RES registers a command has written, when it read a device in `n` passes: free words. -/
def State.resultsOf (s : State) (device : Bool) (n : Nat) (ks : List (Fin 4)) : State :=
  if device then (s.draw n).freeRes ks else s

/-! ## How a command ends (40_command.md R257 to R259) -/

/-- Completion: CMDCNT counts, DONE is set and BUSY cleared (R258). -/
def State.complete (s : State) : State :=
  { s with cmdcnt := s.cmdcnt + 1#32, status := { s.status with done := true, busy := false } }

/-- The OP values of the Huffman commands (30_encoding.md R210). -/
def isHuffmanOp (op : Byte) : Bool := 0x50#8 ≤ op && op ≤ 0x54#8

/-- The error entry (60_exceptions.md R610), with the Huffman clear (43_huffman.md R470) and the output regions left
UNSPECIFIED (R261). -/
def State.errorEntry (s : State) (r : Raise) : State :=
  let t := (s.draw r.drawn).havoc r.dirty
  { t with
    errRec := ⟨0#16 ++ s.cmd.extractLsb' 0 8 ++ r.code.toByte, r.addr, r.info⟩
    huff := if r.code != .illegal && isHuffmanOp (s.cmd.extractLsb' 0 8) then Huffman.empty else s.huff
    pq := if r.emptiesQueue then PQueue.empty else s.pq
    status := { s.status with err := true, busy := false } }

/-- A command ends in completion or in the error entry. On an error the registers are those before the command
(R256, R261). -/
def State.finish (s : State) : Except Raise State → Host.Outcome State Fault Refusal
  | .ok t => .next t.complete
  | .error r => .next (s.errorEntry r)

/-! ## Acceptance and reset -/

/-- Acceptance of a command word (R251). -/
def State.accept (s : State) (v : Word) : State := { s with cmd := v, status := { s.status with busy := true } }

/-- Every piece of the engine's state at its reset value (10_state.md R95). System memory, the platform, the reset
input, the inputs to come, the last reply and the count of free values are not the engine's. -/
def State.resetEngine (s : State) : State :=
  { State.reset with
    mem := s.mem, holes := s.holes, devices := s.devices, resetPin := s.resetPin, inbox := s.inbox, reply := s.reply,
    freeIdx := s.freeIdx }

end Sys2Proof.Machine
end

