-- ==== Sys2Proof/Machine/Operands.lean ====
section
/-! DEFINITION. Operands: reading registers, the checks of 40_command.md R260 that come before a command runs, and the
memory elements of MLOAD and MSTORE. -/

namespace Sys2Proof.Machine

/-! ## Registers -/

/-- A source matrix register; `UNINIT` with its number when invalid (R52, R308). -/
def State.readM (s : State) (a : MReg) : Except Raise Mat :=
  match s.mregs[a] with
  | some m => .ok m
  | none => .error (Raise.plain .uninit (BitVec.ofNat 32 a.val))

/-- A scalar register (R53). -/
def State.readS (s : State) (k : SReg) : F64 := s.sregs[k]

/-! ## Checks -/

/-- A check of R260 that raises unless the condition holds. -/
def need (ok : Bool) (r : Raise) : Except Raise Unit := if ok then .ok () else .error r

/-- H and W are 1 to 8 (R310, R312). -/
def checkShape (h w : Nat) : Except Raise Unit :=
  need (1 ≤ h && h ≤ 8 && 1 ≤ w && w ≤ 8) (Raise.plain .shape (BitVec.ofNat 32 (h * 16 + w)))

/-- `DIM` of a two-operand command (R308, R601). -/
def dimRaise (a b : Mat) : Raise := Raise.plain .dim (tuple4 a.h a.w b.h b.w)

/-- One shape (R308). -/
def checkSame (a b : Mat) : Except Raise Unit := need (a.h == b.h && a.w == b.w) (dimRaise a b)

/-- Two square matrices of one size (R308, R321). -/
def checkSquare (a b : Mat) : Except Raise Unit :=
  need (a.w == a.h && b.h == a.h && b.w == a.h) (dimRaise a b)

/-- An 8 by 8 operand (R308). -/
def check88 (a : Mat) : Except Raise Unit :=
  need (a.h == 8 && a.w == 8) (Raise.plain .dim (tuple4 a.h a.w 0 0))

/-- Row and column inside the matrix (R314, R315). -/
def checkIndex (m : Mat) (row col : Nat) : Except Raise Unit :=
  need (row < m.h && col < m.w) (Raise.plain .index (tuple4 row col m.h m.w))

/-- The divisor of row-major index `i` (10_state.md R80). -/
def Csr.qAt (c : Csr) (i : Nat) : Half := c.qtab.toList.getD i 0#16

/-- No entry of QTAB is 0; otherwise `QZERO` with the lowest index (42_transform.md R405). -/
def checkQ (c : Csr) : Except Raise Unit :=
  match c.qtab.toList.findIdx? (· == 0#16) with
  | some i => .error (Raise.plain .qzero (BitVec.ofNat 32 i))
  | none => .ok ()

/-- The quantization table as a matrix, `Q[r][c] = f64(QTAB[8r + c])` (00_scope.md R18). -/
def Csr.qMat (c : Csr) : Mat := Mat.ofFn 8 8 fun r col => f64 ((c.qAt (8 * r + col)).toNat : Int)

/-! ## Memory elements of MLOAD and MSTORE (20_memory.md R160, 41_matrix.md R312, R313) -/

/-- The element size in bytes. -/
def fmtSize : Fmt → Nat
  | .f64 => 8
  | .i16 => 2
  | .u8 => 1

/-- A loaded element as a binary64 (R312). -/
def fmtLoad (f : Fmt) (raw : Nat) : F64 :=
  match f with
  | .f64 => BitVec.ofNat 64 raw
  | .i16 => Machine.f64 (BitVec.ofNat 16 raw).toInt
  | .u8 => Machine.f64 ((BitVec.ofNat 8 raw).toNat : Int)

/-- A stored element's bytes as an integer (R313). -/
def fmtStore (f : Fmt) (rm : Bool) (x : F64) : Nat :=
  match f with
  | .f64 => x.toNat
  | .i16 => (toI16 x rm).toNat
  | .u8 => (clampByte x).toNat

/-- Element (r, c): base ARG0, row stride ARG1, unbounded arithmetic (R312). -/
def Csr.cell (c : Csr) (es r col : Nat) : Access :=
  ⟨c.arg0.toNat + r * c.arg1.toNat + col * es, es, 8 * r + col⟩

/-- The elements of an `h` by `w` matrix in row-major order. -/
def Csr.cellList (c : Csr) (es h w : Nat) : List Access := (cells h w).map fun rc => c.cell es rc.1 rc.2

end Sys2Proof.Machine
end

