-- ==== Sys2Proof/Machine/Flags.lean ====
section
/-! DEFINITION. The engine has no condition codes (10_state.md R55). What it has of flags are the STATUS bits, the
enables and the interrupt line, and the register words made of them (R63 to R65; 60_exceptions.md R630). -/

namespace Sys2Proof.Machine

/-- HSTAGE as a number (43_huffman.md R451). -/
def HStage.toNat : HStage → Nat
  | .empty => 0
  | .counted => 1
  | .built => 2
  | .assigned => 3

/-- The word STATUS reads: HSTAGE in bits 6:5, reserved bits 0 (R64). -/
def State.statusWord (s : State) : Word :=
  0#25 ++ BitVec.ofNat 2 s.huff.stage.toNat ++ BitVec.ofBool s.status.wrDrop ++ BitVec.ofBool s.status.cmdDrop ++
    BitVec.ofBool s.status.err ++ BitVec.ofBool s.status.done ++ BitVec.ofBool s.status.busy

/-- The word CTRL reads: SRST reads 0 (R63). -/
def Csr.ctrlWord (c : Csr) : Word :=
  0#28 ++ BitVec.ofBool c.htie ++ BitVec.ofBool c.pqmax ++ BitVec.ofBool c.rnd ++ 0#1

/-- The word IE reads (R65). -/
def Csr.ieWord (c : Csr) : Word := 0#29 ++ BitVec.ofBool c.errIe ++ BitVec.ofBool c.doneIe ++ 0#1

/-- The interrupt output (60_exceptions.md R630). -/
def State.irq (s : State) : Bool := (s.status.done && s.cfg.doneIe) || (s.status.err && s.cfg.errIe)

/-- The result MEQ writes to RES0 (R55, R331). -/
def boolWord (b : Bool) : Word := if b then 1#32 else 0#32

end Sys2Proof.Machine
end

