-- ==== Sys2Proof/Machine/Command.lean ====
section
/-! DEFINITION. The command processor's own command (40_command.md). -/

namespace Sys2Proof.Machine

/-- NOP (R270): completion and nothing else. -/
def execNop (s : State) : Host.Outcome State Fault Refusal := s.finish (.ok s)

/-- The error of an illegal command word: `ERRINFO` is the whole word (30_encoding.md R215, R255). -/
def Raise.illegal (w : Word) : Raise := Raise.plain .illegal w

end Sys2Proof.Machine
end

