-- ==== Sys2Proof/Machine/Queue.lean ====
section
/-! DEFINITION. The binary-heap priority queue and its commands (44_pqueue.md). -/

namespace Sys2Proof.Machine

/-- The order of the queue: CTRL.PQMAX and CTRL.HTIE (R501). -/
structure HeapOrder where
  maxheap : Bool
  tie : Bool
deriving DecidableEq, Repr

/-- The order the PQ commands use (R501). -/
def Csr.heapOrder (c : Csr) : HeapOrder := ⟨c.pqmax, c.htie⟩

/-- The order HBUILD uses, min-priority whatever PQMAX holds (43_huffman.md R456). -/
def Csr.huffOrder (c : Csr) : HeapOrder := ⟨false, c.htie⟩

/-- Entry `x` must leave before entry `y` (R501). -/
def better (o : HeapOrder) (x y : Entry) : Bool :=
  if x.key ≠ y.key then (if o.maxheap then y.key < x.key else x.key < y.key)
  else o.tie && x.seq < y.seq

/-- The entry at an index of the heap array. -/
def heapAt (h : List Entry) (i : Nat) : Entry := h.getD i ⟨0#32, 0#32, 0#32⟩

/-- Two entries exchanged. -/
def heapSwap (h : List Entry) (i j : Nat) : List Entry := (h.set i (heapAt h j)).set j (heapAt h i)

/-- Sift up from index `i` (R506). The first argument bounds the rounds; `i` halves in each, so `i` rounds suffice. -/
def siftUp (o : HeapOrder) : Nat → List Entry → Nat → List Entry
  | 0, h, _ => h
  | fuel + 1, h, i =>
    if i = 0 then h
    else
      let p := (i - 1) / 2
      if better o (heapAt h i) (heapAt h p) then siftUp o fuel (heapSwap h i p) p else h

/-- The child that sift down compares with: the left one unless the right one is strictly better (R506). -/
def bestChild (o : HeapOrder) (h : List Entry) (i : Nat) : Nat :=
  if 2 * i + 2 < h.length ∧ better o (heapAt h (2 * i + 2)) (heapAt h (2 * i + 1)) = true then 2 * i + 2
  else 2 * i + 1

/-- Sift down from index `i` (R506). The first argument bounds the rounds; `i` grows in each, so the length of the
heap suffices. -/
def siftDown (o : HeapOrder) : Nat → List Entry → Nat → List Entry
  | 0, h, _ => h
  | fuel + 1, h, i =>
    if h.length ≤ 2 * i + 1 then h
    else
      let c := bestChild o h i
      if better o (heapAt h c) (heapAt h i) then siftDown o fuel (heapSwap h i c) c else h

/-- `enq` (R506). -/
def PQueue.enq (o : HeapOrder) (q : PQueue) (key payload : Word) : Except Raise PQueue :=
  if q.heap.length = Config.pqCap then .error (Raise.plain .pqfull (BitVec.ofNat 32 Config.pqCap))
  else
    .ok ⟨siftUp o q.heap.length (q.heap ++ [⟨key, payload, q.seq⟩]) q.heap.length, q.seq + 1#32⟩

/-- The heap after the root leaves: the last entry moves to the root and sifts down (R506). -/
def heapPop (o : HeapOrder) (h : List Entry) : List Entry :=
  match h.dropLast with
  | [] => []
  | _ :: t => siftDown o h.length (heapAt h (h.length - 1) :: t) 0

/-- `deq` (R506): the root, and the queue without it. PQSEQ is kept (R504). -/
def PQueue.deq (o : HeapOrder) (q : PQueue) : Except Raise (Entry × PQueue) :=
  match q.heap with
  | [] => .error (Raise.plain .empty 0#32)
  | top :: _ => .ok (top, ⟨heapPop o q.heap, q.seq⟩)

/-- `peek` (R506). -/
def PQueue.peek (q : PQueue) : Except Raise Entry :=
  match q.heap with
  | [] => .error (Raise.plain .empty 0#32)
  | top :: _ => .ok top

/-! ## Commands -/

/-- PQCLR (R502). -/
def execPqclr (s : State) : Host.Outcome State Fault Refusal := s.finish (.ok (s.setPq PQueue.empty))

/-- PQENQ (R503): key ARG0, payload ARG1. -/
def execPqenq (s : State) : Host.Outcome State Fault Refusal :=
  s.finish do
    let q ← s.pq.enq s.cfg.heapOrder s.cfg.arg0 s.cfg.arg1
    .ok (s.setPq q)

/-- PQDEQ (R504): the key to RES0, the payload to RES1. -/
def execPqdeq (s : State) : Host.Outcome State Fault Refusal :=
  s.finish do
    let eq ← s.pq.deq s.cfg.heapOrder
    .ok (((s.setPq eq.2).setRes 0 eq.1.key).setRes 1 eq.1.payload)

/-- PQPEEK (R505). -/
def execPqpeek (s : State) : Host.Outcome State Fault Refusal :=
  s.finish do
    let e ← s.pq.peek
    .ok ((s.setRes 0 e.key).setRes 1 e.payload)

end Sys2Proof.Machine
end

