-- ==== Sys2Proof/Machine/Huffman.lean ====
section
/-! DEFINITION. The Huffman unit: frequency counter, tree builder, code assigner and bit emitter (43_huffman.md). -/

namespace Sys2Proof.Machine

/-! ## Symbols (R450, R452) -/

/-- The bytes of the input symbol array (20_memory.md R160). -/
def hinRegion (c : Csr) : Region := ⟨c.hinAddr.toNat, 2 * c.hinLen.toNat⟩

/-- Input symbol `j`, or `BUS` (R452). -/
def readSym (holes : List Region) (m : Memory) (c : Csr) (j : Nat) : Except Raise Half :=
  let a := c.hinAddr.toNat + 2 * j
  match firstBad holes a 2 with
  | some b => .error (Raise.bus false b j)
  | none => .ok (BitVec.ofNat 16 (m.readLE a 2))

/-- The index of a symbol in the distinct-symbol table. -/
def symIndex (syms : List HSym) (x : Half) : Option Nat := syms.findIdx? fun y => y.sym == x

/-- `SYMCAP` at symbol `j` (R452, R601). -/
def symcapRaise (c : Csr) (j : Nat) : Raise :=
  ⟨.symcap, BitVec.ofNat 32 (c.hinAddr.toNat + 2 * j), BitVec.ofNat 32 j, [], [], false, 0⟩

/-- `NOSYM` at symbol `j` (R463, R601). -/
def nosymRaise (c : Csr) (j : Nat) : Raise :=
  ⟨.nosym, BitVec.ofNat 32 (c.hinAddr.toNat + 2 * j), BitVec.ofNat 32 j, [], [], false, 0⟩

/-- One symbol counted: its count rises by 1, or it becomes a new row at the end, if there is room (R452). -/
def countSym (t : List HSym) (x : Half) : Option (List HSym) :=
  match symIndex t x with
  | some i => some (t.modify i fun y => { y with freq := y.freq + 1#32 })
  | none => if t.length = Config.nsymMax then none else some (t ++ [⟨x, 1#32⟩])

/-- `n` symbols from symbol `j` on counted into the table `t` (R452). -/
def countFrom (holes : List Region) (m : Memory) (c : Csr) : Nat → Nat → List HSym → Except Raise (List HSym)
  | 0, _, t => .ok t
  | n + 1, j, t =>
    match readSym holes m c j with
    | .error r => .error r
    | .ok x =>
      match countSym t x with
      | some t' => countFrom holes m c n (j + 1) t'
      | none => .error (symcapRaise c j)

/-- The distinct-symbol table of the whole input (R452). -/
def countSyms (holes : List Region) (m : Memory) (c : Csr) : Except Raise (List HSym) :=
  countFrom holes m c c.hinLen.toNat 0 []

/-! ## The tree (R455, R456) -/

/-- The leaves, handles 0 to D-1. -/
def leaves (syms : List HSym) : List Node := syms.map fun y => .leaf y.freq y.sym

/-- Step 2: each leaf enqueued by its count, payload its handle; `i` is the handle of the first of the list. -/
def seedQueue (o : HeapOrder) : List HSym → Nat → PQueue → Except Raise PQueue
  | [], _, q => .ok q
  | y :: t, i, q =>
    match q.enq o y.freq (BitVec.ofNat 32 i) with
    | .error r => .error r
    | .ok q' => seedQueue o t (i + 1) q'

/-- The weight of an internal node (R456): the exact sum, or a free value where it does not fit a weight (log 20). -/
def weightSum (x y : Word) : Word :=
  if x.toNat + y.toNat < 2 ^ 32 then x + y else Config.weightOverflow x y

/-- One round of step 3: the two best entries become the children of a new node, which is enqueued. -/
def mergeOnce (o : HeapOrder) (q : PQueue) (ns : List Node) : Except Raise (PQueue × List Node) := do
  let x ← q.deq o
  let y ← x.2.deq o
  let wt := weightSum x.1.key y.1.key
  let q' ← y.2.enq o wt (BitVec.ofNat 32 ns.length)
  .ok (q', ns ++ [.internal wt x.1.payload.toNat y.1.payload.toNat])

/-- Step 3: rounds while more than one entry remains. Each round takes one entry away, so as many rounds as there are
entries suffice. -/
def mergeLoop (o : HeapOrder) : Nat → PQueue → List Node → Except Raise (PQueue × List Node)
  | 0, q, ns => .ok (q, ns)
  | fuel + 1, q, ns =>
    if q.heap.length ≤ 1 then .ok (q, ns)
    else
      match mergeOnce o q ns with
      | .error r => .error r
      | .ok p => mergeLoop o fuel p.1 p.2

/-- The arena and the root handle (R456). `EMPTY` comes from the last `deq` when there is no symbol. -/
def buildTree (o : HeapOrder) (syms : List HSym) : Except Raise (List Node × Nat) := do
  let q ← seedQueue o syms 0 PQueue.empty
  let p ← mergeLoop o syms.length q (leaves syms)
  let r ← p.1.deq o
  .ok (p.2, r.1.payload.toNat)

/-! ## Codewords (R460) -/

/-- The traversal from node `h`, reached by the `len` bits of `v`: the length and bits of each leaf below it. The first
argument bounds the depth; a tree of the arena is less deep than the arena is long. -/
def assignFrom (ns : List Node) : Nat → Nat → Nat → Nat → List (Nat × Nat) → List (Nat × Nat)
  | 0, _, _, _, t => t
  | fuel + 1, h, len, v, t =>
    match ns[h]? with
    | none => t
    | some (.leaf _ _) => t.set h (len, v)
    | some (.internal _ l r) =>
      assignFrom ns fuel r (len + 1) (2 * v + 1) (assignFrom ns fuel l (len + 1) (2 * v) t)

/-- The path of each of the `d` leaves. -/
def leafPaths (ns : List Node) (root d : Nat) : List (Nat × Nat) :=
  assignFrom ns ns.length root 0 0 (List.replicate d (0, 0))

/-- The sum of count times path length, which is HTOTAL (R460). -/
def pathTotal (syms : List HSym) (paths : List (Nat × Nat)) : Nat :=
  (List.zipWith (fun (y : HSym) (p : Nat × Nat) => y.freq.toNat * p.1) syms paths).sum

/-- The codewords of the leaves' paths, or `CODELEN` with the lowest leaf whose path is too long (R460). -/
def codesOf (paths : List (Nat × Nat)) : Except Raise (List Code) :=
  match paths.findIdx? fun p => Config.maxCl < p.1 with
  | some i => .error (Raise.plain .codelen (BitVec.ofNat 32 i))
  | none => .ok (paths.map fun p => ⟨p.1, BitVec.ofNat 64 p.2⟩)

/-- The codewords of a tree (R460). -/
def assignCodes (ns : List Node) (root d : Nat) : Except Raise (List Code) := codesOf (leafPaths ns root d)

/-- HTOTAL: the sum of count times length (R460). -/
def codedTotal (syms : List HSym) (codes : List Code) : Nat :=
  (List.zipWith (fun (y : HSym) (c : Code) => y.freq.toNat * c.len) syms codes).sum

/-- The longest codeword. -/
def maxLen (codes : List Code) : Nat := (codes.map Code.len).foldl max 0

/-- The code table in memory (20_memory.md R160). -/
def tableRegion (c : Csr) (d : Nat) : Region := ⟨c.htabDst.toNat, 16 * d⟩

/-- A 16-byte record as an integer: SYM, LEN, a zero byte, FREQ, CODE (20_memory.md R162). -/
def recordVal (y : HSym) (c : Code) : Nat :=
  y.sym.toNat + 2 ^ 16 * (c.len + 2 ^ 16 * (y.freq.toNat + 2 ^ 32 * c.bits.toNat))

/-- The records in leaf order (R460). -/
def tableStores (c : Csr) (syms : List HSym) (codes : List Code) : List Store :=
  (List.zip syms codes).mapIdx fun i p => ⟨⟨c.htabDst.toNat + 16 * i, 16, i⟩, recordVal p.1 p.2⟩

/-! ## The bit sequence (R463) -/

/-- Pass 1: the leaf of each of `n` symbols from symbol `j` on. -/
def lookupFrom (holes : List Region) (m : Memory) (c : Csr) (syms : List HSym) :
    Nat → Nat → Except Raise (List Nat)
  | 0, _ => .ok []
  | n + 1, j =>
    match readSym holes m c j with
    | .error r => .error r
    | .ok x =>
      match symIndex syms x with
      | none => .error (nosymRaise c j)
      | some i => (lookupFrom holes m c syms n (j + 1)).map fun is => i :: is

/-- The bits of a codeword, most significant first. -/
def codeBits (c : Code) : List Bool := (List.range c.len).map fun t => c.bits.getLsbD (c.len - 1 - t)

/-- The whole bit sequence of a list of leaves. -/
def sequenceBits (codes : List Code) (is : List Nat) : List Bool :=
  is.flatMap fun i => codeBits (codes.getD i ⟨0, 0#64⟩)

/-- `ceil(B / 8)`. -/
def byteCount (b : Nat) : Nat := (b + 7) / 8

/-- Byte `k` of a bit sequence: bit `7 - t` is bit `8 * k + t` of the sequence, bits past its end are 0
(20_memory.md R161). -/
def sequenceByte (bits : List Bool) (k : Nat) : Nat :=
  (List.range 8).foldl (fun v t => 2 * v + (bits.getD (8 * k + t) false).toNat) 0

/-- The output region of a bit sequence of `b` bits, R160's `ceil(bits / 8)` bytes. DEDUCED (log 7): HOUT_CAP does not
cut it, so bytes past HOUT_CAP count as output region when HOUTCAP is raised. -/
def bitsRegion (c : Csr) (b : Nat) : Region := ⟨c.houtDst.toNat, byteCount b⟩

/-- The input symbols that answer, in order. -/
def answered (holes : List Region) (m : Memory) (c : Csr) : List Half :=
  (List.range c.hinLen.toNat).filterMap fun j => (readSym holes m c j).toOption

/-- The largest number of symbols D, and of bits of the sequence, that HUFF's input can give when only the symbols
`known` of it are fixed (DEDUCED, log 7). Each other symbol is then a row of its own, since splitting a row never lowers
the total of an optimal code (R471). Beyond NSYM_MAX rows the bound is a code of one length for so many rows. -/
def huffMost (c : Csr) (known : List Half) : Nat × Nat :=
  let n := c.hinLen.toNat
  let rows := (known.dedup.map fun x => (⟨x, BitVec.ofNat 32 (known.count x)⟩ : HSym)) ++
    List.replicate (n - known.length) ⟨0#16, 1#32⟩
  if rows.length ≤ Config.nsymMax then
    match buildTree c.huffOrder rows with
    | .ok t => (rows.length, pathTotal rows (leafPaths t.1 t.2 rows.length))
    | .error _ => (0, 0)
  else (Config.nsymMax, Nat.log2 Config.nsymMax * n)

/-- HUFF's output regions for `d` symbols and `b` bits, and at least for those of `least` (R466, 20_memory.md R160,
R171). -/
def huffOuts (c : Csr) (least : Nat × Nat) (d b : Nat) : List Region :=
  [tableRegion c (max d least.1), bitsRegion c (max b least.2)]

/-- The stores of pass 2. -/
def bitStores (c : Csr) (bits : List Bool) : List Store :=
  (List.range (byteCount bits.length)).map fun k => ⟨⟨c.houtDst.toNat + k, 1, k⟩, sequenceByte bits k⟩

/-- Pass 1: the bit sequence of the input (R463). Pass 2 reads the same symbols again: no write lies between the
passes. -/
def emitBits (holes : List Region) (m : Memory) (c : Csr) (syms : List HSym) (codes : List Code) :
    Except Raise (List Bool) :=
  (lookupFrom holes m c syms c.hinLen.toNat 0).map (sequenceBits codes)

/-- The largest number of bits that HEMIT's sequence can have: a symbol that has a row takes its codeword, and one that
does not answer, or is on a device, any row's (log 7). -/
def emitMost (device : Bool) (holes : List Region) (m : Memory) (c : Csr) (syms : List HSym) (codes : List Code) : Nat :=
  ((List.range c.hinLen.toNat).map fun j =>
    match if device then none else (readSym holes m c j).toOption.bind (symIndex syms) with
    | some i => (codes.getD i ⟨0, 0#64⟩).len
    | none => maxLen codes).sum

/-- `HOUTCAP`, unless `n` bytes fit (R463). -/
def checkCap (c : Csr) (n : Nat) : Except Raise Unit :=
  need (n ≤ c.houtCap.toNat) (Raise.plain .houtcap (BitVec.ofNat 32 (min n (2 ^ 32 - 1))))

/-! ## Stages (R451) -/

/-- `SEQ` with HSTAGE, unless the stage is accepted. -/
def checkStage (u : Huffman) (ok : Bool) : Except Raise Unit :=
  need ok (Raise.plain .seq (BitVec.ofNat 32 u.stage.toNat))

/-- The unit after HCOUNT. -/
def Huffman.afterCount (syms : List HSym) : Huffman := ⟨.counted, syms, [], 0, [], 0#64⟩

/-- The unit after HBUILD. -/
def Huffman.afterBuild (syms : List HSym) (ns : List Node) (root : Nat) : Huffman :=
  ⟨.built, syms, ns, root, [], 0#64⟩

/-- The unit after HASSIGN. -/
def Huffman.afterAssign (syms : List HSym) (ns : List Node) (root : Nat) (codes : List Code) : Huffman :=
  ⟨.assigned, syms, ns, root, codes, BitVec.ofNat 64 (codedTotal syms codes)⟩

/-! ## Tables from a device (20_memory.md R158, U8; log 20)

A command that reads a device with read side effects leaves any value in the tables it writes. Draw `k` gives them,
each within its type of 10_state.md R91. -/

/-- Component `c`, of 8, of row `i` of draw `k`. -/
def freePart (k i c : Nat) : BitVec 64 := Config.freeWide k (8 * i + c)

/-- The same as a number below `n`. -/
def freeBelow (k i c n : Nat) : Nat := (freePart k i c).toNat % n

/-- The rows whose symbol no later row has: SYM holds distinct symbols (R91). -/
def distinctRows : List HSym → List HSym
  | [] => []
  | y :: t => if t.any fun z => z.sym == y.sym then distinctRows t else y :: distinctRows t

/-- Any distinct-symbol table: 0 to NSYM_MAX rows before repeated symbols leave. -/
def freeSyms (k : Nat) : List HSym :=
  distinctRows ((List.range (freeBelow k 0 0 (Config.nsymMax + 1))).map fun i =>
    ⟨(freePart k i 1).extractLsb' 0 16, (freePart k i 1).extractLsb' 16 32⟩)

/-- Any node: a leaf or an internal node, of any weight, symbol and handles. -/
def freeNode (k i : Nat) : Node :=
  let v := freePart k i 2
  if v.getLsbD 0 then .leaf (v.extractLsb' 1 32) (v.extractLsb' 33 16)
  else .internal (v.extractLsb' 1 32) (freeBelow k i 3 Config.nodeMax) (freeBelow k i 4 Config.nodeMax)

/-- Any codeword of at most `n` bits: its length, and its bits in the low bits (R91). -/
def freePath (k n i : Nat) : Nat × Nat :=
  let len := freeBelow k i 5 (n + 1)
  (len, freeBelow k i 6 (2 ^ len))

/-- The unit after HCOUNT on a device. -/
def Huffman.freeCounted (k : Nat) : Huffman := Huffman.afterCount (freeSyms k)

/-- The unit after HUFF on a device: any tables, and any HTOTAL. -/
def Huffman.freeAssigned (k : Nat) : Huffman where
  stage := .assigned
  syms := freeSyms k
  nodes := (List.range (freeBelow k 1 0 (Config.nodeMax + 1))).map (freeNode k)
  root := freeBelow k 2 0 Config.nodeMax
  codes := (List.range (freeSyms k).length).map fun i =>
    let p := freePath k Config.maxCl i
    ⟨p.1, BitVec.ofNat 64 p.2⟩
  total := freePart k 3 0

/-- The child handles of the internal nodes, in arena order. -/
def childHandles (ns : List Node) : List Nat :=
  ns.flatMap fun
    | .leaf _ _ => []
    | .internal _ l r => [l, r]

/-- A node has this place in a tree of `d` leaves: a leaf first, an internal node after its children (R455). -/
def Node.placed (d i : Nat) : Node → Bool
  | .leaf _ _ => i < d
  | .internal _ l r => d ≤ i && l < i && r < i

/-- The arena is a complete tree of `d` leaves (R455), as every counted input gives (R456). -/
def isTree (ns : List Node) (root d : Nat) : Bool :=
  ns.length + 1 == 2 * d && root + 1 == ns.length && (ns.zipIdx.all fun p => p.1.placed d p.2) &&
    (childHandles ns).isPerm (List.range root)

/-- The paths of the `d` leaves of an arena that is no tree, which R460 does not state: any lengths up to NODE_MAX, and
any bits (log 20). -/
def freePaths (k d : Nat) : List (Nat × Nat) := (List.range d).map (freePath k Config.nodeMax)

/-! ## Commands -/

/-- The free values drawn, when there are any to draw: one for each pass that reads a device (log 20). -/
def drawsIf (free : Bool) (n : Nat) : Nat := if free then n else 0

/-- The pseudocode of HCOUNT (R452). -/
def bodyHcount (s : State) : Except Raise State := do
  let ins := [hinRegion s.cfg]
  let device := s.onDevice ins
  let syms ← (countSyms s.holes (s.readView s.mem ins 0) s.cfg).mapError (Raise.drawing (drawsIf device 1))
  let u := if device then Huffman.freeCounted s.freeIdx else Huffman.afterCount syms
  .ok (((s.setHuff u).setRes 0 (BitVec.ofNat 32 syms.length)).resultsOf device 1 [0])

/-- HCOUNT (R452). -/
def execHcount (s : State) : Host.Outcome State Fault Refusal := s.finish (bodyHcount s)

/-- The pseudocode of HBUILD (R456). -/
def bodyHbuild (s : State) : Except Raise State := do
  checkStage s.huff (s.huff.stage != .empty)
  let t ← buildTree s.cfg.huffOrder s.huff.syms
  .ok ((((s.setPq PQueue.empty).setHuff (Huffman.afterBuild s.huff.syms t.1 t.2)).setRes 0
    (BitVec.ofNat 32 t.2)).setRes 1 (BitVec.ofNat 32 t.1.length))

/-- HBUILD (R456). Any of its errors leaves the queue empty (R456, R470; log 11). -/
def execHbuild (s : State) : Host.Outcome State Fault Refusal := s.finish ((bodyHbuild s).mapError Raise.emptying)

/-- The pseudocode of HASSIGN (R460). Where the tables are no tree, after HUFF on a device, the paths are free values
(log 20); the rest follows from them. -/
def bodyHassign (s : State) : Except Raise Written := do
  let u := s.huff
  let d := u.syms.length
  let free := !isTree u.nodes u.root d
  let outs := [tableRegion s.cfg d]
  (checkStage u (u.stage == .built || u.stage == .assigned)).mapError (Raise.sparing outs)
  let raised := fun r => (Raise.withDirty outs r).drawing (drawsIf free 1)
  let codes ← (codesOf (if free then freePaths s.freeIdx d else leafPaths u.nodes u.root d)).mapError raised
  let mem ← (storeAll s.holes (tableStores s.cfg u.syms codes) s.mem).mapError raised
  let u' := Huffman.afterAssign u.syms u.nodes u.root codes
  let t := ((((s.setMem mem).setHuff u').setRes 0 (BitVec.ofNat 32 d)).setRes 1
    (BitVec.ofNat 32 (maxLen codes))).setRes 2 (u'.total.extractLsb' 0 32) |>.setRes 3
      (u'.total.extractLsb' 32 32)
  .ok ⟨t.draw (drawsIf free 1), [], outs, false⟩

/-- HASSIGN (R460). -/
def execHassign (s : State) : Host.Outcome State Fault Refusal := s.finish ((bodyHassign s).map Written.settle)

/-- The bit count as 64 bits (R463). -/
def bitCount (bits : List Bool) : BitVec 64 := BitVec.ofNat 64 bits.length

/-- An error of HEMIT before pass 2, with these output regions. NOSYM and HOUTCAP leave them untouched (R463). R261
leaves them UNSPECIFIED after BUS, R171 when they share a byte with the input, and R158 when the input is on a device.
DEDUCED (log 7): for that shared byte the regions are R160's, whatever HOUT_CAP holds (`bitsRegion`). -/
def emitRaise (c : Csr) (device : Bool) (outs : List Region) (r : Raise) : Raise :=
  if device || r.code == .bus || regionsClash outs [hinRegion c] then
    (r.withDirty outs).drawing (drawsIf device 1)
  else r.sparing outs

/-- HBITS, when the command read a device: a free value (20_memory.md R158). -/
def State.bitsOf (s : State) (device : Bool) : State := if device then s.freeHbits else s

/-- The pseudocode of HEMIT (R463). DEDUCED (log 7): an input with a symbol in no row has no bit sequence, so after NOSYM
there is no output region; after BUS in pass 1 it is as large as the codewords allow. -/
def bodyHemit (s : State) : Except Raise Written := do
  checkStage s.huff (s.huff.stage == .assigned)
  let c := s.cfg
  let ins := [hinRegion c]
  let device := s.onDevice ins
  let most := [bitsRegion c (emitMost device s.holes s.mem c s.huff.syms s.huff.codes)]
  let bits ← (emitBits s.holes (s.readView s.mem ins 0) c s.huff.syms s.huff.codes).mapError fun r =>
    emitRaise c device (if device || r.code == .bus then most else []) r
  let outs := if device then most else [bitsRegion c bits.length]
  (checkCap c (byteCount bits.length)).mapError (emitRaise c device outs)
  let mem ← (storeAll s.holes (bitStores c bits) s.mem).mapError fun r =>
    (r.withDirty outs).drawing (drawsIf device 1)
  let b := bitCount bits
  let t := (((s.setMem mem).setHbits b).setRes 0 (b.extractLsb' 0 32)).setRes 1 (b.extractLsb' 32 32)
  .ok ⟨(t.resultsOf device 1 [0, 1]).bitsOf device, ins, outs, device⟩

/-- HEMIT (R463). -/
def execHemit (s : State) : Host.Outcome State Fault Refusal := s.finish ((bodyHemit s).map Written.settle)

/-- An error of HUFF from its building body on, which leaves these regions UNSPECIFIED (R261) and the queue empty
(R470). -/
def huffRaise (device : Bool) (rs : List Region) (r : Raise) : Raise :=
  ((r.withDirty rs).drawing (drawsIf device 2)).emptying

/-- An error of HUFF's emitting body before pass 2. It leaves its output regions UNSPECIFIED: all (R261), but for NOSYM
and HOUTCAP only the code table, the first of them (R463), unless the regions clash (R171) or the input is on a device
(R158). DEDUCED (log 7): as in `emitRaise`, the bit sequence's region is R160's, whatever HOUT_CAP holds. -/
def huffEmitRaise (device : Bool) (ins outs : List Region) (r : Raise) : Raise :=
  let rs := if device || r.code == .bus || regionsClash outs ins then outs else outs.take 1
  { huffRaise device rs r with outs := outs }

/-- The pseudocode of HUFF (R466): the four bodies in order. The bit sequence is HTOTAL bits long until it is known
(R466), and then as long as HTOTAL or itself, whichever is longer (log 9). Until the input is counted, and on a device,
the output regions are as large as the input allows (log 7). -/
def bodyHuff (s : State) : Except Raise Written := do
  let c := s.cfg
  let ins := [hinRegion c]
  let device := s.onDevice ins
  let most := huffMost c (if device then [] else answered s.holes s.mem c)
  let syms ← (countSyms s.holes (s.readView s.mem ins 0) c).mapError fun r =>
    (r.withDirty (huffOuts c most 0 0)).drawing (drawsIf device 2)
  let t ← (buildTree c.huffOrder syms).mapError (huffRaise device [])
  let d := syms.length
  let total := pathTotal syms (leafPaths t.1 t.2 d)
  let least := if device then most else (0, 0)
  let outs := huffOuts c least d total
  let codes ← (assignCodes t.1 t.2 d).mapError (huffRaise device outs)
  let mem1 ← (storeAll s.holes (tableStores c syms codes) s.mem).mapError (huffRaise device outs)
  let bits ← (emitBits s.holes (s.readView mem1 ins 1) c syms codes).mapError
    (huffEmitRaise device ins outs)
  let outs2 := huffOuts c least d (max total bits.length)
  (checkCap c (byteCount bits.length)).mapError (huffEmitRaise device ins outs2)
  let mem2 ← (storeAll s.holes (bitStores c bits) mem1).mapError (huffRaise device outs2)
  let b := bitCount bits
  let h := if device then Huffman.freeAssigned s.freeIdx else Huffman.afterAssign syms t.1 t.2 codes
  let u := (((s.setMem mem2).setPq PQueue.empty).setHuff h).setHbits b
  let v := ((u.setRes 0 (BitVec.ofNat 32 d)).setRes 1 (BitVec.ofNat 32 (maxLen codes))).setRes 2
    (b.extractLsb' 0 32) |>.setRes 3 (b.extractLsb' 32 32)
  .ok ⟨(v.resultsOf device 2 [0, 1, 2, 3]).bitsOf device, ins, outs2, device⟩

/-- HUFF (R466). -/
def execHuff (s : State) : Host.Outcome State Fault Refusal := s.finish ((bodyHuff s).map Written.settle)

end Sys2Proof.Machine
end

