-- ==== Sys2Proof/Machine/Matrix.lean ====
section
/-! DEFINITION. The matrix unit's commands (41_matrix.md). Each reads its operands, runs its checks in the order of
40_command.md R260, and writes its destination only at completion (R256). -/

namespace Sys2Proof.Machine

/-! ## Shared shapes of command -/

/-- A command from one matrix register to another, without a shape law. -/
def State.unary (s : State) (d a : MReg) (f : Mat → Mat) : Except Raise State := do
  let m ← s.readM a
  .ok (s.setM d (f m))

/-- An elementwise command of two matrices of one shape (R317). -/
def State.elementwise (s : State) (d a b : MReg) (f : F64 → F64 → F64) : Except Raise State := do
  let ma ← s.readM a
  let mb ← s.readM b
  checkSame ma mb
  .ok (s.setM d (ma.zip f mb))

/-- A command that broadcasts a scalar register, the matrix element first (R340). -/
def State.broadcast (s : State) (d a : MReg) (k : SReg) (f : F64 → F64 → F64) : Except Raise State :=
  s.unary d a fun m => m.map fun x => f x (s.readS k)

/-- A reduction of a matrix to a scalar register (R329). -/
def State.reduce (s : State) (k : SReg) (a : MReg) (before : F64 → F64 → Bool) : Except Raise State := do
  let m ← s.readM a
  .ok (s.setS k (m.scan before))

/-! ## Construction, load, store and element access -/

/-- MZERO (R310). -/
def execMzero (d : MReg) (h w : Nat) (s : State) : Host.Outcome State Fault Refusal :=
  s.finish do
    checkShape h w
    .ok (s.setM d (Mat.ofFn h w fun _ _ => 0#64))

/-- MLOAD's input regions: the bytes of each element (20_memory.md R160). -/
def mloadIns (c : Csr) (f : Fmt) (h w : Nat) : List Region := (c.cellList (fmtSize f) h w).map Access.region

/-- The matrix of free values that a load from a device gives (20_memory.md R158). -/
def freeMat (k h w : Nat) : Mat := ⟨h, w, (List.range (h * w)).map (Config.freeWide k)⟩

/-- The pseudocode of MLOAD (R312). -/
def bodyMload (d : MReg) (h w : Nat) (f : Fmt) (s : State) : Except Raise State := do
  checkShape h w
  let raw ← loadAll s.holes s.mem (s.cfg.cellList (fmtSize f) h w)
  .ok (if s.onDevice (mloadIns s.cfg f h w) then (s.setM d (freeMat s.freeIdx h w)).draw 1
    else s.setM d ⟨h, w, raw.map (fmtLoad f)⟩)

/-- MLOAD (R312). -/
def execMload (d : MReg) (h w : Nat) (f : Fmt) (s : State) : Host.Outcome State Fault Refusal :=
  s.finish (bodyMload d h w f s)

/-- The element stores of MSTORE (R313). -/
def mstoreList (c : Csr) (f : Fmt) (m : Mat) : List Store :=
  (cells m.h m.w).map fun rc => ⟨c.cell (fmtSize f) rc.1 rc.2, fmtStore f c.rnd (m.get rc.1 rc.2)⟩

/-- MSTORE's output regions: the bytes of each element (20_memory.md R160, R171). -/
def mstoreOuts (c : Csr) (f : Fmt) (m : Mat) : List Region := (c.cellList (fmtSize f) m.h m.w).map Access.region

/-- The pseudocode of MSTORE (R313). With an invalid source its output regions have no size; their bound is that of an 8
by 8 matrix (log 18). -/
def bodyMstore (a : MReg) (f : Fmt) (s : State) : Except Raise Written := do
  let m ← (s.readM a).mapError (Raise.sparing (mstoreOuts s.cfg f ⟨8, 8, []⟩))
  let outs := mstoreOuts s.cfg f m
  let mem ← (storeAll s.holes (mstoreList s.cfg f m) s.mem).mapError (Raise.withDirty outs)
  .ok ⟨s.setMem mem, [], outs, false⟩

/-- MSTORE (R313). -/
def execMstore (a : MReg) (f : Fmt) (s : State) : Host.Outcome State Fault Refusal :=
  s.finish ((bodyMstore a f s).map Written.settle)

/-- MGET (R314). -/
def execMget (k : SReg) (a : MReg) (row col : Nat) (s : State) : Host.Outcome State Fault Refusal :=
  s.finish do
    let m ← s.readM a
    checkIndex m row col
    .ok (s.setS k (m.get row col))

/-- MSET (R315): the one command that reads its destination. -/
def execMset (d : MReg) (k : SReg) (row col : Nat) (s : State) : Host.Outcome State Fault Refusal :=
  s.finish do
    let m ← s.readM d
    checkIndex m row col
    .ok (s.setM d (m.set row col (s.readS k)))

/-- MMOV (R316). -/
def execMmov (d a : MReg) (s : State) : Host.Outcome State Fault Refusal :=
  s.finish (s.unary d a fun m => m)

/-! ## Matrix-matrix arithmetic -/

/-- MADD (R317). -/
def execMadd (d a b : MReg) (s : State) : Host.Outcome State Fault Refusal := s.finish (s.elementwise d a b fadd)

/-- MSUB (R318). -/
def execMsub (d a b : MReg) (s : State) : Host.Outcome State Fault Refusal := s.finish (s.elementwise d a b fsub)

/-- MDIV (R319). -/
def execMdiv (d a b : MReg) (s : State) : Host.Outcome State Fault Refusal := s.finish (s.elementwise d a b fdiv)

/-- MEMUL (R320). -/
def execMemul (d a b : MReg) (s : State) : Host.Outcome State Fault Refusal := s.finish (s.elementwise d a b fmul)

/-- MMUL (R321). -/
def execMmul (d a b : MReg) (s : State) : Host.Outcome State Fault Refusal :=
  s.finish do
    let ma ← s.readM a
    let mb ← s.readM b
    checkSquare ma mb
    .ok (s.setM d (mprod ma mb ma.h))

/-! ## Matrix-scalar arithmetic -/

/-- MADDS (R340). -/
def execMadds (d a : MReg) (k : SReg) (s : State) : Host.Outcome State Fault Refusal :=
  s.finish (s.broadcast d a k fadd)

/-- MSUBS (R341): the matrix is the minuend. -/
def execMsubs (d a : MReg) (k : SReg) (s : State) : Host.Outcome State Fault Refusal :=
  s.finish (s.broadcast d a k fsub)

/-- MMULS (R342). -/
def execMmuls (d a : MReg) (k : SReg) (s : State) : Host.Outcome State Fault Refusal :=
  s.finish (s.broadcast d a k fmul)

/-- MDIVS (R343): the matrix is the dividend. -/
def execMdivs (d a : MReg) (k : SReg) (s : State) : Host.Outcome State Fault Refusal :=
  s.finish (s.broadcast d a k fdiv)

/-! ## Unary and reduction commands -/

/-- MTRANS (R326). -/
def execMtrans (d a : MReg) (s : State) : Host.Outcome State Fault Refusal := s.finish (s.unary d a Mat.trans)

/-- MABS (R327). -/
def execMabs (d a : MReg) (s : State) : Host.Outcome State Fault Refusal := s.finish (s.unary d a (Mat.map fabs))

/-- MROUND (R328), with the rounding mode CTRL.RND. -/
def execMround (d a : MReg) (s : State) : Host.Outcome State Fault Refusal :=
  s.finish (s.unary d a (Mat.map fun x => roundInt x s.cfg.rnd))

/-- MMIN (R329). -/
def execMmin (k : SReg) (a : MReg) (s : State) : Host.Outcome State Fault Refusal := s.finish (s.reduce k a flt)

/-- MMAX (R330). -/
def execMmax (k : SReg) (a : MReg) (s : State) : Host.Outcome State Fault Refusal := s.finish (s.reduce k a fgt)

/-- MZIGZAG (R333). -/
def execMzigzag (d a : MReg) (s : State) : Host.Outcome State Fault Refusal :=
  s.finish do
    let m ← s.readM a
    check88 m
    .ok (s.setM d m.zigzag)

/-- MEQ (R331): the result is in RES0. -/
def execMeq (a b : MReg) (s : State) : Host.Outcome State Fault Refusal :=
  s.finish do
    let ma ← s.readM a
    let mb ← s.readM b
    .ok (s.setRes 0 (boolWord (ma.sameValue mb)))

end Sys2Proof.Machine
end

