-- ==== Sys2Proof/Machine/Transform.lean ====
section
/-! DEFINITION. The transform pipeline: the single-step commands and XFORM (42_transform.md). -/

namespace Sys2Proof.Machine

/-- The level offset, 128.0 (00_scope.md R9). -/
def levelOffset : F64 := f64 128

/-- The forward transform, left product first (R410). -/
def fdctMat (m : Mat) : Mat := mprod (mprod basis m 8) basisT 8

/-- The inverse transform, left product first (R411). -/
def idctMat (m : Mat) : Mat := mprod (mprod basisT m 8) basis 8

/-- Step 2 of the pipeline (R414). -/
def lvlsubMat (m : Mat) : Mat := m.map fun x => fsub x levelOffset

/-- Step 9 of the pipeline (R415). -/
def lvladdMat (m : Mat) : Mat := m.map fun x => fadd x levelOffset

/-- Step 4: elementwise division by the quantization table (R412). -/
def quantMat (c : Csr) (m : Mat) : Mat := m.zip fdiv c.qMat

/-- Step 7: elementwise multiplication by the quantization table (R413). -/
def dequantMat (c : Csr) (m : Mat) : Mat := m.zip fmul c.qMat

/-- A command on an 8 by 8 operand (R410). -/
def State.transform88 (s : State) (d a : MReg) (f : Mat → Mat) : Except Raise State := do
  let m ← s.readM a
  check88 m
  .ok (s.setM d (f m))

/-- A command on an 8 by 8 operand and the quantization table (R412). -/
def State.quantized (s : State) (d a : MReg) (f : Mat → Mat) : Except Raise State := do
  let m ← s.readM a
  check88 m
  checkQ s.cfg
  .ok (s.setM d (f m))

/-! ## Single-step commands -/

/-- FDCT (R410). -/
def execFdct (d a : MReg) (s : State) : Host.Outcome State Fault Refusal := s.finish (s.transform88 d a fdctMat)

/-- IDCT (R411). -/
def execIdct (d a : MReg) (s : State) : Host.Outcome State Fault Refusal := s.finish (s.transform88 d a idctMat)

/-- QUANT (R412). -/
def execQuant (d a : MReg) (s : State) : Host.Outcome State Fault Refusal :=
  s.finish (s.quantized d a (quantMat s.cfg))

/-- DEQUANT (R413). -/
def execDequant (d a : MReg) (s : State) : Host.Outcome State Fault Refusal :=
  s.finish (s.quantized d a (dequantMat s.cfg))

/-- LVLSUB (R414). -/
def execLvlsub (d a : MReg) (s : State) : Host.Outcome State Fault Refusal := s.finish (s.unary d a lvlsubMat)

/-- LVLADD (R415). -/
def execLvladd (d a : MReg) (s : State) : Host.Outcome State Fault Refusal := s.finish (s.unary d a lvladdMat)

/-! ## XFORM (R420) -/

/-- The raster's width and height in samples (10_state.md R72). -/
def Csr.imgW (c : Csr) : Nat := c.imgDim.toNat % 65536
def Csr.imgH (c : Csr) : Nat := c.imgDim.toNat / 65536

/-- How many blocks the raster has. -/
def Csr.blockCount (c : Csr) : Nat := (c.imgW / 8) * (c.imgH / 8)

/-- The raster position of cell (r, c) of block `j`, `y * W + x` (20_memory.md R160). Blocks are counted in row-major
block order. -/
def Csr.samplePos (c : Csr) (j r col : Nat) : Nat :=
  let nbx := c.imgW / 8
  (8 * (j / nbx) + r) * c.imgW + 8 * (j % nbx) + col

/-- The sides are multiples of 8; otherwise `IMGDIM` (R420). -/
def checkImg (c : Csr) : Except Raise Unit :=
  need (c.imgW % 8 == 0 && c.imgH % 8 == 0) (Raise.plain .imgdim c.imgDim)

/-- Steps 2 to 5 on the samples of a block: the rounded quantized coefficients `tr`. -/
def blockTr (c : Csr) (b : Mat) : Mat := (quantMat c (fdctMat (lvlsubMat b))).map fun x => roundInt x c.rnd

/-- Steps 7 to 9 on `tr`: the reconstructed block before `clampByte`. -/
def blockRec (c : Csr) (tr : Mat) : Mat := lvladdMat (idctMat (dequantMat c tr))

/-- Step 1: the 64 sample reads of block `j`. -/
def blockLoads (c : Csr) (j : Nat) : List Access :=
  (cells 8 8).map fun rc => ⟨c.imgSrc.toNat + c.samplePos j rc.1 rc.2, 1, j⟩

/-- Step 6: the 64 writes of the ZZ stream, position `i` ascending. -/
def zzStores (c : Csr) (j : Nat) (tr : Mat) : List Store :=
  (List.range 64).map fun i =>
    ⟨⟨c.zzDst.toNat + 2 * (64 * j + i), 2, j⟩, (toI16 (tr.get (zz i / 8) (zz i % 8)) c.rnd).toNat⟩

/-- Step 10, first output: the TQ plane. -/
def tqStores (c : Csr) (j : Nat) (tr : Mat) : List Store :=
  (cells 8 8).map fun rc =>
    ⟨⟨c.tqDst.toNat + 2 * c.samplePos j rc.1 rc.2, 2, j⟩, (toI16 (tr.get rc.1 rc.2) c.rnd).toNat⟩

/-- Step 10, second output: the REC plane. -/
def recStores (c : Csr) (j : Nat) (rec2 : Mat) : List Store :=
  (cells 8 8).map fun rc =>
    ⟨⟨c.recDst.toNat + c.samplePos j rc.1 rc.2, 1, j⟩, (clampByte (rec2.get rc.1 rc.2)).toNat⟩

/-- The writes of block `j` in order: ZZ, then TQ and REC if enabled. -/
def blockStores (c : Csr) (etq erec : Bool) (j : Nat) (tr : Mat) : List Store :=
  zzStores c j tr ++ (if etq then tqStores c j tr else []) ++
    (if erec then recStores c j (blockRec c tr) else [])

/-- The block of samples as a matrix. -/
def sampleMat (raw : List Nat) : Mat := ⟨8, 8, raw.map fun v => f64 (v : Int)⟩

/-- One block. -/
def xformBlock (holes : List Region) (c : Csr) (etq erec : Bool) (j : Nat) (m : Memory) : Except Raise Memory := do
  let raw ← loadAll holes m (blockLoads c j)
  storeAll holes (blockStores c etq erec j (blockTr c (sampleMat raw))) m

/-- `n` blocks from block `j` on, one after another (R712). -/
def xformFrom (holes : List Region) (c : Csr) (etq erec : Bool) : Nat → Nat → Memory → Except Raise Memory
  | 0, _, m => .ok m
  | n + 1, j, m =>
    match xformBlock holes c etq erec j m with
    | .ok m' => xformFrom holes c etq erec n (j + 1) m'
    | .error r => .error r

/-- The input raster (20_memory.md R160). -/
def xformIns (c : Csr) : List Region := [⟨c.imgSrc.toNat, c.imgW * c.imgH⟩]

/-- The ZZ stream, and the TQ and REC planes when enabled (R171). -/
def xformOuts (c : Csr) (etq erec : Bool) : List Region :=
  [⟨c.zzDst.toNat, 2 * (c.imgW * c.imgH)⟩] ++ (if etq then [⟨c.tqDst.toNat, 2 * (c.imgW * c.imgH)⟩] else []) ++
    (if erec then [⟨c.recDst.toNat, c.imgW * c.imgH⟩] else [])

/-- The pseudocode of XFORM (R420). -/
def bodyXform (etq erec : Bool) (s : State) : Except Raise Written := do
  let outs := xformOuts s.cfg etq erec
  (checkImg s.cfg).mapError (Raise.sparing outs)
  (checkQ s.cfg).mapError (Raise.sparing outs)
  let mem ← (xformFrom s.holes s.cfg etq erec s.cfg.blockCount 0 s.mem).mapError (Raise.withDirty outs)
  let device := s.onDevice (xformIns s.cfg)
  let t := (s.setMem mem).setRes 0 (BitVec.ofNat 32 s.cfg.blockCount)
  .ok ⟨t.resultsOf device 0 [0], xformIns s.cfg, outs, device⟩

/-- XFORM (R420). -/
def execXform (etq erec : Bool) (s : State) : Host.Outcome State Fault Refusal :=
  s.finish ((bodyXform etq erec s).map Written.settle)

end Sys2Proof.Machine
end

