-- ==== Sys2Proof/Machine/Dispatch.lean ====
section
/-! DEFINITION. One arm per command of the opcode map (30_encoding.md R210). -/

namespace Sys2Proof.Machine

def exec (i : Instr) (s : State) : Host.Outcome State Fault Refusal :=
  match i with
  | .nop => Sys2Proof.Machine.execNop s
  -- matrix unit: construction, load, store and element access
  | .mzero d h w => Sys2Proof.Machine.execMzero d h w s
  | .mload d h w f => Sys2Proof.Machine.execMload d h w f s
  | .mstore a f => Sys2Proof.Machine.execMstore a f s
  | .mget k a row col => Sys2Proof.Machine.execMget k a row col s
  | .mset d k row col => Sys2Proof.Machine.execMset d k row col s
  | .mmov d a => Sys2Proof.Machine.execMmov d a s
  -- matrix unit: arithmetic
  | .madd d a b => Sys2Proof.Machine.execMadd d a b s
  | .msub d a b => Sys2Proof.Machine.execMsub d a b s
  | .mdiv d a b => Sys2Proof.Machine.execMdiv d a b s
  | .memul d a b => Sys2Proof.Machine.execMemul d a b s
  | .mmul d a b => Sys2Proof.Machine.execMmul d a b s
  | .madds d a k => Sys2Proof.Machine.execMadds d a k s
  | .msubs d a k => Sys2Proof.Machine.execMsubs d a k s
  | .mmuls d a k => Sys2Proof.Machine.execMmuls d a k s
  | .mdivs d a k => Sys2Proof.Machine.execMdivs d a k s
  -- matrix unit: unary and reduction commands
  | .mtrans d a => Sys2Proof.Machine.execMtrans d a s
  | .mabs d a => Sys2Proof.Machine.execMabs d a s
  | .mround d a => Sys2Proof.Machine.execMround d a s
  | .mmin k a => Sys2Proof.Machine.execMmin k a s
  | .mmax k a => Sys2Proof.Machine.execMmax k a s
  | .mzigzag d a => Sys2Proof.Machine.execMzigzag d a s
  | .meq a b => Sys2Proof.Machine.execMeq a b s
  -- transform pipeline
  | .fdct d a => Sys2Proof.Machine.execFdct d a s
  | .idct d a => Sys2Proof.Machine.execIdct d a s
  | .quant d a => Sys2Proof.Machine.execQuant d a s
  | .dequant d a => Sys2Proof.Machine.execDequant d a s
  | .lvlsub d a => Sys2Proof.Machine.execLvlsub d a s
  | .lvladd d a => Sys2Proof.Machine.execLvladd d a s
  | .xform etq erec => Sys2Proof.Machine.execXform etq erec s
  -- priority queue
  | .pqclr => Sys2Proof.Machine.execPqclr s
  | .pqenq => Sys2Proof.Machine.execPqenq s
  | .pqdeq => Sys2Proof.Machine.execPqdeq s
  | .pqpeek => Sys2Proof.Machine.execPqpeek s
  -- Huffman unit
  | .hcount => Sys2Proof.Machine.execHcount s
  | .hbuild => Sys2Proof.Machine.execHbuild s
  | .hassign => Sys2Proof.Machine.execHassign s
  | .hemit => Sys2Proof.Machine.execHemit s
  | .huff => Sys2Proof.Machine.execHuff s

end Sys2Proof.Machine
end

