-- ==== Sys2Proof/Machine/Regions.lean ====
section
/-! DEFINITION. The input and output regions of the command being executed (20_memory.md R171), for the host's duties
(R170) and for a command that reset abandons (70_reset_and_hazards.md R700). -/

namespace Sys2Proof.Machine

/-- The pseudocode of a command that stores to memory; the others have none here (20_memory.md R157). -/
def storingBody (i : Instr) (s : State) : Option (Except Raise Written) :=
  match i with
  | .mstore a f => some (bodyMstore a f s)
  | .xform etq erec => some (bodyXform etq erec s)
  | .hassign => some (bodyHassign s)
  | .hemit => some (bodyHemit s)
  | .huff => some (bodyHuff s)
  | .nop | .mzero _ _ _ | .mload _ _ _ _ | .mget _ _ _ _ | .mset _ _ _ _ | .mmov _ _ | .madd _ _ _
  | .msub _ _ _ | .mdiv _ _ _ | .memul _ _ _ | .mmul _ _ _ | .madds _ _ _ | .msubs _ _ _ | .mmuls _ _ _
  | .mdivs _ _ _ | .mtrans _ _ | .mabs _ _ | .mround _ _ | .mmin _ _ | .mmax _ _ | .mzigzag _ _ | .meq _ _
  | .fdct _ _ | .idct _ _ | .quant _ _ | .dequant _ _ | .lvlsub _ _ | .lvladd _ _ | .pqclr | .pqenq | .pqdeq
  | .pqpeek | .hcount | .hbuild => none

/-- The bytes a command writes or leaves UNSPECIFIED (R157, R171; 40_command.md R261). DESIGN CHOICE (log 18): to the
host (R170, U6) the command writes all of them, also those it does not reach because an error ends it first. -/
def outRegions (i : Instr) (s : State) : List Region :=
  match storingBody i s with
  | some (.ok w) => w.outs
  | some (.error r) => r.dirty
  | none => []

/-- The output regions that R160 gives a command, whatever its outcome: what a host read while it runs may find
(70_reset_and_hazards.md R711, U5; log 18). -/
def outBuffers (i : Instr) (s : State) : List Region :=
  match storingBody i s with
  | some (.ok w) => w.outs
  | some (.error r) => r.outs
  | none => []

/-- `rs` when the command's checks pass, and nothing otherwise (R260: a failing check reads no memory). -/
def whenOk (e : Except Raise Unit) (rs : List Region) : List Region :=
  match e with
  | .ok _ => rs
  | .error _ => []

/-- The bytes a command would read (R157, R160). DESIGN CHOICE (log 18): once its checks pass, its whole input regions,
also the bytes it does not reach because BUS, SYMCAP or NOSYM ends it first; R170 does not say whether those count. -/
def inRegions (i : Instr) (s : State) : List Region :=
  match i with
  | .mload _ h w f => whenOk (checkShape h w) (mloadIns s.cfg f h w)
  | .xform _ _ => whenOk (checkImg s.cfg) (whenOk (checkQ s.cfg) (xformIns s.cfg))
  | .hcount => [hinRegion s.cfg]
  | .hemit => whenOk (checkStage s.huff (s.huff.stage == .assigned)) [hinRegion s.cfg]
  | .huff => [hinRegion s.cfg]
  | .nop | .mzero _ _ _ | .mstore _ _ | .mget _ _ _ _ | .mset _ _ _ _ | .mmov _ _ | .madd _ _ _
  | .msub _ _ _ | .mdiv _ _ _ | .memul _ _ _ | .mmul _ _ _ | .madds _ _ _ | .msubs _ _ _ | .mmuls _ _ _
  | .mdivs _ _ _ | .mtrans _ _ | .mabs _ _ | .mround _ _ | .mmin _ _ | .mmax _ _ | .mzigzag _ _ | .meq _ _
  | .fdct _ _ | .idct _ _ | .quant _ _ | .dequant _ _ | .lvlsub _ _ | .lvladd _ _ | .pqclr | .pqenq | .pqdeq
  | .pqpeek | .hbuild | .hassign => []

/-- What `f` gives for the running command; nothing when the engine is idle or the word is illegal. -/
def State.runningRegions (s : State) (f : Instr → State → List Region) : List Region :=
  if s.status.busy then
    match decode s.cmd with
    | .ok i => f i s
    | .error _ => []
  else []

/-- The bytes the running command writes or leaves UNSPECIFIED. -/
def State.runningOuts (s : State) : List Region := s.runningRegions outRegions

/-- The bytes the running command reads. -/
def State.runningIns (s : State) : List Region := s.runningRegions inRegions

/-- The output regions of the running command, whatever its outcome. -/
def State.runningBuffers (s : State) : List Region := s.runningRegions outBuffers

/-- Hardware and soft reset (R700, R702): the engine's state takes its reset values. A running command is abandoned,
and every byte of its output regions is left UNSPECIFIED (U3; log 10). -/
def State.doReset (s : State) : State := (s.havoc s.runningOuts).resetEngine

end Sys2Proof.Machine
end

