-- ==== Sys2Proof/Machine/Port.lean ====
section
/-! DEFINITION. What the host does to the machine: the register port (10_state.md R60 to R82, 40_command.md R250 to
R253), its own accesses to system memory (20_memory.md R170), and the reset input (70_reset_and_hazards.md R700). -/

namespace Sys2Proof.Machine

/-! ## The register map (R60) -/

/-- The registers of the port. -/
inductive PortReg where
  | id | ctrl | status | ie | cmd | cmdcnt | errcode | erraddr | errinfo | arg0 | arg1
  | res (k : Fin 4)
  | sLo (k : Fin 4)
  | sHi (k : Fin 4)
  | imgDim | imgSrc | zzDst | tqDst | recDst | hinAddr | hinLen | htabDst | houtDst | houtCap
  | hnsym | hbitsLo | hbitsHi | pqCount
  | qtab (i : Fin 64)
  | basisLo (i : Fin 64)
  | basisHi (i : Fin 64)
deriving DecidableEq, Repr

/-- The banked part of the map: QTAB, BASIS and the scalar halves. -/
def portBank (off : Nat) : Option PortReg :=
  let i : Fin 64 := Fin.ofNat 64 (off / 4)
  let j : Fin 64 := Fin.ofNat 64 (off / 8)
  let k : Fin 4 := Fin.ofNat 4 ((off - 0x050) / 8)
  if 0x050 ≤ off ∧ off < 0x070 then some (if off % 8 = 0 then .sLo k else .sHi k)
  else if 0x100 ≤ off ∧ off < 0x200 then some (.qtab i)
  else if 0x200 ≤ off ∧ off < 0x400 then some (if off % 8 = 0 then .basisLo j else .basisHi j)
  else none

/-- The register at a byte offset that is a multiple of 4; `none` is reserved (R60). -/
def portReg (off : Nat) : Option PortReg :=
  match off with
  | 0x000 => some .id
  | 0x004 => some .ctrl
  | 0x008 => some .status
  | 0x00C => some .ie
  | 0x010 => some .cmd
  | 0x014 => some .cmdcnt
  | 0x018 => some .errcode
  | 0x01C => some .erraddr
  | 0x020 => some .errinfo
  | 0x030 => some .arg0
  | 0x034 => some .arg1
  | 0x040 => some (.res 0)
  | 0x044 => some (.res 1)
  | 0x048 => some (.res 2)
  | 0x04C => some (.res 3)
  | 0x080 => some .imgDim
  | 0x084 => some .imgSrc
  | 0x088 => some .zzDst
  | 0x08C => some .tqDst
  | 0x090 => some .recDst
  | 0x0A0 => some .hinAddr
  | 0x0A4 => some .hinLen
  | 0x0A8 => some .htabDst
  | 0x0AC => some .houtDst
  | 0x0B0 => some .houtCap
  | 0x0B4 => some .hnsym
  | 0x0B8 => some .hbitsLo
  | 0x0BC => some .hbitsHi
  | 0x0C0 => some .pqCount
  | n => portBank n

/-! ## Reads -/

/-- Entry `i = 8k + n` of the basis ROM (R82). -/
def basisAt (i : Nat) : F64 := basisEntry (i / 8) (i % 8)

/-- The word a register reads, RES0 to RES3 as while the engine is idle. -/
def State.regWord (s : State) : PortReg → Word
  | .id => Config.idWord
  | .ctrl => s.cfg.ctrlWord
  | .status => s.statusWord
  | .ie => s.cfg.ieWord
  | .cmd => s.cmd
  | .cmdcnt => s.cmdcnt
  | .errcode => s.errRec.code
  | .erraddr => s.errRec.addr
  | .errinfo => s.errRec.info
  | .arg0 => s.cfg.arg0
  | .arg1 => s.cfg.arg1
  | .res k => s.res[k]
  | .sLo k => s.sregs[k].extractLsb' 0 32
  | .sHi k => s.sregs[k].extractLsb' 32 32
  | .imgDim => s.cfg.imgDim
  | .imgSrc => s.cfg.imgSrc
  | .zzDst => s.cfg.zzDst
  | .tqDst => s.cfg.tqDst
  | .recDst => s.cfg.recDst
  | .hinAddr => s.cfg.hinAddr
  | .hinLen => s.cfg.hinLen
  | .htabDst => s.cfg.htabDst
  | .houtDst => s.cfg.houtDst
  | .houtCap => s.cfg.houtCap
  | .hnsym => BitVec.ofNat 32 s.huff.syms.length
  | .hbitsLo => s.hbits.extractLsb' 0 32
  | .hbitsHi => s.hbits.extractLsb' 32 32
  | .pqCount => BitVec.ofNat 32 s.pq.heap.length
  | .qtab i => (s.cfg.qtab[i]).setWidth 32
  | .basisLo i => (basisAt i.val).extractLsb' 0 32
  | .basisHi i => (basisAt i.val).extractLsb' 32 32

/-- The host is answered with a free word. -/
def State.replyFree (s : State) : State :=
  { s with reply := .data (Config.freeWord s.freeIdx), freeIdx := s.freeIdx + 1 }

def State.setReply (s : State) (r : Reply) : State := { s with reply := r }

/-- A read of a register: a free word for RES while the engine is busy (R71, U4), 0 for a reserved offset (R60). -/
def State.readReg (s : State) (off : Nat) : State :=
  match portReg off with
  | none => s.setReply (.data 0#32)
  | some (.res k) => if s.status.busy then s.replyFree else s.setReply (.data (s.regWord (.res k)))
  | some r => s.setReply (.data (s.regWord r))

/-! ## Writes -/

/-- The RW registers of R60 that a write while busy leaves alone (R253). -/
def PortReg.isConfig : PortReg → Bool
  | .arg0 | .arg1 | .sLo _ | .sHi _ | .imgDim | .imgSrc | .zzDst | .tqDst | .recDst | .hinAddr | .hinLen
  | .htabDst | .houtDst | .houtCap | .qtab _ => true
  | .id | .ctrl | .status | .ie | .cmd | .cmdcnt | .errcode | .erraddr | .errinfo | .res _ | .hnsym | .hbitsLo
  | .hbitsHi | .pqCount | .basisLo _ | .basisHi _ => false

/-- A write to an RW register while the engine is idle. Writes to RO registers are ignored (R60). -/
def State.writeConfig (s : State) (r : PortReg) (v : Word) : State :=
  match r with
  | .arg0 => { s with cfg := { s.cfg with arg0 := v } }
  | .arg1 => { s with cfg := { s.cfg with arg1 := v } }
  | .sLo k => s.setS k (s.sregs[k].extractLsb' 32 32 ++ v)
  | .sHi k => s.setS k (v ++ s.sregs[k].extractLsb' 0 32)
  | .imgDim => { s with cfg := { s.cfg with imgDim := v } }
  | .imgSrc => { s with cfg := { s.cfg with imgSrc := v } }
  | .zzDst => { s with cfg := { s.cfg with zzDst := v } }
  | .tqDst => { s with cfg := { s.cfg with tqDst := v } }
  | .recDst => { s with cfg := { s.cfg with recDst := v } }
  | .hinAddr => { s with cfg := { s.cfg with hinAddr := v } }
  | .hinLen => { s with cfg := { s.cfg with hinLen := v } }
  | .htabDst => { s with cfg := { s.cfg with htabDst := v } }
  | .houtDst => { s with cfg := { s.cfg with houtDst := v } }
  | .houtCap => { s with cfg := { s.cfg with houtCap := v } }
  | .qtab i => { s with cfg := { s.cfg with qtab := s.cfg.qtab.set i.val (v.setWidth 16) i.isLt } }
  | .id | .ctrl | .status | .ie | .cmd | .cmdcnt | .errcode | .erraddr | .errinfo | .res _ | .hnsym | .hbitsLo
  | .hbitsHi | .pqCount | .basisLo _ | .basisHi _ => s

/-- The write is ignored because the engine is busy (R253). -/
def State.dropWrite (s : State) : State := { s with status := { s.status with wrDrop := true } }

/-- A write to CTRL (R63, R253, R702). -/
def State.writeCtrl (s : State) (v : Word) : State :=
  if v.getLsbD 0 then s.doReset
  else if s.status.busy then s.dropWrite
  else { s with cfg := { s.cfg with rnd := v.getLsbD 1, pqmax := v.getLsbD 2, htie := v.getLsbD 3 } }

/-- A write to STATUS clears the W1C bits written 1 (R64, R620). -/
def State.writeStatus (s : State) (v : Word) : State :=
  { s with status :=
    { s.status with
      done := s.status.done && !v.getLsbD 1
      err := s.status.err && !v.getLsbD 2
      cmdDrop := s.status.cmdDrop && !v.getLsbD 3
      wrDrop := s.status.wrDrop && !v.getLsbD 4 } }

/-- A write to IE (R65). -/
def State.writeIe (s : State) (v : Word) : State :=
  { s with cfg := { s.cfg with doneIe := v.getLsbD 1, errIe := v.getLsbD 2 } }

/-- A write to CMD offers a command: accepted when the engine is neither busy nor in error, dropped otherwise
(R250 to R252). -/
def State.offer (s : State) (v : Word) : State :=
  if s.status.busy || s.status.err then { s with status := { s.status with cmdDrop := true } }
  else s.accept v

/-- A write to a register. -/
def State.writeReg (s : State) (off : Nat) (v : Word) : State :=
  match portReg off with
  | none => s
  | some .ctrl => s.writeCtrl v
  | some .status => s.writeStatus v
  | some .ie => s.writeIe v
  | some .cmd => s.offer v
  | some r => if s.status.busy && r.isConfig then s.dropWrite else s.writeConfig r v

/-! ## Host actions -/

/-- A port access is 32 bits wide at a multiple of 4 (R61). -/
def portOk (off : BitVec 12) (size : Nat) : Bool := size == 4 && off.toNat % 4 == 0

/-- A port read. Under reset any value may come back (R700, U11). -/
def State.portRead (s : State) (off : BitVec 12) (size : Nat) : State :=
  if s.resetPin then s.replyFree
  else if portOk off size then s.readReg off.toNat
  else s.setReply .portError

/-- A port write. Under reset it has no effect (R700, U11). -/
def State.portWrite (s : State) (off : BitVec 12) (size : Nat) (v : Word) : State :=
  if s.resetPin then s.setReply .noResponse
  else if portOk off size then (s.writeReg off.toNat v).setReply .written
  else s.setReply .portError

/-- The host is answered with a free byte. -/
def State.replyFreeByte (s : State) : State :=
  { s with reply := .byte (Config.freeByte s.freeIdx), freeIdx := s.freeIdx + 1 }

/-- The host reads a byte of system memory. A byte of the running command's output regions answers any value
(70_reset_and_hazards.md R711, U5), and so does a byte of a device (20_memory.md R158; log 20). -/
def State.hostRead (s : State) (a : Word) : State :=
  if (s.devices ++ s.runningBuffers).any fun r => r.has a.toNat then s.replyFreeByte
  else s.setReply (.byte (s.mem.read a.toNat))

/-- The host writes a byte of system memory. A byte the running command reads or writes is not the host's to write
(U6). -/
def State.hostWrite (s : State) (a : Word) (b : Byte) : Host.Outcome State Fault Refusal :=
  if (s.runningIns ++ s.runningOuts).any fun r => r.has a.toNat then .refused (.hostTouchesRunning a.toNat)
  else .next ((s.setMem (s.mem.write a.toNat b)).setReply .written)

/-- The reset input is asserted: reset, and the level held (R700). -/
def State.assertReset (s : State) : State := { s.doReset with resetPin := true }

/-- The reset input is released. -/
def State.releaseReset (s : State) : State := { s with resetPin := false }

/-- One host action. -/
def hostStep (act : HostAction) (s : State) : Host.Outcome State Fault Refusal :=
  match act with
  | .portRead off size => .next (s.portRead off size)
  | .portWrite off size v => .next (s.portWrite off size v)
  | .memRead a => .next (s.hostRead a)
  | .memWrite a b => s.hostWrite a b
  | .resetAssert => .next s.assertReset
  | .resetRelease => .next s.releaseReset

end Sys2Proof.Machine
end

