-- ==== Sys2Proof/Machine/Engine.lean ====
section
/-! DEFINITION. The engine's step (40_command.md R254, R255), the interleaving of host and engine (00_scope.md R8), and
how a word comes to be the next command. -/

namespace Sys2Proof.Machine

/-- The engine executes CUR: the decoded command, or `ILLEGAL` (R255). -/
def runCommand (s : State) : Host.Outcome State Fault Refusal :=
  match decode s.cmd with
  | .ok i => exec i s
  | .error _ => .next (s.errorEntry (Raise.illegal s.cmd))

/-- The engine's turn: the running command, in one step; nothing when idle (R254, R262) or while the reset input is
asserted (R700). -/
def engineStep (s : State) : Host.Outcome State Fault Refusal :=
  if s.status.busy && !s.resetPin then runCommand s else .next s

/-- One step of the machine: the oldest input, or the engine's turn when no input waits (log 1). -/
def machineStep (s : State) : Host.Outcome State Fault Refusal :=
  match s.inbox with
  | [] => engineStep s
  | .engineTurn :: rest => engineStep { s with inbox := rest }
  | .host act :: rest => hostStep act { s with inbox := rest }

/-- The state in which `v` has just been accepted as the command (R251) and the engine moves next: no input waits, the
reset input is released and no error is pending (log 2). -/
def State.commandNext (s : State) (v : Word) : State :=
  ({ s with inbox := [], resetPin := false, status := { s.status with err := false } } : State).accept v

end Sys2Proof.Machine
end

