-- ==== Sys2Proof/Machine/Step.lean ====
section
/-! DEFINITION. The step of the machine, and a state that runs a given word next. -/

namespace Sys2Proof.Machine

/-- One step (00_scope.md R8, 40_command.md R254). -/
def step (s : State) : Host.Outcome State Fault Refusal := machineStep s

/-- `s` with the instruction of the opcode table given as `nbits` bits `w` as the next command: the host's accepted
write to CMD (log 2). Bits above `nbits` are 0. -/
def State.withFetchWord (s : State) (nbits w : Nat) : State := s.commandNext (BitVec.ofNat 32 (w % 2 ^ nbits))

end Sys2Proof.Machine
end

