-- ==== Sys2Proof/Safety.lean ====
section
/-! DEFINITION. What the statements speak of: which state a command may write, the state after an error, the
invariants of the machine, and the meanings the spec gives the Huffman tables and the heap, said apart from the
functions that compute them. -/

namespace Sys2Proof.Machine

/-! ## What each command reads and writes -/

/-- The matrix registers a command reads, in the order UNINIT is checked: A, then B; D for MSET only
(40_command.md R260). -/
def sourcesOf : Instr → List MReg
  | .mstore a _ | .mget _ a _ _ | .mmov _ a | .madds _ a _ | .msubs _ a _ | .mmuls _ a _ | .mdivs _ a _
  | .mtrans _ a | .mabs _ a | .mround _ a | .mmin _ a | .mmax _ a | .mzigzag _ a | .fdct _ a | .idct _ a
  | .quant _ a | .dequant _ a | .lvlsub _ a | .lvladd _ a => [a]
  | .mset d _ _ _ => [d]
  | .madd _ a b | .msub _ a b | .mdiv _ a b | .memul _ a b | .mmul _ a b | .meq a b => [a, b]
  | .nop | .mzero _ _ _ | .mload _ _ _ _ | .xform _ _ | .pqclr | .pqenq | .pqdeq | .pqpeek | .hcount
  | .hbuild | .hassign | .hemit | .huff => []

/-- The matrix register a command names as destination (10_state.md R51). -/
def destM : Instr → Option MReg
  | .mzero d _ _ | .mload d _ _ _ | .mset d _ _ _ | .mmov d _ | .madd d _ _ | .msub d _ _ | .mdiv d _ _
  | .memul d _ _ | .mmul d _ _ | .madds d _ _ | .msubs d _ _ | .mmuls d _ _ | .mdivs d _ _ | .mtrans d _
  | .mabs d _ | .mround d _ | .mzigzag d _ | .fdct d _ | .idct d _ | .quant d _ | .dequant d _ | .lvlsub d _
  | .lvladd d _ => some d
  | .nop | .mstore _ _ | .mget _ _ _ _ | .mmin _ _ | .mmax _ _ | .meq _ _ | .xform _ _ | .pqclr | .pqenq
  | .pqdeq | .pqpeek | .hcount | .hbuild | .hassign | .hemit | .huff => none

/-- The scalar register a command writes (10_state.md R53). -/
def destS : Instr → Option SReg
  | .mget k _ _ _ | .mmin k _ | .mmax k _ => some k
  | .nop | .mzero _ _ _ | .mload _ _ _ _ | .mstore _ _ | .mset _ _ _ _ | .mmov _ _ | .madd _ _ _ | .msub _ _ _
  | .mdiv _ _ _ | .memul _ _ _ | .mmul _ _ _ | .madds _ _ _ | .msubs _ _ _ | .mmuls _ _ _ | .mdivs _ _ _
  | .mtrans _ _ | .mabs _ _ | .mround _ _ | .mzigzag _ _ | .meq _ _ | .fdct _ _ | .idct _ _ | .quant _ _
  | .dequant _ _ | .lvlsub _ _ | .lvladd _ _ | .xform _ _ | .pqclr | .pqenq | .pqdeq | .pqpeek | .hcount
  | .hbuild | .hassign | .hemit | .huff => none

/-- The RES registers a command writes (10_state.md R71). -/
def destRes : Instr → List (Fin 4)
  | .meq _ _ | .xform _ _ | .hcount => [0]
  | .pqdeq | .pqpeek | .hbuild | .hemit => [0, 1]
  | .hassign | .huff => [0, 1, 2, 3]
  | .nop | .mzero _ _ _ | .mload _ _ _ _ | .mstore _ _ | .mget _ _ _ _ | .mset _ _ _ _ | .mmov _ _
  | .madd _ _ _ | .msub _ _ _ | .mdiv _ _ _ | .memul _ _ _ | .mmul _ _ _ | .madds _ _ _ | .msubs _ _ _
  | .mmuls _ _ _ | .mdivs _ _ _ | .mtrans _ _ | .mabs _ _ | .mround _ _ | .mmin _ _ | .mmax _ _ | .mzigzag _ _
  | .fdct _ _ | .idct _ _ | .quant _ _ | .dequant _ _ | .lvlsub _ _ | .lvladd _ _ | .pqclr | .pqenq => []

/-- The five commands of the Huffman unit (30_encoding.md R211). -/
def isHuffman (i : Instr) : Bool := i ∈ [Instr.hcount, .hbuild, .hassign, .hemit, .huff]

/-- The commands that may change the priority queue (10_state.md R90). -/
def usesQueue (i : Instr) : Bool := i ∈ [Instr.pqclr, .pqenq, .pqdeq, .hbuild, .huff]

/-- The commands that write HBITS (10_state.md R74). -/
def writesHbits (i : Instr) : Bool := i ∈ [Instr.hemit, .huff]

/-- The commands that store to memory (20_memory.md R157). -/
def storesToMemory : Instr → Bool
  | .mstore _ _ | .xform _ _ | .hassign | .hemit | .huff => true
  | .nop | .mzero _ _ _ | .mload _ _ _ _ | .mget _ _ _ _ | .mset _ _ _ _ | .mmov _ _ | .madd _ _ _
  | .msub _ _ _ | .mdiv _ _ _ | .memul _ _ _ | .mmul _ _ _ | .madds _ _ _ | .msubs _ _ _ | .mmuls _ _ _
  | .mdivs _ _ _ | .mtrans _ _ | .mabs _ _ | .mround _ _ | .mmin _ _ | .mmax _ _ | .mzigzag _ _ | .meq _ _
  | .fdct _ _ | .idct _ _ | .quant _ _ | .dequant _ _ | .lvlsub _ _ | .lvladd _ _ | .pqclr | .pqenq | .pqdeq
  | .pqpeek | .hcount | .hbuild => false

/-! ## Errors -/

/-- The state after an error that leaves no output region and no table open: ERRCODE holds OP and the code, ERR is set
and BUSY cleared, and nothing else changes (60_exceptions.md R610). -/
def State.stopped (s : State) (code : Byte) (addr info : Word) : State :=
  { s with
    errRec := ⟨0#16 ++ opField s.cmd ++ code, addr, info⟩
    status := { s.status with err := true, busy := false } }

/-- The same for a Huffman command, which also returns its unit to stage 0 (43_huffman.md R470). -/
def State.stoppedHuffman (s : State) (code : Byte) (addr info : Word) : State :=
  { s.stopped code addr info with huff := Huffman.empty }

/-! ## The register port (10_state.md R60) -/

/-- The offsets of the RW registers that a write while busy leaves alone, but CTRL (R60, 40_command.md R253). -/
def rwOffsets : List Nat :=
  [0x030, 0x034] ++ (List.range 8).map (0x050 + 4 * ·) ++ [0x080, 0x084, 0x088, 0x08C, 0x090] ++
  [0x0A0, 0x0A4, 0x0A8, 0x0AC, 0x0B0] ++ (List.range 64).map (0x100 + 4 * ·)

/-- The offsets of RES0 to RES3. -/
def resOffsets : List Nat := [0x040, 0x044, 0x048, 0x04C]

/-- The register map: each offset of R60 with the word it reads. -/
def regTable (s : State) : List (Nat × Word) :=
  [(0x000, 0x44435401#32),
   (0x004, 0#28 ++ BitVec.ofBool s.cfg.htie ++ BitVec.ofBool s.cfg.pqmax ++ BitVec.ofBool s.cfg.rnd ++ 0#1),
   (0x008, 0#25 ++ BitVec.ofNat 2 s.huff.stage.toNat ++ BitVec.ofBool s.status.wrDrop ++
     BitVec.ofBool s.status.cmdDrop ++ BitVec.ofBool s.status.err ++ BitVec.ofBool s.status.done ++
     BitVec.ofBool s.status.busy),
   (0x00C, 0#29 ++ BitVec.ofBool s.cfg.errIe ++ BitVec.ofBool s.cfg.doneIe ++ 0#1),
   (0x010, s.cmd), (0x014, s.cmdcnt), (0x018, s.errRec.code), (0x01C, s.errRec.addr), (0x020, s.errRec.info),
   (0x030, s.cfg.arg0), (0x034, s.cfg.arg1)] ++
  [(0x040, s.res[0]), (0x044, s.res[1]), (0x048, s.res[2]), (0x04C, s.res[3])] ++
  (List.finRange 4).map (fun k => (0x050 + 8 * k.val, s.sregs[k].extractLsb' 0 32)) ++
  (List.finRange 4).map (fun k => (0x054 + 8 * k.val, s.sregs[k].extractLsb' 32 32)) ++
  [(0x080, s.cfg.imgDim), (0x084, s.cfg.imgSrc), (0x088, s.cfg.zzDst), (0x08C, s.cfg.tqDst), (0x090, s.cfg.recDst)] ++
  [(0x0A0, s.cfg.hinAddr), (0x0A4, s.cfg.hinLen), (0x0A8, s.cfg.htabDst), (0x0AC, s.cfg.houtDst),
   (0x0B0, s.cfg.houtCap)] ++
  [(0x0B4, BitVec.ofNat 32 s.huff.syms.length), (0x0B8, s.hbits.extractLsb' 0 32), (0x0BC, s.hbits.extractLsb' 32 32),
   (0x0C0, BitVec.ofNat 32 s.pq.heap.length)] ++
  (List.finRange 64).map (fun i => (0x100 + 4 * i.val, (s.cfg.qtab[i]).setWidth 32)) ++
  (List.finRange 64).map (fun i => (0x200 + 8 * i.val, (basisEntry (i.val / 8) (i.val % 8)).extractLsb' 0 32)) ++
  (List.finRange 64).map (fun i => (0x204 + 8 * i.val, (basisEntry (i.val / 8) (i.val % 8)).extractLsb' 32 32))

/-- A write to the register port takes effect next. -/
def State.hostWrites (s : State) (off : Nat) (v : Word) (rest : List Input) : Prop :=
  s.inbox = .host (.portWrite (BitVec.ofNat 12 off) 4 v) :: rest

/-- A read of the register port takes effect next. -/
def State.hostReads (s : State) (off : Nat) (rest : List Input) : Prop :=
  s.inbox = .host (.portRead (BitVec.ofNat 12 off) 4) :: rest

/-- The state after an input is taken and answered, before it acts. -/
def State.took (s : State) (rest : List Input) (r : Reply) : State := { s with inbox := rest, reply := r }

/-! ## Memory -/

/-- Every byte of a range answers an engine access (20_memory.md R153). -/
def rangeOk (holes : List Region) (a n : Nat) : Prop := ∀ k, k < n → memOk holes (a + k) = true

/-- Two regions share no byte. -/
def Region.Apart (r q : Region) : Prop := ∀ a, ¬(r.has a = true ∧ q.has a = true)

/-- No byte of the regions lies on a device with read side effects (20_memory.md R158). -/
def State.OffDevices (s : State) (rs : List Region) : Prop := ∀ r ∈ rs, ∀ d ∈ s.devices, Region.Apart r d

/-- No byte of the regions is at the address. -/
def outside (rs : List Region) (a : Nat) : Prop := ∀ r ∈ rs, r.has a = false

/-! ## Numbers -/

/-- The value of a number in units of 2^-1074, an infinity beyond every finite value. -/
def fExt (x : F64) : Int :=
  if fIsInf x then (if fSign x then -(2 ^ 2100) else 2 ^ 2100) else fVal x

/-- The magnitude, in units of 2^-1074, from which rounding to nearest gives an infinity: halfway from the largest
finite value to the next. -/
def overflowBound : Nat := (2 ^ 54 - 1) * 2 ^ 2044

/-- `z` is the binary64 nearest to `v` units of 2^-1074, ties to even, overflow to infinity, with the sign of `v`
(41_matrix.md R300). -/
def NearestEven (z : F64) (v : ℚ) : Prop :=
  (|v| < overflowBound → fIsFinite z = true ∧
    ∀ y, fIsFinite y = true → |(fVal z : ℚ) - v| ≤ |(fVal y : ℚ) - v| ∧
      (|(fVal z : ℚ) - v| = |(fVal y : ℚ) - v| → fVal y ≠ fVal z → z.toNat % 2 = 0)) ∧
  (overflowBound ≤ |v| → fIsInf z = true) ∧
  (0 < v → fSign z = false) ∧ (v < 0 → fSign z = true)

/-- `n` is the integer nearest to `v` units of 2^-1074; at a tie the even one, or with `rm` the one of larger
magnitude (41_matrix.md R323). -/
def NearestInt (n v : Int) (rm : Bool) : Prop :=
  2 * |n * fUnit - v| ≤ fUnit ∧
  (2 * |n * fUnit - v| = fUnit → (rm = false → n % 2 = 0) ∧ (rm = true → |v| < |n| * fUnit))

/-- `v` is the first element of the matrix, in row-major order, that no element is `before`; a NaN only when it is the
very first (41_matrix.md R329). -/
def IsExtreme (before : F64 → F64 → Bool) (m : Mat) (v : F64) : Prop :=
  (∀ x ∈ m.e, before x v = false) ∧
  ∃ p, m.e[p]? = some v ∧ (fIsNaN v = true → p = 0) ∧ ((∃ x, m.e[0]? = some x ∧ fIsNaN x = true) → p = 0) ∧
    ∀ (q : Nat) (x : F64), q < p → m.e[q]? = some x → before v x = true ∨ fIsNaN x = true

/-- `s` after `n` rounds of the inner loop of R322: from +0.0, `fadd(s, fmul(a[i][k], b[k][j]))` for `k` rising. -/
def productSum (a b : Mat) (i j : Nat) : Nat → F64
  | 0 => 0#64
  | k + 1 => fadd (productSum a b i j k) (fmul (a.get i k) (b.get k j))

/-- `m` is the product of R322 of two `n` by `n` matrices. -/
def IsProduct (m a b : Mat) (n : Nat) : Prop :=
  m.h = n ∧ m.w = n ∧ m.e.length = n * n ∧ ∀ i j, i < n → j < n → m.get i j = productSum a b i j n

/-- `m` is an `h` by `w` matrix whose elements are `f r c`. -/
def HasElements (m : Mat) (h w : Nat) (f : Nat → Nat → F64) : Prop :=
  m.h = h ∧ m.w = w ∧ m.e.length = h * w ∧ ∀ r c, r < h → c < w → m.get r c = f r c

/-- The 8 by 8 block of samples at address `a` with row stride `w` (42_transform.md R420 step 1). -/
def sampleBlock (m : Memory) (a w : Nat) : Mat := Mat.ofFn 8 8 fun r c => f64 ((m.read (a + r * w + c)).toNat : Int)

/-- Commands run one after another. -/
def runCommands : List Instr → State → Host.Outcome State Fault Refusal
  | [], s => .next s
  | i :: t, s =>
    match exec i s with
    | .next s' => runCommands t s'
    | .fault f => .fault f
    | .refused r => .refused r

/-- The accesses of XFORM in the order of 42_transform.md R420, block by block: the 64 sample reads, the ZZ writes, then
the TQ and REC writes if enabled. `true` marks a write; each carries the number of its block. -/
def xformAccesses (c : Csr) (etq erec : Bool) : List (Bool × Access) :=
  let w := c.imgDim.toNat % 65536
  let h := c.imgDim.toNat / 65536
  (List.range (w / 8 * (h / 8))).flatMap fun j =>
    let at_ := fun k => (8 * (j / (w / 8)) + k / 8) * w + 8 * (j % (w / 8)) + k % 8
    (List.range 64).map (fun k => (false, ⟨c.imgSrc.toNat + at_ k, 1, j⟩)) ++
    (List.range 64).map (fun k => (true, ⟨c.zzDst.toNat + 2 * (64 * j + k), 2, j⟩)) ++
    (if etq then (List.range 64).map (fun k => (true, ⟨c.tqDst.toNat + 2 * at_ k, 2, j⟩)) else []) ++
    (if erec then (List.range 64).map (fun k => (true, ⟨c.recDst.toNat + at_ k, 1, j⟩)) else [])

/-! ## The heap -/

/-- PQENQ of each key and payload in turn. -/
def enqueueAll : List (Word × Word) → State → Host.Outcome State Fault Refusal
  | [], s => .next s
  | p :: t, s =>
    match exec .pqenq { s with cfg := { s.cfg with arg0 := p.1, arg1 := p.2 } } with
    | .next s' => enqueueAll t s'
    | .fault f => .fault f
    | .refused r => .refused r

/-- The keys and payloads that `n` PQDEQ put in RES0 and RES1, in order. -/
def dequeueAll : Nat → State → Option (List (Word × Word))
  | 0, _ => some []
  | n + 1, s =>
    match exec .pqdeq s with
    | .next t => (dequeueAll n t).map fun l => (t.res[0], t.res[1]) :: l
    | .fault _ => none
    | .refused _ => none


/-- No entry is better than its parent (44_pqueue.md R507). -/
def HeapOrdered (o : HeapOrder) (h : List Entry) : Prop :=
  ∀ i, 0 < i → i < h.length → better o (heapAt h i) (heapAt h ((i - 1) / 2)) = false

/-! ## The Huffman tables -/

/-- Input symbol `j` of the configured input array (43_huffman.md R450). -/
def inputSym (s : State) (j : Nat) : Half := BitVec.ofNat 16 (s.mem.readLE (s.cfg.hinAddr.toNat + 2 * j) 2)

/-- The input symbols in order. -/
def inputSyms (s : State) : List Half := (List.range s.cfg.hinLen.toNat).map (inputSym s)

/-- The distinct symbols of a list in order of first occurrence (43_huffman.md R452). -/
def firstOccurrences (l : List Half) : List Half := l.foldl (fun acc x => if x ∈ acc then acc else acc ++ [x]) []

/-- A node's weight; an index outside the arena has none. -/
def nodeWeight (ns : List Node) (h : Nat) : Word :=
  match ns[h]? with
  | some (.leaf wt _) => wt
  | some (.internal wt _ _) => wt
  | none => 0#32

/-- The arena of a complete tree (43_huffman.md R455): the leaves first, then internal nodes whose children come before
them; the last node is the root, and every other node is the child of exactly one node. -/
def ArenaOk (syms : List HSym) (ns : List Node) (root : Nat) : Prop :=
  1 ≤ syms.length ∧ ns.length + 1 = 2 * syms.length ∧ root + 1 = ns.length ∧
  ns.take syms.length = leaves syms ∧
  (∀ (i : Nat) (wt : Word) (l r : Nat), ns[i]? = some (Node.internal wt l r) → l < i ∧ r < i) ∧
  (∀ i : Nat, syms.length ≤ i → i < ns.length →
    ∃ (wt : Word) (l r : Nat), ns[i]? = some (Node.internal wt l r)) ∧
  (childHandles ns).Perm (List.range root)

/-- Each internal node weighs what its children weigh together, and its first child is not the heavier
(43_huffman.md R456). -/
def WeightsOk (ns : List Node) : Prop :=
  ∀ (i : Nat) (wt : Word) (l r : Nat), ns[i]? = some (Node.internal wt l r) →
    wt = nodeWeight ns l + nodeWeight ns r ∧ nodeWeight ns l ≤ nodeWeight ns r

/-- The node reached from node `h` by the bits of a codeword: 0 to the first child, 1 to the second
(43_huffman.md R460). -/
def walk (ns : List Node) : Nat → List Bool → Option Nat
  | h, [] => if h < ns.length then some h else none
  | h, b :: t =>
    match ns[h]? with
    | some (.internal _ l r) => walk ns (if b then r else l) t
    | some (.leaf _ _) => none
    | none => none

/-- Leaf `i` has the codeword that leads from the root to it, and zeros above it (43_huffman.md R460, 20_memory.md
R162). -/
def CodesOk (ns : List Node) (root d : Nat) (codes : List Code) : Prop :=
  codes.length = d ∧
  ∀ (i : Nat) (c : Code), codes[i]? = some c →
    c.len ≤ Config.maxCl ∧ c.bits.toNat < 2 ^ c.len ∧ walk ns root (codeBits c) = some i

/-- No codeword is the start of another (43_huffman.md R471). -/
def PrefixFree (codes : List Code) : Prop :=
  ∀ (i j : Nat) (c d : Code), codes[i]? = some c → codes[j]? = some d → i ≠ j → ¬ codeBits c <+: codeBits d

/-- The tables of the stage are what the stage says they are (43_huffman.md R451), in canonical form (log 13). -/
def Huffman.Consistent (u : Huffman) : Prop :=
  u.syms.length ≤ Config.nsymMax ∧ (u.syms.map HSym.sym).Nodup ∧
  match u.stage with
  | .empty => u = Huffman.empty
  | .counted => u = Huffman.afterCount u.syms
  | .built => ArenaOk u.syms u.nodes u.root ∧ u = Huffman.afterBuild u.syms u.nodes u.root
  | .assigned =>
    ArenaOk u.syms u.nodes u.root ∧ CodesOk u.nodes u.root u.syms.length u.codes ∧
      u = Huffman.afterAssign u.syms u.nodes u.root u.codes

/-- The tables have the sizes of 10_state.md R91, whatever they hold: at most NSYM_MAX distinct symbols, at most NODE_MAX
nodes and a root handle of one, codewords of at most MAXCL bits with zeros above them, in stage 3 one for each
symbol. -/
def Huffman.Fits (u : Huffman) : Prop :=
  u.syms.length ≤ Config.nsymMax ∧ (u.syms.map HSym.sym).Nodup ∧ u.nodes.length ≤ Config.nodeMax ∧
    u.root < Config.nodeMax ∧ (∀ c ∈ u.codes, c.len ≤ Config.maxCl ∧ c.bits.toNat < 2 ^ c.len) ∧
    (u.stage = .assigned → u.codes.length = u.syms.length)

/-- The distinct-symbol table of a symbol sequence: each distinct symbol with its number of occurrences
(43_huffman.md R452). -/
def countTable (l : List Half) : List HSym :=
  (firstOccurrences l).map fun x => ⟨x, BitVec.ofNat 32 (l.count x)⟩

/-- The leaf of each symbol of a sequence: `is` names, for each symbol, a row of the table that holds it. -/
def LeavesOf (syms : List HSym) (l : List Half) (is : List Nat) : Prop :=
  is.length = l.length ∧
  ∀ (j i : Nat) (x : Half), is[j]? = some i → l[j]? = some x → ∃ y, syms[i]? = some y ∧ y.sym = x

/-- The 16-byte record of 20_memory.md R162 at address `a`. -/
def RecordAt (m : Memory) (a : Nat) (y : HSym) (c : Code) : Prop :=
  m.readLE a 2 = y.sym.toNat ∧ m.readLE (a + 2) 1 = c.len ∧ m.readLE (a + 3) 1 = 0 ∧
  m.readLE (a + 4) 4 = y.freq.toNat ∧ m.readLE (a + 8) 8 = c.bits.toNat

/-- The code table at address `a`: record `i` at `a + 16 * i`. -/
def TableAt (m : Memory) (a : Nat) (syms : List HSym) (codes : List Code) : Prop :=
  ∀ (i : Nat) (y : HSym) (c : Code), syms[i]? = some y → codes[i]? = some c → RecordAt m (a + 16 * i) y c

/-- The bit sequence at address `a`, first bit most significant, zeros past its end (20_memory.md R161). -/
def BitsAt (m : Memory) (a : Nat) (bits : List Bool) : Prop :=
  ∀ k n, k < byteCount bits.length → n < 8 →
    (m.read (a + k)).getLsbD (7 - n) = bits.getD (8 * k + n) false

/-- `n` is the longest codeword's length. -/
def IsLongest (codes : List Code) (n : Nat) : Prop := (∀ c ∈ codes, c.len ≤ n) ∧ ∃ c ∈ codes, c.len = n

/-! ## Invariants of the machine -/

/-- Memory is in its one canonical form. -/
def State.MemoryCanonical (s : State) : Prop := s.mem.wf = true

/-- Every valid matrix register has a legal shape and one element for each cell (10_state.md R50). -/
def State.MatricesLegal (s : State) : Prop := ∀ (d : MReg) (m : Mat), s.mregs[d] = some m → m.wf = true

/-- While the engine runs a command no error is pending and reset is not asserted (40_command.md R251, R621;
70_reset_and_hazards.md R700). -/
def State.BusyExclusive (s : State) : Prop :=
  s.status.busy = true → s.status.err = false ∧ s.resetPin = false

/-- ERRCODE holds a code of the table and nothing above bit 15 (60_exceptions.md R600, 10_state.md R68). -/
def State.ErrCodeLegal (s : State) : Prop := s.errRec.code.toNat < 65536 ∧ s.errRec.code.toNat % 256 ≤ 15

/-- The queue fits its capacity (10_state.md R90). -/
def State.QueueFits (s : State) : Prop := s.pq.heap.length ≤ Config.pqCap

/-- The Huffman tables have their sizes. -/
def State.HuffmanFits (s : State) : Prop := s.huff.Fits

/-- The Huffman tables are consistent. -/
def State.HuffmanConsistent (s : State) : Prop := s.huff.Consistent

end Sys2Proof.Machine
end

