-- ==== Sys2Proof/Certificates/Slice0/Obligations.lean ====
section
/-! DEFINITION. The statements for the provers. Each is a Prop; its docstring names the rules of spec/ it rests on. -/

section

open Sys2Proof Sys2Proof.Machine

/-! ## Encoding -/

/-- Decoding the word of a well-formed command gives the command back, with every operand at every value its field
admits (R201, R202, R206, R210). -/
def Obligations.DecodeOfEncode : Prop := ∀ i : Instr, wellFormed i = true → decode (encode i) = .ok i

/-- A word that decodes is the one word of its command, and the command is well formed (R202, R210, R216). -/
def Obligations.EncodeOfDecode : Prop :=
  ∀ (w : Word) (i : Instr), decode w = .ok i → encode i = w ∧ wellFormed i = true

/-- R215: a word is illegal exactly under the four conditions; an accepted illegal word raises ILLEGAL with the whole
word as ERRINFO and changes no other state; a word with OP 0 is illegal. -/
def Obligations.IllegalWords : Prop :=
  (∀ w : Word, (∃ e, decode w = .error e) ↔
    (¬∃ i : Instr, i.opcode = opField w) ∨ reservedField w ≠ 0#5 ∨
    (∃ i : Instr, i.opcode = opField w ∧ w &&& i.format.mask ≠ (opField w).setWidth 32) ∨
    ((opField w = 0x11#8 ∨ opField w = 0x12#8) ∧ 3 ≤ (bField w).val)) ∧
  (∀ (s : State) (e : DecodeError), s.inbox = [] → s.status.busy = true → s.resetPin = false →
    decode s.cmd = .error e → step s = .next (s.stopped 0x01#8 0#32 s.cmd)) ∧
  ∀ w : Word, opField w = 0#8 → ∃ e, decode w = .error e

/-- The fifteen worked encodings of R225, in both directions. -/
def Obligations.WorkedEncodings : Prop :=
  ∀ p ∈ [(0x00000001#32, Instr.nop), (0x04400210#32, .mzero 2 8 8), (0x04408011#32, .mload 0 8 8 .u8)] ++
      [(0x00005812#32, .mstore 3 .i16), (0x021A0013#32, .mget 1 0 3 4), (0x003C0514#32, .mset 5 2 7 0)] ++
      [(0x0000D118#32, .madd 1 2 3), (0x0001641C#32, .mmul 4 4 5), (0x00060E22#32, .mmuls 6 1 3)] ++
      [(0x0000402E#32, .meq 0 1), (0x0000382B#32, .mmin 0 7), (0x00000130#32, .fdct 1 0)] ++
      [(0x00000338#32, .xform true true), (0x00000041#32, .pqenq), (0x00000054#32, .huff)],
    decode p.1 = .ok p.2 ∧ encode p.2 = p.1

/-! ## The step -/

/-- While the engine is busy and reset is released, the engine's turn runs the decoded command (R254, R255): with no
input waiting, and when the oldest input leaves the engine its turn. A word placed by `withFetchWord` runs next. That
inputs are taken one by one, and what `withFetchWord` sets, are the model's choices (logs 1 and 2). -/
def Obligations.StepRunsDecodedCommand : Prop :=
  (∀ (s : State) (i : Instr), s.status.busy = true → s.resetPin = false → decode s.cmd = .ok i →
    (s.inbox = [] → step s = exec i s) ∧
    ∀ rest, s.inbox = .engineTurn :: rest → step s = exec i { s with inbox := rest }) ∧
  ∀ (s : State) (w : Nat) (i : Instr), w < 2 ^ 32 → decode (BitVec.ofNat 32 w) = .ok i →
    step (s.withFetchWord 32 w) = exec i (s.withFetchWord 32 w)

/-- R262: an idle engine starts nothing and changes nothing, memory included. -/
def Obligations.IdleEngineDoesNothing : Prop :=
  ∀ s : State, s.status.busy = false →
    (s.inbox = [] → step s = .next s) ∧
    ∀ rest, s.inbox = .engineTurn :: rest → step s = .next { s with inbox := rest }

/-- R250, R251, R252: a write to CMD is accepted when neither BUSY nor ERR is 1, and dropped with CMD_DROP otherwise;
nothing else changes. What CMD reads is the last accepted word. -/
def Obligations.OfferedCommand : Prop :=
  ∀ (s : State) (v : Word) (rest : List Input), s.resetPin = false → s.hostWrites 0x010 v rest →
    (s.status.busy = false ∧ s.status.err = false →
      step s = .next { s.took rest .written with cmd := v, status := { s.status with busy := true } }) ∧
    (s.status.busy = true ∨ s.status.err = true →
      step s = .next { s.took rest .written with status := { s.status with cmdDrop := true } }) ∧
    ∀ (t : State) (more : List Input), t.resetPin = false → t.hostReads 0x010 more →
      step t = .next (t.took more (.data t.cmd))

/-- R253: host writes while BUSY is 1. STATUS and IE act, CTRL with SRST resets, CMD is dropped, and every other write
to an RW register is ignored and sets WR_DROP. -/
def Obligations.BusyRegisterWrites : Prop :=
  ∀ (s : State) (v : Word) (rest : List Input), s.resetPin = false → s.status.busy = true →
    (s.hostWrites 0x008 v rest → step s = .next { s.took rest .written with
      status := ⟨true, s.status.done && !v.getLsbD 1, s.status.err && !v.getLsbD 2,
        s.status.cmdDrop && !v.getLsbD 3, s.status.wrDrop && !v.getLsbD 4⟩ }) ∧
    (s.hostWrites 0x00C v rest → step s = .next { s.took rest .written with
      cfg := { s.cfg with doneIe := v.getLsbD 1, errIe := v.getLsbD 2 } }) ∧
    (s.hostWrites 0x004 v rest → v.getLsbD 0 = true →
      step s = .next (({ s with inbox := rest } : State).doReset.setReply .written)) ∧
    (s.hostWrites 0x010 v rest → step s = .next { s.took rest .written with
      status := { s.status with cmdDrop := true } }) ∧
    ∀ off, (off = 0x004 ∧ v.getLsbD 0 = false ∨ off ∈ rwOffsets) → s.hostWrites off v rest →
      step s = .next { s.took rest .written with status := { s.status with wrDrop := true } }

/-- The register map (R60, R61): a read answers the word of the table and changes nothing but the reply; RES reads
while busy answer some word (R71); an offset outside the table reads 0; a write outside the RW and W1C registers and
CMD changes nothing. -/
def Obligations.RegisterMap : Prop :=
  ∀ (s : State) (off : Nat) (rest : List Input), s.resetPin = false → off < 4096 → off % 4 = 0 →
    (∀ v, (off, v) ∈ regTable s → (off ∈ resOffsets → s.status.busy = false) → s.hostReads off rest →
      step s = .next (s.took rest (.data v))) ∧
    (off ∈ resOffsets → s.status.busy = true → s.hostReads off rest →
      ∃ v n, step s = .next { s.took rest (.data v) with freeIdx := n }) ∧
    (off ∉ (regTable s).map Prod.fst → s.hostReads off rest → step s = .next (s.took rest (.data 0#32))) ∧
    ∀ v, off ∉ [0x004, 0x008, 0x00C, 0x010] → off ∉ rwOffsets → s.hostWrites off v rest →
      step s = .next (s.took rest .written)

/-- A write to an RW register while idle is read back, reserved bits as 0, and no other register changes
(R60, R61, R63, R65, R53, R70, R72, R73, R80). -/
def Obligations.ConfigWriteReadsBack : Prop :=
  ∀ (s : State) (off other : Nat) (v : Word) (rest : List Input), s.resetPin = false → s.status.busy = false →
    s.inbox = .host (.portWrite (BitVec.ofNat 12 off) 4 v) :: .host (.portRead (BitVec.ofNat 12 other) 4) :: rest →
    other < 4096 → other % 4 = 0 →
    (off ∈ rwOffsets ∨ off = 0x00C ∨ off = 0x004 ∧ v.getLsbD 0 = false) →
    ∃ t x, step s = .next t ∧ step t = .next (t.took rest (.data x)) ∧
      (other = off → x = if 0x100 ≤ off then v &&& 0xFFFF#32 else if off = 0x004 then v &&& 0xE#32
        else if off = 0x00C then v &&& 0x6#32 else v) ∧
      (other ≠ off → step { s with inbox := .host (.portRead (BitVec.ofNat 12 other) 4) :: rest } =
        .next (s.took rest (.data x)))

/-- STATUS and the interrupt (R64, R620, R630): a write of STATUS clears the W1C bits written 1 and nothing else; after
ERR is cleared an idle engine accepts a command; IRQ is DONE with its enable or ERR with its enable. -/
def Obligations.StatusAndInterrupt : Prop :=
  (∀ (s : State) (v : Word) (rest : List Input), s.resetPin = false → s.hostWrites 0x008 v rest →
    step s = .next { s.took rest .written with
      status := ⟨s.status.busy, s.status.done && !v.getLsbD 1, s.status.err && !v.getLsbD 2,
        s.status.cmdDrop && !v.getLsbD 3, s.status.wrDrop && !v.getLsbD 4⟩ }) ∧
  (∀ (s : State) (v w : Word) (rest : List Input), s.resetPin = false → s.status.busy = false →
    v.getLsbD 2 = true →
    s.hostWrites 0x008 v (.host (.portWrite 0x010#12 4 w) :: rest) →
    ∃ t u, step s = .next t ∧ step t = .next u ∧ u.cmd = w ∧ u.status.busy = true ∧ u.errRec = s.errRec) ∧
  ∀ s : State, s.irq = true ↔
    s.status.done = true ∧ s.cfg.doneIe = true ∨ s.status.err = true ∧ s.cfg.errIe = true

/-- Soft reset (R702, R700, R95): whatever the other bits written and whether or not the engine is busy, every piece of
the engine's state takes its reset value and the write completes; memory changes only in the output regions of a
command that was running (every byte of them, log 10). -/
def Obligations.SoftReset : Prop :=
  ∀ (s : State) (v : Word) (rest : List Input), s.MemoryCanonical → s.resetPin = false → v.getLsbD 0 = true →
    s.hostWrites 0x004 v rest →
    ∃ t, step s = .next t ∧
      t = { State.reset with
        mem := t.mem, holes := s.holes, devices := s.devices, inbox := rest, reply := .written,
        freeIdx := t.freeIdx } ∧
      (∀ a, outside ({ s with inbox := rest } : State).runningOuts a → t.mem.read a = s.mem.read a) ∧
      (s.status.busy = false → t.mem = s.mem)

/-- Hardware reset (R700, R95): asserting the reset input resets the engine at once. While it is asserted the engine
makes no step, writes have no effect and reads answer some word. Releasing it changes nothing else. What the host gets
back under reset is the model's choice (log 16). -/
def Obligations.HardwareReset : Prop :=
  ∀ (s : State) (rest : List Input), s.MemoryCanonical →
    (s.inbox = .host .resetAssert :: rest → ∃ t, step s = .next t ∧
      t = { State.reset with mem := t.mem, holes := s.holes, devices := s.devices, resetPin := true, inbox := rest,
                             reply := s.reply, freeIdx := t.freeIdx } ∧
      (∀ a, outside ({ s with inbox := rest } : State).runningOuts a → t.mem.read a = s.mem.read a) ∧
      (s.status.busy = false → t.mem = s.mem)) ∧
    (s.resetPin = true →
      (s.inbox = .engineTurn :: rest → step s = .next { s with inbox := rest }) ∧
      (∀ off size v, s.inbox = .host (.portWrite off size v) :: rest → step s = .next (s.took rest .noResponse)) ∧
      ∀ off size, s.inbox = .host (.portRead off size) :: rest →
        ∃ v n, step s = .next { s.took rest (.data v) with freeIdx := n }) ∧
    (s.inbox = .host .resetRelease :: rest → step s = .next { s with inbox := rest, resetPin := false })

/-- A port access that is not 32 bits wide or not at a multiple of 4 gets an error response and changes nothing: no
register, no STATUS bit, no error record (R61, R602). -/
def Obligations.BadPortAccess : Prop :=
  ∀ (s : State) (off : BitVec 12) (size : Nat) (rest : List Input), s.resetPin = false →
    (size ≠ 4 ∨ off.toNat % 4 ≠ 0) →
    (s.inbox = .host (.portRead off size) :: rest → step s = .next (s.took rest .portError)) ∧
    ∀ v, s.inbox = .host (.portWrite off size v) :: rest → step s = .next (s.took rest .portError)

/-- After reset (R95, R81, R82, R703): every register of the map reads its reset value, the basis ROM the two halves
of each entry (its bits are those of ConstantTables), no matrix register is valid, the queue is empty with PQSEQ 0,
the Huffman unit is in stage 0, and IRQ is low. -/
def Obligations.ResetValues : Prop :=
  (∀ off v, (off, v) ∈ regTable State.reset →
    (off = 0 ∧ v = 0x44435401#32) ∨
    (0x200 ≤ off ∧ off < 0x400 ∧
      v = (basis.get ((off - 0x200) / 64) ((off - 0x200) / 8 % 8)).extractLsb' (if off % 8 = 0 then 0 else 32) 32) ∨
    (0x100 ≤ off ∧ off < 0x200 ∧ v = ((Config.qtabRows.getD ((off - 0x100) / 4) 0).setWidth 32)) ∨
    (0 < off ∧ off < 0x100 ∧ v = 0#32)) ∧
  Config.qtabRows.map BitVec.toNat =
    [16, 11, 10, 16, 24, 40, 51, 61, 12, 12, 14, 19, 26, 58, 60, 55, 14, 13, 16, 24, 40, 57, 69, 56] ++
    [14, 17, 22, 29, 51, 87, 80, 62, 18, 22, 37, 56, 68, 109, 103, 77, 24, 35, 55, 64, 81, 104, 113, 92] ++
    [49, 64, 78, 87, 103, 121, 120, 101, 72, 92, 95, 98, 112, 100, 103, 99] ∧
  (∀ d : MReg, State.reset.mregs[d] = none) ∧ State.reset.pq = ⟨[], 0#32⟩ ∧
  State.reset.huff.stage = .empty ∧ State.reset.huff.syms = [] ∧ State.reset.irq = false

/-- The host's own accesses to memory (R170), whether or not a command runs: a byte that the running command neither
reads nor writes takes the value the host writes, and no other byte changes; a byte outside its output regions reads as
memory's byte; a byte of them, whether or not the command comes to write it, or one of a device (R158), reads as some
byte (R711); a byte it reads or writes is not the host's to write. The output regions of XFORM and HASSIGN are those of
R160 and R171, whatever error the command is bound for. With no command running no byte is the command's. That such a
write is refused by name, that a byte of these regions counts although an error ends the command before it gets there,
and that the host may touch a running machine's other bytes, are the model's choices (logs 18 and 20). -/
def Obligations.HostMemoryAccess : Prop :=
  ∀ (s : State) (a : Word) (b : Byte) (rest : List Input), s.MemoryCanonical →
    let u : State := { s with inbox := rest }
    (outside (u.runningIns ++ u.runningOuts) a.toNat → s.inbox = .host (.memWrite a b) :: rest →
      ∃ m, step s = .next { s.took rest .written with mem := m } ∧
        ∀ c, Memory.read m c = if c = a.toNat then b else s.mem.read c) ∧
    (¬outside (u.runningIns ++ u.runningOuts) a.toNat → s.inbox = .host (.memWrite a b) :: rest →
      step s = .refused (.hostTouchesRunning a.toNat)) ∧
    (outside (s.devices ++ u.runningBuffers) a.toNat → s.inbox = .host (.memRead a) :: rest →
      step s = .next (s.took rest (.byte (s.mem.read a.toNat)))) ∧
    (¬outside (s.devices ++ u.runningBuffers) a.toNat → s.inbox = .host (.memRead a) :: rest →
      ∃ x n, step s = .next { s.took rest (.byte x) with freeIdx := n }) ∧
    (s.status.busy = true →
      (∀ etq erec, decode s.cmd = .ok (.xform etq erec) →
        let n := s.cfg.imgDim.toNat % 65536 * (s.cfg.imgDim.toNat / 65536)
        u.runningBuffers = [⟨s.cfg.zzDst.toNat, 2 * n⟩] ++ (if etq then [⟨s.cfg.tqDst.toNat, 2 * n⟩] else []) ++
          (if erec then [⟨s.cfg.recDst.toNat, n⟩] else [])) ∧
      (decode s.cmd = .ok .hassign → u.runningBuffers = [⟨s.cfg.htabDst.toNat, 16 * s.huff.syms.length⟩])) ∧
    (s.status.busy = false → u.runningIns = [] ∧ u.runningOuts = [] ∧ u.runningBuffers = [])

/-! ## Invariants -/

/-- Every step keeps memory in its canonical form. -/
def Obligations.StepKeepsMemoryCanonical : Prop :=
  ∀ s t : State, s.MemoryCanonical → step s = .next t → t.MemoryCanonical

/-- Every step keeps every valid matrix register at a legal shape, 1 to 8 by 1 to 8, with one element for each cell
(R11, R50). -/
def Obligations.StepKeepsMatricesLegal : Prop :=
  ∀ s t : State, s.MatricesLegal → step s = .next t → t.MatricesLegal

/-- Every step keeps: no error pending and reset released while busy (R251, R621, R700); ERRCODE a code of the table
with bits 31:16 zero (R68, R600); the queue within its capacity (R90, R500). -/
def Obligations.StepKeepsControlLegal : Prop :=
  ∀ s t : State, s.BusyExclusive ∧ s.ErrCodeLegal ∧ s.QueueFits → step s = .next t →
    t.BusyExclusive ∧ t.ErrCodeLegal ∧ t.QueueFits

/-- Every step keeps the Huffman tables within the sizes of R91, with distinct symbols. Every step whose running command,
if there is one, reads no device keeps them what their stage says: a complete tree over the symbols from stage 2 on, and
in stage 3 codewords that lead from the root to their leaves (R451, R452, R455, R460); a command that reads a device may
leave any tables (R158, log 20). That the tables a stage does not hold are empty or 0, which `Consistent` also says, is
the model's choice: R91 leaves them UNSPECIFIED (log 13). -/
def Obligations.StepKeepsHuffmanConsistent : Prop :=
  ∀ s t : State, step s = .next t →
    (s.HuffmanFits → t.HuffmanFits) ∧
    (s.HuffmanConsistent → s.OffDevices s.runningIns → t.HuffmanConsistent)

/-- The reset state meets every invariant. -/
def Obligations.ResetMeetsInvariants : Prop :=
  State.reset.MemoryCanonical ∧ State.reset.MatricesLegal ∧ State.reset.BusyExclusive ∧
    State.reset.ErrCodeLegal ∧ State.reset.QueueFits ∧ State.reset.HuffmanConsistent ∧
    State.reset.HuffmanFits

/-! ## How commands end, and what they leave unchanged -/

/-- Every command ends, in exactly one of two ways: completion (CMDCNT counts, DONE set, no error recorded) or error
(ERR set and a code of the table recorded, DONE and CMDCNT unchanged); BUSY is cleared in both
(R257, R258, R259, R605, R610). -/
def Obligations.CommandEndsOnce : Prop :=
  ∀ (i : Instr) (s : State), ∃ t, exec i s = .next t ∧ t.status.busy = false ∧
    ((t.cmdcnt = s.cmdcnt + 1#32 ∧ t.status.done = true ∧ t.status.err = s.status.err ∧ t.errRec = s.errRec) ∨
     (t.cmdcnt = s.cmdcnt ∧ t.status.done = s.status.done ∧ t.status.err = true ∧
      ∃ n, 2 ≤ n ∧ n ≤ 15 ∧ t.errRec.code = 0#16 ++ opField s.cmd ++ BitVec.ofNat 8 n))

/-- The register frame of every command: it writes only its destination registers, HBITS and the queue and the Huffman
tables if its rule says so, and DONE, ERR, BUSY, CMDCNT and the error record (R51, R53, R71, R74, R90, R451). -/
def Obligations.RegisterFrame : Prop :=
  ∀ (i : Instr) (s t : State), opField s.cmd = i.opcode → exec i s = .next t →
    t.cfg = s.cfg ∧ t.cmd = s.cmd ∧ t.holes = s.holes ∧ t.devices = s.devices ∧ t.resetPin = s.resetPin ∧
    t.inbox = s.inbox ∧ t.reply = s.reply ∧ t.status.cmdDrop = s.status.cmdDrop ∧ t.status.wrDrop = s.status.wrDrop ∧
    (∀ d : MReg, destM i ≠ some d → t.mregs[d] = s.mregs[d]) ∧
    (∀ k : SReg, destS i ≠ some k → t.sregs[k] = s.sregs[k]) ∧
    (∀ k : Fin 4, k ∉ destRes i → t.res[k] = s.res[k]) ∧
    (writesHbits i = false → t.hbits = s.hbits) ∧ (usesQueue i = false → t.pq = s.pq) ∧
    (isHuffman i = false → t.huff = s.huff)

/-- The memory frame of every command (R157, R158, R160, R171, R261): one that stores nothing leaves every byte as it
was; a storing one (MSTORE, XFORM, HASSIGN, HEMIT, HUFF) changes no byte outside its output regions, which `outRegions`
computes from the state before the command, whether it completes or fails. A command that stores nothing draws no free
value unless it reads a device. Which regions a failing command has, and those of a command that reads a device, are the
model's reading (logs 7, 8, 9 and 20). -/
def Obligations.MemoryFrame : Prop :=
  ∀ (i : Instr) (s t : State), exec i s = .next t →
    (storesToMemory i = false → (∀ a, t.mem.read a = s.mem.read a) ∧
      (s.OffDevices (inRegions i s) → t.freeIdx = s.freeIdx)) ∧
    (storesToMemory i = true → s.MemoryCanonical →
      ∀ a, outside (outRegions i s) a → t.mem.read a = s.mem.read a)

/-- A command that fails writes no matrix, scalar or RES register and not HBITS; only HBUILD and HUFF may change the
queue; a Huffman command clears its unit, another leaves it (R256, R261, R470, R610). -/
def Obligations.ErrorWritesNoRegister : Prop :=
  ∀ (i : Instr) (s t : State), opField s.cmd = i.opcode → exec i s = .next t → t.cmdcnt = s.cmdcnt →
    t.mregs = s.mregs ∧ t.sregs = s.sregs ∧ t.res = s.res ∧ t.hbits = s.hbits ∧
    (i ≠ .hbuild → i ≠ .huff → t.pq = s.pq) ∧
    t.huff = if isHuffman i then Huffman.empty else s.huff

/-! ## Binary64 -/

/-- Results that are not numbers, infinities and zeros (R300 to R303): a NaN result of an operation is the canonical
NaN, whatever NaN the operands are; the special cases of the rules; results with one or two infinite operands and the
sign of a zero quotient, as the standard R300 names gives them (log 19), with the vector fdiv(-0, 5) = -0. -/
def Obligations.SpecialValues : Prop :=
  (∀ x y : F64, ∀ z ∈ [fadd x y, fsub x y, fmul x y, fdiv x y, roundInt x true, roundInt x false],
    fIsNaN z = true → z = qNaN) ∧
  (∀ x y : F64, fIsNaN x = true ∨ fIsNaN y = true → ∀ z ∈ [fadd x y, fsub x y, fmul x y, fdiv x y], z = qNaN) ∧
  (∀ x y : F64, fIsFinite x = true → fIsZero x = false → fIsZero y = true →
    fdiv x y = fInf (fSign x != fSign y)) ∧
  (∀ x y : F64, (fIsZero x = true ∧ fIsZero y = true) ∨ (fIsInf x = true ∧ fIsInf y = true) → fdiv x y = qNaN) ∧
  (∀ x y : F64, fIsZero x = true → fIsInf y = true → fmul x y = qNaN ∧ fmul y x = qNaN) ∧
  fadd (fZero false) (fZero true) = fZero false ∧ fadd (fZero true) (fZero true) = fZero true ∧
  (∀ x : F64, fIsFinite x = true → fsub x x = fZero false) ∧
  (∀ x y : F64, fIsFinite x = true → fIsFinite y = true → (fIsZero x = true ∨ fIsZero y = true) →
    fmul x y = fZero (fSign x != fSign y)) ∧
  (∀ (x : F64) (b : Bool), fIsFinite x = true →
    fadd x (fInf b) = fInf b ∧ fadd (fInf b) x = fInf b ∧ fsub x (fInf b) = fInf (!b) ∧ fsub (fInf b) x = fInf b ∧
    fdiv (fInf b) x = fInf (b != fSign x) ∧ fdiv x (fInf b) = fZero (fSign x != b) ∧
    (fIsZero x = false → fmul x (fInf b) = fInf (fSign x != b) ∧ fmul (fInf b) x = fInf (b != fSign x))) ∧
  (∀ a b : Bool, fmul (fInf a) (fInf b) = fInf (a != b) ∧
    fadd (fInf a) (fInf b) = (if a = b then fInf a else qNaN) ∧
    fsub (fInf a) (fInf b) = if a = b then qNaN else fInf a) ∧
  (∀ x y : F64, fIsZero x = true → fIsFinite y = true → fIsZero y = false →
    fdiv x y = fZero (fSign x != fSign y)) ∧
  fdiv 0x8000000000000000#64 0x4014000000000000#64 = 0x8000000000000000#64

/-- Each operation on finite values rounds the exact result once, to nearest with ties to even, keeps subnormals, and
overflows to infinity (R300). `f64` does the same for integers (R17). -/
def Obligations.CorrectlyRounded : Prop :=
  (∀ x y : F64, fIsFinite x = true → fIsFinite y = true →
    NearestEven (fadd x y) ((fVal x : ℚ) + fVal y) ∧ NearestEven (fsub x y) ((fVal x : ℚ) - fVal y) ∧
    NearestEven (fmul x y) ((fVal x : ℚ) * fVal y / fUnit) ∧
    (fIsZero y = false → NearestEven (fdiv x y) ((fVal x : ℚ) * fUnit / fVal y))) ∧
  ∀ n : Int, NearestEven (f64 n) ((n : ℚ) * fUnit)

/-- R323: rounding to an integral value, in both modes, with the rule's examples. The mode is CTRL.RND, half to even at
reset. -/
def Obligations.RoundToInteger : Prop :=
  (∀ (x : F64) (rm : Bool),
    (fIsNaN x = true → roundInt x rm = qNaN) ∧
    (fIsInf x = true ∨ fIsZero x = true → roundInt x rm = x) ∧
    (fIsFinite x = true → fIsZero x = false → ∃ n : Int, NearestInt n (fVal x) rm ∧
      roundInt x rm = if n = 0 then fZero (fSign x) else f64 n) ∧
    (fIsFinite x = true → (2 : Int) ^ 52 * fUnit ≤ |fVal x| → roundInt x rm = x)) ∧
  -- 2.5, -2.5, -0.5, 0.49999999999999994 and 1.5
  roundInt 0x4004000000000000#64 false = f64 2 ∧ roundInt 0x4004000000000000#64 true = f64 3 ∧
  roundInt 0xC004000000000000#64 false = f64 (-2) ∧ roundInt 0xC004000000000000#64 true = f64 (-3) ∧
  roundInt 0xBFE0000000000000#64 false = fZero true ∧ roundInt 0xBFE0000000000000#64 true = f64 (-1) ∧
  (∀ rm, roundInt 0x3FDFFFFFFFFFFFFF#64 rm = fZero false) ∧ roundInt 0x3FF8000000000000#64 false = f64 2 ∧
  State.reset.cfg.rnd = false ∧
  ∀ (d a : MReg) (m : Mat) (s : State), s.mregs[a] = some m → ∃ x,
    HasElements x m.h m.w (fun r c => roundInt (m.get r c) s.cfg.rnd) ∧ exec (.mround d a) s = .next (s.setM d x).complete

/-- Conversion to i16 saturates and takes NaN to 0 (R324); conversion to u8 clamps and truncates (R325). -/
def Obligations.IntegerConversions : Prop :=
  (∀ (x : F64) (rm : Bool), (fIsNaN x = true → toI16 x rm = 0#16) ∧
    (fIsNaN x = false →
      toI16 x rm = BitVec.ofInt 16 (max (-32768) (min 32767 (fExt (roundInt x rm) / fUnit))))) ∧
  ∀ x : F64, (fIsNaN x = true ∨ fExt x ≤ 0 → clampByte x = 0#8) ∧
    (fIsNaN x = false → 255 * fUnit ≤ fExt x → clampByte x = 255#8) ∧
    (fIsNaN x = false → 0 < fExt x → fExt x < 255 * fUnit → clampByte x = BitVec.ofInt 8 (fExt x / fUnit))

/-- R304, R305: fabs clears bit 63 and keeps the others; a comparison is false with a NaN and otherwise compares the
values, infinities outermost and the two zeros equal. -/
def Obligations.AbsoluteAndComparisons : Prop :=
  (∀ (x : F64) (n : Nat), n < 64 → (fabs x).getLsbD n = (x.getLsbD n && decide (n ≠ 63))) ∧
  (∀ x y : F64, fIsNaN x = true ∨ fIsNaN y = true → flt x y = false ∧ fgt x y = false ∧ feq x y = false) ∧
  ∀ x y : F64, fIsNaN x = false → fIsNaN y = false →
    (flt x y = true ↔ fExt x < fExt y) ∧ (fgt x y = true ↔ fExt y < fExt x) ∧ (feq x y = true ↔ fExt x = fExt y)

/-! ## The command processor and the matrix unit -/

/-- R270: NOP completes and does nothing else: CMDCNT counts, DONE is set, BUSY cleared. Any bit of 31:8 set with its
OP value makes the word illegal. -/
def Obligations.NopCompletes : Prop :=
  (∀ s : State, exec .nop s =
    .next { s with cmdcnt := s.cmdcnt + 1#32, status := { s.status with done := true, busy := false } }) ∧
  decode 0x00000001#32 = .ok .nop ∧
  ∀ w : Word, opField w = 0x01#8 → w ≠ 0x00000001#32 → ∃ e, decode w = .error e

/-- MZERO makes an h by w matrix of +0.0 for 1 to 8 rows and columns, and raises SHAPE with `{h, w}` otherwise
(R310, R601). -/
def Obligations.MzeroResult : Prop :=
  ∀ (d : MReg) (h w : Nat) (s : State),
    (1 ≤ h ∧ h ≤ 8 ∧ 1 ≤ w ∧ w ≤ 8 →
      exec (.mzero d h w) s = .next (s.setM d ⟨h, w, List.replicate (h * w) 0#64⟩).complete) ∧
    (opField s.cmd = 0x10#8 → ¬(1 ≤ h ∧ h ≤ 8 ∧ 1 ≤ w ∧ w ≤ 8) →
      exec (.mzero d h w) s = .next (s.stopped 0x06#8 0#32 (BitVec.ofNat 32 (h * 16 + w))))

/-- MLOAD (R312, R153, R155, R158, R601): with a legal shape and every element's bytes answering it completes, and
element (r, c) comes from the little-endian bytes at ARG0 + r * ARG1 + c * es: F64 their 64 bits, I16 f64 of the
signed, U8 of the unsigned integer. When an element lies on a device with read side effects, some matrix of that shape
is loaded (log 20). The first byte in row-major element order that does not answer raises BUS with its address and 8r
+ c; an illegal shape raises SHAPE. -/
def Obligations.MloadResult : Prop :=
  ∀ (d : MReg) (h w : Nat) (f : Fmt) (s : State),
    let es : Nat := match f with
      | .f64 => 8
      | .i16 => 2
      | .u8 => 1
    let value : Nat → F64 := fun raw => match f with
      | .f64 => BitVec.ofNat 64 raw
      | .i16 => f64 (BitVec.ofNat 16 raw).toInt
      | .u8 => f64 (raw : Int)
    let a := fun r c => s.cfg.arg0.toNat + r * s.cfg.arg1.toNat + c * es
    (1 ≤ h ∧ h ≤ 8 ∧ 1 ≤ w ∧ w ≤ 8 → (∀ r c, r < h → c < w → rangeOk s.holes (a r c) es) →
      ∃ m n, m.wf = true ∧ m.h = h ∧ m.w = w ∧
        exec (.mload d h w f) s = .next { (s.setM d m).complete with freeIdx := n } ∧
        ((∀ r c, r < h → c < w → ∀ dev ∈ s.devices, Region.Apart ⟨a r c, es⟩ dev) →
          n = s.freeIdx ∧ HasElements m h w fun r c => value (s.mem.readLE (a r c) es))) ∧
    (opField s.cmd = 0x11#8 → 1 ≤ h ∧ h ≤ 8 ∧ 1 ≤ w ∧ w ≤ 8 → ∀ r c k, r < h → c < w → k < es →
      (∀ r' c', r' < h → c' < w → r' < r ∨ (r' = r ∧ c' < c) → rangeOk s.holes (a r' c') es) →
      rangeOk s.holes (a r c) k → memOk s.holes (a r c + k) = false →
      exec (.mload d h w f) s =
        .next (s.stopped 0x09#8 (BitVec.ofNat 32 (a r c + k)) (BitVec.ofNat 32 (8 * r + c)))) ∧
    (opField s.cmd = 0x11#8 → ¬(1 ≤ h ∧ h ≤ 8 ∧ 1 ≤ w ∧ w ≤ 8) →
      exec (.mload d h w f) s = .next (s.stopped 0x06#8 0#32 (BitVec.ofNat 32 (h * 16 + w))))

/-- MSTORE (R313, R171, R601): with every element's bytes answering it completes and changes memory only; when no two
elements share a byte, element (r, c) is stored little-endian at ARG0 + r * ARG1 + c * es: F64 its 64 bits, I16 toI16
in the mode of CTRL.RND, U8 clampByte. The first byte that does not answer raises BUS, a write, with its address and
8r + c, and leaves every register. -/
def Obligations.MstoreResult : Prop :=
  ∀ (a : MReg) (f : Fmt) (m : Mat) (s : State), s.MemoryCanonical → s.mregs[a] = some m →
    let es : Nat := match f with
      | .f64 => 8
      | .i16 => 2
      | .u8 => 1
    let raw : F64 → Nat := fun x => match f with
      | .f64 => x.toNat
      | .i16 => (toI16 x s.cfg.rnd).toNat
      | .u8 => (clampByte x).toNat
    let at_ := fun r c => s.cfg.arg0.toNat + r * s.cfg.arg1.toNat + c * es
    ((∀ r c, r < m.h → c < m.w → rangeOk s.holes (at_ r c) es) →
      ∃ t, exec (.mstore a f) s = .next t ∧ t = { s.complete with mem := t.mem, freeIdx := t.freeIdx } ∧
        ((∀ r c r' c', r < m.h → c < m.w → r' < m.h → c' < m.w → ¬(r = r' ∧ c = c') →
            Region.Apart ⟨at_ r c, es⟩ ⟨at_ r' c', es⟩) →
          ∀ r c, r < m.h → c < m.w → t.mem.readLE (at_ r c) es = raw (m.get r c))) ∧
    (opField s.cmd = 0x12#8 → ∀ r c k, r < m.h → c < m.w → k < es →
      (∀ r' c', r' < m.h → c' < m.w → r' < r ∨ (r' = r ∧ c' < c) → rangeOk s.holes (at_ r' c') es) →
      rangeOk s.holes (at_ r c) k → memOk s.holes (at_ r c + k) = false →
      ∃ t, exec (.mstore a f) s = .next t ∧
        t = { s.stopped 0x09#8 (BitVec.ofNat 32 (at_ r c + k)) (BitVec.ofNat 32 (2 ^ 31 + (8 * r + c) % 2 ^ 31)) with
          mem := t.mem, freeIdx := t.freeIdx })

/-- MGET and MSET (R314, R315, R601): inside the matrix, MGET copies the element's 64 bits and MSET replaces that one
element; outside it both raise INDEX with `{row, col, h, w}`. -/
def Obligations.ElementAccess : Prop :=
  ∀ (k : SReg) (a : MReg) (row col : Nat) (m : Mat) (s : State), s.mregs[a] = some m →
    (row < m.h → col < m.w →
      exec (.mget k a row col) s = .next (s.setS k (m.get row col)).complete ∧
      ∃ m', exec (.mset a k row col) s = .next (s.setM a m').complete ∧ m'.h = m.h ∧ m'.w = m.w ∧
        m'.e.length = m.e.length ∧ (m.e.length = m.h * m.w → m'.get row col = s.sregs[k]) ∧
        ∀ r c, r < m.h → c < m.w → ¬(r = row ∧ c = col) → m'.get r c = m.get r c) ∧
    (¬(row < m.h ∧ col < m.w) →
      let info : Word := BitVec.ofNat 8 row ++ BitVec.ofNat 8 col ++ BitVec.ofNat 8 m.h ++ BitVec.ofNat 8 m.w
      (opField s.cmd = 0x13#8 → exec (.mget k a row col) s = .next (s.stopped 0x03#8 0#32 info)) ∧
      (opField s.cmd = 0x14#8 → exec (.mset a k row col) s = .next (s.stopped 0x03#8 0#32 info)))

/-- MMOV, MTRANS, MABS, MROUND, LVLSUB and LVLADD (R316, R326, R327, R328, R414, R415): the value each gives from a
valid source, of any shape, in place or not. -/
def Obligations.UnaryResults : Prop :=
  ∀ (d a : MReg) (m : Mat) (s : State), s.mregs[a] = some m →
    exec (.mmov d a) s = .next (s.setM d m).complete ∧
    (∃ x, HasElements x m.w m.h (fun r c => m.get c r) ∧ exec (.mtrans d a) s = .next (s.setM d x).complete) ∧
    (∃ x, HasElements x m.h m.w (fun r c => fabs (m.get r c)) ∧
      exec (.mabs d a) s = .next (s.setM d x).complete) ∧
    (∃ x, HasElements x m.h m.w (fun r c => roundInt (m.get r c) s.cfg.rnd) ∧
      exec (.mround d a) s = .next (s.setM d x).complete) ∧
    (∃ x, HasElements x m.h m.w (fun r c => fsub (m.get r c) (f64 128)) ∧
      exec (.lvlsub d a) s = .next (s.setM d x).complete) ∧
    ∃ x, HasElements x m.h m.w (fun r c => fadd (m.get r c) (f64 128)) ∧
      exec (.lvladd d a) s = .next (s.setM d x).complete

/-- MTRANS twice completes twice and gives the matrix back bit for bit, NaNs included (R326). -/
def Obligations.TransposeTwice : Prop :=
  ∀ (d a : MReg) (m : Mat) (s : State), s.MatricesLegal → s.mregs[a] = some m →
    ∃ x, exec (.mtrans d a) s = .next (s.setM d x).complete ∧
      exec (.mtrans d d) (s.setM d x).complete = .next ((s.setM d x).complete.setM d m).complete

/-- MADD, MSUB, MDIV, MEMUL on matrices of one shape (R317 to R320), and MADDS, MSUBS, MMULS, MDIVS with a scalar
register, the matrix element first (R340 to R343): the elementwise results; no element value raises an error. -/
def Obligations.ArithmeticResults : Prop :=
  (∀ (d a b : MReg) (x y : Mat) (s : State), s.mregs[a] = some x → s.mregs[b] = some y → x.h = y.h → x.w = y.w →
    let gives := fun (i : Instr) (f : F64 → F64 → F64) => ∃ z,
      HasElements z x.h x.w (fun r c => f (x.get r c) (y.get r c)) ∧ exec i s = .next (s.setM d z).complete
    gives (.madd d a b) fadd ∧ gives (.msub d a b) fsub ∧ gives (.mdiv d a b) fdiv ∧ gives (.memul d a b) fmul) ∧
  ∀ (d a : MReg) (k : SReg) (x : Mat) (s : State), s.mregs[a] = some x →
    let gives := fun (i : Instr) (f : F64 → F64 → F64) => ∃ z,
      HasElements z x.h x.w (fun r c => f (x.get r c) s.sregs[k]) ∧ exec i s = .next (s.setM d z).complete
    gives (.madds d a k) fadd ∧ gives (.msubs d a k) fsub ∧ gives (.mmuls d a k) fmul ∧ gives (.mdivs d a k) fdiv

/-- MMUL, FDCT and IDCT (R321, R322, R410, R411): MMUL of square matrices of one size is the product of R322; FDCT is
(BASIS * A) * BASIS^T and IDCT (BASIS^T * A) * BASIS, left product first. -/
def Obligations.ProductResults : Prop :=
  (∀ (d a b : MReg) (x y : Mat) (s : State), s.mregs[a] = some x → s.mregs[b] = some y →
    x.w = x.h → y.h = x.h → y.w = x.h →
    ∃ z, IsProduct z x y x.h ∧ exec (.mmul d a b) s = .next (s.setM d z).complete) ∧
  ∀ (d a : MReg) (x : Mat) (s : State), s.mregs[a] = some x → x.h = 8 → x.w = 8 →
    (∃ p z, IsProduct p basis x 8 ∧ IsProduct z p basisT 8 ∧ exec (.fdct d a) s = .next (s.setM d z).complete) ∧
    ∃ p z, IsProduct p basisT x 8 ∧ IsProduct z p basis 8 ∧ exec (.idct d a) s = .next (s.setM d z).complete

/-- MMIN and MMAX (R329, R330): the first element in row-major order that no element is below, or above. A NaN is
selected only when it is element (0, 0). -/
def Obligations.ExtremaResults : Prop :=
  ∀ (k : SReg) (a : MReg) (m : Mat) (s : State), s.mregs[a] = some m → m.wf = true →
    (∃ v, IsExtreme flt m v ∧ exec (.mmin k a) s = .next (s.setS k v).complete) ∧
    ∃ v, IsExtreme fgt m v ∧ exec (.mmax k a) s = .next (s.setS k v).complete

/-- MZIGZAG (R333): element i of the result, row-major, is the source's cell ZZ[i]; the result's elements are a
permutation of the source's. -/
def Obligations.ZigzagResult : Prop :=
  ∀ (d a : MReg) (m : Mat) (s : State), s.mregs[a] = some m → m.h = 8 → m.w = 8 → m.e.length = 64 →
    ∃ z, z.h = 8 ∧ z.w = 8 ∧ z.e.length = 64 ∧
      (∀ i, i < 64 → z.get (i / 8) (i % 8) = m.get (zz i / 8) (zz i % 8)) ∧ z.e.Perm m.e ∧
      exec (.mzigzag d a) s = .next (s.setM d z).complete

/-- MEQ (R331): RES0 is 1 exactly when the shapes agree and every pair of elements is equal; a shape difference is no
error. -/
def Obligations.EqualityResult : Prop :=
  ∀ (a b : MReg) (x y : Mat) (s : State), s.mregs[a] = some x → s.mregs[b] = some y →
    let eq := x.h = y.h ∧ x.w = y.w ∧ ∀ r c, r < x.h → c < x.w → feq (x.get r c) (y.get r c) = true
    (eq → exec (.meq a b) s = .next (s.setRes 0 1#32).complete) ∧
    (¬eq → exec (.meq a b) s = .next (s.setRes 0 0#32).complete)

/-- QUANT and DEQUANT on an 8 by 8 operand (R405, R412, R413): with no zero in QTAB, element (r, c) is divided or
multiplied by f64(QTAB[8r + c]); otherwise QZERO with the lowest index that holds 0. -/
def Obligations.QuantizerResults : Prop :=
  ∀ (d a : MReg) (m : Mat) (s : State), s.mregs[a] = some m → m.h = 8 → m.w = 8 →
    ((∀ i : Fin 64, s.cfg.qtab[i] ≠ 0#16) →
      (∃ z, HasElements z 8 8 (fun r c => fdiv (m.get r c) (f64 ((s.cfg.qAt (8 * r + c)).toNat : Int))) ∧
        exec (.quant d a) s = .next (s.setM d z).complete) ∧
      ∃ z, HasElements z 8 8 (fun r c => fmul (m.get r c) (f64 ((s.cfg.qAt (8 * r + c)).toNat : Int))) ∧
        exec (.dequant d a) s = .next (s.setM d z).complete) ∧
    ∀ i : Fin 64, s.cfg.qtab[i] = 0#16 → (∀ j : Fin 64, j < i → s.cfg.qtab[j] ≠ 0#16) →
      (opField s.cmd = 0x32#8 → exec (.quant d a) s = .next (s.stopped 0x08#8 0#32 (BitVec.ofNat 32 i.val))) ∧
      (opField s.cmd = 0x33#8 → exec (.dequant d a) s = .next (s.stopped 0x08#8 0#32 (BitVec.ofNat 32 i.val)))

/-! ## Errors of the checks -/

/-- UNINIT (R52, R260, R308, R315): the first invalid source register, A before B, with its number, for every command
that reads a matrix register. -/
def Obligations.UninitRaised : Prop :=
  ∀ (i : Instr) (a : MReg) (before after : List MReg) (s : State), opField s.cmd = i.opcode →
    sourcesOf i = before ++ a :: after → (∀ b ∈ before, s.mregs[b] ≠ none) → s.mregs[a] = none →
    exec i s = .next (s.stopped 0x05#8 0#32 (BitVec.ofNat 32 a.val))

/-- DIM (R308, R601): with valid sources, shapes that break the command's law raise DIM with `{h_a, w_a, h_b, w_b}`,
or `{h_a, w_a, 0, 0}` for one operand. -/
def Obligations.DimRaised : Prop :=
  (∀ (d a b : MReg) (x y : Mat) (s : State), s.mregs[a] = some x → s.mregs[b] = some y →
    let info : Word := BitVec.ofNat 8 x.h ++ BitVec.ofNat 8 x.w ++ BitVec.ofNat 8 y.h ++ BitVec.ofNat 8 y.w
    (¬(x.h = y.h ∧ x.w = y.w) → ∀ i ∈ [Instr.madd d a b, .msub d a b, .mdiv d a b, .memul d a b],
      opField s.cmd = i.opcode → exec i s = .next (s.stopped 0x02#8 0#32 info)) ∧
    (¬(x.w = x.h ∧ y.h = x.h ∧ y.w = x.h) → opField s.cmd = 0x1C#8 →
      exec (.mmul d a b) s = .next (s.stopped 0x02#8 0#32 info))) ∧
  ∀ (d a : MReg) (x : Mat) (s : State), s.mregs[a] = some x → ¬(x.h = 8 ∧ x.w = 8) →
    ∀ i ∈ [Instr.mzigzag d a, .fdct d a, .idct d a, .quant d a, .dequant d a], opField s.cmd = i.opcode →
      exec i s = .next (s.stopped 0x02#8 0#32 (BitVec.ofNat 8 x.h ++ BitVec.ofNat 8 x.w ++ 0#16))

/-! ## The transform pipeline -/

/-- The constant tables: the basis ROM (R401), entry by entry from the eight magnitudes and the sign table, its
transpose, and the zigzag order (R332), whose inverse is the rule's second table. -/
def Obligations.ConstantTables : Prop :=
  (∀ r c, r < 8 → c < 8 → basis.get r c =
    let m := ([[1, 1, 1, 1, 1, 1, 1, 1], [1, 3, 5, 7, 17, 15, 13, 11], [2, 6, 16, 12, 12, 16, 6, 2]] ++
      [[3, 17, 11, 15, 5, 1, 7, 13], [4, 14, 14, 4, 4, 14, 14, 4], [5, 11, 7, 3, 13, 17, 1, 15]] ++
      [[6, 12, 2, 16, 16, 2, 12, 6], [7, 15, 3, 11, 1, 13, 5, 17]]).getD r [] |>.getD c 0
    let mag := [0x3FD6A09E667F3BCD#64, 0x3FDF6297CFF75CB0#64, 0x3FDD906BCF328D46#64, 0x3FDA9B66290EA1A3#64,
      0x3FD6A09E667F3BCD#64, 0x3FD1C73B39AE68C8#64, 0x3FC87DE2A6AEA963#64, 0x3FB8F8B83C69A60B#64]
    if r = 0 then 0x3FD6A09E667F3BCD#64
    else if m < 10 then mag.getD m 0#64 else 0x8000000000000000#64 ||| mag.getD (m - 10) 0#64) ∧
  (∀ r c, r < 8 → c < 8 → basisT.get r c = basis.get c r) ∧
  ∀ i, i < 64 → ([0, 1, 5, 6, 14, 15, 27, 28, 2, 4, 7, 13, 16, 26, 29, 42, 3, 8, 12, 17, 25, 30, 41, 43] ++
    [9, 11, 18, 24, 31, 40, 44, 53, 10, 19, 23, 32, 39, 45, 52, 54, 20, 22, 33, 38, 46, 51, 55, 60] ++
    [21, 34, 37, 47, 50, 56, 59, 61, 35, 36, 48, 49, 57, 58, 62, 63]).getD (zz i) 99 = i ∧ zz i < 64

/-- XFORM (R420, R160, R601): with sides that are multiples of 8, no zero in QTAB and every region answering, it
completes with RES0 the number of blocks and changes nothing else but memory. When its regions share no byte, each
block's ZZ, TQ and REC outputs are those of the pipeline on the block's input samples. With the raster on a device with
read side effects RES0 is some word (R158, log 20). The first byte that does not answer, in the order of R420's
accesses, raises BUS with its address, read or write, and its block; IMGDIM and QZERO come before, in that order. -/
def Obligations.XformResult : Prop :=
  ∀ (etq erec : Bool) (s : State), s.MemoryCanonical →
    let c := s.cfg
    let w := c.imgDim.toNat % 65536
    let h := c.imgDim.toNat / 65536
    let ins := [(⟨c.imgSrc.toNat, w * h⟩ : Region)]
    let outs := [(⟨c.zzDst.toNat, 2 * (w * h)⟩ : Region)] ++
      (if etq then [(⟨c.tqDst.toNat, 2 * (w * h)⟩ : Region)] else []) ++
      (if erec then [(⟨c.recDst.toNat, w * h⟩ : Region)] else [])
    (w % 8 = 0 → h % 8 = 0 → (∀ i : Fin 64, c.qtab[i] ≠ 0#16) →
      (∀ r ∈ ins ++ outs, rangeOk s.holes r.base r.len) →
      ∃ t v, exec (.xform etq erec) s = .next t ∧
        t = { (s.setRes 0 v).complete with mem := t.mem, freeIdx := t.freeIdx } ∧
        (s.OffDevices ins → v = BitVec.ofNat 32 (w / 8 * (h / 8))) ∧
        (s.OffDevices ins → (ins ++ outs).Pairwise Region.Apart → ∀ by_ bx, by_ < h / 8 → bx < w / 8 →
          let b := sampleBlock s.mem (c.imgSrc.toNat + 8 * by_ * w + 8 * bx) w
          let tr := blockTr c b
          (∀ i, i < 64 → t.mem.readLE (c.zzDst.toNat + 2 * (64 * (by_ * (w / 8) + bx) + i)) 2 =
            (toI16 (tr.get (zz i / 8) (zz i % 8)) c.rnd).toNat) ∧
          (etq = true → ∀ r k, r < 8 → k < 8 →
            t.mem.readLE (c.tqDst.toNat + 2 * ((8 * by_ + r) * w + 8 * bx + k)) 2 =
              (toI16 (tr.get r k) c.rnd).toNat) ∧
          (erec = true → ∀ r k, r < 8 → k < 8 →
            t.mem.read (c.recDst.toNat + (8 * by_ + r) * w + 8 * bx + k) = clampByte ((blockRec c tr).get r k)))) ∧
    (opField s.cmd = 0x38#8 → w % 8 = 0 → h % 8 = 0 → (∀ i : Fin 64, c.qtab[i] ≠ 0#16) →
      ∀ (before after : List (Bool × Access)) (x : Bool × Access) (k : Nat),
        xformAccesses c etq erec = before ++ x :: after →
        (∀ y ∈ before, rangeOk s.holes y.2.addr y.2.size) → k < x.2.size → rangeOk s.holes x.2.addr k →
        memOk s.holes (x.2.addr + k) = false →
        ∃ t, exec (.xform etq erec) s = .next t ∧
          t = { s.stopped 0x09#8 (BitVec.ofNat 32 (x.2.addr + k))
              (BitVec.ofNat 32 ((if x.1 then 2 ^ 31 else 0) + x.2.idx % 2 ^ 31)) with
            mem := t.mem, freeIdx := t.freeIdx }) ∧
    (opField s.cmd = 0x38#8 → ¬(w % 8 = 0 ∧ h % 8 = 0) →
      exec (.xform etq erec) s = .next (s.stopped 0x07#8 0#32 c.imgDim)) ∧
    (opField s.cmd = 0x38#8 → w % 8 = 0 → h % 8 = 0 → ∀ i : Fin 64, c.qtab[i] = 0#16 →
      (∀ j : Fin 64, j < i → c.qtab[j] ≠ 0#16) →
      exec (.xform etq erec) s = .next (s.stopped 0x08#8 0#32 (BitVec.ofNat 32 i.val)))

/-- R423: XFORM agrees with the stepwise commands. On plain memory (R158) the nine commands run on a block of the raster
give in M[4] the rounded coefficients, in M[5] the ZZ sequence before toI16 and in M[7] the reconstruction that XFORM
writes for that block. -/
def Obligations.XformAgreesWithCommands : Prop :=
  ∀ (s : State) (by_ bx : Nat), s.MemoryCanonical →
    let c := s.cfg
    let w := c.imgDim.toNat % 65536
    let h := c.imgDim.toNat / 65536
    let regions := [(⟨c.imgSrc.toNat, w * h⟩ : Region), ⟨c.zzDst.toNat, 2 * (w * h)⟩, ⟨c.tqDst.toNat, 2 * (w * h)⟩,
      ⟨c.recDst.toNat, w * h⟩]
    w % 8 = 0 → h % 8 = 0 → (∀ i : Fin 64, c.qtab[i] ≠ 0#16) → by_ < h / 8 → bx < w / 8 →
    (∀ r ∈ regions, rangeOk s.holes r.base r.len) → regions.Pairwise Region.Apart →
    s.OffDevices [⟨c.imgSrc.toNat, w * h⟩] → c.arg0.toNat = c.imgSrc.toNat + 8 * by_ * w + 8 * bx → c.arg1.toNat = w →
    ∃ t u m4 m5 m7,
      runCommands ([.mload 0 8 8 .u8, .lvlsub 1 0, .fdct 2 1, .quant 3 2, .mround 4 3, .mzigzag 5 4, .dequant 6 4] ++
        [.idct 7 6, .lvladd 7 7]) s = .next t ∧
      exec (.xform true true) s = .next u ∧
      t.mregs[4] = some m4 ∧ t.mregs[5] = some m5 ∧ t.mregs[7] = some m7 ∧
      m4 = blockTr c (sampleBlock s.mem c.arg0.toNat w) ∧
      (∀ i, i < 64 → u.mem.readLE (c.zzDst.toNat + 2 * (64 * (by_ * (w / 8) + bx) + i)) 2 =
        (toI16 (m5.get (i / 8) (i % 8)) c.rnd).toNat) ∧
      (∀ r k, r < 8 → k < 8 → u.mem.readLE (c.tqDst.toNat + 2 * ((8 * by_ + r) * w + 8 * bx + k)) 2 =
        (toI16 (m4.get r k) c.rnd).toNat) ∧
      ∀ r k, r < 8 → k < 8 →
        u.mem.read (c.recDst.toNat + (8 * by_ + r) * w + 8 * bx + k) = clampByte (m7.get r k)

/-! ## The priority queue -/

/-- PQCLR and PQENQ (R502, R503): PQCLR leaves an empty queue with PQSEQ 0; PQENQ adds the entry with key ARG0, payload
ARG1 and the value of PQSEQ, which then counts; a full queue raises PQFULL and is unchanged. -/
def Obligations.QueueInsertResults : Prop :=
  ∀ s : State,
    exec .pqclr s = .next (s.setPq ⟨[], 0#32⟩).complete ∧
    (s.pq.heap.length ≠ 4096 → ∃ q, exec .pqenq s = .next (s.setPq q).complete ∧
      q.heap.Perm (⟨s.cfg.arg0, s.cfg.arg1, s.pq.seq⟩ :: s.pq.heap) ∧ q.seq = s.pq.seq + 1#32) ∧
    (s.pq.heap.length = 4096 → opField s.cmd = 0x41#8 →
      exec .pqenq s = .next (s.stopped 0x0A#8 0#32 4096#32))

/-- PQDEQ and PQPEEK (R504, R505): RES0 and RES1 take the root's key and payload; PQDEQ removes the root and keeps
PQSEQ, PQPEEK changes no queue state; an empty queue raises EMPTY. R511: five entries, four of them of one key, enqueued
into an empty min-queue, leave in the order of the rule's table, for either HTIE. -/
def Obligations.QueueRemoveResults : Prop :=
  (∀ s : State,
    (∀ top rest, s.pq.heap = top :: rest →
      (∃ q, exec .pqdeq s = .next (((s.setPq q).setRes 0 top.key).setRes 1 top.payload).complete ∧
        q.heap.Perm rest ∧ q.seq = s.pq.seq) ∧
      exec .pqpeek s = .next ((s.setRes 0 top.key).setRes 1 top.payload).complete) ∧
    (s.pq.heap = [] →
      (opField s.cmd = 0x42#8 → exec .pqdeq s = .next (s.stopped 0x04#8 0#32 0#32)) ∧
      (opField s.cmd = 0x43#8 → exec .pqpeek s = .next (s.stopped 0x04#8 0#32 0#32)))) ∧
  ∀ s : State, s.pq = ⟨[], 0#32⟩ → s.cfg.pqmax = false →
    ∃ t, enqueueAll [(2#32, 0#32), (2#32, 1#32), (2#32, 2#32), (2#32, 3#32), (1#32, 4#32)] s = .next t ∧
      dequeueAll 5 t = some (if s.cfg.htie then
          [(1#32, 4#32), (2#32, 0#32), (2#32, 1#32), (2#32, 2#32), (2#32, 3#32)]
        else [(1#32, 4#32), (2#32, 1#32), (2#32, 3#32), (2#32, 2#32), (2#32, 0#32)])

/-- Heap order (R507): every step that leaves CTRL.PQMAX and CTRL.HTIE as they are keeps every entry from being better
than its parent, as PQENQ and PQDEQ do; and then no entry is better than the root that PQDEQ and PQPEEK give: its key is the smallest, or with PQMAX = 1 the largest; with
HTIE = 1 it is the entry of the lowest sequence number among those of its key (R501). -/
def Obligations.HeapOrderKept : Prop :=
  ∀ s t : State, HeapOrdered s.cfg.heapOrder s.pq.heap →
    (step s = .next t → t.cfg.pqmax = s.cfg.pqmax → t.cfg.htie = s.cfg.htie →
      HeapOrdered t.cfg.heapOrder t.pq.heap) ∧
    (exec .pqenq s = .next t → HeapOrdered s.cfg.heapOrder t.pq.heap) ∧
    (exec .pqdeq s = .next t → HeapOrdered s.cfg.heapOrder t.pq.heap) ∧
    ∀ top rest, s.pq.heap = top :: rest →
      (∀ e ∈ s.pq.heap, better s.cfg.heapOrder e top = false) ∧
      (∀ e ∈ s.pq.heap, if s.cfg.pqmax then e.key ≤ top.key else top.key ≤ e.key) ∧
      (s.cfg.htie = true → ∀ e ∈ s.pq.heap, e.key = top.key → top.seq ≤ e.seq)

/-! ## The Huffman unit -/

/-- HCOUNT (R450, R452): with the input answering, off every device, and at most 4096 distinct symbols it completes in
stage 1; the table holds the distinct symbols in order of first occurrence with their exact counts; RES0 is their
number. On a device with read side effects it completes with some table and some RES0 when the input has at most 4096
symbols (R158; that it completes is the model's reading, log 20). -/
def Obligations.HcountResult : Prop :=
  ∀ s : State, rangeOk s.holes s.cfg.hinAddr.toNat (2 * s.cfg.hinLen.toNat) →
    (s.OffDevices [⟨s.cfg.hinAddr.toNat, 2 * s.cfg.hinLen.toNat⟩] →
      (firstOccurrences (inputSyms s)).length ≤ 4096 →
      exec .hcount s = .next ((s.setHuff (Huffman.afterCount (countTable (inputSyms s)))).setRes 0
        (BitVec.ofNat 32 (firstOccurrences (inputSyms s)).length)).complete) ∧
    (s.cfg.hinLen.toNat ≤ 4096 →
      ∃ syms v n, exec .hcount s =
        .next { ((s.setHuff (Huffman.afterCount syms)).setRes 0 v).complete with freeIdx := n })

/-- HBUILD (R455, R456): with 1 to 4096 counted symbols it completes in stage 2 with the queue empty, a complete tree
whose leaves come first and whose root is its last node, RES0 the root and RES1 the number of nodes. When the counts
sum below 2^32, each internal node weighs its children's sum and its first child is not the heavier. Equal weights leave
in the heap's order, or in enqueue order with HTIE = 1: the internal nodes of vector T-H2, for either HTIE (R473). -/
def Obligations.HbuildResult : Prop :=
  ∀ s : State, s.huff.stage ≠ .empty → 1 ≤ s.huff.syms.length → s.huff.syms.length ≤ 4096 →
    let d := s.huff.syms.length
    ∃ ns, exec .hbuild s = .next ((((s.setPq ⟨[], 0#32⟩).setHuff (Huffman.afterBuild s.huff.syms ns (2 * d - 2))).setRes
        0 (BitVec.ofNat 32 (2 * d - 2))).setRes 1 (BitVec.ofNat 32 (2 * d - 1))).complete ∧
      ArenaOk s.huff.syms ns (2 * d - 2) ∧
      ((s.huff.syms.map fun y => y.freq.toNat).sum < 2 ^ 32 → WeightsOk ns) ∧
      (s.huff.syms = [⟨7#16, 2#32⟩, ⟨3#16, 2#32⟩, ⟨5#16, 2#32⟩, ⟨9#16, 1#32⟩] →
        ns.drop 4 = if s.cfg.htie then [.internal 3#32 3 0, .internal 4#32 1 2, .internal 7#32 4 5]
          else [.internal 3#32 3 1, .internal 4#32 2 0, .internal 7#32 4 5])

/-- HASSIGN (R460, R162, R601): in stage 2 or 3, with a complete tree no deeper than 64 and the code table answering, it
completes in stage 3; each leaf's codeword is its path from the root, with zeros above it; the records are in memory; RES0 is D, RES1 the
longest codeword, RES2 and RES3 the sum of count times length. The first byte of the table that does not answer raises
BUS, a write, with its address and its record; a tree with a leaf deeper than 64 raises CODELEN with the lowest such
leaf. Both leave the unit in stage 0 and every other register. -/
def Obligations.HassignResult : Prop :=
  ∀ s : State, s.MemoryCanonical → s.huff.stage = .built ∨ s.huff.stage = .assigned →
    ArenaOk s.huff.syms s.huff.nodes s.huff.root →
    let d := s.huff.syms.length
    let a := s.cfg.htabDst.toNat
    ((∀ bits h, walk s.huff.nodes s.huff.root bits = some h → bits.length ≤ 64) →
      (rangeOk s.holes a (16 * d) →
        ∃ codes longest mem, CodesOk s.huff.nodes s.huff.root d codes ∧ IsLongest codes longest ∧
          TableAt mem a s.huff.syms codes ∧
          let total : BitVec 64 := BitVec.ofNat 64 (List.zipWith (fun (y : HSym) (c : Code) => y.freq.toNat * c.len)
            s.huff.syms codes).sum
          exec .hassign s = .next ((((((s.setMem mem).setHuff
            (⟨.assigned, s.huff.syms, s.huff.nodes, s.huff.root, codes, total⟩ : Huffman)).setRes 0
              (BitVec.ofNat 32 d)).setRes 1 (BitVec.ofNat 32 longest)).setRes 2
                (total.extractLsb' 0 32)).setRes 3 (total.extractLsb' 32 32)).complete) ∧
      (opField s.cmd = 0x52#8 → ∀ i k, i < d → k < 16 → rangeOk s.holes a (16 * i + k) →
        memOk s.holes (a + 16 * i + k) = false →
        ∃ t, exec .hassign s = .next t ∧
          t = { s.stoppedHuffman 0x09#8 (BitVec.ofNat 32 (a + 16 * i + k)) (BitVec.ofNat 32 (2 ^ 31 + i % 2 ^ 31)) with
            mem := t.mem, freeIdx := t.freeIdx })) ∧
    (opField s.cmd = 0x52#8 → ∀ (i : Nat) (bits : List Bool), i < d →
      walk s.huff.nodes s.huff.root bits = some i → 64 < bits.length →
      (∀ j path, j < i → walk s.huff.nodes s.huff.root path = some j → path.length ≤ 64) →
      ∃ t, exec .hassign s = .next t ∧
        t = { s.stoppedHuffman 0x0E#8 0#32 (BitVec.ofNat 32 i) with mem := t.mem, freeIdx := t.freeIdx })

/-- HEMIT (R463, R160, R161, R601): in stage 3, with the input off every device (R158), every input symbol in the table
and room for the bits, it completes; RES0, RES1 and HBITS hold the number of bits. When the output shares no byte with
the input, the codewords of the input symbols in order are in memory, first bit most significant, zeros after the last.
The first byte of the output that does not answer raises BUS, a write, with its address and its index. -/
def Obligations.HemitResult : Prop :=
  ∀ (s : State) (is : List Nat), s.MemoryCanonical → s.HuffmanConsistent → s.huff.stage = .assigned →
    let input : Region := ⟨s.cfg.hinAddr.toNat, 2 * s.cfg.hinLen.toNat⟩
    rangeOk s.holes input.base input.len → s.OffDevices [input] → LeavesOf s.huff.syms (inputSyms s) is →
    let bits := is.flatMap fun i => codeBits (s.huff.codes.getD i ⟨0, 0#64⟩)
    let n := (bits.length + 7) / 8
    let b := BitVec.ofNat 64 bits.length
    let a := s.cfg.houtDst.toNat
    n ≤ s.cfg.houtCap.toNat →
    (rangeOk s.holes a n →
      ∃ t, exec .hemit s = .next t ∧
        t = { (((s.setHbits b).setRes 0 (b.extractLsb' 0 32)).setRes 1 (b.extractLsb' 32 32)).complete with
          mem := t.mem, freeIdx := t.freeIdx } ∧
        (Region.Apart input ⟨a, n⟩ → BitsAt t.mem a bits)) ∧
    (opField s.cmd = 0x53#8 → ∀ k, k < n → rangeOk s.holes a k → memOk s.holes (a + k) = false →
      ∃ t, exec .hemit s = .next t ∧
        t = { s.stoppedHuffman 0x09#8 (BitVec.ofNat 32 (a + k)) (BitVec.ofNat 32 (2 ^ 31 + k % 2 ^ 31)) with
          mem := t.mem, freeIdx := t.freeIdx })

/-- HUFF (R466, R463, R470, R601): counting, building, assigning and emitting in one command. With the input answering,
not empty, off every device (R158) and apart from the code table, at most 4096 distinct symbols, a code of at most 64
bits, and room for the bits, it completes in stage 3 with the tables of the four bodies, an empty queue, HBITS and RES;
each leaf's codeword is its path from the root, with zeros above it (R162); the number of bits is the sum of count times length. When the output shares no byte with the input or the code table,
table and bits are in memory. Its later errors, each with the unit cleared and the queue empty: BUS at the first byte of
the code table that does not answer; HOUTCAP when the bits do not fit, which writes no byte of the output; BUS at the
first byte of the output that does not answer. -/
def Obligations.HuffResult : Prop :=
  ∀ (s : State) (ns : List Node) (root : Nat) (codes : List Code) (is : List Nat) (longest : Nat),
    s.MemoryCanonical → s.cfg.hinLen ≠ 0#32 →
    let syms := countTable (inputSyms s)
    let input : Region := ⟨s.cfg.hinAddr.toNat, 2 * s.cfg.hinLen.toNat⟩
    let table : Region := ⟨s.cfg.htabDst.toNat, 16 * syms.length⟩
    rangeOk s.holes input.base input.len → s.OffDevices [input] →
    syms.length ≤ 4096 → buildTree s.cfg.huffOrder syms = .ok (ns, root) →
    assignCodes ns root syms.length = .ok codes → IsLongest codes longest → LeavesOf syms (inputSyms s) is →
    let bits := is.flatMap fun i => codeBits (codes.getD i ⟨0, 0#64⟩)
    let n := (bits.length + 7) / 8
    let b := BitVec.ofNat 64 bits.length
    let a := s.cfg.houtDst.toNat
    let stops := fun (code : Byte) (addr info : Nat) (t : State) => exec .huff s = .next t ∧
      t = { (s.stoppedHuffman code (BitVec.ofNat 32 addr) (BitVec.ofNat 32 info)).setPq ⟨[], 0#32⟩ with
        mem := t.mem, freeIdx := t.freeIdx }
    CodesOk ns root syms.length codes ∧
    bits.length = (List.zipWith (fun (y : HSym) (c : Code) => y.freq.toNat * c.len) syms codes).sum ∧
    (opField s.cmd = 0x54#8 → ∀ i k, i < syms.length → k < 16 → rangeOk s.holes table.base (16 * i + k) →
      memOk s.holes (table.base + 16 * i + k) = false →
      ∃ t, stops 0x09#8 (table.base + 16 * i + k) (2 ^ 31 + i % 2 ^ 31) t) ∧
    (rangeOk s.holes table.base table.len → Region.Apart input table →
      (n ≤ s.cfg.houtCap.toNat → rangeOk s.holes a n →
        ∃ t, exec .huff s = .next t ∧
          t = { ((((((s.setPq ⟨[], 0#32⟩).setHuff ⟨.assigned, syms, ns, root, codes, b⟩).setHbits b).setRes 0
            (BitVec.ofNat 32 syms.length)).setRes 1 (BitVec.ofNat 32 longest)).setRes 2 (b.extractLsb' 0 32)
              |>.setRes 3 (b.extractLsb' 32 32)).complete with mem := t.mem, freeIdx := t.freeIdx } ∧
          (Region.Apart input ⟨a, n⟩ → Region.Apart table ⟨a, n⟩ →
            TableAt t.mem table.base syms codes ∧ BitsAt t.mem a bits)) ∧
      (opField s.cmd = 0x54#8 → s.cfg.houtCap.toNat < n →
        ∃ t, stops 0x0D#8 0 (min n (2 ^ 32 - 1)) t ∧
          (Region.Apart input ⟨a, n⟩ → Region.Apart table ⟨a, n⟩ →
            ∀ x, table.has x = false → t.mem.read x = s.mem.read x)) ∧
      (opField s.cmd = 0x54#8 → n ≤ s.cfg.houtCap.toNat → ∀ k, k < n → rangeOk s.holes a k →
        memOk s.holes (a + k) = false → ∃ t, stops 0x09#8 (a + k) (2 ^ 31 + k % 2 ^ 31) t))

/-- The code of a consistent unit in stage 3 is prefix-free, and complete when it has two or more symbols: the sum of
2^-length is 1 (R471). -/
def Obligations.CodesPrefixFreeAndComplete : Prop :=
  ∀ s : State, s.HuffmanConsistent → s.huff.stage = .assigned →
    PrefixFree s.huff.codes ∧
    (2 ≤ s.huff.syms.length → (s.huff.codes.map fun c => (2 : ℚ) ^ (-(c.len : Int))).sum = 1)

/-- The code that HUFF assigns with its input off every device (R158), and the one HASSIGN assigns after HBUILD, is
optimal: no lengths that meet Kraft's inequality, so no prefix code, give the counted symbols a shorter total
(R471). -/
def Obligations.HuffCodeOptimal : Prop :=
  let optimal := fun (t : State) => ∀ lens : List Nat, lens.length = t.huff.syms.length →
    (lens.map fun (n : Nat) => (2 : ℚ) ^ (-(n : Int))).sum ≤ 1 →
    (List.zipWith (fun (y : HSym) (c : Code) => y.freq.toNat * c.len) t.huff.syms t.huff.codes).sum ≤
      (List.zipWith (fun (y : HSym) (n : Nat) => y.freq.toNat * n) t.huff.syms lens).sum
  (∀ s t : State, s.OffDevices [⟨s.cfg.hinAddr.toNat, 2 * s.cfg.hinLen.toNat⟩] → exec .huff s = .next t →
    t.cmdcnt = s.cmdcnt + 1#32 → optimal t) ∧
  ∀ s u t : State, (s.huff.syms.map fun y => y.freq.toNat).sum < 2 ^ 32 → s.huff.syms.length ≤ 4096 →
    exec .hbuild s = .next u → u.cmdcnt = s.cmdcnt + 1#32 → exec .hassign u = .next t →
    t.cmdcnt = u.cmdcnt + 1#32 → optimal t

/-- A Huffman command in a stage it does not accept raises SEQ with HSTAGE, and building a tree over no symbol raises
EMPTY; each clears the unit (R451, R456, R466, R470). That HBUILD's SEQ also empties the queue is the model's reading
(log 11). -/
def Obligations.HuffmanStageErrors : Prop :=
  ∀ s : State,
    (s.huff.stage = .empty → opField s.cmd = 0x51#8 →
      exec .hbuild s = .next ((s.stoppedHuffman 0x0C#8 0#32 0#32).setPq ⟨[], 0#32⟩)) ∧
    (s.huff.stage = .empty ∨ s.huff.stage = .counted → opField s.cmd = 0x52#8 →
      exec .hassign s = .next (s.stoppedHuffman 0x0C#8 0#32 (BitVec.ofNat 32 s.huff.stage.toNat))) ∧
    (s.huff.stage ≠ .assigned → opField s.cmd = 0x53#8 →
      exec .hemit s = .next (s.stoppedHuffman 0x0C#8 0#32 (BitVec.ofNat 32 s.huff.stage.toNat))) ∧
    (s.huff.stage ≠ .empty → s.huff.syms = [] → opField s.cmd = 0x51#8 →
      exec .hbuild s = .next ((s.stoppedHuffman 0x04#8 0#32 0#32).setPq ⟨[], 0#32⟩)) ∧
    (s.cfg.hinLen = 0#32 → opField s.cmd = 0x54#8 →
      exec .huff s = .next ((s.stoppedHuffman 0x04#8 0#32 0#32).setPq ⟨[], 0#32⟩))

/-- Errors while symbols are read, with the input off every device (R452, R463, R466, R601): the first symbol, in input
order, that does not answer raises BUS, that would be the 4097th distinct one raises SYMCAP in HCOUNT and HUFF, or that
is in no row raises NOSYM in HEMIT; a bit sequence larger than HOUT_CAP raises HOUTCAP. Each records the address and
index its rule names and clears the unit. HCOUNT leaves memory untouched, and so does HEMIT's NOSYM, and its HOUTCAP
when the bytes of the sequence share none with the input. HEMIT's BUS leaves open the buffer and HUFF's errors its code
table and buffer, as far as the input could have filled them, and nothing else (R261, R171): at most the longest
codeword for each symbol in HEMIT, at most a record for each symbol in HUFF, and no bits for a single symbol. That
reach, which HOUT_CAP does not cut, is the model's reading (log 7). -/
def Obligations.HuffmanInputErrors : Prop :=
  ∀ (s : State) (j : Nat), j < s.cfg.hinLen.toNat →
    let a := s.cfg.hinAddr.toNat
    let input : Region := ⟨a, 2 * s.cfg.hinLen.toNat⟩
    let most := huffMost s.cfg (answered s.holes s.mem s.cfg)
    let table : Region := ⟨s.cfg.htabDst.toNat, 16 * most.1⟩
    let buffer : Region := ⟨s.cfg.houtDst.toNat, (most.2 + 7) / 8⟩
    let longest := emitMost false s.holes s.mem s.cfg s.huff.syms s.huff.codes
    let seen := (inputSyms s).take j
    -- the error is raised, and memory changes in the regions only
    let stops := fun (i : Instr) (rs : List Region) (code : Byte) (addr info : Nat) => ∃ t, exec i s = .next t ∧
      t = { s.stoppedHuffman code (BitVec.ofNat 32 addr) (BitVec.ofNat 32 info) with
        mem := t.mem, freeIdx := t.freeIdx } ∧
      (s.MemoryCanonical → ∀ x, outside rs x → t.mem.read x = s.mem.read x)
    most.1 ≤ min 4096 s.cfg.hinLen.toNat ∧ (s.cfg.hinLen = 1#32 → most.2 = 0) ∧
    (∀ n, (∀ c ∈ s.huff.codes, c.len ≤ n) → longest ≤ s.cfg.hinLen.toNat * n) ∧
    (s.OffDevices [input] → rangeOk s.holes a (2 * j) →
    (opField s.cmd = 0x50#8 → (firstOccurrences seen).length ≤ 4096 →
      (∀ k, k < 2 → rangeOk s.holes (a + 2 * j) k → memOk s.holes (a + 2 * j + k) = false →
        exec .hcount s =
          .next (s.stoppedHuffman 0x09#8 (BitVec.ofNat 32 (a + 2 * j + k)) (BitVec.ofNat 32 (j % 2 ^ 31)))) ∧
      (rangeOk s.holes (a + 2 * j) 2 → (firstOccurrences seen).length = 4096 → inputSym s j ∉ seen →
        exec .hcount s = .next (s.stoppedHuffman 0x0B#8 (BitVec.ofNat 32 (a + 2 * j)) (BitVec.ofNat 32 j)))) ∧
    (opField s.cmd = 0x54#8 → (firstOccurrences seen).length ≤ 4096 →
      (∀ k, k < 2 → rangeOk s.holes (a + 2 * j) k → memOk s.holes (a + 2 * j + k) = false →
        stops .huff [table, buffer] 0x09#8 (a + 2 * j + k) (j % 2 ^ 31)) ∧
      (rangeOk s.holes (a + 2 * j) 2 → (firstOccurrences seen).length = 4096 → inputSym s j ∉ seen →
        stops .huff [table, buffer] 0x0B#8 (a + 2 * j) j)) ∧
    (opField s.cmd = 0x53#8 → s.huff.stage = .assigned → (∀ x ∈ seen, ∃ y ∈ s.huff.syms, y.sym = x) →
      (∀ k, k < 2 → rangeOk s.holes (a + 2 * j) k → memOk s.holes (a + 2 * j + k) = false →
        stops .hemit [⟨s.cfg.houtDst.toNat, (longest + 7) / 8⟩] 0x09#8 (a + 2 * j + k) (j % 2 ^ 31)) ∧
      (rangeOk s.holes (a + 2 * j) 2 → (¬∃ y ∈ s.huff.syms, y.sym = inputSym s j) →
        exec .hemit s = .next (s.stoppedHuffman 0x0F#8 (BitVec.ofNat 32 (a + 2 * j)) (BitVec.ofNat 32 j))) ∧
      ∀ is, s.HuffmanConsistent → rangeOk s.holes a (2 * s.cfg.hinLen.toNat) → LeavesOf s.huff.syms (inputSyms s) is →
        let n := ((is.flatMap fun i => codeBits (s.huff.codes.getD i ⟨0, 0#64⟩)).length + 7) / 8
        s.cfg.houtCap.toNat < n →
        stops .hemit [⟨s.cfg.houtDst.toNat, n⟩] 0x0D#8 0 (min n (2 ^ 32 - 1)) ∧
        (Region.Apart input ⟨s.cfg.houtDst.toNat, n⟩ →
          exec .hemit s = .next (s.stoppedHuffman 0x0D#8 0#32 (BitVec.ofNat 32 (min n (2 ^ 32 - 1)))))))

end
end

