-- ==== Sys2Proof/Laws/State.lean ====
section
/-! SUPPORT. One lemma for each field of State under each named update. -/

namespace Sys2Proof.Machine

variable (s : State)

/-! ## setM -/

@[simp] theorem State.setM_mregs (d : MReg) (m : Mat) : (s.setM d m).mregs = s.mregs.set d.val (some m) d.isLt := rfl
@[simp] theorem State.setM_sregs (d : MReg) (m : Mat) : (s.setM d m).sregs = s.sregs := rfl
@[simp] theorem State.setM_cfg (d : MReg) (m : Mat) : (s.setM d m).cfg = s.cfg := rfl
@[simp] theorem State.setM_status (d : MReg) (m : Mat) : (s.setM d m).status = s.status := rfl
@[simp] theorem State.setM_cmd (d : MReg) (m : Mat) : (s.setM d m).cmd = s.cmd := rfl
@[simp] theorem State.setM_cmdcnt (d : MReg) (m : Mat) : (s.setM d m).cmdcnt = s.cmdcnt := rfl
@[simp] theorem State.setM_errRec (d : MReg) (m : Mat) : (s.setM d m).errRec = s.errRec := rfl
@[simp] theorem State.setM_res (d : MReg) (m : Mat) : (s.setM d m).res = s.res := rfl
@[simp] theorem State.setM_hbits (d : MReg) (m : Mat) : (s.setM d m).hbits = s.hbits := rfl
@[simp] theorem State.setM_pq (d : MReg) (m : Mat) : (s.setM d m).pq = s.pq := rfl
@[simp] theorem State.setM_huff (d : MReg) (m : Mat) : (s.setM d m).huff = s.huff := rfl
@[simp] theorem State.setM_mem (d : MReg) (m : Mat) : (s.setM d m).mem = s.mem := rfl
@[simp] theorem State.setM_holes (d : MReg) (m : Mat) : (s.setM d m).holes = s.holes := rfl
@[simp] theorem State.setM_devices (d : MReg) (m : Mat) : (s.setM d m).devices = s.devices := rfl
@[simp] theorem State.setM_resetPin (d : MReg) (m : Mat) : (s.setM d m).resetPin = s.resetPin := rfl
@[simp] theorem State.setM_inbox (d : MReg) (m : Mat) : (s.setM d m).inbox = s.inbox := rfl
@[simp] theorem State.setM_reply (d : MReg) (m : Mat) : (s.setM d m).reply = s.reply := rfl
@[simp] theorem State.setM_freeIdx (d : MReg) (m : Mat) : (s.setM d m).freeIdx = s.freeIdx := rfl

/-! ## setS -/

@[simp] theorem State.setS_mregs (k : SReg) (v : F64) : (s.setS k v).mregs = s.mregs := rfl
@[simp] theorem State.setS_sregs (k : SReg) (v : F64) : (s.setS k v).sregs = s.sregs.set k.val v k.isLt := rfl
@[simp] theorem State.setS_cfg (k : SReg) (v : F64) : (s.setS k v).cfg = s.cfg := rfl
@[simp] theorem State.setS_status (k : SReg) (v : F64) : (s.setS k v).status = s.status := rfl
@[simp] theorem State.setS_cmd (k : SReg) (v : F64) : (s.setS k v).cmd = s.cmd := rfl
@[simp] theorem State.setS_cmdcnt (k : SReg) (v : F64) : (s.setS k v).cmdcnt = s.cmdcnt := rfl
@[simp] theorem State.setS_errRec (k : SReg) (v : F64) : (s.setS k v).errRec = s.errRec := rfl
@[simp] theorem State.setS_res (k : SReg) (v : F64) : (s.setS k v).res = s.res := rfl
@[simp] theorem State.setS_hbits (k : SReg) (v : F64) : (s.setS k v).hbits = s.hbits := rfl
@[simp] theorem State.setS_pq (k : SReg) (v : F64) : (s.setS k v).pq = s.pq := rfl
@[simp] theorem State.setS_huff (k : SReg) (v : F64) : (s.setS k v).huff = s.huff := rfl
@[simp] theorem State.setS_mem (k : SReg) (v : F64) : (s.setS k v).mem = s.mem := rfl
@[simp] theorem State.setS_holes (k : SReg) (v : F64) : (s.setS k v).holes = s.holes := rfl
@[simp] theorem State.setS_devices (k : SReg) (v : F64) : (s.setS k v).devices = s.devices := rfl
@[simp] theorem State.setS_resetPin (k : SReg) (v : F64) : (s.setS k v).resetPin = s.resetPin := rfl
@[simp] theorem State.setS_inbox (k : SReg) (v : F64) : (s.setS k v).inbox = s.inbox := rfl
@[simp] theorem State.setS_reply (k : SReg) (v : F64) : (s.setS k v).reply = s.reply := rfl
@[simp] theorem State.setS_freeIdx (k : SReg) (v : F64) : (s.setS k v).freeIdx = s.freeIdx := rfl

/-! ## setRes -/

@[simp] theorem State.setRes_mregs (k : Fin 4) (v : Word) : (s.setRes k v).mregs = s.mregs := rfl
@[simp] theorem State.setRes_sregs (k : Fin 4) (v : Word) : (s.setRes k v).sregs = s.sregs := rfl
@[simp] theorem State.setRes_cfg (k : Fin 4) (v : Word) : (s.setRes k v).cfg = s.cfg := rfl
@[simp] theorem State.setRes_status (k : Fin 4) (v : Word) : (s.setRes k v).status = s.status := rfl
@[simp] theorem State.setRes_cmd (k : Fin 4) (v : Word) : (s.setRes k v).cmd = s.cmd := rfl
@[simp] theorem State.setRes_cmdcnt (k : Fin 4) (v : Word) : (s.setRes k v).cmdcnt = s.cmdcnt := rfl
@[simp] theorem State.setRes_errRec (k : Fin 4) (v : Word) : (s.setRes k v).errRec = s.errRec := rfl
@[simp] theorem State.setRes_res (k : Fin 4) (v : Word) : (s.setRes k v).res = s.res.set k.val v k.isLt := rfl
@[simp] theorem State.setRes_hbits (k : Fin 4) (v : Word) : (s.setRes k v).hbits = s.hbits := rfl
@[simp] theorem State.setRes_pq (k : Fin 4) (v : Word) : (s.setRes k v).pq = s.pq := rfl
@[simp] theorem State.setRes_huff (k : Fin 4) (v : Word) : (s.setRes k v).huff = s.huff := rfl
@[simp] theorem State.setRes_mem (k : Fin 4) (v : Word) : (s.setRes k v).mem = s.mem := rfl
@[simp] theorem State.setRes_holes (k : Fin 4) (v : Word) : (s.setRes k v).holes = s.holes := rfl
@[simp] theorem State.setRes_devices (k : Fin 4) (v : Word) : (s.setRes k v).devices = s.devices := rfl
@[simp] theorem State.setRes_resetPin (k : Fin 4) (v : Word) : (s.setRes k v).resetPin = s.resetPin := rfl
@[simp] theorem State.setRes_inbox (k : Fin 4) (v : Word) : (s.setRes k v).inbox = s.inbox := rfl
@[simp] theorem State.setRes_reply (k : Fin 4) (v : Word) : (s.setRes k v).reply = s.reply := rfl
@[simp] theorem State.setRes_freeIdx (k : Fin 4) (v : Word) : (s.setRes k v).freeIdx = s.freeIdx := rfl

/-! ## setMem -/

@[simp] theorem State.setMem_mregs (m : Memory) : (s.setMem m).mregs = s.mregs := rfl
@[simp] theorem State.setMem_sregs (m : Memory) : (s.setMem m).sregs = s.sregs := rfl
@[simp] theorem State.setMem_cfg (m : Memory) : (s.setMem m).cfg = s.cfg := rfl
@[simp] theorem State.setMem_status (m : Memory) : (s.setMem m).status = s.status := rfl
@[simp] theorem State.setMem_cmd (m : Memory) : (s.setMem m).cmd = s.cmd := rfl
@[simp] theorem State.setMem_cmdcnt (m : Memory) : (s.setMem m).cmdcnt = s.cmdcnt := rfl
@[simp] theorem State.setMem_errRec (m : Memory) : (s.setMem m).errRec = s.errRec := rfl
@[simp] theorem State.setMem_res (m : Memory) : (s.setMem m).res = s.res := rfl
@[simp] theorem State.setMem_hbits (m : Memory) : (s.setMem m).hbits = s.hbits := rfl
@[simp] theorem State.setMem_pq (m : Memory) : (s.setMem m).pq = s.pq := rfl
@[simp] theorem State.setMem_huff (m : Memory) : (s.setMem m).huff = s.huff := rfl
@[simp] theorem State.setMem_mem (m : Memory) : (s.setMem m).mem = m := rfl
@[simp] theorem State.setMem_holes (m : Memory) : (s.setMem m).holes = s.holes := rfl
@[simp] theorem State.setMem_devices (m : Memory) : (s.setMem m).devices = s.devices := rfl
@[simp] theorem State.setMem_resetPin (m : Memory) : (s.setMem m).resetPin = s.resetPin := rfl
@[simp] theorem State.setMem_inbox (m : Memory) : (s.setMem m).inbox = s.inbox := rfl
@[simp] theorem State.setMem_reply (m : Memory) : (s.setMem m).reply = s.reply := rfl
@[simp] theorem State.setMem_freeIdx (m : Memory) : (s.setMem m).freeIdx = s.freeIdx := rfl

/-! ## setPq -/

@[simp] theorem State.setPq_mregs (q : PQueue) : (s.setPq q).mregs = s.mregs := rfl
@[simp] theorem State.setPq_sregs (q : PQueue) : (s.setPq q).sregs = s.sregs := rfl
@[simp] theorem State.setPq_cfg (q : PQueue) : (s.setPq q).cfg = s.cfg := rfl
@[simp] theorem State.setPq_status (q : PQueue) : (s.setPq q).status = s.status := rfl
@[simp] theorem State.setPq_cmd (q : PQueue) : (s.setPq q).cmd = s.cmd := rfl
@[simp] theorem State.setPq_cmdcnt (q : PQueue) : (s.setPq q).cmdcnt = s.cmdcnt := rfl
@[simp] theorem State.setPq_errRec (q : PQueue) : (s.setPq q).errRec = s.errRec := rfl
@[simp] theorem State.setPq_res (q : PQueue) : (s.setPq q).res = s.res := rfl
@[simp] theorem State.setPq_hbits (q : PQueue) : (s.setPq q).hbits = s.hbits := rfl
@[simp] theorem State.setPq_pq (q : PQueue) : (s.setPq q).pq = q := rfl
@[simp] theorem State.setPq_huff (q : PQueue) : (s.setPq q).huff = s.huff := rfl
@[simp] theorem State.setPq_mem (q : PQueue) : (s.setPq q).mem = s.mem := rfl
@[simp] theorem State.setPq_holes (q : PQueue) : (s.setPq q).holes = s.holes := rfl
@[simp] theorem State.setPq_devices (q : PQueue) : (s.setPq q).devices = s.devices := rfl
@[simp] theorem State.setPq_resetPin (q : PQueue) : (s.setPq q).resetPin = s.resetPin := rfl
@[simp] theorem State.setPq_inbox (q : PQueue) : (s.setPq q).inbox = s.inbox := rfl
@[simp] theorem State.setPq_reply (q : PQueue) : (s.setPq q).reply = s.reply := rfl
@[simp] theorem State.setPq_freeIdx (q : PQueue) : (s.setPq q).freeIdx = s.freeIdx := rfl

/-! ## setHuff -/

@[simp] theorem State.setHuff_mregs (u : Huffman) : (s.setHuff u).mregs = s.mregs := rfl
@[simp] theorem State.setHuff_sregs (u : Huffman) : (s.setHuff u).sregs = s.sregs := rfl
@[simp] theorem State.setHuff_cfg (u : Huffman) : (s.setHuff u).cfg = s.cfg := rfl
@[simp] theorem State.setHuff_status (u : Huffman) : (s.setHuff u).status = s.status := rfl
@[simp] theorem State.setHuff_cmd (u : Huffman) : (s.setHuff u).cmd = s.cmd := rfl
@[simp] theorem State.setHuff_cmdcnt (u : Huffman) : (s.setHuff u).cmdcnt = s.cmdcnt := rfl
@[simp] theorem State.setHuff_errRec (u : Huffman) : (s.setHuff u).errRec = s.errRec := rfl
@[simp] theorem State.setHuff_res (u : Huffman) : (s.setHuff u).res = s.res := rfl
@[simp] theorem State.setHuff_hbits (u : Huffman) : (s.setHuff u).hbits = s.hbits := rfl
@[simp] theorem State.setHuff_pq (u : Huffman) : (s.setHuff u).pq = s.pq := rfl
@[simp] theorem State.setHuff_huff (u : Huffman) : (s.setHuff u).huff = u := rfl
@[simp] theorem State.setHuff_mem (u : Huffman) : (s.setHuff u).mem = s.mem := rfl
@[simp] theorem State.setHuff_holes (u : Huffman) : (s.setHuff u).holes = s.holes := rfl
@[simp] theorem State.setHuff_devices (u : Huffman) : (s.setHuff u).devices = s.devices := rfl
@[simp] theorem State.setHuff_resetPin (u : Huffman) : (s.setHuff u).resetPin = s.resetPin := rfl
@[simp] theorem State.setHuff_inbox (u : Huffman) : (s.setHuff u).inbox = s.inbox := rfl
@[simp] theorem State.setHuff_reply (u : Huffman) : (s.setHuff u).reply = s.reply := rfl
@[simp] theorem State.setHuff_freeIdx (u : Huffman) : (s.setHuff u).freeIdx = s.freeIdx := rfl

/-! ## setHbits -/

@[simp] theorem State.setHbits_mregs (b : BitVec 64) : (s.setHbits b).mregs = s.mregs := rfl
@[simp] theorem State.setHbits_sregs (b : BitVec 64) : (s.setHbits b).sregs = s.sregs := rfl
@[simp] theorem State.setHbits_cfg (b : BitVec 64) : (s.setHbits b).cfg = s.cfg := rfl
@[simp] theorem State.setHbits_status (b : BitVec 64) : (s.setHbits b).status = s.status := rfl
@[simp] theorem State.setHbits_cmd (b : BitVec 64) : (s.setHbits b).cmd = s.cmd := rfl
@[simp] theorem State.setHbits_cmdcnt (b : BitVec 64) : (s.setHbits b).cmdcnt = s.cmdcnt := rfl
@[simp] theorem State.setHbits_errRec (b : BitVec 64) : (s.setHbits b).errRec = s.errRec := rfl
@[simp] theorem State.setHbits_res (b : BitVec 64) : (s.setHbits b).res = s.res := rfl
@[simp] theorem State.setHbits_hbits (b : BitVec 64) : (s.setHbits b).hbits = b := rfl
@[simp] theorem State.setHbits_pq (b : BitVec 64) : (s.setHbits b).pq = s.pq := rfl
@[simp] theorem State.setHbits_huff (b : BitVec 64) : (s.setHbits b).huff = s.huff := rfl
@[simp] theorem State.setHbits_mem (b : BitVec 64) : (s.setHbits b).mem = s.mem := rfl
@[simp] theorem State.setHbits_holes (b : BitVec 64) : (s.setHbits b).holes = s.holes := rfl
@[simp] theorem State.setHbits_devices (b : BitVec 64) : (s.setHbits b).devices = s.devices := rfl
@[simp] theorem State.setHbits_resetPin (b : BitVec 64) : (s.setHbits b).resetPin = s.resetPin := rfl
@[simp] theorem State.setHbits_inbox (b : BitVec 64) : (s.setHbits b).inbox = s.inbox := rfl
@[simp] theorem State.setHbits_reply (b : BitVec 64) : (s.setHbits b).reply = s.reply := rfl
@[simp] theorem State.setHbits_freeIdx (b : BitVec 64) : (s.setHbits b).freeIdx = s.freeIdx := rfl

/-! ## draw -/

@[simp] theorem State.draw_mregs (n : Nat) : (s.draw n).mregs = s.mregs := rfl
@[simp] theorem State.draw_sregs (n : Nat) : (s.draw n).sregs = s.sregs := rfl
@[simp] theorem State.draw_cfg (n : Nat) : (s.draw n).cfg = s.cfg := rfl
@[simp] theorem State.draw_status (n : Nat) : (s.draw n).status = s.status := rfl
@[simp] theorem State.draw_cmd (n : Nat) : (s.draw n).cmd = s.cmd := rfl
@[simp] theorem State.draw_cmdcnt (n : Nat) : (s.draw n).cmdcnt = s.cmdcnt := rfl
@[simp] theorem State.draw_errRec (n : Nat) : (s.draw n).errRec = s.errRec := rfl
@[simp] theorem State.draw_res (n : Nat) : (s.draw n).res = s.res := rfl
@[simp] theorem State.draw_hbits (n : Nat) : (s.draw n).hbits = s.hbits := rfl
@[simp] theorem State.draw_pq (n : Nat) : (s.draw n).pq = s.pq := rfl
@[simp] theorem State.draw_huff (n : Nat) : (s.draw n).huff = s.huff := rfl
@[simp] theorem State.draw_mem (n : Nat) : (s.draw n).mem = s.mem := rfl
@[simp] theorem State.draw_holes (n : Nat) : (s.draw n).holes = s.holes := rfl
@[simp] theorem State.draw_devices (n : Nat) : (s.draw n).devices = s.devices := rfl
@[simp] theorem State.draw_resetPin (n : Nat) : (s.draw n).resetPin = s.resetPin := rfl
@[simp] theorem State.draw_inbox (n : Nat) : (s.draw n).inbox = s.inbox := rfl
@[simp] theorem State.draw_reply (n : Nat) : (s.draw n).reply = s.reply := rfl
@[simp] theorem State.draw_freeIdx (n : Nat) : (s.draw n).freeIdx = s.freeIdx + n := rfl

@[simp] theorem State.draw_zero : s.draw 0 = s := rfl

/-! ## complete -/

@[simp] theorem State.complete_mregs : (s.complete).mregs = s.mregs := rfl
@[simp] theorem State.complete_sregs : (s.complete).sregs = s.sregs := rfl
@[simp] theorem State.complete_cfg : (s.complete).cfg = s.cfg := rfl
@[simp] theorem State.complete_status : (s.complete).status = { s.status with done := true, busy := false } := rfl
@[simp] theorem State.complete_cmd : (s.complete).cmd = s.cmd := rfl
@[simp] theorem State.complete_cmdcnt : (s.complete).cmdcnt = s.cmdcnt + 1#32 := rfl
@[simp] theorem State.complete_errRec : (s.complete).errRec = s.errRec := rfl
@[simp] theorem State.complete_res : (s.complete).res = s.res := rfl
@[simp] theorem State.complete_hbits : (s.complete).hbits = s.hbits := rfl
@[simp] theorem State.complete_pq : (s.complete).pq = s.pq := rfl
@[simp] theorem State.complete_huff : (s.complete).huff = s.huff := rfl
@[simp] theorem State.complete_mem : (s.complete).mem = s.mem := rfl
@[simp] theorem State.complete_holes : (s.complete).holes = s.holes := rfl
@[simp] theorem State.complete_devices : (s.complete).devices = s.devices := rfl
@[simp] theorem State.complete_resetPin : (s.complete).resetPin = s.resetPin := rfl
@[simp] theorem State.complete_inbox : (s.complete).inbox = s.inbox := rfl
@[simp] theorem State.complete_reply : (s.complete).reply = s.reply := rfl
@[simp] theorem State.complete_freeIdx : (s.complete).freeIdx = s.freeIdx := rfl

/-! ## accept -/

@[simp] theorem State.accept_mregs (v : Word) : (s.accept v).mregs = s.mregs := rfl
@[simp] theorem State.accept_sregs (v : Word) : (s.accept v).sregs = s.sregs := rfl
@[simp] theorem State.accept_cfg (v : Word) : (s.accept v).cfg = s.cfg := rfl
@[simp] theorem State.accept_status (v : Word) : (s.accept v).status = { s.status with busy := true } := rfl
@[simp] theorem State.accept_cmd (v : Word) : (s.accept v).cmd = v := rfl
@[simp] theorem State.accept_cmdcnt (v : Word) : (s.accept v).cmdcnt = s.cmdcnt := rfl
@[simp] theorem State.accept_errRec (v : Word) : (s.accept v).errRec = s.errRec := rfl
@[simp] theorem State.accept_res (v : Word) : (s.accept v).res = s.res := rfl
@[simp] theorem State.accept_hbits (v : Word) : (s.accept v).hbits = s.hbits := rfl
@[simp] theorem State.accept_pq (v : Word) : (s.accept v).pq = s.pq := rfl
@[simp] theorem State.accept_huff (v : Word) : (s.accept v).huff = s.huff := rfl
@[simp] theorem State.accept_mem (v : Word) : (s.accept v).mem = s.mem := rfl
@[simp] theorem State.accept_holes (v : Word) : (s.accept v).holes = s.holes := rfl
@[simp] theorem State.accept_devices (v : Word) : (s.accept v).devices = s.devices := rfl
@[simp] theorem State.accept_resetPin (v : Word) : (s.accept v).resetPin = s.resetPin := rfl
@[simp] theorem State.accept_inbox (v : Word) : (s.accept v).inbox = s.inbox := rfl
@[simp] theorem State.accept_reply (v : Word) : (s.accept v).reply = s.reply := rfl
@[simp] theorem State.accept_freeIdx (v : Word) : (s.accept v).freeIdx = s.freeIdx := rfl

/-! ## setReply -/

@[simp] theorem State.setReply_mregs (r : Reply) : (s.setReply r).mregs = s.mregs := rfl
@[simp] theorem State.setReply_sregs (r : Reply) : (s.setReply r).sregs = s.sregs := rfl
@[simp] theorem State.setReply_cfg (r : Reply) : (s.setReply r).cfg = s.cfg := rfl
@[simp] theorem State.setReply_status (r : Reply) : (s.setReply r).status = s.status := rfl
@[simp] theorem State.setReply_cmd (r : Reply) : (s.setReply r).cmd = s.cmd := rfl
@[simp] theorem State.setReply_cmdcnt (r : Reply) : (s.setReply r).cmdcnt = s.cmdcnt := rfl
@[simp] theorem State.setReply_errRec (r : Reply) : (s.setReply r).errRec = s.errRec := rfl
@[simp] theorem State.setReply_res (r : Reply) : (s.setReply r).res = s.res := rfl
@[simp] theorem State.setReply_hbits (r : Reply) : (s.setReply r).hbits = s.hbits := rfl
@[simp] theorem State.setReply_pq (r : Reply) : (s.setReply r).pq = s.pq := rfl
@[simp] theorem State.setReply_huff (r : Reply) : (s.setReply r).huff = s.huff := rfl
@[simp] theorem State.setReply_mem (r : Reply) : (s.setReply r).mem = s.mem := rfl
@[simp] theorem State.setReply_holes (r : Reply) : (s.setReply r).holes = s.holes := rfl
@[simp] theorem State.setReply_devices (r : Reply) : (s.setReply r).devices = s.devices := rfl
@[simp] theorem State.setReply_resetPin (r : Reply) : (s.setReply r).resetPin = s.resetPin := rfl
@[simp] theorem State.setReply_inbox (r : Reply) : (s.setReply r).inbox = s.inbox := rfl
@[simp] theorem State.setReply_reply (r : Reply) : (s.setReply r).reply = r := rfl
@[simp] theorem State.setReply_freeIdx (r : Reply) : (s.setReply r).freeIdx = s.freeIdx := rfl

/-! ## replyFree -/

@[simp] theorem State.replyFree_mregs : (s.replyFree).mregs = s.mregs := rfl
@[simp] theorem State.replyFree_sregs : (s.replyFree).sregs = s.sregs := rfl
@[simp] theorem State.replyFree_cfg : (s.replyFree).cfg = s.cfg := rfl
@[simp] theorem State.replyFree_status : (s.replyFree).status = s.status := rfl
@[simp] theorem State.replyFree_cmd : (s.replyFree).cmd = s.cmd := rfl
@[simp] theorem State.replyFree_cmdcnt : (s.replyFree).cmdcnt = s.cmdcnt := rfl
@[simp] theorem State.replyFree_errRec : (s.replyFree).errRec = s.errRec := rfl
@[simp] theorem State.replyFree_res : (s.replyFree).res = s.res := rfl
@[simp] theorem State.replyFree_hbits : (s.replyFree).hbits = s.hbits := rfl
@[simp] theorem State.replyFree_pq : (s.replyFree).pq = s.pq := rfl
@[simp] theorem State.replyFree_huff : (s.replyFree).huff = s.huff := rfl
@[simp] theorem State.replyFree_mem : (s.replyFree).mem = s.mem := rfl
@[simp] theorem State.replyFree_holes : (s.replyFree).holes = s.holes := rfl
@[simp] theorem State.replyFree_devices : (s.replyFree).devices = s.devices := rfl
@[simp] theorem State.replyFree_resetPin : (s.replyFree).resetPin = s.resetPin := rfl
@[simp] theorem State.replyFree_inbox : (s.replyFree).inbox = s.inbox := rfl
@[simp] theorem State.replyFree_reply : (s.replyFree).reply = .data (Config.freeWord s.freeIdx) := rfl
@[simp] theorem State.replyFree_freeIdx : (s.replyFree).freeIdx = s.freeIdx + 1 := rfl

/-! ## replyFreeByte -/

@[simp] theorem State.replyFreeByte_mregs : (s.replyFreeByte).mregs = s.mregs := rfl
@[simp] theorem State.replyFreeByte_sregs : (s.replyFreeByte).sregs = s.sregs := rfl
@[simp] theorem State.replyFreeByte_cfg : (s.replyFreeByte).cfg = s.cfg := rfl
@[simp] theorem State.replyFreeByte_status : (s.replyFreeByte).status = s.status := rfl
@[simp] theorem State.replyFreeByte_cmd : (s.replyFreeByte).cmd = s.cmd := rfl
@[simp] theorem State.replyFreeByte_cmdcnt : (s.replyFreeByte).cmdcnt = s.cmdcnt := rfl
@[simp] theorem State.replyFreeByte_errRec : (s.replyFreeByte).errRec = s.errRec := rfl
@[simp] theorem State.replyFreeByte_res : (s.replyFreeByte).res = s.res := rfl
@[simp] theorem State.replyFreeByte_hbits : (s.replyFreeByte).hbits = s.hbits := rfl
@[simp] theorem State.replyFreeByte_pq : (s.replyFreeByte).pq = s.pq := rfl
@[simp] theorem State.replyFreeByte_huff : (s.replyFreeByte).huff = s.huff := rfl
@[simp] theorem State.replyFreeByte_mem : (s.replyFreeByte).mem = s.mem := rfl
@[simp] theorem State.replyFreeByte_holes : (s.replyFreeByte).holes = s.holes := rfl
@[simp] theorem State.replyFreeByte_devices : (s.replyFreeByte).devices = s.devices := rfl
@[simp] theorem State.replyFreeByte_resetPin : (s.replyFreeByte).resetPin = s.resetPin := rfl
@[simp] theorem State.replyFreeByte_inbox : (s.replyFreeByte).inbox = s.inbox := rfl
@[simp] theorem State.replyFreeByte_reply : (s.replyFreeByte).reply = .byte (Config.freeByte s.freeIdx) := rfl
@[simp] theorem State.replyFreeByte_freeIdx : (s.replyFreeByte).freeIdx = s.freeIdx + 1 := rfl

/-! ## dropWrite -/

@[simp] theorem State.dropWrite_mregs : (s.dropWrite).mregs = s.mregs := rfl
@[simp] theorem State.dropWrite_sregs : (s.dropWrite).sregs = s.sregs := rfl
@[simp] theorem State.dropWrite_cfg : (s.dropWrite).cfg = s.cfg := rfl
@[simp] theorem State.dropWrite_status : (s.dropWrite).status = { s.status with wrDrop := true } := rfl
@[simp] theorem State.dropWrite_cmd : (s.dropWrite).cmd = s.cmd := rfl
@[simp] theorem State.dropWrite_cmdcnt : (s.dropWrite).cmdcnt = s.cmdcnt := rfl
@[simp] theorem State.dropWrite_errRec : (s.dropWrite).errRec = s.errRec := rfl
@[simp] theorem State.dropWrite_res : (s.dropWrite).res = s.res := rfl
@[simp] theorem State.dropWrite_hbits : (s.dropWrite).hbits = s.hbits := rfl
@[simp] theorem State.dropWrite_pq : (s.dropWrite).pq = s.pq := rfl
@[simp] theorem State.dropWrite_huff : (s.dropWrite).huff = s.huff := rfl
@[simp] theorem State.dropWrite_mem : (s.dropWrite).mem = s.mem := rfl
@[simp] theorem State.dropWrite_holes : (s.dropWrite).holes = s.holes := rfl
@[simp] theorem State.dropWrite_devices : (s.dropWrite).devices = s.devices := rfl
@[simp] theorem State.dropWrite_resetPin : (s.dropWrite).resetPin = s.resetPin := rfl
@[simp] theorem State.dropWrite_inbox : (s.dropWrite).inbox = s.inbox := rfl
@[simp] theorem State.dropWrite_reply : (s.dropWrite).reply = s.reply := rfl
@[simp] theorem State.dropWrite_freeIdx : (s.dropWrite).freeIdx = s.freeIdx := rfl

/-! ## stopped -/

@[simp] theorem State.stopped_mregs (c : Byte) (a n : Word) : (s.stopped c a n).mregs = s.mregs := rfl
@[simp] theorem State.stopped_sregs (c : Byte) (a n : Word) : (s.stopped c a n).sregs = s.sregs := rfl
@[simp] theorem State.stopped_cfg (c : Byte) (a n : Word) : (s.stopped c a n).cfg = s.cfg := rfl
@[simp] theorem State.stopped_status (c : Byte) (a n : Word) : (s.stopped c a n).status = { s.status with err := true, busy := false } := rfl
@[simp] theorem State.stopped_cmd (c : Byte) (a n : Word) : (s.stopped c a n).cmd = s.cmd := rfl
@[simp] theorem State.stopped_cmdcnt (c : Byte) (a n : Word) : (s.stopped c a n).cmdcnt = s.cmdcnt := rfl
@[simp] theorem State.stopped_errRec (c : Byte) (a n : Word) : (s.stopped c a n).errRec = ⟨0#16 ++ opField s.cmd ++ c, a, n⟩ := rfl
@[simp] theorem State.stopped_res (c : Byte) (a n : Word) : (s.stopped c a n).res = s.res := rfl
@[simp] theorem State.stopped_hbits (c : Byte) (a n : Word) : (s.stopped c a n).hbits = s.hbits := rfl
@[simp] theorem State.stopped_pq (c : Byte) (a n : Word) : (s.stopped c a n).pq = s.pq := rfl
@[simp] theorem State.stopped_huff (c : Byte) (a n : Word) : (s.stopped c a n).huff = s.huff := rfl
@[simp] theorem State.stopped_mem (c : Byte) (a n : Word) : (s.stopped c a n).mem = s.mem := rfl
@[simp] theorem State.stopped_holes (c : Byte) (a n : Word) : (s.stopped c a n).holes = s.holes := rfl
@[simp] theorem State.stopped_devices (c : Byte) (a n : Word) : (s.stopped c a n).devices = s.devices := rfl
@[simp] theorem State.stopped_resetPin (c : Byte) (a n : Word) : (s.stopped c a n).resetPin = s.resetPin := rfl
@[simp] theorem State.stopped_inbox (c : Byte) (a n : Word) : (s.stopped c a n).inbox = s.inbox := rfl
@[simp] theorem State.stopped_reply (c : Byte) (a n : Word) : (s.stopped c a n).reply = s.reply := rfl
@[simp] theorem State.stopped_freeIdx (c : Byte) (a n : Word) : (s.stopped c a n).freeIdx = s.freeIdx := rfl

/-! ## stoppedHuffman -/

@[simp] theorem State.stoppedHuffman_mregs (c : Byte) (a n : Word) : (s.stoppedHuffman c a n).mregs = s.mregs := rfl
@[simp] theorem State.stoppedHuffman_sregs (c : Byte) (a n : Word) : (s.stoppedHuffman c a n).sregs = s.sregs := rfl
@[simp] theorem State.stoppedHuffman_cfg (c : Byte) (a n : Word) : (s.stoppedHuffman c a n).cfg = s.cfg := rfl
@[simp] theorem State.stoppedHuffman_status (c : Byte) (a n : Word) : (s.stoppedHuffman c a n).status = { s.status with err := true, busy := false } := rfl
@[simp] theorem State.stoppedHuffman_cmd (c : Byte) (a n : Word) : (s.stoppedHuffman c a n).cmd = s.cmd := rfl
@[simp] theorem State.stoppedHuffman_cmdcnt (c : Byte) (a n : Word) : (s.stoppedHuffman c a n).cmdcnt = s.cmdcnt := rfl
@[simp] theorem State.stoppedHuffman_errRec (c : Byte) (a n : Word) : (s.stoppedHuffman c a n).errRec = ⟨0#16 ++ opField s.cmd ++ c, a, n⟩ := rfl
@[simp] theorem State.stoppedHuffman_res (c : Byte) (a n : Word) : (s.stoppedHuffman c a n).res = s.res := rfl
@[simp] theorem State.stoppedHuffman_hbits (c : Byte) (a n : Word) : (s.stoppedHuffman c a n).hbits = s.hbits := rfl
@[simp] theorem State.stoppedHuffman_pq (c : Byte) (a n : Word) : (s.stoppedHuffman c a n).pq = s.pq := rfl
@[simp] theorem State.stoppedHuffman_huff (c : Byte) (a n : Word) : (s.stoppedHuffman c a n).huff = Huffman.empty := rfl
@[simp] theorem State.stoppedHuffman_mem (c : Byte) (a n : Word) : (s.stoppedHuffman c a n).mem = s.mem := rfl
@[simp] theorem State.stoppedHuffman_holes (c : Byte) (a n : Word) : (s.stoppedHuffman c a n).holes = s.holes := rfl
@[simp] theorem State.stoppedHuffman_devices (c : Byte) (a n : Word) : (s.stoppedHuffman c a n).devices = s.devices := rfl
@[simp] theorem State.stoppedHuffman_resetPin (c : Byte) (a n : Word) : (s.stoppedHuffman c a n).resetPin = s.resetPin := rfl
@[simp] theorem State.stoppedHuffman_inbox (c : Byte) (a n : Word) : (s.stoppedHuffman c a n).inbox = s.inbox := rfl
@[simp] theorem State.stoppedHuffman_reply (c : Byte) (a n : Word) : (s.stoppedHuffman c a n).reply = s.reply := rfl
@[simp] theorem State.stoppedHuffman_freeIdx (c : Byte) (a n : Word) : (s.stoppedHuffman c a n).freeIdx = s.freeIdx := rfl

/-! ## resetEngine -/

@[simp] theorem State.resetEngine_mregs : (s.resetEngine).mregs = State.reset.mregs := rfl
@[simp] theorem State.resetEngine_sregs : (s.resetEngine).sregs = State.reset.sregs := rfl
@[simp] theorem State.resetEngine_cfg : (s.resetEngine).cfg = State.reset.cfg := rfl
@[simp] theorem State.resetEngine_status : (s.resetEngine).status = State.reset.status := rfl
@[simp] theorem State.resetEngine_cmd : (s.resetEngine).cmd = State.reset.cmd := rfl
@[simp] theorem State.resetEngine_cmdcnt : (s.resetEngine).cmdcnt = State.reset.cmdcnt := rfl
@[simp] theorem State.resetEngine_errRec : (s.resetEngine).errRec = State.reset.errRec := rfl
@[simp] theorem State.resetEngine_res : (s.resetEngine).res = State.reset.res := rfl
@[simp] theorem State.resetEngine_hbits : (s.resetEngine).hbits = State.reset.hbits := rfl
@[simp] theorem State.resetEngine_pq : (s.resetEngine).pq = State.reset.pq := rfl
@[simp] theorem State.resetEngine_huff : (s.resetEngine).huff = State.reset.huff := rfl
@[simp] theorem State.resetEngine_mem : (s.resetEngine).mem = s.mem := rfl
@[simp] theorem State.resetEngine_holes : (s.resetEngine).holes = s.holes := rfl
@[simp] theorem State.resetEngine_devices : (s.resetEngine).devices = s.devices := rfl
@[simp] theorem State.resetEngine_resetPin : (s.resetEngine).resetPin = s.resetPin := rfl
@[simp] theorem State.resetEngine_inbox : (s.resetEngine).inbox = s.inbox := rfl
@[simp] theorem State.resetEngine_reply : (s.resetEngine).reply = s.reply := rfl
@[simp] theorem State.resetEngine_freeIdx : (s.resetEngine).freeIdx = s.freeIdx := rfl

/-! ## Registers after a write -/

@[simp] theorem State.setM_get_self (d : MReg) (m : Mat) : (s.setM d m).mregs[d] = some m := by
  simp

theorem State.setM_get_ne (d : MReg) (m : Mat) {e : MReg} (h : e ≠ d) : (s.setM d m).mregs[e] = s.mregs[e] := by
  have h' : d.val ≠ e.val := fun x => h (Fin.ext x.symm)
  simpa using Vector.getElem_set_ne (h := h') ..

@[simp] theorem State.setS_get_self (k : SReg) (v : F64) : (s.setS k v).sregs[k] = v := by
  simp

theorem State.setS_get_ne (k : SReg) (v : F64) {j : SReg} (h : j ≠ k) : (s.setS k v).sregs[j] = s.sregs[j] := by
  have h' : k.val ≠ j.val := fun x => h (Fin.ext x.symm)
  simpa using Vector.getElem_set_ne (h := h') ..

@[simp] theorem State.setRes_get_self (k : Fin 4) (v : Word) : (s.setRes k v).res[k] = v := by
  simp

theorem State.setRes_get_ne (k : Fin 4) (v : Word) {j : Fin 4} (h : j ≠ k) :
    (s.setRes k v).res[j] = s.res[j] := by
  have h' : k.val ≠ j.val := fun x => h (Fin.ext x.symm)
  simpa using Vector.getElem_set_ne (h := h') ..

end Sys2Proof.Machine
end

