-- ==== Sys2Proof/Laws/Memory.lean ====
section
/-! SUPPORT. What the memory operations do: a read after a write, the canonical form, multi-byte values, engine
accesses, and free values in output regions. -/

namespace Sys2Proof.Machine

/-! ## One byte -/

@[simp] theorem Memory.read_nil (a : Nat) : Memory.read [] a = Memory.unlisted := rfl

/-- A memory whose lowest address is above `a` lists nothing at `a`. -/
theorem Memory.read_of_wfFrom {m : Memory} {lo a : Nat} (h : Memory.wfFrom lo m = true) (ha : a < lo) :
    m.read a = Memory.unlisted := by
  induction m generalizing lo with
  | nil => rfl
  | cons p t ih =>
    obtain ⟨k, b⟩ := p
    simp only [Memory.wfFrom, Bool.and_eq_true, decide_eq_true_eq] at h
    have hk : k ≠ a := by omega
    simp only [Memory.read, hk, if_false]
    exact ih h.2 (by omega)

theorem Memory.wfFrom_le {m : Memory} {lo lo' : Nat} (h : Memory.wfFrom lo m = true) (hl : lo' ≤ lo) :
    Memory.wfFrom lo' m = true := by
  cases m with
  | nil => rfl
  | cons p t =>
    simp only [Memory.wfFrom, Bool.and_eq_true, decide_eq_true_eq] at h ⊢
    exact ⟨⟨⟨by omega, h.1.1.2⟩, h.1.2⟩, h.2⟩

/-- In a canonical memory a write changes the byte written and no other. -/
theorem Memory.read_write {m : Memory} {lo : Nat} (h : Memory.wfFrom lo m = true) (a c : Nat) (b : Byte) :
    (m.write a b).read c = if c = a then b else m.read c := by
  induction m generalizing lo with
  | nil =>
    by_cases hb : b = Memory.unlisted <;> by_cases hc : c = a <;> simp [Memory.write, Memory.read, hb, hc]
    intro hx; exact absurd hx.symm hc
  | cons p t ih =>
    obtain ⟨k, v⟩ := p
    have h' := h
    simp only [Memory.wfFrom, Bool.and_eq_true, decide_eq_true_eq] at h
    have below : ∀ x, x < k → Memory.read ((k, v) :: t) x = Memory.unlisted := fun x hx =>
      Memory.read_of_wfFrom (lo := k) (by
        simp only [Memory.wfFrom, Bool.and_eq_true, decide_eq_true_eq]
        exact ⟨⟨⟨Nat.le_refl _, h.1.1.2⟩, h.1.2⟩, h.2⟩) hx
    have tail : Memory.read t k = Memory.unlisted := Memory.read_of_wfFrom h.2 (Nat.lt_succ_self k)
    unfold Memory.write
    by_cases h1 : a < k
    · rw [if_pos h1]
      by_cases hb : b = Memory.unlisted
      · rw [if_pos hb]
        by_cases hc : c = a
        · rw [if_pos hc, hc, hb, below a h1]
        · rw [if_neg hc]
      · rw [if_neg hb]
        by_cases hc : c = a
        · simp [Memory.read, hc]
        · have : a ≠ c := fun x => hc x.symm
          simp [Memory.read, hc, this]
    · rw [if_neg h1]
      by_cases h2 : a = k
      · subst h2
        rw [if_pos rfl]
        by_cases hb : b = Memory.unlisted
        · rw [if_pos hb]
          by_cases hc : c = a
          · rw [if_pos hc, hc, hb, tail]
          · have : a ≠ c := fun x => hc x.symm
            simp [Memory.read, hc, this]
        · rw [if_neg hb]
          by_cases hc : c = a
          · simp [Memory.read, hc]
          · have : a ≠ c := fun x => hc x.symm
            simp [Memory.read, hc, this]
      · rw [if_neg h2]
        simp only [Memory.read]
        by_cases hk : k = c
        · have : c ≠ a := by omega
          simp [hk, this]
        · simp only [hk, if_false]
          exact ih h.2

theorem Memory.read_write_self {m : Memory} (h : m.wf = true) (a : Nat) (b : Byte) : (m.write a b).read a = b := by
  rw [Memory.read_write h]; simp

theorem Memory.read_write_ne {m : Memory} (h : m.wf = true) {a c : Nat} (b : Byte) (hc : c ≠ a) :
    (m.write a b).read c = m.read c := by
  rw [Memory.read_write h]; simp [hc]

theorem Memory.write_wfFrom {m : Memory} {lo a : Nat} (b : Byte) (h : Memory.wfFrom lo m = true) (hl : lo ≤ a)
    (ha : a < Config.addrTop) : Memory.wfFrom lo (m.write a b) = true := by
  induction m generalizing lo with
  | nil =>
    by_cases hb : b = Memory.unlisted
    · simp [Memory.write, hb, Memory.wfFrom]
    · simp [Memory.write, hb, Memory.wfFrom, hl, ha]
  | cons p t ih =>
    obtain ⟨k, v⟩ := p
    have h' := h
    simp only [Memory.wfFrom, Bool.and_eq_true, decide_eq_true_eq, bne_iff_ne] at h
    unfold Memory.write
    split
    · split
      · exact h'
      · rename_i h1 hb
        simp only [Memory.wfFrom, Bool.and_eq_true, decide_eq_true_eq, bne_iff_ne]
        exact ⟨⟨⟨hl, ha⟩, hb⟩, ⟨⟨by omega, h.1.1.2⟩, h.1.2⟩, h.2⟩
    · split
      · split
        · exact Memory.wfFrom_le h.2 (by omega)
        · rename_i h1 h2 hb
          subst h2
          simp only [Memory.wfFrom, Bool.and_eq_true, decide_eq_true_eq, bne_iff_ne]
          exact ⟨⟨⟨hl, ha⟩, hb⟩, h.2⟩
      · simp only [Memory.wfFrom, Bool.and_eq_true, decide_eq_true_eq, bne_iff_ne]
        exact ⟨⟨⟨h.1.1.1, h.1.1.2⟩, h.1.2⟩, ih h.2 (by omega)⟩

/-- A write below 2^32 keeps the canonical form. -/
theorem Memory.write_wf {m : Memory} (h : m.wf = true) {a : Nat} (b : Byte) (ha : a < Config.addrTop) :
    (m.write a b).wf = true := Memory.write_wfFrom b h (Nat.zero_le _) ha

@[simp] theorem Memory.wf_nil : Memory.wf [] = true := rfl

/-! ## Multi-byte values (R155) -/

theorem Memory.readLE_lt (m : Memory) (a n : Nat) : m.readLE a n < 256 ^ n := by
  induction n generalizing a with
  | zero => simp [Memory.readLE]
  | succ n ih =>
    have h1 := (m.read a).isLt
    have h2 := ih (a + 1)
    simp only [Memory.readLE, Nat.pow_succ] at *
    omega

/-- Two memories with the same bytes hold the same value. -/
theorem Memory.readLE_congr {m m' : Memory} {a n : Nat} (h : ∀ k, k < n → m.read (a + k) = m'.read (a + k)) :
    m.readLE a n = m'.readLE a n := by
  induction n generalizing a with
  | zero => rfl
  | succ n ih =>
    have h0 := h 0 (by omega)
    simp only [Nat.add_zero] at h0
    simp only [Memory.readLE, h0]
    rw [ih fun k hk => by rw [Nat.add_assoc, Nat.add_comm 1 k]; exact h (k + 1) (by omega)]

theorem Memory.writeLE_wf {m : Memory} (h : m.wf = true) {a n : Nat} (v : Nat) (ha : a + n ≤ Config.addrTop) :
    (m.writeLE a v n).wf = true := by
  induction n generalizing m a v with
  | zero => exact h
  | succ n ih => exact ih (Memory.write_wf h _ (by omega)) _ (by omega)

/-- Byte `k` of the stored value is at `a + k`; every other byte is unchanged. -/
theorem Memory.read_writeLE {m : Memory} (h : m.wf = true) {a n : Nat} (v c : Nat) (ha : a + n ≤ Config.addrTop) :
    (m.writeLE a v n).read c =
      if a ≤ c ∧ c < a + n then BitVec.ofNat 8 (v / 256 ^ (c - a)) else m.read c := by
  induction n generalizing m a v with
  | zero =>
    have : ¬(a ≤ c ∧ c < a + 0) := by omega
    simp only [Memory.writeLE, this, if_false]
  | succ n ih =>
    simp only [Memory.writeLE]
    rw [ih (Memory.write_wf h _ (by omega)) _ (by omega), Memory.read_write h]
    by_cases h1 : c = a
    · subst h1
      simp
    · by_cases h2 : a + 1 ≤ c ∧ c < a + 1 + n
      · have e2 : a ≤ c ∧ c < a + (n + 1) := by omega
        have e3 : c - a = (c - (a + 1)) + 1 := by omega
        rw [if_pos h2, if_pos e2, e3, Nat.pow_succ, Nat.mul_comm, Nat.div_div_eq_div_mul]
      · have e2 : ¬(a ≤ c ∧ c < a + (n + 1)) := by omega
        rw [if_neg h2, if_neg e2, if_neg h1]

/-- Reading back what was stored. -/
theorem Memory.readLE_writeLE {m : Memory} (h : m.wf = true) {a n : Nat} (v : Nat) (ha : a + n ≤ Config.addrTop) :
    (m.writeLE a v n).readLE a n = v % 256 ^ n := by
  induction n generalizing m a v with
  | zero => simp [Memory.readLE, Nat.mod_one]
  | succ n ih =>
    have hw := Memory.write_wf h (BitVec.ofNat 8 v) (a := a) (by omega)
    simp only [Memory.readLE, Memory.writeLE]
    rw [ih hw (v / 256) (by omega), Memory.read_writeLE hw _ _ (by omega), Memory.read_write_self h]
    have e1 : ¬(a + 1 ≤ a ∧ a < a + 1 + n) := by omega
    rw [if_neg e1, BitVec.toNat_ofNat, Nat.pow_succ (n := 256), Nat.mul_comm (256 ^ n) 256, Nat.mod_mul]

/-! ## Engine accesses (R153) -/

theorem firstBad_none_iff {hs : List Region} {a n : Nat} : firstBad hs a n = none ↔ rangeOk hs a n := by
  induction n generalizing a with
  | zero => simp [firstBad, rangeOk]
  | succ n ih =>
    simp only [firstBad]
    split
    · rename_i h
      rw [ih]
      constructor
      · intro hr k hk
        cases k with
        | zero => exact h
        | succ k => have := hr k (by omega); rwa [Nat.add_assoc, Nat.add_comm 1 k] at this
      · intro hr k hk
        have := hr (k + 1) (by omega)
        rwa [Nat.add_assoc, Nat.add_comm 1 k]
    · rename_i h
      simp only [reduceCtorEq, false_iff]
      intro hr
      exact h (hr 0 (by omega))

/-- The byte reported is the first that does not answer. -/
theorem firstBad_some_iff {hs : List Region} {a n b : Nat} :
    firstBad hs a n = some b ↔ ∃ k, k < n ∧ b = a + k ∧ rangeOk hs a k ∧ memOk hs b = false := by
  induction n generalizing a with
  | zero => simp [firstBad]
  | succ n ih =>
    simp only [firstBad]
    by_cases h : memOk hs a = true
    · rw [if_pos h, ih]
      constructor
      · rintro ⟨k, hk, rfl, hr, hb⟩
        refine ⟨k + 1, by omega, by omega, ?_, hb⟩
        intro j hj
        cases j with
        | zero => exact h
        | succ j => have := hr j (by omega); rwa [Nat.add_assoc, Nat.add_comm 1 j] at this
      · rintro ⟨k, hk, rfl, hr, hb⟩
        cases k with
        | zero => simp [h] at hb
        | succ k =>
          refine ⟨k, by omega, by omega, ?_, hb⟩
          intro j hj
          have := hr (j + 1) (by omega)
          rwa [Nat.add_assoc, Nat.add_comm 1 j]
    · rw [if_neg h]
      constructor
      · rintro ⟨rfl⟩
        exact ⟨0, by omega, rfl, fun j hj => by omega, by simpa using h⟩
      · rintro ⟨k, hk, rfl, hr, hb⟩
        cases k with
        | zero => rfl
        | succ k => exact absurd (hr 0 (by omega)) h

/-- A range that answers lies below 2^32. -/
theorem rangeOk.le_addrTop {hs : List Region} {a n : Nat} (h : rangeOk hs a n) (hn : 0 < n) :
    a + n ≤ Config.addrTop := by
  have := h (n - 1) (by omega)
  simp only [memOk, Bool.and_eq_true, decide_eq_true_eq] at this
  omega

/-- `loadAll` answers the values when every access answers. -/
theorem loadAll_ok {hs : List Region} {m : Memory} {l : List Access} (h : ∀ x ∈ l, rangeOk hs x.addr x.size) :
    loadAll hs m l = .ok (l.map fun x => m.readLE x.addr x.size) := by
  induction l with
  | nil => rfl
  | cons x t ih =>
    have hx : firstBad hs x.addr x.size = none := firstBad_none_iff.2 (h x (by simp))
    simp [loadAll, hx, ih fun y hy => h y (by simp [hy]), Except.map]

/-- `loadAll` stops at the first access that does not answer. -/
theorem loadAll_error {hs : List Region} {m : Memory} {p t : List Access} {x : Access} {b : Nat}
    (h : ∀ y ∈ p, rangeOk hs y.addr y.size) (hx : firstBad hs x.addr x.size = some b) :
    loadAll hs m (p ++ x :: t) = .error (Raise.bus false b x.idx) := by
  induction p with
  | nil => simp [loadAll, hx]
  | cons y p ih =>
    have hy : firstBad hs y.addr y.size = none := firstBad_none_iff.2 (h y (by simp))
    simp [loadAll, hy, ih fun z hz => h z (by simp [hz]), Except.map]

/-- The memory after a list of stores that all answer. -/
def writeAll (l : List Store) (m : Memory) : Memory :=
  l.foldl (fun n x => n.writeLE x.acc.addr x.val x.acc.size) m

theorem storeAll_ok {hs : List Region} {l : List Store} {m : Memory}
    (h : ∀ x ∈ l, rangeOk hs x.acc.addr x.acc.size) : storeAll hs l m = .ok (writeAll l m) := by
  induction l generalizing m with
  | nil => rfl
  | cons x t ih =>
    have hx : firstBad hs x.acc.addr x.acc.size = none := firstBad_none_iff.2 (h x (by simp))
    simp only [storeAll, hx, writeAll, List.foldl_cons]
    exact ih fun y hy => h y (by simp [hy])

/-- `storeAll` answers only when every access answers. -/
theorem storeAll_ok_iff {hs : List Region} {l : List Store} {m m' : Memory} :
    storeAll hs l m = .ok m' ↔ (∀ x ∈ l, rangeOk hs x.acc.addr x.acc.size) ∧ m' = writeAll l m := by
  constructor
  · intro h
    have all : ∀ x ∈ l, rangeOk hs x.acc.addr x.acc.size := by
      induction l generalizing m with
      | nil => simp
      | cons x t ih =>
        simp only [storeAll] at h
        split at h
        · simp at h
        · rename_i hx
          intro y hy
          rcases List.mem_cons.1 hy with rfl | hy
          · exact firstBad_none_iff.1 hx
          · exact ih h y hy
    refine ⟨all, ?_⟩
    rw [storeAll_ok all] at h
    exact (Except.ok.inj h).symm
  · rintro ⟨h, rfl⟩
    exact storeAll_ok h

theorem storeAll_error {hs : List Region} {m : Memory} {p t : List Store} {x : Store} {b : Nat}
    (h : ∀ y ∈ p, rangeOk hs y.acc.addr y.acc.size) (hx : firstBad hs x.acc.addr x.acc.size = some b) :
    storeAll hs (p ++ x :: t) m = .error (Raise.bus true b x.acc.idx) := by
  induction p generalizing m with
  | nil => simp [storeAll, hx]
  | cons y p ih =>
    have hy : firstBad hs y.acc.addr y.acc.size = none := firstBad_none_iff.2 (h y (by simp))
    simp only [List.cons_append, storeAll, hy]
    exact ih fun z hz => h z (by simp [hz])

theorem Region.has_eq_false {r : Region} {a : Nat} : r.has a = false ↔ a < r.base ∨ r.base + r.len ≤ a := by
  simp only [Region.has, Bool.and_eq_false_iff, decide_eq_false_iff_not]
  omega

theorem Region.apart_of_le {r q : Region} (h : r.base + r.len ≤ q.base) : Region.Apart r q := by
  rintro a ⟨h1, h2⟩
  simp only [Region.has, Bool.and_eq_true, decide_eq_true_eq] at h1 h2
  omega

theorem Region.Apart.symm {r q : Region} (h : Region.Apart r q) : Region.Apart q r := fun a ⟨h1, h2⟩ => h a ⟨h2, h1⟩

/-- Regions overlap exactly when they are not apart. -/
theorem Region.overlaps_eq_false_iff {r q : Region} : r.overlaps q = false ↔ Region.Apart r q := by
  constructor
  · rintro h a ⟨h1, h2⟩
    simp only [Region.has, Bool.and_eq_true, decide_eq_true_eq] at h1 h2
    simp only [Region.overlaps, Bool.and_eq_false_iff, decide_eq_false_iff_not] at h
    omega
  · intro h
    by_contra hc
    simp only [Region.overlaps, Bool.not_eq_false, Bool.and_eq_true, decide_eq_true_eq] at hc
    apply h (max r.base q.base)
    simp only [Region.has, Bool.and_eq_true, decide_eq_true_eq]
    omega

/-- Stores that answer keep the canonical form. -/
theorem writeAll_wf {hs : List Region} {l : List Store} {m : Memory} (hm : m.wf = true)
    (h : ∀ x ∈ l, rangeOk hs x.acc.addr x.acc.size) : (writeAll l m).wf = true := by
  induction l generalizing m with
  | nil => exact hm
  | cons x t ih =>
    refine ih ?_ fun y hy => h y (by simp [hy])
    rcases Nat.eq_zero_or_pos x.acc.size with h0 | h0
    · simpa [h0, Memory.writeLE] using hm
    · exact Memory.writeLE_wf hm _ ((h x (by simp)).le_addrTop h0)

theorem storeAll_wf {hs : List Region} {l : List Store} {m m' : Memory} (hm : m.wf = true)
    (h : storeAll hs l m = .ok m') : m'.wf = true := by
  obtain ⟨ha, rfl⟩ := storeAll_ok_iff.1 h
  exact writeAll_wf hm ha

/-- The reset state's memory is in canonical form. -/
theorem reset_mem_wf : State.reset.mem.wf = true := rfl

/-- A byte outside every store reads as before. -/
theorem read_writeAll_outside {hs : List Region} {l : List Store} {m : Memory} (hm : m.wf = true)
    (h : ∀ x ∈ l, rangeOk hs x.acc.addr x.acc.size) {a : Nat} (ha : ∀ x ∈ l, x.acc.region.has a = false) :
    (writeAll l m).read a = m.read a := by
  induction l generalizing m with
  | nil => rfl
  | cons x t ih =>
    have hx := h x (by simp)
    have hax := Region.has_eq_false.1 (ha x (by simp))
    simp only [Access.region] at hax
    rcases Nat.eq_zero_or_pos x.acc.size with h0 | h0
    · have e : writeAll (x :: t) m = writeAll t m := by simp [writeAll, h0, Memory.writeLE]
      rw [e]
      exact ih hm (fun y hy => h y (by simp [hy])) fun y hy => ha y (by simp [hy])
    · have hle := hx.le_addrTop h0
      have e : writeAll (x :: t) m = writeAll t (m.writeLE x.acc.addr x.val x.acc.size) := rfl
      rw [e, ih (Memory.writeLE_wf hm _ hle) (fun y hy => h y (by simp [hy])) fun y hy => ha y (by simp [hy]),
        Memory.read_writeLE hm _ _ hle, if_neg (by omega)]

/-- Stores to disjoint ranges: byte `k` of a store holds byte `k` of its value. -/
theorem read_writeAll_inside {hs : List Region} {p t : List Store} {x : Store} {m : Memory} (hm : m.wf = true)
    (h : ∀ y ∈ p ++ x :: t, rangeOk hs y.acc.addr y.acc.size) {k : Nat} (hk : k < x.acc.size)
    (ht : ∀ y ∈ t, y.acc.region.has (x.acc.addr + k) = false) :
    (writeAll (p ++ x :: t) m).read (x.acc.addr + k) = BitVec.ofNat 8 (x.val / 256 ^ k) := by
  have hp : (writeAll p m).wf = true := writeAll_wf hm fun y hy => h y (by simp [hy])
  have hx := (h x (by simp)).le_addrTop (by omega)
  have e : writeAll (p ++ x :: t) m =
      writeAll t ((writeAll p m).writeLE x.acc.addr x.val x.acc.size) := by
    simp [writeAll, List.foldl_append]
  rw [e, read_writeAll_outside (Memory.writeLE_wf hp _ hx) (fun y hy => h y (by simp [hy])) ht,
    Memory.read_writeLE hp _ _ hx, if_pos (by omega)]
  congr 3
  omega

/-! ## Free values in output regions -/

theorem memOk_lt {hs : List Region} {a : Nat} (h : memOk hs a = true) : a < Config.addrTop := by
  simp only [memOk, Bool.and_eq_true, decide_eq_true_eq] at h
  exact h.1

/-- Free values go to memory only, and keep its form. -/
theorem State.havocFrom_spec (s : State) (a n : Nat) :
    (∃ m i, s.havocFrom a n = { s with mem := m, freeIdx := i }) ∧
      (s.mem.wf = true → (s.havocFrom a n).mem.wf = true) ∧
      (s.mem.wf = true → ∀ c, c < a ∨ a + n ≤ c → (s.havocFrom a n).mem.read c = s.mem.read c) := by
  induction n generalizing s a with
  | zero => exact ⟨⟨s.mem, s.freeIdx, rfl⟩, id, fun _ _ _ => rfl⟩
  | succ n ih =>
    simp only [State.havocFrom]
    split
    · rename_i hlt
      obtain ⟨⟨m, i, e⟩, w, r⟩ := ih
        { s with mem := s.mem.write a (Config.freeByte s.freeIdx), freeIdx := s.freeIdx + 1 } (a + 1)
      refine ⟨⟨m, i, e⟩, fun h => w (Memory.write_wf h _ hlt), fun h c hc => ?_⟩
      rw [r (Memory.write_wf h _ hlt) c (by omega)]
      exact Memory.read_write_ne h _ (by omega)
    · obtain ⟨e, w, r⟩ := ih s (a + 1)
      exact ⟨e, w, fun h c hc => r h c (by omega)⟩

theorem State.havoc_spec (s : State) (rs : List Region) :
    (∃ m i, s.havoc rs = { s with mem := m, freeIdx := i }) ∧
      (s.mem.wf = true → (s.havoc rs).mem.wf = true) ∧
      (s.mem.wf = true → ∀ c, outside rs c → (s.havoc rs).mem.read c = s.mem.read c) := by
  induction rs generalizing s with
  | nil => exact ⟨⟨s.mem, s.freeIdx, rfl⟩, id, fun _ _ _ => rfl⟩
  | cons x t ih =>
    obtain ⟨⟨m, i, e⟩, w, r⟩ := s.havocFrom_spec x.base x.len
    obtain ⟨⟨m', i', e'⟩, w', r'⟩ := ih (s.havocFrom x.base x.len)
    have hd : s.havoc (x :: t) = (s.havocFrom x.base x.len).havoc t := rfl
    rw [hd]
    refine ⟨⟨m', i', by rw [e', e]⟩, fun h => w' (w h), fun h c hc => ?_⟩
    rw [r' (w h) c fun y hy => hc y (by simp [hy])]
    exact r h c (Region.has_eq_false.1 (hc x (by simp)))

@[simp] theorem State.havoc_nil (s : State) : s.havoc [] = s := rfl

/-- Every field but memory and the count of free values is as before. -/
theorem State.havoc_other (s : State) (rs : List Region) :
    { s.havoc rs with mem := s.mem, freeIdx := s.freeIdx } = s := by
  obtain ⟨⟨m, i, e⟩, -⟩ := s.havoc_spec rs
  rw [e]

end Sys2Proof.Machine
end

