-- ==== Sys2Proof/Laws/Command.lean ====
section
/-! SUPPORT. How a command ends: completion, the error entry, and a storing command whose regions clash. -/

namespace Sys2Proof.Machine

@[simp] theorem State.finish_ok (s t : State) : s.finish (.ok t) = .next t.complete := rfl

@[simp] theorem State.finish_error (s : State) (r : Raise) : s.finish (.error r) = .next (s.errorEntry r) := rfl

/-- Every command ends in a next state. -/
theorem State.finish_next (s : State) (e : Except Raise State) :
    ∃ t, s.finish e = .next t ∧ ((∃ u, e = .ok u ∧ t = u.complete) ∨ ∃ r, e = .error r ∧ t = s.errorEntry r) := by
  cases e with
  | ok u => exact ⟨_, rfl, .inl ⟨u, rfl, rfl⟩⟩
  | error r => exact ⟨_, rfl, .inr ⟨r, rfl, rfl⟩⟩

/-! ## Where an error comes from -/

theorem bind_eq_error {α β : Type} {x : Except Raise α} {f : α → Except Raise β} {r : Raise}
    (h : x >>= f = .error r) : x = .error r ∨ ∃ v, x = .ok v ∧ f v = .error r := by
  cases x with
  | error q => exact .inl (congrArg _ (Except.error.inj h))
  | ok v => exact .inr ⟨v, rfl, h⟩

theorem mapError_eq_error {α : Type} {x : Except Raise α} {f : Raise → Raise} {r : Raise}
    (h : x.mapError f = .error r) : ∃ q, x = .error q ∧ r = f q := by
  cases x with
  | error q => exact ⟨q, rfl, (Except.error.inj h).symm⟩
  | ok v => exact absurd h (by simp [Except.mapError])

/-! ## The error entry (60_exceptions.md R610) -/

/-- Everything the error entry does. -/
theorem State.errorEntry_eq (s : State) (r : Raise) : s.errorEntry r =
    { s with
      mem := ((s.draw r.drawn).havoc r.dirty).mem
      freeIdx := ((s.draw r.drawn).havoc r.dirty).freeIdx
      errRec := ⟨0#16 ++ opField s.cmd ++ r.code.toByte, r.addr, r.info⟩
      huff := if r.code != .illegal && isHuffmanOp (opField s.cmd) then Huffman.empty else s.huff
      pq := if r.emptiesQueue then PQueue.empty else s.pq
      status := { s.status with err := true, busy := false } } := by
  obtain ⟨⟨m, i, e⟩, -⟩ := (s.draw r.drawn).havoc_spec r.dirty
  simp only [State.errorEntry, e]
  rfl

/-- The error entry of a command that is not of the Huffman unit. -/
theorem State.errorEntry_plain (s : State) (c : ErrCode) (n : Word) (h : isHuffmanOp (opField s.cmd) = false) :
    s.errorEntry (Raise.plain c n) = s.stopped c.toByte 0#32 n := by
  rw [State.errorEntry_eq]
  simp [Raise.plain, State.stopped, h]

/-- The error entry of a Huffman command. -/
theorem State.errorEntry_plain_huffman (s : State) (c : ErrCode) (n : Word) (hc : c ≠ .illegal)
    (h : isHuffmanOp (opField s.cmd) = true) :
    s.errorEntry (Raise.plain c n) = s.stoppedHuffman c.toByte 0#32 n := by
  have hb : (c != .illegal) = true := by simpa using hc
  rw [State.errorEntry_eq]
  simp [Raise.plain, State.stoppedHuffman, State.stopped, h, hb]

theorem State.errorEntry_illegal (s : State) (w : Word) :
    s.errorEntry (Raise.plain .illegal w) = s.stopped 0x01#8 0#32 w := by
  rw [State.errorEntry_eq]
  rfl

/-- An error that spares its output regions is the error without them. -/
theorem State.errorEntry_sparing (s : State) {r : Raise} (h : r.dirty = []) (rs : List Region) :
    s.errorEntry (r.sparing rs) = s.errorEntry r := by
  obtain ⟨_, _, _, d, _⟩ := r
  obtain rfl : d = [] := h
  rfl

/-- Memory after the error entry: canonical, and as before outside the regions left open. -/
theorem State.errorEntry_mem (s : State) (r : Raise) (h : s.mem.wf = true) :
    (s.errorEntry r).mem.wf = true ∧
      ∀ a, outside r.dirty a → (s.errorEntry r).mem.read a = s.mem.read a := by
  rw [State.errorEntry_eq]
  obtain ⟨-, w, f⟩ := (s.draw r.drawn).havoc_spec r.dirty
  exact ⟨w h, f h⟩

/-- The codes of R600 are 1 to 15. -/
theorem ErrCode.toByte_range (c : ErrCode) : 1 ≤ c.toByte.toNat ∧ c.toByte.toNat ≤ 15 := by
  cases c <;> decide

/-! ## Clashing regions (20_memory.md R171) -/

/-- `settle` changes memory only, and only inside the output regions. -/
theorem Written.settle_spec (w : Written) :
    (∃ m i, w.settle = { w.state with mem := m, freeIdx := i }) ∧
      (w.state.mem.wf = true → w.settle.mem.wf = true) ∧
      (w.state.mem.wf = true → ∀ a, outside w.outs a → w.settle.mem.read a = w.state.mem.read a) := by
  unfold Written.settle
  split
  · exact w.state.havoc_spec w.outs
  · exact ⟨⟨w.state.mem, w.state.freeIdx, rfl⟩, id, fun _ _ _ => rfl⟩

/-- With no device read and no clash `settle` does nothing. -/
theorem Written.settle_of_disjoint (w : Written) (hd : w.device = false) (h : regionsClash w.outs w.ins = false) :
    w.settle = w.state := by
  simp [Written.settle, hd, h]

/-- `settle` leaves every field but memory and the count of free values. -/
theorem Written.settle_other (w : Written) :
    { w.settle with mem := w.state.mem, freeIdx := w.state.freeIdx } = w.state := by
  obtain ⟨⟨m, i, e⟩, -⟩ := w.settle_spec
  rw [e]

/-! ## Devices (20_memory.md R158) -/

/-- Input regions are off every device exactly when `onDevice` says so. -/
theorem State.onDevice_eq_false_iff {s : State} {ins : List Region} : s.onDevice ins = false ↔ s.OffDevices ins := by
  simp only [State.onDevice, State.OffDevices, List.any_eq_false, Bool.not_eq_true, Region.overlaps_eq_false_iff]

@[simp] theorem State.onDevice_nil (s : State) : s.onDevice [] = false := rfl

/-- A platform without such devices. -/
theorem State.onDevice_of_none {s : State} (h : s.devices = []) (ins : List Region) : s.onDevice ins = false := by
  simp [State.onDevice, h]

/-- Off every device a command reads memory. -/
theorem State.readView_off {s : State} {ins : List Region} (h : s.onDevice ins = false) (m : Memory) (k : Nat) :
    s.readView m ins k = m := by
  simp [State.readView, h]

@[simp] theorem State.resultsOf_false (s : State) (n : Nat) (ks : List (Fin 4)) : s.resultsOf false n ks = s := rfl

/-- Free RES words change the listed RES registers and the count of free values only. -/
theorem State.freeRes_spec (s : State) (ks : List (Fin 4)) :
    (∃ r n, s.freeRes ks = { s with res := r, freeIdx := n }) ∧ ∀ k, k ∉ ks → (s.freeRes ks).res[k] = s.res[k] := by
  induction ks generalizing s with
  | nil => exact ⟨⟨s.res, s.freeIdx, rfl⟩, fun _ _ => rfl⟩
  | cons j t ih =>
    obtain ⟨⟨r, n, e⟩, f⟩ := ih ((s.setRes j (Config.freeWord s.freeIdx)).draw 1)
    have hd : s.freeRes (j :: t) = ((s.setRes j (Config.freeWord s.freeIdx)).draw 1).freeRes t := rfl
    rw [hd]
    refine ⟨⟨r, n, by rw [e]; rfl⟩, fun k hk => ?_⟩
    rw [f k fun h => hk (by simp [h])]
    exact s.setRes_get_ne j _ fun h => hk (by simp [h])

/-- What a device read does to the registers: the listed RES registers and the count of free values only. -/
theorem State.resultsOf_spec (s : State) (device : Bool) (n : Nat) (ks : List (Fin 4)) :
    (∃ r i, s.resultsOf device n ks = { s with res := r, freeIdx := i }) ∧
      ∀ k, k ∉ ks → (s.resultsOf device n ks).res[k] = s.res[k] := by
  cases device with
  | false => exact ⟨⟨s.res, s.freeIdx, rfl⟩, fun _ _ => rfl⟩
  | true =>
    obtain ⟨⟨r, i, e⟩, f⟩ := (s.draw n).freeRes_spec ks
    exact ⟨⟨r, i, by simp only [State.resultsOf, if_true, e]; rfl⟩, f⟩

/-! ## Checks -/

@[simp] theorem need_true (r : Raise) : need true r = .ok () := rfl

@[simp] theorem need_false (r : Raise) : need false r = .error r := rfl

theorem need_ok_iff {b : Bool} {r : Raise} {u : Unit} : need b r = .ok u ↔ b = true := by
  cases b <;> simp

theorem need_error_iff {b : Bool} {r r' : Raise} : need b r = .error r' ↔ b = false ∧ r' = r := by
  cases b <;> simp [eq_comm]

theorem State.readM_some {s : State} {a : MReg} {m : Mat} (h : s.mregs[a] = some m) : s.readM a = .ok m := by
  simp [State.readM, h]

theorem State.readM_none {s : State} {a : MReg} (h : s.mregs[a] = none) :
    s.readM a = .error (Raise.plain .uninit (BitVec.ofNat 32 a.val)) := by
  simp [State.readM, h]

theorem State.readM_ok_iff {s : State} {a : MReg} {m : Mat} : s.readM a = .ok m ↔ s.mregs[a] = some m := by
  unfold State.readM
  cases s.mregs[a] <;> simp

theorem checkSame_ok {a b : Mat} (h : a.h = b.h) (w : a.w = b.w) : checkSame a b = .ok () := by
  simp [checkSame, h, w]

theorem checkSquare_ok {a b : Mat} (h1 : a.w = a.h) (h2 : b.h = a.h) (h3 : b.w = a.h) :
    checkSquare a b = .ok () := by
  simp [checkSquare, h1, h2, h3]

theorem check88_ok {a : Mat} (h : a.h = 8) (w : a.w = 8) : check88 a = .ok () := by
  simp [check88, h, w]

theorem checkIndex_ok {m : Mat} {r c : Nat} (hr : r < m.h) (hc : c < m.w) : checkIndex m r c = .ok () := by
  simp [checkIndex, hr, hc]

theorem checkShape_ok {h w : Nat} (h1 : 1 ≤ h) (h2 : h ≤ 8) (w1 : 1 ≤ w) (w2 : w ≤ 8) :
    checkShape h w = .ok () := by
  simp [checkShape, h1, h2, w1, w2]

/-- The table is accepted exactly when no entry is 0. -/
theorem checkQ_ok_iff {c : Csr} : checkQ c = .ok () ↔ ∀ i : Fin 64, c.qtab[i] ≠ 0#16 := by
  unfold checkQ
  have key : (c.qtab.toList.findIdx? (· == 0#16) = none) ↔ ∀ i : Fin 64, c.qtab[i] ≠ 0#16 := by
    rw [List.findIdx?_eq_none_iff]
    constructor
    · intro h i hz
      have hm : c.qtab[i] ∈ c.qtab.toList := by
        rw [Vector.mem_toList_iff]
        exact Vector.getElem_mem i.isLt
      have := h _ hm
      simp [hz] at this
    · intro h x hx
      rw [Vector.mem_toList_iff] at hx
      obtain ⟨i, hi, rfl⟩ := Vector.mem_iff_getElem.1 hx
      simpa using h ⟨i, hi⟩
  split
  · rename_i i hi
    simp only [reduceCtorEq, false_iff]
    intro h
    rw [key.2 h] at hi
    simp at hi
  · rename_i hn
    simpa using key.1 hn

theorem checkQ_dirty {c : Csr} {q : Raise} (h : checkQ c = .error q) : q.dirty = [] := by
  unfold checkQ at h
  split at h
  · rw [← Except.error.inj h]
    rfl
  · simp at h

/-- The refused index is the lowest one whose entry is 0. -/
theorem checkQ_error {c : Csr} {i : Fin 64} (hz : c.qtab[i] = 0#16) (hl : ∀ j : Fin 64, j < i → c.qtab[j] ≠ 0#16) :
    checkQ c = .error (Raise.plain .qzero (BitVec.ofNat 32 i.val)) := by
  have hlen : c.qtab.toList.length = 64 := by simp
  have : c.qtab.toList.findIdx? (· == 0#16) = some i.val := by
    rw [List.findIdx?_eq_some_iff_getElem]
    refine ⟨by omega, by simpa using hz, fun j hj => ?_⟩
    have := hl ⟨j, by omega⟩ hj
    simpa using this
  simp [checkQ, this]

end Sys2Proof.Machine
end

