-- ==== Sys2Proof/Laws/Decode.lean ====
section
/-! SUPPORT. The fields of a packed command word, and its bits under each format's mask. -/

namespace Sys2Proof

variable (op : BitVec 8) (d a b : BitVec 3) (k : BitVec 2) (x y : BitVec 4)

@[simp] theorem opField_pack : opField (pack op d a b k x y) = op := by
  unfold opField
  ext i hi
  simp only [pack, BitVec.getElem_extractLsb', BitVec.getLsbD_append]
  have : i < 8 := hi
  interval_cases i <;> simp

@[simp] theorem dField_pack : dField (pack op d a b k x y) = d.toFin := by
  unfold dField
  congr 1
  ext i hi
  simp only [pack, BitVec.getElem_extractLsb', BitVec.getLsbD_append]
  have : i < 3 := hi
  interval_cases i <;> simp

@[simp] theorem aField_pack : aField (pack op d a b k x y) = a.toFin := by
  unfold aField
  congr 1
  ext i hi
  simp only [pack, BitVec.getElem_extractLsb', BitVec.getLsbD_append]
  have : i < 3 := hi
  interval_cases i <;> simp

@[simp] theorem bField_pack : bField (pack op d a b k x y) = b.toFin := by
  unfold bField
  congr 1
  ext i hi
  simp only [pack, BitVec.getElem_extractLsb', BitVec.getLsbD_append]
  have : i < 3 := hi
  interval_cases i <;> simp

@[simp] theorem sField_pack : sField (pack op d a b k x y) = k.toFin := by
  unfold sField
  congr 1
  ext i hi
  simp only [pack, BitVec.getElem_extractLsb', BitVec.getLsbD_append]
  have : i < 2 := hi
  interval_cases i <;> simp

@[simp] theorem xField_pack : xField (pack op d a b k x y) = x.toNat := by
  unfold xField
  congr 1
  ext i hi
  simp only [pack, BitVec.getElem_extractLsb', BitVec.getLsbD_append]
  have : i < 4 := hi
  interval_cases i <;> simp

@[simp] theorem yField_pack : yField (pack op d a b k x y) = y.toNat := by
  unfold yField
  congr 1
  ext i hi
  simp only [pack, BitVec.getElem_extractLsb', BitVec.getLsbD_append]
  have : i < 4 := hi
  interval_cases i <;> simp

@[simp] theorem reservedField_pack : reservedField (pack op d a b k x y) = 0#5 := by
  unfold reservedField
  ext i hi
  simp only [pack, BitVec.getElem_extractLsb', BitVec.getLsbD_append]
  have : i < 5 := hi
  interval_cases i <;> simp

/-! ## The row test of R210 -/

theorem pack_mask_n : pack op 0 0 0 0 0 0 &&& Format.mask .n = op.setWidth 32 := by
  ext i hi
  simp only [pack, Format.mask, BitVec.getElem_and, BitVec.getElem_append, BitVec.getElem_setWidth]
  have : i < 32 := hi
  interval_cases i <;> simp

theorem pack_mask_rr : pack op d a 0 0 0 0 &&& Format.mask .rr = op.setWidth 32 := by
  ext i hi
  simp only [pack, Format.mask, BitVec.getElem_and, BitVec.getElem_append, BitVec.getElem_setWidth]
  have : i < 32 := hi
  interval_cases i <;> simp

theorem pack_mask_rrr : pack op d a b 0 0 0 &&& Format.mask .rrr = op.setWidth 32 := by
  ext i hi
  simp only [pack, Format.mask, BitVec.getElem_and, BitVec.getElem_append, BitVec.getElem_setWidth]
  have : i < 32 := hi
  interval_cases i <;> simp

theorem pack_mask_rrs : pack op d a 0 k 0 0 &&& Format.mask .rrs = op.setWidth 32 := by
  ext i hi
  simp only [pack, Format.mask, BitVec.getElem_and, BitVec.getElem_append, BitVec.getElem_setWidth]
  have : i < 32 := hi
  interval_cases i <;> simp

theorem pack_mask_ab : pack op 0 a b 0 0 0 &&& Format.mask .ab = op.setWidth 32 := by
  ext i hi
  simp only [pack, Format.mask, BitVec.getElem_and, BitVec.getElem_append, BitVec.getElem_setWidth]
  have : i < 32 := hi
  interval_cases i <;> simp

theorem pack_mask_sa : pack op 0 a 0 k 0 0 &&& Format.mask .sa = op.setWidth 32 := by
  ext i hi
  simp only [pack, Format.mask, BitVec.getElem_and, BitVec.getElem_append, BitVec.getElem_setWidth]
  have : i < 32 := hi
  interval_cases i <;> simp

theorem pack_mask_eg : pack op 0 a 0 k x y &&& Format.mask .eg = op.setWidth 32 := by
  ext i hi
  simp only [pack, Format.mask, BitVec.getElem_and, BitVec.getElem_append, BitVec.getElem_setWidth]
  have : i < 32 := hi
  interval_cases i <;> simp

theorem pack_mask_es : pack op d 0 0 k x y &&& Format.mask .es = op.setWidth 32 := by
  ext i hi
  simp only [pack, Format.mask, BitVec.getElem_and, BitVec.getElem_append, BitVec.getElem_setWidth]
  have : i < 32 := hi
  interval_cases i <;> simp

theorem pack_mask_sh : pack op d 0 0 0 x y &&& Format.mask .sh = op.setWidth 32 := by
  ext i hi
  simp only [pack, Format.mask, BitVec.getElem_and, BitVec.getElem_append, BitVec.getElem_setWidth]
  have : i < 32 := hi
  interval_cases i <;> simp

theorem pack_mask_ld : pack op d 0 b 0 x y &&& Format.mask .ld = op.setWidth 32 := by
  ext i hi
  simp only [pack, Format.mask, BitVec.getElem_and, BitVec.getElem_append, BitVec.getElem_setWidth]
  have : i < 32 := hi
  interval_cases i <;> simp

theorem pack_mask_st : pack op 0 a b 0 0 0 &&& Format.mask .st = op.setWidth 32 := by
  ext i hi
  simp only [pack, Format.mask, BitVec.getElem_and, BitVec.getElem_append, BitVec.getElem_setWidth]
  have : i < 32 := hi
  interval_cases i <;> simp

theorem pack_mask_xf (etq erec : Bool) :
    pack op (0#1 ++ BitVec.ofBool erec ++ BitVec.ofBool etq) 0 0 0 0 0 &&& Format.mask .xf = op.setWidth 32 := by
  ext i hi
  simp only [pack, Format.mask, BitVec.getElem_and, BitVec.getElem_append, BitVec.getElem_setWidth]
  have : i < 32 := hi
  interval_cases i <;> simp

/-! ## Register and nibble fields -/

@[simp] theorem mBits_toFin (r : MReg) : (mBits r).toFin = r := by
  ext; simp only [mBits, BitVec.toFin_ofNat, Fin.val_ofNat]; exact Nat.mod_eq_of_lt r.isLt

@[simp] theorem sBits_toFin (k : SReg) : (sBits k).toFin = k := by
  ext; simp only [sBits, BitVec.toFin_ofNat, Fin.val_ofNat]; exact Nat.mod_eq_of_lt k.isLt

/-- A value of a 4-bit field is kept by its nibble. -/
theorem nibble_toNat {n : Nat} (h : fitsNibble n = true) : (nibble n).toNat = n := by
  have : n < 16 := by simpa [fitsNibble] using h
  rw [nibble, BitVec.toNat_ofNat]; omega

/-- The three formats are told apart by their FMT value. -/
theorem fmtField_pack (f : Fmt) (op : BitVec 8) (d a : BitVec 3) (k : BitVec 2) (x y : BitVec 4) :
    fmtField (pack op d a f.bits k x y) = .ok f := by
  cases f <;> simp [fmtField, Fmt.bits]

/-! ## Opcodes -/

/-- Two commands with one opcode have one format. -/
theorem format_of_opcode {i j : Instr} (h : i.opcode = j.opcode) : i.format = j.format := by
  cases i <;> cases j <;> first | rfl | exact absurd h (by simp only [Instr.opcode]; decide)

end Sys2Proof
end

