-- ==== Sys2Proof/Laws/Queue.lean ====
section
/-! SUPPORT. What the heap operations do (44_pqueue.md R501, R506). -/

namespace Sys2Proof.Machine

/-! ## The order -/

theorem better_irrefl (o : HeapOrder) (x : Entry) : better o x x = false := by
  simp [better]

theorem better_asymm {o : HeapOrder} {x y : Entry} (h : better o x y = true) : better o y x = false := by
  unfold better at *
  by_cases hk : x.key = y.key
  · simp only [hk, ne_eq, not_true_eq_false, if_false, Bool.and_eq_true, decide_eq_true_eq] at h
    simp only [hk, ne_eq, not_true_eq_false, if_false, Bool.and_eq_false_iff, decide_eq_false_iff_not]
    right; bv_omega
  · have hk' : y.key ≠ x.key := fun e => hk e.symm
    simp only [ne_eq, hk, not_false_eq_true, if_true, hk'] at *
    split at h <;> simp_all <;> bv_omega

/-- Not better is transitive: `better` is a strict weak order. -/
theorem not_better_trans {o : HeapOrder} {x y z : Entry} (h1 : better o x y = false) (h2 : better o y z = false) :
    better o x z = false := by
  unfold better at *
  by_cases hxy : x.key = y.key <;> by_cases hyz : y.key = z.key
  · simp only [hxy, hyz, ne_eq, not_true_eq_false, if_false, Bool.and_eq_false_iff,
      decide_eq_false_iff_not] at *
    rcases h1 with h1 | h1
    · exact .inl h1
    · rcases h2 with h2 | h2
      · exact .inl h2
      · right; bv_omega
  · have hxz : ¬x.key = z.key := by rw [hxy]; exact hyz
    simp only [ne_eq, hyz, hxz, not_false_eq_true, if_true] at *
    rw [hxy]; exact h2
  · have hxz : ¬x.key = z.key := by rw [← hyz]; exact hxy
    simp only [ne_eq, hxy, hxz, not_false_eq_true, if_true] at *
    rw [← hyz]; exact h1
  · simp only [ne_eq, hxy, hyz, not_false_eq_true, if_true] at h1 h2
    by_cases hxz : x.key = z.key
    · exfalso
      by_cases hm : o.maxheap = true <;> simp only [hm, if_true, Bool.false_eq_true, if_false,
        decide_eq_false_iff_not] at h1 h2 <;> bv_omega
    · simp only [ne_eq, hxz, not_false_eq_true, if_true]
      by_cases hm : o.maxheap = true <;> simp only [hm, if_true, Bool.false_eq_true, if_false,
        decide_eq_false_iff_not] at h1 h2 ⊢ <;> bv_omega

/-! ## Exchanges -/

theorem heapAt_of_lt {h : List Entry} {i : Nat} (hi : i < h.length) : heapAt h i = h[i] := by
  simp [heapAt, hi]

@[simp] theorem heapSwap_length (h : List Entry) (i j : Nat) : (heapSwap h i j).length = h.length := by
  simp [heapSwap]

theorem heapSwap_perm {h : List Entry} {i j : Nat} (hi : i < h.length) (hj : j < h.length) :
    (heapSwap h i j).Perm h := by
  simp only [heapSwap, heapAt_of_lt hi, heapAt_of_lt hj]
  exact List.set_set_perm hi hj

theorem heapSwap_at {h : List Entry} {i j k : Nat} (hi : i < h.length) (hj : j < h.length) :
    heapAt (heapSwap h i j) k = if k = j then heapAt h i else if k = i then heapAt h j else heapAt h k := by
  unfold heapSwap
  by_cases hkj : k = j
  · subst hkj; simp [heapAt, hj]
  · by_cases hki : k = i
    · subst hki
      have : ¬j = k := fun e => hkj e.symm
      simp [heapAt, hi, hkj, List.getElem_set_ne this]
    · have h1 : ¬j = k := fun e => hkj e.symm
      have h2 : ¬i = k := fun e => hki e.symm
      simp [heapAt, hkj, hki, List.getElem?_set_ne h1, List.getElem?_set_ne h2]

/-! ## Sifting keeps the entries -/

theorem siftUp_perm (o : HeapOrder) (fuel : Nat) {h : List Entry} {i : Nat} (hi : i < h.length) :
    (siftUp o fuel h i).Perm h := by
  induction fuel generalizing h i with
  | zero => exact .refl h
  | succ n ih =>
    simp only [siftUp]
    split
    · exact .refl h
    · split
      · have hp : (i - 1) / 2 < h.length := by omega
        exact (ih (by simpa using hp)).trans (heapSwap_perm hi hp)
      · exact .refl h

theorem bestChild_lt {o : HeapOrder} {h : List Entry} {i : Nat} (hi : 2 * i + 1 < h.length) :
    bestChild o h i < h.length := by
  unfold bestChild
  split
  · rename_i hc; exact hc.1
  · exact hi

theorem siftDown_perm (o : HeapOrder) (fuel : Nat) {h : List Entry} {i : Nat} (hi : i < h.length) :
    (siftDown o fuel h i).Perm h := by
  induction fuel generalizing h i with
  | zero => exact .refl h
  | succ n ih =>
    simp only [siftDown]
    split
    · exact .refl h
    · split
      · have hc : bestChild o h i < h.length := bestChild_lt (by omega)
        exact (ih (by simpa using hc)).trans (heapSwap_perm hi hc)
      · exact .refl h

theorem heapPop_perm (o : HeapOrder) (top : Entry) (rest : List Entry) : (heapPop o (top :: rest)).Perm rest := by
  unfold heapPop
  cases hr : rest.reverse with
  | nil =>
    have : rest = [] := by simpa using hr
    subst this; exact .refl _
  | cons x t =>
    obtain rfl : rest = t.reverse ++ [x] := by
      have := congrArg List.reverse hr; simpa using this
    have hd : (top :: (t.reverse ++ [x])).dropLast = top :: t.reverse := by
      rw [← List.cons_append, List.dropLast_concat]
    rw [hd]
    simp only
    have hl : heapAt (top :: (t.reverse ++ [x])) ((top :: (t.reverse ++ [x])).length - 1) = x := by
      simp [heapAt]
    rw [hl]
    refine (siftDown_perm o _ (by simp)).trans ?_
    exact (List.perm_append_singleton x t.reverse).symm

/-! ## The queue operations -/

/-- `enq` on a queue with room. -/
theorem PQueue.enq_ok (o : HeapOrder) (q : PQueue) (k p : Word) (h : q.heap.length ≠ Config.pqCap) :
    ∃ q', q.enq o k p = .ok q' ∧ q'.heap.Perm (⟨k, p, q.seq⟩ :: q.heap) ∧ q'.seq = q.seq + 1#32 := by
  refine ⟨_, by rw [PQueue.enq, if_neg h], ?_, rfl⟩
  refine (siftUp_perm o _ (by simp)).trans ?_
  exact List.perm_append_singleton _ _

theorem PQueue.enq_full (o : HeapOrder) (q : PQueue) (k p : Word) (h : q.heap.length = Config.pqCap) :
    q.enq o k p = .error (Raise.plain .pqfull (BitVec.ofNat 32 Config.pqCap)) := by
  simp [PQueue.enq, h]

/-- `deq` on a queue that is not empty. -/
theorem PQueue.deq_ok (o : HeapOrder) (q : PQueue) {top : Entry} {rest : List Entry} (h : q.heap = top :: rest) :
    ∃ q', q.deq o = .ok (top, q') ∧ q'.heap.Perm rest ∧ q'.seq = q.seq := by
  refine ⟨⟨heapPop o q.heap, q.seq⟩, by simp [PQueue.deq, h], ?_, rfl⟩
  rw [h]; exact heapPop_perm o top rest

theorem PQueue.deq_empty (o : HeapOrder) (q : PQueue) (h : q.heap = []) :
    q.deq o = .error (Raise.plain .empty 0#32) := by
  simp [PQueue.deq, h]

/-- A queue grows by at most one entry and never past its capacity. -/
theorem PQueue.enq_length {o : HeapOrder} {q q' : PQueue} {k p : Word} (h : q.enq o k p = .ok q')
    (hq : q.heap.length ≤ Config.pqCap) : q'.heap.length ≤ Config.pqCap := by
  by_cases hc : q.heap.length = Config.pqCap
  · rw [PQueue.enq_full o q k p hc] at h; simp at h
  · obtain ⟨q2, e, hp, -⟩ := PQueue.enq_ok o q k p hc
    rw [h] at e
    obtain rfl := Except.ok.inj e
    have := hp.length_eq
    simp only [List.length_cons] at this
    omega

theorem PQueue.deq_length {o : HeapOrder} {q : PQueue} {r : Entry × PQueue} (h : q.deq o = .ok r) :
    r.2.heap.length + 1 = q.heap.length := by
  cases hq : q.heap with
  | nil => rw [PQueue.deq_empty o q hq] at h; simp at h
  | cons top rest =>
    obtain ⟨q2, e, hp, -⟩ := PQueue.deq_ok o q hq
    rw [h] at e
    obtain rfl := Except.ok.inj e
    simpa using hp.length_eq

end Sys2Proof.Machine
end

