-- ==== Sys2Proof/Laws/Huffman.lean ====
section
/-! SUPPORT. What the Huffman unit's operations give: counting, stages, and the shape of the tables. -/

namespace Sys2Proof.Machine

/-! ## Stages -/

@[simp] theorem checkStage_true (u : Huffman) : checkStage u true = .ok () := rfl

@[simp] theorem checkStage_false (u : Huffman) :
    checkStage u false = .error (Raise.plain .seq (BitVec.ofNat 32 u.stage.toNat)) := rfl

/-! ## Symbols -/

theorem readSym_ok {hs : List Region} {m : Memory} {c : Csr} {j : Nat}
    (h : rangeOk hs (c.hinAddr.toNat + 2 * j) 2) :
    readSym hs m c j = .ok (BitVec.ofNat 16 (m.readLE (c.hinAddr.toNat + 2 * j) 2)) := by
  simp [readSym, firstBad_none_iff.2 h]

theorem readSym_bad {hs : List Region} {m : Memory} {c : Csr} {j b : Nat}
    (h : firstBad hs (c.hinAddr.toNat + 2 * j) 2 = some b) :
    readSym hs m c j = .error (Raise.bus false b j) := by
  simp [readSym, h]

/-- The index found names a row that holds the symbol. -/
theorem symIndex_some {syms : List HSym} {x : Half} {i : Nat} (h : symIndex syms x = some i) :
    ∃ y, syms[i]? = some y ∧ y.sym = x := by
  obtain ⟨hi, hy, -⟩ := List.findIdx?_eq_some_iff_getElem.1 h
  exact ⟨syms[i], by simp, by simpa using hy⟩

theorem symIndex_none {syms : List HSym} {x : Half} : symIndex syms x = none ↔ ∀ y ∈ syms, y.sym ≠ x := by
  simp [symIndex, List.findIdx?_eq_none_iff]

/-! ## Counting (R452) -/

/-- Counting a symbol of the table raises its count; a new one becomes the last row when there is room. -/
theorem countSym_cases {t t' : List HSym} {x : Half} (h : countSym t x = some t') :
    (∃ i, symIndex t x = some i ∧ t' = t.modify i fun y => { y with freq := y.freq + 1#32 }) ∨
      (symIndex t x = none ∧ t.length ≠ Config.nsymMax ∧ t' = t ++ [⟨x, 1#32⟩]) := by
  unfold countSym at h
  split at h
  · rename_i i hi
    exact .inl ⟨i, hi, (Option.some.inj h).symm⟩
  · rename_i hn
    split at h
    · simp at h
    · rename_i hl
      exact .inr ⟨hn, hl, (Option.some.inj h).symm⟩

theorem modify_syms (t : List HSym) (i : Nat) :
    (t.modify i fun y => { y with freq := y.freq + 1#32 }).map HSym.sym = t.map HSym.sym := by
  apply List.ext_getElem
  · simp
  · intro k h1 h2
    simp only [List.getElem_map, List.getElem_modify]
    split <;> rfl

/-- Counting keeps the rows distinct and within the capacity. -/
theorem countSym_keeps {t t' : List HSym} {x : Half} (h : countSym t x = some t')
    (hl : t.length ≤ Config.nsymMax) (hd : (t.map HSym.sym).Nodup) :
    t'.length ≤ Config.nsymMax ∧ (t'.map HSym.sym).Nodup := by
  rcases countSym_cases h with ⟨i, -, rfl⟩ | ⟨hn, hne, rfl⟩
  · exact ⟨by simpa using hl, by rw [modify_syms]; exact hd⟩
  · refine ⟨by simp; omega, ?_⟩
    rw [List.map_append, List.nodup_append]
    refine ⟨hd, by simp, ?_⟩
    intro a ha b hb
    simp only [List.map_cons, List.map_nil, List.mem_singleton] at hb
    obtain ⟨y, hy, rfl⟩ := List.mem_map.1 ha
    rw [hb]
    exact symIndex_none.1 hn y hy

theorem countFrom_keeps {hs : List Region} {m : Memory} {c : Csr} {n j : Nat} {t t' : List HSym}
    (h : countFrom hs m c n j t = .ok t') (hl : t.length ≤ Config.nsymMax) (hd : (t.map HSym.sym).Nodup) :
    t'.length ≤ Config.nsymMax ∧ (t'.map HSym.sym).Nodup := by
  induction n generalizing j t with
  | zero =>
    obtain rfl := Except.ok.inj h
    exact ⟨hl, hd⟩
  | succ n ih =>
    simp only [countFrom] at h
    split at h
    · simp at h
    · split at h
      · rename_i t2 h2
        obtain ⟨hl2, hd2⟩ := countSym_keeps h2 hl hd
        exact ih h hl2 hd2
      · simp at h

/-- The table of a whole input: distinct symbols within the capacity. -/
theorem countSyms_keeps {hs : List Region} {m : Memory} {c : Csr} {t : List HSym} (h : countSyms hs m c = .ok t) :
    t.length ≤ Config.nsymMax ∧ (t.map HSym.sym).Nodup := countFrom_keeps h (by simp) (by simp)

/-- A sequence without repeats is its own list of first occurrences. -/
theorem firstOccurrences_nodup {l : List Half} (h : l.Nodup) : firstOccurrences l = l := by
  have key : ∀ (t acc : List Half), (acc ++ t).Nodup →
      t.foldl (fun acc x => if x ∈ acc then acc else acc ++ [x]) acc = acc ++ t := by
    intro t
    induction t with
    | nil => intro acc _; simp
    | cons x t ih =>
      intro acc ha
      have hx : x ∉ acc := fun hm => by
        have := List.nodup_append.1 ha
        exact this.2.2 x hm x (by simp) rfl
      simp only [List.foldl_cons, hx, if_false]
      rw [ih (acc ++ [x]) (by simpa using ha)]
      simp
  simpa [firstOccurrences] using key l [] (by simpa using h)

/-! ## Codewords -/

@[simp] theorem codeBits_length (c : Code) : (codeBits c).length = c.len := by
  simp [codeBits]

theorem leaves_length (syms : List HSym) : (leaves syms).length = syms.length := by
  simp [leaves]

/-- The traversal sets entries and adds none. -/
theorem assignFrom_length (ns : List Node) (fuel h len v : Nat) (t : List (Nat × Nat)) :
    (assignFrom ns fuel h len v t).length = t.length := by
  induction fuel generalizing h len v t with
  | zero => rfl
  | succ n ih =>
    simp only [assignFrom]
    split
    · rfl
    · simp
    · rw [ih, ih]

theorem leafPaths_length (ns : List Node) (root d : Nat) : (leafPaths ns root d).length = d := by
  simp [leafPaths, assignFrom_length]

/-- One code for each path, each within the limit. -/
theorem codesOf_spec {paths : List (Nat × Nat)} {codes : List Code} (h : codesOf paths = .ok codes) :
    codes.length = paths.length ∧ ∀ c ∈ codes, c.len ≤ Config.maxCl := by
  simp only [codesOf] at h
  split at h
  · simp at h
  · rename_i hn
    obtain rfl := Except.ok.inj h
    refine ⟨by simp, ?_⟩
    intro c hc
    obtain ⟨p, hp, rfl⟩ := List.mem_map.1 hc
    have := List.findIdx?_eq_none_iff.1 hn p hp
    simpa using this

/-- One code for each leaf, each within the limit. -/
theorem assignCodes_spec {ns : List Node} {root d : Nat} {codes : List Code} (h : assignCodes ns root d = .ok codes) :
    codes.length = d ∧ ∀ c ∈ codes, c.len ≤ Config.maxCl := by
  simpa only [leafPaths_length] using codesOf_spec h

/-- The codewords of paths whose bits are no longer than the paths have zeros above them (20_memory.md R162). -/
theorem codesOf_bits {paths : List (Nat × Nat)} {codes : List Code} (h : codesOf paths = .ok codes)
    (hp : ∀ p ∈ paths, p.2 < 2 ^ p.1) : ∀ c ∈ codes, c.bits.toNat < 2 ^ c.len := by
  simp only [codesOf] at h
  split at h
  · simp at h
  · obtain rfl := Except.ok.inj h
    intro c hc
    obtain ⟨p, hm, rfl⟩ := List.mem_map.1 hc
    exact (Nat.mod_le _ _).trans_lt (by simpa using hp p hm)

/-- A path's bits are no longer than the path. -/
theorem leafPaths_bits (ns : List Node) (root d : Nat) : ∀ p ∈ leafPaths ns root d, p.2 < 2 ^ p.1 := by
  have key : ∀ (fuel h len v : Nat) (t : List (Nat × Nat)), v < 2 ^ len → (∀ p ∈ t, p.2 < 2 ^ p.1) →
      ∀ p ∈ assignFrom ns fuel h len v t, p.2 < 2 ^ p.1 := by
    intro fuel
    induction fuel with
    | zero => intro h len v t _ ht; exact ht
    | succ n ih =>
      intro h len v t hv ht
      have h2 : 2 ^ (len + 1) = 2 * 2 ^ len := by rw [Nat.pow_succ, Nat.mul_comm]
      simp only [assignFrom]
      split
      · exact ht
      · intro p hp
        rcases List.mem_or_eq_of_mem_set hp with hp | rfl
        · exact ht p hp
        · exact hv
      · exact ih _ _ _ _ (by omega) (ih _ _ _ _ (by omega) ht)
  exact key _ _ _ _ _ (by simp) (by simp)

/-- The total of the paths is HTOTAL of the codes they give. -/
theorem pathTotal_of_assignCodes {ns : List Node} {root d : Nat} {codes : List Code} (syms : List HSym)
    (h : assignCodes ns root d = .ok codes) : pathTotal syms (leafPaths ns root d) = codedTotal syms codes := by
  simp only [assignCodes, codesOf] at h
  split at h
  · simp at h
  · obtain rfl := Except.ok.inj h
    rw [pathTotal, codedTotal, List.zipWith_map_right]

/-! ## Tables from a device, and trees -/

theorem distinctRows_subset (t : List HSym) : distinctRows t ⊆ t := by
  induction t with
  | nil => simp [distinctRows]
  | cons y t ih =>
    simp only [distinctRows]
    split
    · exact List.subset_cons_of_subset _ ih
    · exact List.cons_subset_cons y ih

theorem distinctRows_nodup (t : List HSym) : ((distinctRows t).map HSym.sym).Nodup := by
  induction t with
  | nil => simp [distinctRows]
  | cons y t ih =>
    simp only [distinctRows]
    split
    · exact ih
    · rename_i h
      refine List.nodup_cons.2 ⟨fun hm => h ?_, ih⟩
      obtain ⟨z, hz, he⟩ := List.mem_map.1 hm
      exact List.any_eq_true.2 ⟨z, distinctRows_subset t hz, by simpa using he⟩

theorem distinctRows_length (t : List HSym) : (distinctRows t).length ≤ t.length := by
  induction t with
  | nil => simp [distinctRows]
  | cons y t ih =>
    simp only [distinctRows]
    split <;> simp <;> omega

theorem freeBelow_lt {k i c n : Nat} (h : 0 < n) : freeBelow k i c n < n := Nat.mod_lt _ h

theorem freePath_bits (k n i : Nat) : (freePath k n i).2 < 2 ^ (freePath k n i).1 :=
  freeBelow_lt (Nat.two_pow_pos _)

theorem freePaths_bits (k d : Nat) : ∀ p ∈ freePaths k d, p.2 < 2 ^ p.1 := by
  intro p hp
  obtain ⟨i, -, rfl⟩ := List.mem_map.1 hp
  exact freePath_bits k _ i

/-- A table from a device: distinct symbols within the capacity. -/
theorem freeSyms_keeps (k : Nat) :
    (freeSyms k).length ≤ Config.nsymMax ∧ ((freeSyms k).map HSym.sym).Nodup := by
  refine ⟨(distinctRows_length _).trans ?_, distinctRows_nodup _⟩
  rw [List.length_map, List.length_range]
  exact Nat.lt_succ_iff.1 (freeBelow_lt (Nat.succ_pos _))

/-- What a device leaves in the unit has the sizes of R91. -/
theorem freeAssigned_fits (k : Nat) : (Huffman.freeAssigned k).Fits := by
  obtain ⟨h1, h2⟩ := freeSyms_keeps k
  refine ⟨h1, h2, ?_, freeBelow_lt (by decide), ?_, ?_⟩
  · simp only [Huffman.freeAssigned, List.length_map, List.length_range]
    exact Nat.lt_succ_iff.1 (freeBelow_lt (Nat.succ_pos _))
  · intro c hc
    obtain ⟨i, -, rfl⟩ := List.mem_map.1 hc
    exact ⟨Nat.lt_succ_iff.1 (freeBelow_lt (Nat.succ_pos _)),
      (Nat.mod_le _ _).trans_lt (freePath_bits k Config.maxCl i)⟩
  · intro _
    simp [Huffman.freeAssigned]

/-- A complete tree passes HASSIGN's check. -/
theorem isTree_of_arenaOk {syms : List HSym} {ns : List Node} {root : Nat} (h : ArenaOk syms ns root) :
    isTree ns root syms.length = true := by
  obtain ⟨-, hl, hr, ht, hc, hi, hp⟩ := h
  simp only [isTree, Bool.and_eq_true, beq_iff_eq, List.isPerm_iff, List.all_eq_true]
  refine ⟨⟨⟨hl, hr⟩, fun p hm => ?_⟩, hp⟩
  rw [List.mem_zipIdx_iff_getElem?] at hm
  obtain ⟨n, i⟩ := p
  have hm : ns[i]? = some n := hm
  cases n with
  | leaf wt x =>
    show decide (i < syms.length) = true
    rw [decide_eq_true_eq]
    by_contra hge
    obtain ⟨wt', l, r, h'⟩ := hi i (by omega) (List.getElem?_eq_some_iff.1 hm).1
    rw [h'] at hm
    simp at hm
  | internal wt l r =>
    have hd : syms.length ≤ i := by
      by_contra hlt
      have h' : (ns.take syms.length)[i]? = some (Node.internal wt l r) := by
        rw [List.getElem?_take_of_lt (by omega), hm]
      rw [ht, leaves, List.getElem?_map] at h'
      obtain ⟨y, -, hy⟩ := Option.map_eq_some_iff.1 h'
      simp at hy
    simp [Node.placed, hd, hc i wt l r hm]

@[simp] theorem weightSum_of_lt {x y : Word} (h : x.toNat + y.toNat < 2 ^ 32) : weightSum x y = x + y := by
  simp only [weightSum, h, if_true]

/-! ## The regions an error leaves open -/

theorem maxLen_le {codes : List Code} {c : Code} (h : c ∈ codes) : c.len ≤ maxLen codes := by
  have key : ∀ (l : List Nat) (a n : Nat), n = a ∨ n ∈ l → n ≤ l.foldl max a := by
    intro l
    induction l with
    | nil => intro a n hn; simpa using Nat.le_of_eq (by simpa using hn)
    | cons x t ih =>
      intro a n hn
      rcases hn with rfl | hn
      · exact (Nat.le_max_left _ _).trans (ih (max _ x) _ (.inl rfl))
      · rcases List.mem_cons.1 hn with rfl | hn
        · exact (Nat.le_max_right _ _).trans (ih (max a _) _ (.inl rfl))
        · exact ih (max a x) n (.inr hn)
  exact key _ 0 _ (.inr (List.mem_map_of_mem h))

theorem getD_len_le (codes : List Code) (i : Nat) : (codes.getD i ⟨0, 0#64⟩).len ≤ maxLen codes := by
  rw [List.getD_eq_getElem?_getD]
  cases h : codes[i]? with
  | none => exact Nat.zero_le _
  | some c => exact maxLen_le (List.mem_of_getElem? h)

/-- A bit sequence takes at most the longest codeword for each symbol. -/
theorem sequenceBits_length_le (codes : List Code) (is : List Nat) :
    (sequenceBits codes is).length ≤ is.length * maxLen codes := by
  induction is with
  | nil => simp [sequenceBits]
  | cons i t ih =>
    have h : sequenceBits codes (i :: t) = codeBits (codes.getD i ⟨0, 0#64⟩) ++ sequenceBits codes t := by
      simp [sequenceBits]
    rw [h, List.length_append, codeBits_length, List.length_cons, Nat.add_mul, Nat.one_mul]
    have := getD_len_le codes i
    omega

theorem lookupFrom_length {hs : List Region} {m : Memory} {c : Csr} {syms : List HSym} {n j : Nat} {is : List Nat}
    (h : lookupFrom hs m c syms n j = .ok is) : is.length = n := by
  induction n generalizing j is with
  | zero => rw [← Except.ok.inj h, List.length_nil]
  | succ n ih =>
    simp only [lookupFrom] at h
    split at h
    · simp at h
    · split at h
      · simp at h
      · cases hl : lookupFrom hs m c syms n (j + 1) with
        | error r => simp [hl, Except.map] at h
        | ok l =>
          rw [hl] at h
          rw [← Except.ok.inj h, List.length_cons, ih hl]

/-- On a device HEMIT's sequence is taken to be as long as the longest codeword for each symbol. -/
theorem emitMost_device (hs : List Region) (m : Memory) (c : Csr) (syms : List HSym) (codes : List Code) :
    emitMost true hs m c syms codes = c.hinLen.toNat * maxLen codes := by
  simp [emitMost]

/-- Nor is it longer elsewhere. -/
theorem emitMost_le (device : Bool) (hs : List Region) (m : Memory) (c : Csr) (syms : List HSym) (codes : List Code) :
    emitMost device hs m c syms codes ≤ c.hinLen.toNat * maxLen codes := by
  refine (List.sum_le_card_nsmul _ (maxLen codes) ?_).trans (by simp)
  intro x hx
  obtain ⟨j, -, rfl⟩ := List.mem_map.1 hx
  split
  · exact getD_len_le codes _
  · exact Nat.le_refl _

/-- The sequence HEMIT finds on a device lies in the region it then has. -/
theorem emitBits_le_emitMost {hs : List Region} {v m : Memory} {c : Csr} {syms : List HSym} {codes : List Code}
    {bits : List Bool} (h : emitBits hs v c syms codes = .ok bits) :
    bits.length ≤ emitMost true hs m c syms codes := by
  unfold emitBits at h
  cases hl : lookupFrom hs v c syms c.hinLen.toNat 0 with
  | error r => simp [hl, Except.map] at h
  | ok is =>
    rw [hl] at h
    rw [← Except.ok.inj h, emitMost_device]
    simpa only [lookupFrom_length hl] using sequenceBits_length_le codes is

theorem answered_length_le (hs : List Region) (m : Memory) (c : Csr) :
    (answered hs m c).length ≤ c.hinLen.toNat := by
  simpa [answered] using List.length_filterMap_le (fun j => (readSym hs m c j).toOption) (List.range c.hinLen.toNat)

/-- The rows an input can give: at most one for each symbol, and at most the capacity. -/
theorem huffMost_rows_le {c : Csr} {known : List Half} (h : known.length ≤ c.hinLen.toNat) :
    (huffMost c known).1 ≤ min Config.nsymMax c.hinLen.toNat := by
  have hd : known.dedup.length ≤ known.length := (List.dedup_sublist known).length_le
  simp only [huffMost, List.length_append, List.length_map, List.length_replicate]
  split
  · split
    · simp only
      omega
    · exact Nat.zero_le _
  · simp only [Config.nsymMax] at *
    omega

theorem huffOuts_zero (c : Csr) (d b : Nat) : huffOuts c (0, 0) d b = [tableRegion c d, bitsRegion c b] := by
  simp [huffOuts]

/-- Off every device, an error of HEMIT before pass 2 other than BUS leaves its output regions as they are, when they
share no byte with the input. -/
theorem emitRaise_untouched {c : Csr} {outs : List Region} {r : Raise} (hc : r.code ≠ .bus)
    (h : regionsClash outs [hinRegion c] = false) : emitRaise c false outs r = r.sparing outs := by
  have hb : (r.code == ErrCode.bus) = false := by simpa using hc
  simp [emitRaise, hb, h]

/-- `emitRaise` records the same error and opens the output regions or none. -/
theorem emitRaise_spec (c : Csr) (device : Bool) (outs : List Region) (r : Raise) :
    ∃ rs n, emitRaise c device outs r = { r with dirty := rs, outs := outs, drawn := n } ∧ (rs = [] ∨ rs = outs) := by
  unfold emitRaise
  split
  · exact ⟨_, _, rfl, .inr rfl⟩
  · exact ⟨_, _, rfl, .inl rfl⟩

/-- `huffRaise` records the same error, opens the given regions and empties the queue. -/
theorem huffRaise_eq (device : Bool) (rs : List Region) (r : Raise) : huffRaise device rs r =
    { r with dirty := rs, outs := rs, drawn := drawsIf device 2, emptiesQueue := true } := rfl

/-- `huffEmitRaise` does so too, and opens all output regions or the code table. -/
theorem huffEmitRaise_spec (device : Bool) (ins outs : List Region) (r : Raise) :
    ∃ rs, huffEmitRaise device ins outs r =
        { r with dirty := rs, outs := outs, drawn := drawsIf device 2, emptiesQueue := true } ∧ rs ⊆ outs := by
  unfold huffEmitRaise
  split
  · exact ⟨_, rfl, List.Subset.refl _⟩
  · exact ⟨_, rfl, (List.take_sublist 1 outs).subset⟩

@[simp] theorem drawsIf_false (n : Nat) : drawsIf false n = 0 := rfl

end Sys2Proof.Machine
end

