-- ==== Sys2Proof/Laws/Matrix.lean ====
section
/-! SUPPORT. What the matrix operations give: shapes, elements, legality. -/

namespace Sys2Proof.Machine

/-! ## Elements -/

@[simp] theorem Mat.ofFn_h (h w : Nat) (f : Nat → Nat → F64) : (Mat.ofFn h w f).h = h := rfl

@[simp] theorem Mat.ofFn_w (h w : Nat) (f : Nat → Nat → F64) : (Mat.ofFn h w f).w = w := rfl

@[simp] theorem Mat.ofFn_length (h w : Nat) (f : Nat → Nat → F64) : (Mat.ofFn h w f).e.length = h * w := by
  simp [Mat.ofFn]

/-- A cell's row-major index lies in the matrix. -/
theorem cell_lt {h w r c : Nat} (hr : r < h) (hc : c < w) : r * w + c < h * w :=
  calc r * w + c < r * w + w := by omega
    _ = (r + 1) * w := by rw [Nat.succ_mul]
    _ ≤ h * w := Nat.mul_le_mul_right w hr

theorem cell_div {w r c : Nat} (hc : c < w) : (r * w + c) / w = r := by
  rw [Nat.mul_comm, Nat.mul_add_div (by omega), Nat.div_eq_of_lt hc, Nat.add_zero]

theorem cell_mod {w r c : Nat} (hc : c < w) : (r * w + c) % w = c := by
  rw [Nat.mul_comm, Nat.mul_add_mod, Nat.mod_eq_of_lt hc]

theorem Mat.ofFn_get {h w : Nat} {f : Nat → Nat → F64} {r c : Nat} (hr : r < h) (hc : c < w) :
    (Mat.ofFn h w f).get r c = f r c := by
  have hk := cell_lt hr hc
  simp [Mat.get, Mat.ofFn, hk, cell_div hc, cell_mod hc]

theorem Mat.ofFn_hasElements (h w : Nat) (f : Nat → Nat → F64) : HasElements (Mat.ofFn h w f) h w f :=
  ⟨rfl, rfl, Mat.ofFn_length .., fun _ _ hr hc => Mat.ofFn_get hr hc⟩

/-- Two matrices of one shape with the same elements are equal. -/
theorem HasElements.unique {a b : Mat} {h w : Nat} {f : Nat → Nat → F64} (ha : HasElements a h w f)
    (hb : HasElements b h w f) : a = b := by
  obtain ⟨ah, aw, al, ag⟩ := ha
  obtain ⟨bh, bw, bl, bg⟩ := hb
  obtain ⟨xh, xw, xe⟩ := a
  obtain ⟨yh, yw, ye⟩ := b
  simp only [Mat.get] at *
  subst ah aw bh bw
  rename' yh => rows, yw => cols
  have pos : ∀ k, k < rows * cols → 0 < cols := fun k h => by
    rcases Nat.eq_zero_or_pos cols with h0 | h0
    · simp [h0] at h
    · exact h0
  congr 1
  apply List.ext_getElem (by omega)
  intro k h1 h2
  have hw : 0 < cols := pos k (by omega)
  have hk : k / cols < rows := by
    rw [Nat.div_lt_iff_lt_mul hw]; omega
  have e : k / cols * cols + k % cols = k := by
    rw [Nat.mul_comm]; exact Nat.div_add_mod ..
  have e1 := ag _ _ hk (Nat.mod_lt k hw)
  have e2 := bg _ _ hk (Nat.mod_lt k hw)
  rw [e] at e1 e2
  have := e1.trans e2.symm
  simpa [List.getD_eq_getElem?_getD, h1, h2] using this

/-- A matrix with its row-major elements in place has its own elements. -/
theorem Mat.hasElements_self {m : Mat} (h : m.e.length = m.h * m.w) : HasElements m m.h m.w m.get :=
  ⟨rfl, rfl, h, fun _ _ _ _ => rfl⟩

theorem Mat.map_hasElements (f : F64 → F64) (m : Mat) : HasElements (m.map f) m.h m.w fun r c => f (m.get r c) :=
  Mat.ofFn_hasElements ..

theorem Mat.zip_hasElements (f : F64 → F64 → F64) (a b : Mat) :
    HasElements (a.zip f b) a.h a.w fun r c => f (a.get r c) (b.get r c) := Mat.ofFn_hasElements ..

theorem Mat.trans_hasElements (m : Mat) : HasElements m.trans m.w m.h fun r c => m.get c r :=
  Mat.ofFn_hasElements ..

/-- Transposing twice gives the matrix back, bit for bit (R326). -/
theorem Mat.trans_trans {m : Mat} (h : m.e.length = m.h * m.w) : m.trans.trans = m := by
  refine HasElements.unique (h := m.h) (w := m.w) (f := m.get) ⟨rfl, rfl, Mat.ofFn_length .., ?_⟩
    (Mat.hasElements_self h)
  intro r c hr hc
  show m.trans.trans.get r c = _
  rw [Mat.trans, Mat.ofFn_get (by exact hr) (by exact hc), Mat.trans, Mat.ofFn_get hc hr]

/-! ## Products (R322) -/

/-- The left fold over `0..n-1` is the sum of `productSum`. -/
theorem dotProd_eq (a b : Mat) (n i j : Nat) : dotProd a b n i j = productSum a b i j n := by
  unfold dotProd
  induction n with
  | zero => rfl
  | succ n ih => rw [List.range_succ, List.foldl_append, ih]; rfl

theorem mprod_isProduct (a b : Mat) (n : Nat) : IsProduct (mprod a b n) a b n :=
  ⟨rfl, rfl, Mat.ofFn_length .., fun i j hi hj => by
    rw [mprod, Mat.ofFn_get hi hj, dotProd_eq]⟩

/-! ## One element replaced -/

theorem Mat.set_length (m : Mat) (r c : Nat) (v : F64) : (m.set r c v).e.length = m.e.length := by
  simp [Mat.set]

theorem Mat.set_get_self {m : Mat} (hl : m.e.length = m.h * m.w) {r c : Nat} (v : F64) (hr : r < m.h)
    (hc : c < m.w) : (m.set r c v).get r c = v := by
  have := cell_lt hr hc
  simp [Mat.set, Mat.get, hl, this]

theorem Mat.set_get_ne (m : Mat) {r c r' c' : Nat} (v : F64) (hc : c < m.w) (hc' : c' < m.w)
    (hne : ¬(r' = r ∧ c' = c)) : (m.set r c v).get r' c' = m.get r' c' := by
  have : r * m.w + c ≠ r' * m.w + c' := by
    intro e
    apply hne
    have h1 : (r * m.w + c) / m.w = (r' * m.w + c') / m.w := by rw [e]
    have h2 : (r * m.w + c) % m.w = (r' * m.w + c') % m.w := by rw [e]
    rw [cell_div hc, cell_div hc'] at h1
    rw [cell_mod hc, cell_mod hc'] at h2
    exact ⟨h1.symm, h2.symm⟩
  simp [Mat.set, Mat.get, List.getElem?_set_ne this]

/-! ## Legal values (R50) -/

theorem Mat.wf_iff {m : Mat} :
    m.wf = true ↔ 1 ≤ m.h ∧ m.h ≤ 8 ∧ 1 ≤ m.w ∧ m.w ≤ 8 ∧ m.e.length = m.h * m.w := by
  simp only [Mat.wf, Bool.and_eq_true, decide_eq_true_eq, beq_iff_eq, and_assoc]

theorem Mat.ofFn_wf {h w : Nat} (f : Nat → Nat → F64) (h1 : 1 ≤ h) (h2 : h ≤ 8) (w1 : 1 ≤ w) (w2 : w ≤ 8) :
    (Mat.ofFn h w f).wf = true := Mat.wf_iff.2 ⟨h1, h2, w1, w2, Mat.ofFn_length ..⟩

theorem Mat.map_wf {m : Mat} (f : F64 → F64) (h : m.wf = true) : (m.map f).wf = true := by
  obtain ⟨h1, h2, w1, w2, -⟩ := Mat.wf_iff.1 h
  exact Mat.ofFn_wf _ h1 h2 w1 w2

theorem Mat.zip_wf {a : Mat} (f : F64 → F64 → F64) (b : Mat) (h : a.wf = true) : (a.zip f b).wf = true := by
  obtain ⟨h1, h2, w1, w2, -⟩ := Mat.wf_iff.1 h
  exact Mat.ofFn_wf _ h1 h2 w1 w2

theorem Mat.trans_wf {m : Mat} (h : m.wf = true) : m.trans.wf = true := by
  obtain ⟨h1, h2, w1, w2, -⟩ := Mat.wf_iff.1 h
  exact Mat.ofFn_wf _ w1 w2 h1 h2

theorem Mat.set_wf {m : Mat} (r c : Nat) (v : F64) (h : m.wf = true) : (m.set r c v).wf = true := by
  obtain ⟨h1, h2, w1, w2, hl⟩ := Mat.wf_iff.1 h
  exact Mat.wf_iff.2 ⟨h1, h2, w1, w2, by rw [Mat.set_length, hl]; rfl⟩

theorem mprod_wf (a b : Mat) {n : Nat} (h1 : 1 ≤ n) (h2 : n ≤ 8) : (mprod a b n).wf = true :=
  Mat.ofFn_wf _ h1 h2 h1 h2

theorem Mat.zigzag_wf (m : Mat) : m.zigzag.wf = true := Mat.ofFn_wf _ (by decide) (by decide) (by decide) (by decide)

/-- A destination that takes a legal value keeps every register legal. -/
theorem State.setM_legal {s : State} {d : MReg} {m : Mat} (h : s.MatricesLegal) (hm : m.wf = true) :
    (s.setM d m).MatricesLegal := by
  intro e n hn
  by_cases he : e = d
  · subst he
    rw [State.setM_get_self] at hn
    exact Option.some.inj hn ▸ hm
  · rw [State.setM_get_ne s d m he] at hn
    exact h e n hn

/-- The law of legal registers as a check of the eight registers. -/
theorem State.matricesLegal_of_all {s : State}
    (h : (s.mregs.toList.all fun o => (o.map Mat.wf).getD true) = true) : s.MatricesLegal := by
  intro d m hm
  have hmem : s.mregs[d] ∈ s.mregs.toList := by
    rw [Vector.mem_toList_iff]
    exact Vector.getElem_mem d.isLt
  have := List.all_eq_true.1 h _ hmem
  rw [hm] at this
  simpa using this

/-! ## The cells of a matrix -/

theorem cells_length (h w : Nat) : (cells h w).length = h * w := by simp [cells]

theorem mem_cells {h w : Nat} {p : Nat × Nat} : p ∈ cells h w ↔ p.1 < h ∧ p.2 < w := by
  simp only [cells, List.mem_map, List.mem_range]
  constructor
  · rintro ⟨k, hk, rfl⟩
    have hw : 0 < w := by
      rcases Nat.eq_zero_or_pos w with h0 | h0
      · simp [h0] at hk
      · exact h0
    exact ⟨by rw [Nat.div_lt_iff_lt_mul hw]; exact hk, Nat.mod_lt k hw⟩
  · rintro ⟨hr, hc⟩
    exact ⟨p.1 * w + p.2, cell_lt hr hc, by rw [cell_div hc, cell_mod hc]⟩

end Sys2Proof.Machine
end

