-- ==== Sys2Proof/Laws/PerInstr.lean ====
section
/-! SUPPORT. The family RowMatch: a command's word selects its row of the opcode map (30_encoding.md R210). One lemma
for each constructor of Instr. -/

/-- The word of a well-formed command passes the row test: under the format's mask it is the OP value (R210). -/
def Sys2Proof.Laws.RowMatch.Statement (i : Sys2Proof.Instr) : Prop :=
  Sys2Proof.wellFormed i = true → Sys2Proof.encode i &&& i.format.mask = i.opcode.setWidth 32

namespace Sys2Proof.Laws.RowMatch

theorem nop : Statement (.nop) := fun _ =>
  pack_mask_n _

theorem mzero (d : MReg) (h : Nat) (w : Nat) : Statement (.mzero d h w) := fun _ =>
  pack_mask_sh _ _ _ _

theorem mload (d : MReg) (h : Nat) (w : Nat) (f : Fmt) : Statement (.mload d h w f) := fun _ =>
  pack_mask_ld _ _ _ _ _

theorem mstore (a : MReg) (f : Fmt) : Statement (.mstore a f) := fun _ =>
  pack_mask_st _ _ _

theorem mget (k : SReg) (a : MReg) (row : Nat) (col : Nat) : Statement (.mget k a row col) := fun _ =>
  pack_mask_eg _ _ _ _ _

theorem mset (d : MReg) (k : SReg) (row : Nat) (col : Nat) : Statement (.mset d k row col) := fun _ =>
  pack_mask_es _ _ _ _ _

theorem mmov (d : MReg) (a : MReg) : Statement (.mmov d a) := fun _ =>
  pack_mask_rr _ _ _

theorem madd (d : MReg) (a : MReg) (b : MReg) : Statement (.madd d a b) := fun _ =>
  pack_mask_rrr _ _ _ _

theorem msub (d : MReg) (a : MReg) (b : MReg) : Statement (.msub d a b) := fun _ =>
  pack_mask_rrr _ _ _ _

theorem mdiv (d : MReg) (a : MReg) (b : MReg) : Statement (.mdiv d a b) := fun _ =>
  pack_mask_rrr _ _ _ _

theorem memul (d : MReg) (a : MReg) (b : MReg) : Statement (.memul d a b) := fun _ =>
  pack_mask_rrr _ _ _ _

theorem mmul (d : MReg) (a : MReg) (b : MReg) : Statement (.mmul d a b) := fun _ =>
  pack_mask_rrr _ _ _ _

theorem madds (d : MReg) (a : MReg) (k : SReg) : Statement (.madds d a k) := fun _ =>
  pack_mask_rrs _ _ _ _

theorem msubs (d : MReg) (a : MReg) (k : SReg) : Statement (.msubs d a k) := fun _ =>
  pack_mask_rrs _ _ _ _

theorem mmuls (d : MReg) (a : MReg) (k : SReg) : Statement (.mmuls d a k) := fun _ =>
  pack_mask_rrs _ _ _ _

theorem mdivs (d : MReg) (a : MReg) (k : SReg) : Statement (.mdivs d a k) := fun _ =>
  pack_mask_rrs _ _ _ _

theorem mtrans (d : MReg) (a : MReg) : Statement (.mtrans d a) := fun _ =>
  pack_mask_rr _ _ _

theorem mabs (d : MReg) (a : MReg) : Statement (.mabs d a) := fun _ =>
  pack_mask_rr _ _ _

theorem mround (d : MReg) (a : MReg) : Statement (.mround d a) := fun _ =>
  pack_mask_rr _ _ _

theorem mmin (k : SReg) (a : MReg) : Statement (.mmin k a) := fun _ =>
  pack_mask_sa _ _ _

theorem mmax (k : SReg) (a : MReg) : Statement (.mmax k a) := fun _ =>
  pack_mask_sa _ _ _

theorem mzigzag (d : MReg) (a : MReg) : Statement (.mzigzag d a) := fun _ =>
  pack_mask_rr _ _ _

theorem meq (a : MReg) (b : MReg) : Statement (.meq a b) := fun _ =>
  pack_mask_ab _ _ _

theorem fdct (d : MReg) (a : MReg) : Statement (.fdct d a) := fun _ =>
  pack_mask_rr _ _ _

theorem idct (d : MReg) (a : MReg) : Statement (.idct d a) := fun _ =>
  pack_mask_rr _ _ _

theorem quant (d : MReg) (a : MReg) : Statement (.quant d a) := fun _ =>
  pack_mask_rr _ _ _

theorem dequant (d : MReg) (a : MReg) : Statement (.dequant d a) := fun _ =>
  pack_mask_rr _ _ _

theorem lvlsub (d : MReg) (a : MReg) : Statement (.lvlsub d a) := fun _ =>
  pack_mask_rr _ _ _

theorem lvladd (d : MReg) (a : MReg) : Statement (.lvladd d a) := fun _ =>
  pack_mask_rr _ _ _

theorem xform (etq : Bool) (erec : Bool) : Statement (.xform etq erec) := fun _ =>
  pack_mask_xf _ _ _

theorem pqclr : Statement (.pqclr) := fun _ =>
  pack_mask_n _

theorem pqenq : Statement (.pqenq) := fun _ =>
  pack_mask_n _

theorem pqdeq : Statement (.pqdeq) := fun _ =>
  pack_mask_n _

theorem pqpeek : Statement (.pqpeek) := fun _ =>
  pack_mask_n _

theorem hcount : Statement (.hcount) := fun _ =>
  pack_mask_n _

theorem hbuild : Statement (.hbuild) := fun _ =>
  pack_mask_n _

theorem hassign : Statement (.hassign) := fun _ =>
  pack_mask_n _

theorem hemit : Statement (.hemit) := fun _ =>
  pack_mask_n _

theorem huff : Statement (.huff) := fun _ =>
  pack_mask_n _

end Sys2Proof.Laws.RowMatch
end

