-- ==== Sys2Proof/Laws/Step.lean ====
section
/-! SUPPORT. What a step is, input by input, and that every command ends. -/

namespace Sys2Proof.Machine

/-! ## The engine's turn and the host's -/

theorem step_of_empty {s : State} (h : s.inbox = []) : step s = engineStep s := by
  simp [step, machineStep, h]

theorem step_of_turn {s : State} {rest : List Input} (h : s.inbox = .engineTurn :: rest) :
    step s = engineStep { s with inbox := rest } := by
  simp [step, machineStep, h]

theorem step_of_host {s : State} {act : HostAction} {rest : List Input} (h : s.inbox = .host act :: rest) :
    step s = hostStep act { s with inbox := rest } := by
  simp [step, machineStep, h]

theorem engineStep_idle {s : State} (h : s.status.busy = false ∨ s.resetPin = true) : engineStep s = .next s := by
  rcases h with h | h <;> simp [engineStep, h]

theorem engineStep_busy {s : State} (hb : s.status.busy = true) (hr : s.resetPin = false) :
    engineStep s = runCommand s := by
  simp [engineStep, hb, hr]

theorem runCommand_ok {s : State} {i : Instr} (h : decode s.cmd = .ok i) : runCommand s = exec i s := by
  simp [runCommand, h]

theorem runCommand_illegal {s : State} {e : DecodeError} (h : decode s.cmd = .error e) :
    runCommand s = .next (s.errorEntry (Raise.illegal s.cmd)) := by
  simp [runCommand, h]

/-! ## Every command ends through `finish` -/

/-- A command's meaning is `finish` of some result: it always answers a next state. -/
theorem exec_finish (i : Instr) (s : State) : ∃ e, exec i s = s.finish e := by
  cases i <;> first | exact ⟨_, rfl⟩ | exact ⟨.ok s, rfl⟩ | exact ⟨.ok (s.setPq PQueue.empty), rfl⟩

theorem exec_next (i : Instr) (s : State) :
    ∃ t, exec i s = .next t ∧ ((∃ u, t = State.complete u) ∨ ∃ r, t = s.errorEntry r) := by
  obtain ⟨e, he⟩ := exec_finish i s
  obtain ⟨t, ht, h⟩ := s.finish_next e
  refine ⟨t, he.trans ht, ?_⟩
  rcases h with ⟨u, -, rfl⟩ | ⟨r, -, rfl⟩
  · exact .inl ⟨u, rfl⟩
  · exact .inr ⟨r, rfl⟩

/-- The result of a command that completes or fails, taken apart. -/
theorem State.finish_eq_next {s t : State} {e : Except Raise State} (h : s.finish e = .next t) :
    (∃ u, e = .ok u ∧ t = u.complete) ∨ ∃ r, e = .error r ∧ t = s.errorEntry r := by
  cases e with
  | ok u => exact .inl ⟨u, rfl, (Host.Outcome.next.inj h).symm⟩
  | error r => exact .inr ⟨r, rfl, (Host.Outcome.next.inj h).symm⟩

/-! ## Port accesses -/

theorem portRead_ok {s : State} {off : BitVec 12} (hr : s.resetPin = false) (ho : off.toNat % 4 = 0) :
    s.portRead off 4 = s.readReg off.toNat := by
  simp [State.portRead, hr, portOk, ho]

theorem portWrite_ok {s : State} {off : BitVec 12} {v : Word} (hr : s.resetPin = false) (ho : off.toNat % 4 = 0) :
    s.portWrite off 4 v = (s.writeReg off.toNat v).setReply .written := by
  simp [State.portWrite, hr, portOk, ho]

theorem portOk_false {off : BitVec 12} {size : Nat} (h : size ≠ 4 ∨ off.toNat % 4 ≠ 0) : portOk off size = false := by
  rcases h with h | h <;> simp [portOk, h]

/-! ## Reset -/

/-- Reset: the engine's state at its reset values, and memory changed only inside the output regions of a running
command. -/
theorem State.doReset_spec (s : State) :
    (∃ m i, s.doReset = { State.reset with
      mem := m, holes := s.holes, devices := s.devices, resetPin := s.resetPin, inbox := s.inbox, reply := s.reply,
      freeIdx := i }) ∧
      (s.mem.wf = true → s.doReset.mem.wf = true) ∧
      (s.mem.wf = true → ∀ a, outside s.runningOuts a → s.doReset.mem.read a = s.mem.read a) := by
  obtain ⟨⟨m, i, e⟩, w, r⟩ := s.havoc_spec s.runningOuts
  unfold State.doReset
  refine ⟨⟨m, i, by rw [e]; rfl⟩, fun h => w h, fun h a ha => r h a ha⟩

/-! ## The regions of the running command -/

/-- The regions a storing command opens lie in its output regions, whatever its outcome. -/
theorem storingBody_dirty {i : Instr} {s : State} {r : Raise} (h : storingBody i s = some (.error r)) :
    r.dirty ⊆ r.outs := by
  cases i <;> simp only [storingBody, reduceCtorEq, Option.some.injEq] at h
  case mstore a f =>
    rcases bind_eq_error h with h | ⟨m, -, h⟩
    · obtain ⟨q, -, rfl⟩ := mapError_eq_error h
      exact List.nil_subset _
    rcases bind_eq_error h with h | ⟨v, -, h⟩
    · obtain ⟨q, -, rfl⟩ := mapError_eq_error h
      exact List.Subset.refl _
    · simp at h
  case xform e t =>
    rcases bind_eq_error h with h | ⟨_, -, h⟩
    · obtain ⟨q, -, rfl⟩ := mapError_eq_error h
      exact List.nil_subset _
    rcases bind_eq_error h with h | ⟨_, -, h⟩
    · obtain ⟨q, -, rfl⟩ := mapError_eq_error h
      exact List.nil_subset _
    rcases bind_eq_error h with h | ⟨v, -, h⟩
    · obtain ⟨q, -, rfl⟩ := mapError_eq_error h
      exact List.Subset.refl _
    · simp at h
  case hassign =>
    rcases bind_eq_error h with h | ⟨_, -, h⟩
    · obtain ⟨q, -, rfl⟩ := mapError_eq_error h
      exact List.nil_subset _
    rcases bind_eq_error h with h | ⟨_, -, h⟩
    · obtain ⟨q, -, rfl⟩ := mapError_eq_error h
      exact List.Subset.refl _
    rcases bind_eq_error h with h | ⟨v, -, h⟩
    · obtain ⟨q, -, rfl⟩ := mapError_eq_error h
      exact List.Subset.refl _
    · simp at h
  case hemit =>
    have key : ∀ outs q, (emitRaise s.cfg (s.onDevice [hinRegion s.cfg]) outs q).dirty ⊆
        (emitRaise s.cfg (s.onDevice [hinRegion s.cfg]) outs q).outs := by
      intro outs q
      obtain ⟨rs, n, e, rfl | rfl⟩ := emitRaise_spec s.cfg (s.onDevice [hinRegion s.cfg]) outs q <;> rw [e]
      · exact List.nil_subset _
      · exact List.Subset.refl _
    rcases bind_eq_error h with h | ⟨_, -, h⟩
    · rw [(need_error_iff.1 h).2]
      exact List.nil_subset _
    rcases bind_eq_error h with h | ⟨_, -, h⟩
    · obtain ⟨q, -, rfl⟩ := mapError_eq_error h
      exact key _ q
    rcases bind_eq_error h with h | ⟨_, -, h⟩
    · obtain ⟨q, -, rfl⟩ := mapError_eq_error h
      exact key _ q
    rcases bind_eq_error h with h | ⟨v, -, h⟩
    · obtain ⟨q, -, rfl⟩ := mapError_eq_error h
      exact List.Subset.refl _
    · simp at h
  case huff =>
    have key : ∀ d ins outs q, (huffEmitRaise d ins outs q).dirty ⊆ (huffEmitRaise d ins outs q).outs := by
      intro d ins outs q
      obtain ⟨rs, e, hs⟩ := huffEmitRaise_spec d ins outs q
      rw [e]
      exact hs
    rcases bind_eq_error h with h | ⟨_, -, h⟩
    · obtain ⟨q, -, rfl⟩ := mapError_eq_error h
      exact List.Subset.refl _
    rcases bind_eq_error h with h | ⟨_, -, h⟩
    · obtain ⟨q, -, rfl⟩ := mapError_eq_error h
      exact List.Subset.refl _
    rcases bind_eq_error h with h | ⟨_, -, h⟩
    · obtain ⟨q, -, rfl⟩ := mapError_eq_error h
      exact List.Subset.refl _
    rcases bind_eq_error h with h | ⟨_, -, h⟩
    · obtain ⟨q, -, rfl⟩ := mapError_eq_error h
      exact List.Subset.refl _
    rcases bind_eq_error h with h | ⟨_, -, h⟩
    · obtain ⟨q, -, rfl⟩ := mapError_eq_error h
      exact key _ _ _ q
    rcases bind_eq_error h with h | ⟨_, -, h⟩
    · obtain ⟨q, -, rfl⟩ := mapError_eq_error h
      exact key _ _ _ q
    rcases bind_eq_error h with h | ⟨v, -, h⟩
    · obtain ⟨q, -, rfl⟩ := mapError_eq_error h
      exact List.Subset.refl _
    · simp at h

/-- What a command writes or leaves open lies in its output regions. -/
theorem outRegions_subset (i : Instr) (s : State) : outRegions i s ⊆ outBuffers i s := by
  unfold outRegions outBuffers
  split
  · exact List.Subset.refl _
  · rename_i h
    exact storingBody_dirty h
  · exact List.Subset.refl _

/-- So it is of the running command. -/
theorem State.runningOuts_subset (s : State) : s.runningOuts ⊆ s.runningBuffers := by
  unfold State.runningOuts State.runningBuffers State.runningRegions
  split
  · split
    · exact outRegions_subset _ s
    · exact List.Subset.refl _
  · exact List.Subset.refl _
theorem State.runningOuts_idle {s : State} (h : s.status.busy = false) : s.runningOuts = [] := by
  simp [State.runningOuts, State.runningRegions, h]

theorem State.runningIns_idle {s : State} (h : s.status.busy = false) : s.runningIns = [] := by
  simp [State.runningIns, State.runningRegions, h]

theorem State.runningBuffers_idle {s : State} (h : s.status.busy = false) : s.runningBuffers = [] := by
  simp [State.runningBuffers, State.runningRegions, h]

end Sys2Proof.Machine
end

