-- ==== Sys2Proof/Tests/Slice0.lean ====
section
/-! SUPPORT. The model's own tests, with expected results from the examples of spec/, and for every statement with
hypotheses a state and operands that meet them. -/

namespace Sys2Proof.Tests

open Sys2Proof.Machine

/-! ## Helpers -/

/-- The next state, if there is one. -/
def after (o : Host.Outcome State Fault Refusal) : Option State :=
  match o with
  | .next t => some t
  | .fault _ => none
  | .refused _ => none

/-- A view of the state after a command. -/
def view {α : Type} (i : Instr) (s : State) (f : State → α) : Option α := (after (exec i s)).map f

def row (l : List F64) : Mat := ⟨1, l.length, l⟩

/-- The reset state with matrices in registers 0 and 1. -/
def two (a b : Mat) : State := (State.reset.setM 0 a).setM 1 b

/-- The reset state with these bytes from an address up. -/
def bytes (a : Nat) (l : List Byte) : State :=
  { State.reset with mem := (l.zipIdx a).foldl (fun m p => Memory.write m p.2 p.1) [] }

def one : F64 := 0x3FF0000000000000#64
def ftwo : F64 := 0x4000000000000000#64
def three : F64 := 0x4008000000000000#64
def four : F64 := 0x4010000000000000#64
def half : F64 := 0x3FE0000000000000#64
def negZero : F64 := 0x8000000000000000#64
def inf : F64 := 0x7FF0000000000000#64

/-! ## Well-formedness: one ill-formed term for each check -/

theorem test_wf_mzero_height : wellFormed (.mzero 0 16 8) = false := by decide
theorem test_wf_mzero_width : wellFormed (.mzero 0 8 16) = false := by decide
theorem test_wf_mload_height : wellFormed (.mload 0 16 8 .u8) = false := by decide
theorem test_wf_mload_width : wellFormed (.mload 0 8 16 .u8) = false := by decide
theorem test_wf_mget_row : wellFormed (.mget 0 0 16 0) = false := by decide
theorem test_wf_mget_col : wellFormed (.mget 0 0 0 16) = false := by decide
theorem test_wf_mset_row : wellFormed (.mset 0 0 16 0) = false := by decide
theorem test_wf_mset_col : wellFormed (.mset 0 0 0 16) = false := by decide
theorem test_wf_largest_fields : wellFormed (.mzero 7 15 15) = true := by decide

/-! ## Decoding: words written out from R201 and R210 -/

theorem test_decode_processor : decode 0b00000000000000000000000000000001#32 = .ok .nop := by decide

-- fields, high to low: reserved, Y, X, S, B, A, D, OP
theorem test_decode_matrix_access :
    decode 0b00000_0101_0011_00_000_000_010_00010000#32 = .ok (.mzero 2 3 5) ∧
    decode 0b00000_1000_0111_00_001_000_110_00010001#32 = .ok (.mload 6 7 8 .i16) ∧
    decode 0b00000_0000_0000_00_000_101_000_00010010#32 = .ok (.mstore 5 .f64) ∧
    decode 0b00000_0010_1001_11_000_100_000_00010011#32 = .ok (.mget 3 4 9 2) ∧
    decode 0b00000_1111_0001_10_000_000_011_00010100#32 = .ok (.mset 3 2 1 15) ∧
    decode 0b00000_0000_0000_00_000_110_001_00010101#32 = .ok (.mmov 1 6) := by decide

theorem test_decode_matrix_arithmetic :
    decode 0b00000_0000_0000_00_011_010_001_00011000#32 = .ok (.madd 1 2 3) ∧
    decode 0b00000_0000_0000_00_111_000_100_00011001#32 = .ok (.msub 4 0 7) ∧
    decode 0b00000_0000_0000_00_001_101_110_00011010#32 = .ok (.mdiv 6 5 1) ∧
    decode 0b00000_0000_0000_00_010_011_000_00011011#32 = .ok (.memul 0 3 2) ∧
    decode 0b00000_0000_0000_00_101_100_100_00011100#32 = .ok (.mmul 4 4 5) ∧
    decode 0b00000_0000_0000_01_000_010_011_00100000#32 = .ok (.madds 3 2 1) ∧
    decode 0b00000_0000_0000_10_000_010_011_00100001#32 = .ok (.msubs 3 2 2) ∧
    decode 0b00000_0000_0000_11_000_001_110_00100010#32 = .ok (.mmuls 6 1 3) ∧
    decode 0b00000_0000_0000_00_000_111_101_00100011#32 = .ok (.mdivs 5 7 0) := by decide

theorem test_decode_matrix_unary :
    decode 0b00000_0000_0000_00_000_011_010_00101000#32 = .ok (.mtrans 2 3) ∧
    decode 0b00000_0000_0000_00_000_100_001_00101001#32 = .ok (.mabs 1 4) ∧
    decode 0b00000_0000_0000_00_000_010_101_00101010#32 = .ok (.mround 5 2) ∧
    decode 0b00000_0000_0000_10_000_110_000_00101011#32 = .ok (.mmin 2 6) ∧
    decode 0b00000_0000_0000_01_000_011_000_00101100#32 = .ok (.mmax 1 3) ∧
    decode 0b00000_0000_0000_00_000_001_111_00101101#32 = .ok (.mzigzag 7 1) ∧
    decode 0b00000_0000_0000_00_110_001_000_00101110#32 = .ok (.meq 1 6) := by decide

theorem test_decode_transform :
    decode 0b00000_0000_0000_00_000_000_001_00110000#32 = .ok (.fdct 1 0) ∧
    decode 0b00000_0000_0000_00_000_101_010_00110001#32 = .ok (.idct 2 5) ∧
    decode 0b00000_0000_0000_00_000_011_100_00110010#32 = .ok (.quant 4 3) ∧
    decode 0b00000_0000_0000_00_000_110_111_00110011#32 = .ok (.dequant 7 6) ∧
    decode 0b00000_0000_0000_00_000_010_001_00110100#32 = .ok (.lvlsub 1 2) ∧
    decode 0b00000_0000_0000_00_000_001_010_00110101#32 = .ok (.lvladd 2 1) ∧
    decode 0b00000_0000_0000_00_000_000_001_00111000#32 = .ok (.xform true false) ∧
    decode 0b00000_0000_0000_00_000_000_010_00111000#32 = .ok (.xform false true) := by decide

theorem test_decode_queue :
    decode 0x00000040#32 = .ok .pqclr ∧ decode 0x00000041#32 = .ok .pqenq ∧
    decode 0x00000042#32 = .ok .pqdeq ∧ decode 0x00000043#32 = .ok .pqpeek := by decide

theorem test_decode_huffman :
    decode 0x00000050#32 = .ok .hcount ∧ decode 0x00000051#32 = .ok .hbuild ∧
    decode 0x00000052#32 = .ok .hassign ∧ decode 0x00000053#32 = .ok .hemit ∧
    decode 0x00000054#32 = .ok .huff := by decide

-- R215, each condition; the last is FMT = 3 of MLOAD and FMT = 7 of MSTORE
theorem test_decode_illegal :
    decode 0x00000000#32 = .error .unknownOp ∧ decode 0x00000039#32 = .error .unknownOp ∧
    decode 0x08000001#32 = .error .reservedBits ∧ decode 0x00000101#32 = .error .unusedBits ∧
    decode 0x00000438#32 = .error .unusedBits ∧
    decode 0b00000_1000_1000_00_011_000_000_00010001#32 = .error .badFmt ∧
    decode 0b00000_0000_0000_00_111_000_000_00010010#32 = .error .badFmt := by decide

theorem test_decodeTableWord :
    decodeTableWord 32 0x0000D118 = some (.madd 1 2 3) ∧ decodeTableWord 32 0 = none := by decide

/-! ## The step -/

-- R270's example, as the first command after reset
theorem test_step_runs_fetch_word :
    (after (step (State.reset.withFetchWord 32 0x00000001))).map (fun t => (t.cmdcnt, t.status)) =
      some (1#32, ⟨false, true, false, false, false⟩) := by decide

theorem test_step_illegal_word :
    (after (step (State.reset.withFetchWord 32 0x0000002F))).map (fun t => (t.errRec, t.status.err)) =
      some (⟨0x2F01#32, 0#32, 0x2F#32⟩, true) := by decide

/-! ## One step of each command, on the examples of its rule -/

theorem test_nop : view .nop { State.reset with cmdcnt := 5#32 } (fun t => (t.cmdcnt, t.status.done)) =
    some (6#32, true) := by decide

theorem test_mzero : view (.mzero 2 3 5) State.reset (fun t => t.mregs[2]) =
    some (some ⟨3, 5, List.replicate 15 0#64⟩) := by decide

theorem test_mzero_shape : view (.mzero 2 9 8) { State.reset with cmd := 0x10#32 } (fun t => t.errRec) =
    some ⟨0x1006#32, 0#32, 0x98#32⟩ := by decide

-- R312: bytes 10 20 30 40 at 0x1000, stride 2
theorem test_mload :
    view (.mload 0 2 2 .u8) { bytes 0x1000 [0x10, 0x20, 0x30, 0x40] with
      cfg := { Csr.reset with arg0 := 0x1000#32, arg1 := 2#32 } } (fun t => t.mregs[0]) =
    some (some ⟨2, 2, [f64 16, f64 32, f64 48, f64 64]⟩) := by decide +kernel

-- one byte past the top of memory: BUS at address 2^32, element 1
theorem test_mload_bus :
    view (.mload 0 1 2 .u8) { State.reset with
      cmd := 0x11#32, cfg := { Csr.reset with arg0 := 0xFFFFFFFF#32 } } (fun t => t.errRec) =
    some ⟨0x1109#32, 0#32, 1#32⟩ := by decide +kernel

-- R313: [[-1.5, 300.7]] as U8 and as I16
theorem test_mstore_u8 :
    view (.mstore 0 .u8) ((State.reset.setM 0 (row [0xBFF8000000000000#64, 0x4072CB3333333333#64]))) (fun t => t.mem) =
      some [(1, 0xFF#8)] := by decide +kernel

theorem test_mstore_i16 :
    view (.mstore 0 .i16) ((State.reset.setM 0 (row [0xBFF8000000000000#64, 0x4072CB3333333333#64]))) (fun t => t.mem) =
      some [(0, 0xFE#8), (1, 0xFF#8), (2, 0x2D#8), (3, 0x01#8)] := by decide +kernel

def sample23 : Mat := ⟨2, 3, [0#64, 0#64, 0#64, 0#64, 0#64, 0x401D000000000000#64]⟩

theorem test_mget : view (.mget 0 1 1 2) (two sample23 sample23) (fun t => t.sregs[0]) =
    some 0x401D000000000000#64 := by decide

theorem test_mget_index : view (.mget 0 1 2 0) { two sample23 sample23 with cmd := 0x13#32 } (fun t => t.errRec) =
    some ⟨0x1303#32, 0#32, 0x02000203#32⟩ := by decide

theorem test_mset :
    view (.mset 1 2 0 1) ((two (row []) ⟨2, 3, List.replicate 6 0#64⟩).setS 2 0xC010000000000000#64)
      (fun t => t.mregs[1]) = some (some ⟨2, 3, [0#64, 0xC010000000000000#64, 0#64, 0#64, 0#64, 0#64]⟩) := by decide

-- a NaN's payload is copied
theorem test_mmov : view (.mmov 4 0) (two (row [0xFFF8000000000123#64]) (row [])) (fun t => t.mregs[4]) =
    some (some (row [0xFFF8000000000123#64])) := by decide

theorem test_madd : view (.madd 2 0 1) (two (row [one, ftwo]) (row [half, 0xC000000000000000#64]))
    (fun t => t.mregs[2]) = some (some (row [0x3FF8000000000000#64, 0#64])) := by decide +kernel

theorem test_msub : view (.msub 0 0 1) (two (row [three, one]) (row [one, four])) (fun t => t.mregs[0]) =
    some (some (row [ftwo, 0xC008000000000000#64])) := by decide +kernel

theorem test_mdiv : view (.mdiv 2 0 1) (two (row [one, 0xBFF0000000000000#64, 0#64]) (row [0#64, 0#64, 0#64]))
    (fun t => t.mregs[2]) = some (some (row [inf, 0xFFF0000000000000#64, qNaN])) := by decide +kernel

theorem test_memul : view (.memul 2 0 1) (two (row [ftwo, 0xC008000000000000#64]) (row [four, 0#64]))
    (fun t => t.mregs[2]) = some (some (row [0x4020000000000000#64, negZero])) := by decide +kernel

-- [[1, 2], [3, 4]] times [[5, 6], [7, 8]]
theorem test_mmul :
    view (.mmul 0 0 1) (two ⟨2, 2, [one, ftwo, three, four]⟩
      ⟨2, 2, [0x4014000000000000#64, 0x4018000000000000#64, 0x401C000000000000#64, 0x4020000000000000#64]⟩)
      (fun t => t.mregs[0]) =
    some (some ⟨2, 2, [0x4033000000000000#64, 0x4036000000000000#64, 0x4045800000000000#64, 0x4049000000000000#64]⟩) :=
  by decide +kernel

theorem test_mmul_dim :
    view (.mmul 2 0 1) { two ⟨1, 2, [one, one]⟩ ⟨2, 1, [one, one]⟩ with cmd := 0x1C#32 } (fun t => t.errRec) =
      some ⟨0x1C02#32, 0#32, 0x01020201#32⟩ := by decide

theorem test_madds : view (.madds 2 0 1) ((two (row [one, ftwo]) (row [])).setS 1 half) (fun t => t.mregs[2]) =
    some (some (row [0x3FF8000000000000#64, 0x4004000000000000#64])) := by decide +kernel

theorem test_msubs : view (.msubs 2 0 1) ((two (row [one, ftwo]) (row [])).setS 1 half) (fun t => t.mregs[2]) =
    some (some (row [half, 0x3FF8000000000000#64])) := by decide +kernel

theorem test_mmuls :
    view (.mmuls 2 0 1) ((two (row [one, 0xC000000000000000#64]) (row [])).setS 1 0xC008000000000000#64)
      (fun t => t.mregs[2]) = some (some (row [0xC008000000000000#64, 0x4018000000000000#64])) := by decide +kernel

theorem test_mdivs : view (.mdivs 2 0 1) (two (row [one, 0xBFF0000000000000#64]) (row [])) (fun t => t.mregs[2]) =
    some (some (row [inf, 0xFFF0000000000000#64])) := by decide +kernel

theorem test_mtrans : view (.mtrans 0 0) (two (row [one, ftwo, three]) (row [])) (fun t => t.mregs[0]) =
    some (some ⟨3, 1, [one, ftwo, three]⟩) := by decide

theorem test_mabs : view (.mabs 2 0) (two (row [0xBFF8000000000000#64, ftwo, negZero]) (row []))
    (fun t => t.mregs[2]) = some (some (row [0x3FF8000000000000#64, ftwo, 0#64])) := by decide

-- R328: [[0.5, 1.5, -2.5, 2.4999]], half to even and half away from zero
def toRound : Mat := row [half, 0x3FF8000000000000#64, 0xC004000000000000#64, 0x4003FFCB923A29C7#64]

theorem test_mround_even : view (.mround 2 0) (two toRound (row [])) (fun t => t.mregs[2]) =
    some (some (row [0#64, ftwo, 0xC000000000000000#64, ftwo])) := by decide +kernel

theorem test_mround_away :
    view (.mround 2 0) { two toRound (row []) with cfg := { Csr.reset with rnd := true } } (fun t => t.mregs[2]) =
      some (some (row [one, ftwo, 0xC008000000000000#64, ftwo])) := by decide +kernel

-- R329, R330: [[3, -1], [-1, 7]]
def toScan : Mat := ⟨2, 2, [three, 0xBFF0000000000000#64, 0xBFF0000000000000#64, 0x401C000000000000#64]⟩

theorem test_mmin : view (.mmin 0 0) (two toScan toScan) (fun t => t.sregs[0]) = some 0xBFF0000000000000#64 := by
  decide +kernel

-- a NaN in cell (0, 0) stays
theorem test_mmin_nan : view (.mmin 0 0) (two (row [qNaN, one]) toScan) (fun t => t.sregs[0]) = some qNaN := by
  decide +kernel

theorem test_mmax : view (.mmax 3 0) (two toScan toScan) (fun t => t.sregs[3]) = some 0x401C000000000000#64 := by
  decide +kernel

/-- An 8 by 8 matrix whose cell `8r + c` holds the bits `8r + c`. -/
def counting : Mat := ⟨8, 8, (List.range 64).map fun i => BitVec.ofNat 64 i⟩

theorem test_mzigzag :
    view (.mzigzag 0 0) (two counting counting) (fun t => (t.mregs[0]).map fun m => m.e.take 8) =
      some (some [0#64, 1#64, 8#64, 16#64, 9#64, 2#64, 3#64, 10#64]) := by decide +kernel

theorem test_meq : view (.meq 0 1) (two (row [0#64, ftwo]) (row [negZero, ftwo])) (fun t => t.res[0]) = some 1#32 := by
  decide +kernel

theorem test_meq_shape : view (.meq 0 1) (two (row [one, ftwo]) ⟨2, 1, [one, ftwo]⟩) (fun t => t.res[0]) =
    some 0#32 := by decide +kernel

-- R410: a block of +1.0 gives T[0][0] = 8.000000000000002
theorem test_fdct :
    view (.fdct 1 0) (two ⟨8, 8, List.replicate 64 one⟩ (row [])) (fun t => (t.mregs[1]).map fun m => m.get 0 0) =
      some (some 0x4020000000000001#64) := by decide +kernel

-- R411: A[0][0] = 8.0 alone gives 1.0000000000000002
theorem test_idct :
    view (.idct 1 0) (two ⟨8, 8, 0x4020000000000000#64 :: List.replicate 63 0#64⟩ (row []))
      (fun t => (t.mregs[1]).map fun m => m.get 0 0) = some (some 0x3FF0000000000001#64) := by decide +kernel

-- R412: -415.375 / 16 = -25.9609375
theorem test_quant :
    view (.quant 1 0) (two ⟨8, 8, 0xC079F60000000000#64 :: List.replicate 63 0#64⟩ (row []))
      (fun t => (t.mregs[1]).map fun m => m.get 0 0) = some (some 0xC039F60000000000#64) := by decide +kernel

-- R413: -26 * 16 = -416
theorem test_dequant :
    view (.dequant 1 0) (two ⟨8, 8, 0xC03A000000000000#64 :: List.replicate 63 0#64⟩ (row []))
      (fun t => (t.mregs[1]).map fun m => m.get 0 0) = some (some 0xC07A000000000000#64) := by decide +kernel

theorem test_lvlsub :
    view (.lvlsub 1 0) (two (row [0#64, 0x4060000000000000#64, 0x406FE00000000000#64]) (row [])) (fun t => t.mregs[1]) =
      some (some (row [0xC060000000000000#64, 0#64, 0x405FC00000000000#64])) := by decide +kernel

theorem test_lvladd : view (.lvladd 1 0) (two (row [0xC060000000000000#64, half]) (row [])) (fun t => t.mregs[1]) =
    some (some (row [0#64, 0x4060100000000000#64])) := by decide +kernel

-- R424: an all-0 block with the reset table: T[0][0] / 16 rounds to -64
theorem test_xform_block : (blockTr Csr.reset ⟨8, 8, List.replicate 64 0#64⟩).get 0 0 = f64 (-64) := by decide +kernel

theorem test_xform_imgdim :
    view (.xform true true) { State.reset with cmd := 0x338#32, cfg := { Csr.reset with imgDim := 0x00080004#32 } }
      (fun t => t.errRec) = some ⟨0x3807#32, 0#32, 0x00080004#32⟩ := by decide +kernel

/-- The queue of R503's example after four of its five keys. -/
def fourKeys : PQueue :=
  ⟨[⟨1#32, 1#32, 1#32⟩, ⟨2#32, 2#32, 3#32⟩, ⟨3#32, 3#32, 2#32⟩, ⟨5#32, 5#32, 0#32⟩], 4#32⟩

theorem test_pqclr : view .pqclr (State.reset.setPq fourKeys) (fun t => t.pq) = some ⟨[], 0#32⟩ := by decide

theorem test_pqenq :
    view .pqenq { State.reset.setPq fourKeys with cfg := { Csr.reset with arg0 := 4#32, arg1 := 4#32 } }
      (fun t => (t.pq.heap.map fun e => (e.key, e.seq), t.pq.seq)) =
    some ([(1#32, 1#32), (2#32, 3#32), (3#32, 2#32), (5#32, 0#32), (4#32, 4#32)], 5#32) := by decide

theorem test_pqdeq :
    view .pqdeq (State.reset.setPq fourKeys) (fun t => (t.res[0], t.pq.heap.map Entry.key, t.pq.seq)) =
      some (1#32, [2#32, 5#32, 3#32], 4#32) := by decide

theorem test_pqdeq_empty : view .pqdeq { State.reset with cmd := 0x42#32 } (fun t => t.errRec) =
    some ⟨0x4204#32, 0#32, 0#32⟩ := by decide

theorem test_pqpeek : view .pqpeek (State.reset.setPq fourKeys) (fun t => (t.res[0], t.res[1], t.pq)) =
    some (1#32, 1#32, fourKeys) := by decide

/-- The input of R473, at address 0. -/
def seven : State := { bytes 0 [7, 0, 7, 0, 3, 0, 3, 0, 5, 0, 5, 0, 9, 0] with
  cfg := { Csr.reset with hinLen := 7#32, htabDst := 0x100#32, houtDst := 0x200#32, houtCap := 2#32 } }

theorem test_hcount : view .hcount seven (fun t => (t.huff.syms, t.res[0])) =
    some ([⟨7#16, 2#32⟩, ⟨3#16, 2#32⟩, ⟨5#16, 2#32⟩, ⟨9#16, 1#32⟩], 4#32) := by decide +kernel

/-- The counts of R456's example. -/
def classic : List HSym := [⟨0#16, 5#32⟩, ⟨1#16, 9#32⟩, ⟨2#16, 12#32⟩, ⟨3#16, 13#32⟩, ⟨4#16, 16#32⟩, ⟨5#16, 45#32⟩]

/-- The tree of R456's example. -/
def classicTree : List Node :=
  leaves classic ++ [.internal 14#32 0 1, .internal 25#32 2 3, .internal 30#32 6 4, .internal 55#32 7 8,
    .internal 100#32 5 9]

theorem test_hbuild : view .hbuild (State.reset.setHuff (Huffman.afterCount classic))
    (fun t => (t.huff.nodes, t.res[0], t.res[1])) = some (classicTree, 10#32, 11#32) := by decide +kernel

theorem test_hassign : view .hassign (State.reset.setHuff (Huffman.afterBuild classic classicTree 10))
    (fun t => (t.huff.codes.map fun c => (c.len, c.bits), t.res.toList)) =
    some ([(4, 0b1100#64), (4, 0b1101#64), (3, 0b100#64), (3, 0b101#64), (3, 0b111#64), (1, 0b0#64)],
      [6#32, 4#32, 224#32, 0#32]) := by decide +kernel

-- R463: 7 = "11", 3 = "01", 5 = "10", 9 = "00" gives bytes F5 A0
theorem test_hemit : view .hemit (seven.setHuff (Huffman.afterAssign
      [⟨7#16, 2#32⟩, ⟨3#16, 2#32⟩, ⟨5#16, 2#32⟩, ⟨9#16, 1#32⟩] [] 0 [⟨2, 3#64⟩, ⟨2, 1#64⟩, ⟨2, 2#64⟩, ⟨2, 0#64⟩]))
    (fun t => (t.mem.read 0x200, t.mem.read 0x201, t.hbits)) = some (0xF5#8, 0xA0#8, 14#64) := by decide +kernel

-- R466: input 1, 2, 3, 4 gives B = 8, byte 0x39, RES = (4, 2, 8, 0)
theorem test_huff : view .huff { bytes 0 [1, 0, 2, 0, 3, 0, 4, 0] with
      cfg := { Csr.reset with hinLen := 4#32, htabDst := 0x100#32, houtDst := 0x200#32, houtCap := 1#32 } }
    (fun t => (t.mem.read 0x200, t.res.toList)) = some (0x39#8, [4#32, 2#32, 8#32, 0#32]) := by decide +kernel

theorem test_huff_empty : view .huff { State.reset with cmd := 0x54#32 } (fun t => (t.errRec, t.huff)) =
    some (⟨0x5404#32, 0#32, 0#32⟩, Huffman.empty) := by decide +kernel

-- R158: an element on a device leaves a 2 by 2 matrix of free values; one value is drawn
theorem test_mload_device :
    view (.mload 0 2 2 .u8) { State.reset with
      devices := [⟨3, 1⟩], cfg := { Csr.reset with arg1 := 2#32 } }
      (fun t => ((t.mregs[0]).map fun m => (m.h, m.w, m.e.length), t.freeIdx, t.errRec.code)) =
    some (some (2, 2, 4), 1, 0#32) := by decide +kernel

-- R158: one symbol on a device leaves any table, of any size, and any RES0
theorem test_hcount_device :
    view .hcount { seven with cfg := { seven.cfg with hinLen := 1#32 }, devices := [⟨1, 1⟩] }
      (fun t => (t.huff, t.res[0], t.freeIdx)) = some (Huffman.freeCounted 0, Config.freeWord 1, 2) := by rfl

-- R711: an XFORM bound for IMGDIM and an HASSIGN bound for SEQ still have their output regions
theorem test_outBuffers :
    (outRegions (.xform true true) { State.reset with cfg := { Csr.reset with imgDim := 0x00080004#32 } } = []) ∧
    (outBuffers (.xform true true) { State.reset with cfg := { Csr.reset with imgDim := 0x00080004#32 } } =
      [⟨0, 64⟩, ⟨0, 64⟩, ⟨0, 32⟩]) ∧
    (outRegions .hassign (seven.setHuff (Huffman.afterCount [⟨7#16, 2#32⟩])) = []) ∧
    (outBuffers .hassign (seven.setHuff (Huffman.afterCount [⟨7#16, 2#32⟩])) = [⟨0x100, 16⟩]) ∧
    outBuffers .huff { seven with cfg := { seven.cfg with houtCap := 1#32 } } =
      [⟨0x100, 64⟩, ⟨0x200, 2⟩] := by
  decide +kernel

-- R463, R261: after BUS in pass 1 HEMIT's region is as large as the codewords allow, here 12 bits; with one symbol
-- in the table no codeword has a bit; NOSYM leaves memory untouched although the buffer is the input
theorem test_hemit_regions :
    let u := Huffman.afterAssign [⟨7#16, 6#32⟩, ⟨3#16, 1#32⟩, ⟨5#16, 1#32⟩] [] 0 [⟨1, 0#64⟩, ⟨2, 2#64⟩, ⟨2, 3#64⟩]
    let v := Huffman.afterAssign [⟨7#16, 7#32⟩] [.leaf 7#32 7#16] 0 [⟨0, 0#64⟩]
    let s := { seven with holes := [⟨13, 1⟩], cfg := { seven.cfg with houtDst := 0#32 } }
    outRegions .hemit (s.setHuff u) = [⟨0, 2⟩] ∧ outRegions .hemit (s.setHuff v) = [] ∧
    outRegions .hemit ({ s with holes := [⟨1, 1⟩] }.setHuff v) = [⟨0, 0⟩] := by
  decide +kernel

-- R171, R261, R463: HUFF's output regions when it completes, after BUS in the code table, after BUS while counting (a
-- fifth symbol can then be in the input, with a code of 16 bits in all), after HOUTCAP, and after the NOSYM that a code table over the input causes
theorem test_huff_regions :
    (outRegions .huff seven = [⟨0x100, 64⟩, ⟨0x200, 2⟩]) ∧
    (outRegions .huff { seven with holes := [⟨0x105, 1⟩] } = [⟨0x100, 64⟩, ⟨0x200, 2⟩]) ∧
    (outRegions .huff { seven with holes := [⟨5, 1⟩] } = [⟨0x100, 80⟩, ⟨0x200, 2⟩]) ∧
    (outRegions .huff { seven with cfg := { seven.cfg with houtCap := 1#32 } } = [⟨0x100, 64⟩]) ∧
    outRegions .huff { seven with cfg := { seven.cfg with htabDst := 4#32 } } = [⟨4, 64⟩, ⟨0x200, 2⟩] := by
  decide +kernel

/-! ## Witnesses: states and operands that meet the hypotheses of each statement -/

theorem next_of_after {o : Host.Outcome State Fault Refusal} {t : State} (h : after o = some t) : o = .next t := by
  cases o <;> simp_all [after]

theorem next_of_view {α : Type} {i : Instr} {s : State} {f : State → α} {v : α} (h : view i s f = some v) :
    ∃ t, exec i s = .next t ∧ f t = v := by
  simp only [view, Option.map_eq_some_iff] at h
  obtain ⟨t, h1, h2⟩ := h
  exact ⟨t, next_of_after h1, h2⟩

/-- A platform without devices that have read side effects. -/
theorem off_none {s : State} (h : s.devices = []) (rs : List Region) : s.OffDevices rs := by
  intro r _ d hd
  rw [h] at hd
  simp at hd

/-- The reset state with these inputs waiting. -/
def withInputs (l : List Input) : State := { State.reset with inbox := l }

/-- The same while a command runs, here an MSTORE of register 0 as F64 to address 0. -/
def runningStore (l : List Input) : State :=
  { two (row [one]) (row [one]) with inbox := l, cmd := 0x12#32, status := ⟨true, false, false, false, false⟩ }

def pw (off : BitVec 12) (v : Word) : Input := .host (.portWrite off 4 v)
def pr (off : BitVec 12) : Input := .host (.portRead off 4)

theorem witness_DecodeOfEncode : wellFormed (.mload 7 15 15 .u8) = true ∧ wellFormed (.mzero 0 0 0) = true ∧
    wellFormed .huff = true := by decide

theorem witness_EncodeOfDecode : decode 0x04408011#32 = .ok (.mload 0 8 8 .u8) := by decide

theorem witness_IllegalWords : ∃ s : State, s.inbox = [] ∧ s.status.busy = true ∧ s.resetPin = false ∧
    decode s.cmd = .error .unknownOp ∧ opField s.cmd = 0#8 :=
  ⟨State.reset.withFetchWord 32 0, by decide, by decide, by decide, by decide, by decide⟩

theorem witness_StepRunsDecodedCommand : ∃ s t : State, s.status.busy = true ∧ s.resetPin = false ∧
    decode s.cmd = .ok (.mstore 0 .f64) ∧ s.inbox = [] ∧ t.status.busy = true ∧ t.resetPin = false ∧
    decode t.cmd = .ok (.mstore 0 .f64) ∧ t.inbox = .engineTurn :: [pr 0] ∧
    decode (BitVec.ofNat 32 (2 ^ 32 - 1)) = .error .unknownOp ∧ decode (BitVec.ofNat 32 1) = .ok .nop :=
  ⟨runningStore [], runningStore [.engineTurn, pr 0], by decide⟩

theorem witness_IdleEngineDoesNothing : ∃ s t : State, s.status.busy = false ∧ s.inbox = [] ∧
    t.status.busy = false ∧ t.inbox = .engineTurn :: [] :=
  ⟨State.reset, withInputs [.engineTurn], by decide⟩

theorem witness_OfferedCommand : ∃ s t u : State, s.resetPin = false ∧ s.hostWrites 0x010 1#32 [] ∧
    (s.status.busy = false ∧ s.status.err = false) ∧ t.resetPin = false ∧ t.hostWrites 0x010 1#32 [] ∧
    t.status.busy = true ∧ u.resetPin = false ∧ u.hostReads 0x010 [] :=
  ⟨withInputs [pw 0x010 1], runningStore [pw 0x010 1], withInputs [pr 0x010],
    rfl, rfl, by decide, rfl, rfl, rfl, rfl, rfl⟩

theorem witness_BusyRegisterWrites : ∀ p ∈ [(0x008, 0#32), (0x00C, 0#32), (0x004, 1#32), (0x010, 0#32)] ++
      [(0x004, 2#32), (0x030, 0#32), (0x06C, 0#32), (0x1FC, 0#32)], ∃ s : State, s.resetPin = false ∧
    s.status.busy = true ∧ s.hostWrites p.1 p.2 [] ∧
      (p.1 ∈ [0x004, 0x008, 0x00C, 0x010] ∨ p.1 ∈ rwOffsets) := by
  intro p hp
  refine ⟨runningStore [pw (BitVec.ofNat 12 p.1) p.2], rfl, rfl, rfl, ?_⟩
  revert p
  decide

-- the first and last offsets of the map, RES while busy, and the reserved offsets at its ends
theorem witness_RegisterMap : (0x000, 0x44435401#32) ∈ regTable (withInputs [pr 0x000]) ∧
    (∃ v, (0x3FC, v) ∈ regTable (withInputs [pr 0x3FC])) ∧ (withInputs [pr 0x3FC]).hostReads 0x3FC [] ∧
    0x040 ∈ resOffsets ∧ (runningStore [pr 0x040]).status.busy = true ∧ (runningStore [pr 0x040]).hostReads 0x040 [] ∧
    0x024 ∉ (regTable (withInputs [pr 0x024])).map Prod.fst ∧ 0xFFC ∉ (regTable (withInputs [pr 0xFFC])).map Prod.fst ∧
    0x000 ∉ rwOffsets ∧ 0x400 ∉ rwOffsets ∧ (withInputs [pw 0x400 1]).hostWrites 0x400 1#32 [] := by
  refine ⟨by decide +kernel, ⟨(basisEntry 7 7).extractLsb' 32 32, by decide +kernel⟩, rfl, by decide, rfl, rfl,
    by decide +kernel, by decide +kernel, by decide, by decide, rfl⟩

theorem witness_ConfigWriteReadsBack : ∀ off ∈ [0x030, 0x06C, 0x1FC, 0x00C, 0x004], ∃ s : State,
    s.resetPin = false ∧ s.status.busy = false ∧
    s.inbox = .host (.portWrite (BitVec.ofNat 12 off) 4 2#32) :: .host (.portRead (BitVec.ofNat 12 0x054) 4) :: [] ∧
    (off ∈ rwOffsets ∨ off = 0x00C ∨ off = 0x004 ∧ (2#32 : Word).getLsbD 0 = false) := by
  intro off h
  refine ⟨withInputs [pw (BitVec.ofNat 12 off) 2, pr 0x054], rfl, rfl, rfl, ?_⟩
  revert off
  decide

theorem witness_StatusAndInterrupt : ∃ s : State, s.resetPin = false ∧ s.status.busy = false ∧
    s.status.err = true ∧ (4#32 : Word).getLsbD 2 = true ∧
    s.hostWrites 0x008 4#32 (.host (.portWrite 0x010#12 4 1#32) :: []) :=
  ⟨{ withInputs [pw 0x008 4, pw 0x010 1] with status := ⟨false, false, true, false, false⟩ }, rfl, rfl, rfl,
    by decide, rfl⟩

theorem witness_SoftReset : ∃ s t : State, s.MemoryCanonical ∧ s.resetPin = false ∧ (1#32 : Word).getLsbD 0 = true ∧
    s.hostWrites 0x004 1#32 [] ∧ s.status.busy = false ∧ t.MemoryCanonical ∧ t.resetPin = false ∧
    t.hostWrites 0x004 1#32 [] ∧ t.status.busy = true ∧
    ¬outside ({ t with inbox := [] } : State).runningOuts 7 ∧ outside ({ t with inbox := [] } : State).runningOuts 8 :=
  ⟨withInputs [pw 0x004 1], runningStore [pw 0x004 1], rfl, rfl, by decide, rfl, rfl, rfl, rfl, rfl, rfl,
    by unfold outside; decide +kernel, by unfold outside; decide +kernel⟩

theorem witness_HardwareReset : ∃ s t u : State, s.MemoryCanonical ∧ s.inbox = .host .resetAssert :: [] ∧
    s.status.busy = true ∧ t.MemoryCanonical ∧ t.resetPin = true ∧ t.inbox = .host (.portWrite 0x010#12 4 1#32) :: [] ∧
    u.MemoryCanonical ∧ u.inbox = .host .resetRelease :: [] :=
  ⟨runningStore [.host .resetAssert], { withInputs [pw 0x010 1] with resetPin := true },
    withInputs [.host .resetRelease], rfl, rfl, rfl, rfl, rfl, rfl, rfl, rfl⟩

theorem witness_BadPortAccess : ∃ s : State, s.resetPin = false ∧ ((2 : Nat) ≠ 4 ∨ (0x010#12 : BitVec 12).toNat % 4 ≠ 0) ∧
    ((4 : Nat) ≠ 4 ∨ (0x012#12 : BitVec 12).toNat % 4 ≠ 0) ∧ s.inbox = .host (.portRead 0x010#12 2) :: [] :=
  ⟨withInputs [.host (.portRead 0x010#12 2)], rfl, by decide, by decide, rfl⟩

-- byte 8 is the first that the running store does not write; 4096 is a device's first byte, 4095 the last before it
theorem witness_HostMemoryAccess : ∃ s t u v x : State,
    s.MemoryCanonical ∧ s.status.busy = false ∧ s.inbox = .host (.memWrite 0xFFFFFFFF#32 1#8) :: [] ∧
    t.MemoryCanonical ∧ t.status.busy = true ∧ t.inbox = .host (.memWrite 8#32 1#8) :: [] ∧
    outside (({ t with inbox := [] } : State).runningIns ++ ({ t with inbox := [] } : State).runningOuts) 8 ∧
    u.MemoryCanonical ∧ u.status.busy = true ∧ u.inbox = .host (.memRead 7#32) :: [] ∧
    ¬outside (u.devices ++ ({ u with inbox := [] } : State).runningBuffers) 7 ∧
    outside (u.devices ++ ({ u with inbox := [] } : State).runningBuffers) 8 ∧
    v.MemoryCanonical ∧ v.inbox = .host (.memWrite 7#32 1#8) :: [] ∧
    ¬outside (({ v with inbox := [] } : State).runningIns ++ ({ v with inbox := [] } : State).runningOuts) 7 ∧
    x.MemoryCanonical ∧ x.inbox = .host (.memRead 4096#32) :: [] ∧
    ¬outside (x.devices ++ ({ x with inbox := [] } : State).runningBuffers) 4096 ∧
    outside (x.devices ++ ({ x with inbox := [] } : State).runningBuffers) 4095 :=
  ⟨withInputs [.host (.memWrite 0xFFFFFFFF#32 1#8)], runningStore [.host (.memWrite 8#32 1#8)],
    runningStore [.host (.memRead 7#32)], runningStore [.host (.memWrite 7#32 1#8)],
    { withInputs [.host (.memRead 4096#32)] with devices := [⟨4096, 1⟩] }, rfl, rfl, rfl, rfl, rfl, rfl,
    by unfold outside; decide +kernel, rfl, rfl, rfl, by unfold outside; decide +kernel,
    by unfold outside; decide +kernel, rfl, rfl, by unfold outside; decide +kernel, rfl, rfl,
    by unfold outside; decide +kernel, by unfold outside; decide +kernel⟩

-- an XFORM bound for IMGDIM (its ZZ stream is 64 bytes at 0) and an HASSIGN bound for SEQ, both running
theorem witness_HostMemoryAccess_buffers : ∃ s t : State,
    s.MemoryCanonical ∧ s.status.busy = true ∧ decode s.cmd = .ok (.xform true true) ∧ s.cfg.imgDim.toNat % 65536 % 8 ≠ 0 ∧
    s.inbox = .host (.memRead 63#32) :: [] ∧
    ¬outside (s.devices ++ ({ s with inbox := [] } : State).runningBuffers) 63 ∧
    outside (s.devices ++ ({ s with inbox := [] } : State).runningBuffers) 64 ∧
    t.MemoryCanonical ∧ t.status.busy = true ∧ decode t.cmd = .ok .hassign ∧ t.huff.stage = .counted ∧
    t.inbox = .host (.memRead 15#32) :: [] ∧
    ¬outside (t.devices ++ ({ t with inbox := [] } : State).runningBuffers) 15 :=
  ⟨{ runningStore [.host (.memRead 63#32)] with cmd := 0x338#32, cfg := { Csr.reset with imgDim := 0x00080004#32 } },
    { (runningStore [.host (.memRead 15#32)]).setHuff (Huffman.afterCount [⟨7#16, 2#32⟩]) with cmd := 0x52#32 },
    rfl, rfl, by decide, by decide, rfl, by unfold outside; decide +kernel, by unfold outside; decide +kernel,
    rfl, rfl, by decide, rfl, rfl, by unfold outside; decide +kernel⟩

theorem witness_invariants : step State.reset = .next State.reset ∧ State.reset.MemoryCanonical ∧
    State.reset.MatricesLegal ∧ State.reset.BusyExclusive ∧ State.reset.ErrCodeLegal ∧ State.reset.QueueFits ∧
    State.reset.HuffmanConsistent ∧ State.reset.HuffmanFits ∧ State.reset.OffDevices State.reset.runningIns :=
  ⟨rfl, rfl, State.matricesLegal_of_all (by decide), by unfold State.BusyExclusive; decide,
    by unfold State.ErrCodeLegal; decide, by unfold State.QueueFits; decide,
    ⟨by decide, by decide, rfl⟩, ⟨by decide, by decide, by decide, by decide, by decide, by decide⟩, off_none rfl _⟩

-- a running command that meets every invariant, and its step
theorem witness_invariants_running : ∃ t, step (runningStore []) = .next t ∧ (runningStore []).MemoryCanonical ∧
    (runningStore []).MatricesLegal ∧ (runningStore []).BusyExclusive ∧
    (runningStore []).OffDevices (runningStore []).runningIns := by
  obtain ⟨t, h, -⟩ := next_of_view (i := .mstore 0 .f64) (s := runningStore []) (f := fun t => t.cmdcnt)
    (v := 1#32) (by decide +kernel)
  exact ⟨t, h, rfl, State.matricesLegal_of_all (by decide), by unfold State.BusyExclusive; decide, off_none rfl _⟩

theorem witness_RegisterFrame : ∃ t, opField (runningStore []).cmd = Instr.opcode (.mstore 0 .f64) ∧
    exec (.mstore 0 .f64) (runningStore []) = .next t := by
  obtain ⟨t, h, -⟩ := next_of_view (i := .mstore 0 .f64) (s := runningStore []) (f := fun t => t.cmdcnt)
    (v := 1#32) (by decide +kernel)
  exact ⟨t, by decide, h⟩

theorem witness_MemoryFrame : (∃ t, exec .nop State.reset = .next t ∧ storesToMemory .nop = false ∧
      State.reset.OffDevices (inRegions .nop State.reset)) ∧
    ∃ t, exec (.mstore 0 .f64) (runningStore []) = .next t ∧ storesToMemory (.mstore 0 .f64) = true ∧
      (runningStore []).MemoryCanonical ∧ outside (outRegions (.mstore 0 .f64) (runningStore [])) 8 := by
  refine ⟨⟨_, rfl, rfl, off_none rfl _⟩, ?_⟩
  obtain ⟨t, h, -⟩ := next_of_view (i := .mstore 0 .f64) (s := runningStore []) (f := fun t => t.cmdcnt)
    (v := 1#32) (by decide +kernel)
  exact ⟨t, h, rfl, rfl, by unfold outside; decide +kernel⟩

theorem witness_ErrorWritesNoRegister : ∃ t, opField ({ State.reset with cmd := 0x51#32 } : State).cmd =
    Instr.opcode .hbuild ∧ exec .hbuild { State.reset with cmd := 0x51#32 } = .next t ∧ t.cmdcnt = 0#32 := by
  obtain ⟨t, h, hv⟩ := next_of_view (i := .hbuild) (s := { State.reset with cmd := 0x51#32 })
    (f := fun t => t.cmdcnt) (v := 0#32) (by decide)
  exact ⟨t, by decide, h, hv⟩

theorem witness_SpecialValues : fIsNaN (fdiv 0#64 0#64) = true ∧ fIsNaN 0xFFF8000000000123#64 = true ∧
    fIsFinite one = true ∧ fIsZero one = false ∧ fIsZero negZero = true ∧ fIsInf inf = true ∧
    fIsFinite 0x7FEFFFFFFFFFFFFF#64 = true ∧ fIsFinite negZero = true ∧ fIsFinite 0x8000000000000001#64 = true ∧
    fIsZero 0x8000000000000001#64 = false := by decide +kernel

theorem witness_CorrectlyRounded : fIsFinite 0x7FEFFFFFFFFFFFFF#64 = true ∧ fIsFinite 0x0000000000000001#64 = true ∧
    fIsZero 0x0000000000000001#64 = false := by decide

-- 2^52 is the boundary of the last clause
theorem witness_RoundToInteger : fIsNaN qNaN = true ∧ fIsInf inf = true ∧ fIsZero negZero = true ∧
    fIsFinite half = true ∧ fIsZero half = false ∧ fIsFinite 0x4330000000000000#64 = true ∧
    (2 : Int) ^ 52 * fUnit ≤ (fVal 0x4330000000000000#64).natAbs := by decide +kernel

theorem witness_IntegerConversions : fIsNaN qNaN = true ∧ fIsNaN 0x40DFFFC000000000#64 = false ∧ fExt negZero ≤ 0 ∧
    255 * fUnit ≤ fExt 0x406FE00000000000#64 ∧ 0 < fExt 0x406FDFFFFFFFFFFF#64 ∧
    fExt 0x406FDFFFFFFFFFFF#64 < 255 * fUnit ∧ 0 < fExt 0x0000000000000001#64 := by decide +kernel

theorem witness_AbsoluteAndComparisons : fIsNaN qNaN = true ∧ fIsNaN inf = false ∧ fIsNaN negZero = false := by decide

theorem witness_NopCompletes : opField 0x00000101#32 = 0x01#8 ∧ (0x00000101#32 : Word) ≠ 0x00000001#32 := by decide

theorem witness_MzeroResult : (1 ≤ 8 ∧ 8 ≤ 8 ∧ 1 ≤ 1 ∧ 1 ≤ 8) ∧
    opField ({ State.reset with cmd := 0x10#32 } : State).cmd = 0x10#8 ∧ ¬(1 ≤ 9 ∧ 9 ≤ 8 ∧ 1 ≤ 8 ∧ 8 ≤ 8) ∧
    ¬(1 ≤ 8 ∧ 8 ≤ 8 ∧ 1 ≤ 0 ∧ 0 ≤ 8) := by decide

theorem ok_of {hs : List Region} {a n : Nat} (h : firstBad hs a n = none) : rangeOk hs a n := firstBad_none_iff.1 h

-- a one-byte element at the top of memory answers; the next address does not; a device may start there
theorem witness_MloadResult : ∃ s u : State,
    rangeOk s.holes (s.cfg.arg0.toNat + 0 * s.cfg.arg1.toNat + 0 * 1) 1 ∧
    (∀ dev ∈ s.devices, Region.Apart ⟨s.cfg.arg0.toNat + 0 * s.cfg.arg1.toNat + 0 * 1, 1⟩ dev) ∧
    rangeOk s.holes (s.cfg.arg0.toNat + 0 * s.cfg.arg1.toNat + 1 * 1) 0 ∧
    memOk s.holes (s.cfg.arg0.toNat + 0 * s.cfg.arg1.toNat + 1 * 1 + 0) = false ∧ opField s.cmd = 0x11#8 ∧
    rangeOk u.holes (u.cfg.arg0.toNat + 0 * u.cfg.arg1.toNat + 0 * 1) 1 ∧
    ¬(∀ dev ∈ u.devices, Region.Apart ⟨u.cfg.arg0.toNat + 0 * u.cfg.arg1.toNat + 0 * 1, 1⟩ dev) :=
  ⟨{ State.reset with
      cmd := 0x11#32, cfg := { Csr.reset with arg0 := 0xFFFFFFFF#32 }, devices := [⟨0x100000000, 8⟩] },
    { State.reset with devices := [⟨0, 1⟩] },
    ok_of (by decide), fun dev h => by
      obtain rfl := List.mem_singleton.1 h
      exact Region.apart_of_le (by decide),
    ok_of (by decide), by decide, by decide, ok_of (by decide),
    fun h => h ⟨0, 1⟩ (List.mem_singleton.2 rfl) 0 (by decide)⟩

theorem witness_MstoreResult : (runningStore []).MemoryCanonical ∧ (runningStore []).mregs[(0 : MReg)] = some (row [one]) ∧
    rangeOk (runningStore []).holes (0 + 0 * 0 + 0 * fmtSize .f64) (fmtSize .f64) ∧
    Region.Apart ⟨0, fmtSize .f64⟩ ⟨8, fmtSize .f64⟩ ∧
    ∃ s : State, s.MemoryCanonical ∧ s.mregs[(0 : MReg)] = some (row [one]) ∧ opField s.cmd = 0x12#8 ∧
      rangeOk s.holes (s.cfg.arg0.toNat + 0 * s.cfg.arg1.toNat + 0 * fmtSize .f64) 3 ∧
      memOk s.holes (s.cfg.arg0.toNat + 0 * s.cfg.arg1.toNat + 0 * fmtSize .f64 + 3) = false :=
  ⟨rfl, rfl, ok_of (by decide), Region.apart_of_le (by decide),
    { runningStore [] with holes := [⟨3, 1⟩] }, rfl, rfl, by decide, ok_of (by decide), by decide⟩

theorem witness_ElementAccess : (two sample23 sample23).mregs[(1 : MReg)] = some sample23 ∧
    1 < sample23.h ∧ 2 < sample23.w ∧ ¬(2 < sample23.h ∧ 0 < sample23.w) ∧ ¬(0 < sample23.h ∧ 3 < sample23.w) := by
  decide

theorem witness_UnaryResults : (two toRound (row [])).mregs[(0 : MReg)] = some toRound := by decide

theorem witness_TransposeTwice : (two sample23 sample23).MatricesLegal ∧
    (two sample23 sample23).mregs[(1 : MReg)] = some sample23 :=
  ⟨State.matricesLegal_of_all (by decide), by decide⟩

theorem witness_ArithmeticResults : ∃ s : State, s.mregs[(0 : MReg)] = some (row [one, ftwo]) ∧
    s.mregs[(1 : MReg)] = some (row [half, half]) ∧ (row [one, ftwo]).h = (row [half, half]).h ∧
    (row [one, ftwo]).w = (row [half, half]).w :=
  ⟨two (row [one, ftwo]) (row [half, half]), by decide⟩

theorem witness_ProductResults : ∃ s : State, s.mregs[(0 : MReg)] = some toScan ∧ toScan.w = toScan.h ∧
    s.mregs[(1 : MReg)] = some counting ∧ counting.h = 8 ∧ counting.w = 8 :=
  ⟨two toScan counting, by decide +kernel⟩

theorem witness_ExtremaResults : (two toScan toScan).mregs[(0 : MReg)] = some toScan ∧ toScan.wf = true := by decide

theorem witness_ZigzagResult : (two counting counting).mregs[(0 : MReg)] = some counting ∧ counting.h = 8 ∧
    counting.w = 8 ∧ counting.e.length = 64 := by decide +kernel

theorem witness_EqualityResult : ∃ s : State, s.mregs[(0 : MReg)] = some (row [0#64]) ∧
    s.mregs[(1 : MReg)] = some (row [negZero]) ∧
    ((row [0#64]).h = (row [negZero]).h ∧ (row [0#64]).w = (row [negZero]).w ∧
      ∀ r c, r < (row [0#64]).h → c < (row [0#64]).w → feq ((row [0#64]).get r c) ((row [negZero]).get r c) = true) ∧
    ¬((row [0#64]).h = toScan.h) :=
  ⟨two (row [0#64]) (row [negZero]), by decide, by decide, ⟨by decide, by decide, by
    intro r c hr hc
    have hr' : r < 1 := hr
    have hc' : c < 1 := hc
    obtain rfl : r = 0 := by omega
    obtain rfl : c = 0 := by omega
    decide⟩, by decide⟩

/-- A table whose entry 63 alone is 0. -/
def zeroLast : Csr := { Csr.reset with qtab := Csr.reset.qtab.set 63 0#16 }

theorem witness_QuantizerResults : (∀ i : Fin 64, Csr.reset.qtab[i] ≠ 0#16) ∧ zeroLast.qtab[(63 : Fin 64)] = 0#16 ∧
    (∀ j : Fin 64, j < 63 → zeroLast.qtab[j] ≠ 0#16) ∧
    opField ({ two counting counting with cmd := 0x32#32, cfg := zeroLast } : State).cmd = 0x32#8 := by decide +kernel

theorem witness_UninitRaised : ∃ s t : State, opField s.cmd = Instr.opcode (.madd 2 0 1) ∧
    sourcesOf (.madd 2 0 1) = [] ++ 0 :: [1] ∧ s.mregs[(0 : MReg)] = none ∧
    opField t.cmd = Instr.opcode (.madd 2 0 1) ∧ sourcesOf (.madd 2 0 1) = [0] ++ 1 :: [] ∧
    (∀ b ∈ [(0 : MReg)], t.mregs[b] ≠ none) ∧ t.mregs[(1 : MReg)] = none :=
  ⟨{ State.reset with cmd := 0x18#32 }, { State.reset.setM 0 (row [one]) with cmd := 0x18#32 }, by decide⟩

theorem witness_DimRaised : ∃ s : State, s.mregs[(0 : MReg)] = some (row [one]) ∧
    s.mregs[(1 : MReg)] = some sample23 ∧ ¬((row [one]).h = sample23.h ∧ (row [one]).w = sample23.w) ∧
    ¬((row [one]).w = (row [one]).h ∧ sample23.h = (row [one]).h ∧ sample23.w = (row [one]).h) ∧
    ¬(sample23.h = 8 ∧ sample23.w = 8) ∧ opField s.cmd = 0x1C#8 :=
  ⟨{ two (row [one]) sample23 with cmd := 0x1C#32 }, by decide⟩

/-- One 8 by 8 block at 0x1000, with its outputs apart. -/
def oneBlock : State := { State.reset with
  cmd := 0x338#32
  cfg := { Csr.reset with
    imgDim := 0x00080008#32, imgSrc := 0x1000#32, zzDst := 0x2000#32, tqDst := 0x3000#32, recDst := 0x4000#32,
    arg0 := 0x1000#32, arg1 := 8#32 } }

theorem oneBlock_regions : ([(⟨0x1000, 64⟩ : Region), ⟨0x2000, 128⟩, ⟨0x3000, 128⟩, ⟨0x4000, 64⟩]).Pairwise
    Region.Apart := by
  simp only [List.pairwise_cons, List.mem_cons, List.not_mem_nil, or_false, forall_eq_or_imp, forall_eq,
    IsEmpty.forall_iff, implies_true, List.Pairwise.nil, and_true]
  refine ⟨⟨?_, ?_, ?_⟩, ⟨?_, ?_⟩, ?_⟩ <;> exact Region.apart_of_le (by decide)

theorem witness_XformResult : oneBlock.MemoryCanonical ∧ oneBlock.cfg.imgDim.toNat % 65536 % 8 = 0 ∧
    oneBlock.cfg.imgDim.toNat / 65536 % 8 = 0 ∧ (∀ i : Fin 64, oneBlock.cfg.qtab[i] ≠ 0#16) ∧
    (∀ r ∈ [(⟨0x1000, 64⟩ : Region), ⟨0x2000, 128⟩, ⟨0x3000, 128⟩, ⟨0x4000, 64⟩], rangeOk oneBlock.holes r.base r.len) ∧
    oneBlock.OffDevices [⟨0x1000, 64⟩] ∧
    opField oneBlock.cmd = 0x38#8 ∧ ¬((0x00080004 : Nat) % 65536 % 8 = 0 ∧ (0x00080004 : Nat) / 65536 % 8 = 0) := by
  refine ⟨rfl, by decide, by decide, by decide +kernel, ?_, off_none rfl _, by decide, by decide⟩
  intro r hr
  apply ok_of
  revert r
  decide +kernel

-- the last sample read and the second byte of the last ZZ write: what comes before each answers
theorem witness_XformResult_bus : ∀ p ∈ [(63, 0x103F, 0), (127, 0x207E, 1)],
    let l := xformAccesses oneBlock.cfg true true
    let s : State := { oneBlock with holes := [⟨p.2.1 + p.2.2, 1⟩] }
    ∃ x, l = l.take p.1 ++ x :: l.drop (p.1 + 1) ∧ x.2.addr = p.2.1 ∧ p.2.2 < x.2.size ∧
      (l.take p.1).all (fun y => (firstBad s.holes y.2.addr y.2.size).isNone) = true ∧
      firstBad s.holes x.2.addr p.2.2 = none ∧ memOk s.holes (x.2.addr + p.2.2) = false := by
  intro p hp
  simp only [List.mem_cons, List.not_mem_nil, or_false] at hp
  rcases hp with rfl | rfl
  · exact ⟨(false, ⟨0x103F, 1, 0⟩), by decide +kernel⟩
  · exact ⟨(true, ⟨0x207E, 2, 0⟩), by decide +kernel⟩

-- the other hypotheses are those of witness_XformResult, of the same state
theorem witness_XformAgreesWithCommands : (0 : Nat) < oneBlock.cfg.imgDim.toNat / 65536 / 8 ∧
    (0 : Nat) < oneBlock.cfg.imgDim.toNat % 65536 / 8 ∧
    ([(⟨oneBlock.cfg.imgSrc.toNat, 64⟩ : Region), ⟨oneBlock.cfg.zzDst.toNat, 128⟩, ⟨oneBlock.cfg.tqDst.toNat, 128⟩] ++
      [(⟨oneBlock.cfg.recDst.toNat, 64⟩ : Region)]).Pairwise Region.Apart ∧
    oneBlock.OffDevices [⟨oneBlock.cfg.imgSrc.toNat, 64⟩] ∧
    oneBlock.cfg.arg0.toNat = oneBlock.cfg.imgSrc.toNat + 8 * 0 * 8 + 8 * 0 ∧ oneBlock.cfg.arg1.toNat = 8 :=
  ⟨by decide, by decide, oneBlock_regions, off_none rfl _, by decide, by decide⟩

theorem witness_QueueInsertResults : (State.reset.setPq fourKeys).pq.heap.length ≠ 4096 ∧
    ∃ s : State, s.pq.heap.length = 4096 ∧ opField s.cmd = 0x41#8 :=
  ⟨by decide, { State.reset with cmd := 0x41#32, pq := ⟨List.replicate 4096 ⟨0#32, 0#32, 0#32⟩, 0#32⟩ },
    List.length_replicate .., by decide⟩

theorem witness_QueueRemoveResults : (State.reset.setPq fourKeys).pq.heap =
      ⟨1#32, 1#32, 1#32⟩ :: [⟨2#32, 2#32, 3#32⟩, ⟨3#32, 3#32, 2#32⟩, ⟨5#32, 5#32, 0#32⟩] ∧
    State.reset.pq.heap = [] ∧ opField ({ State.reset with cmd := 0x42#32 } : State).cmd = 0x42#8 ∧
    State.reset.pq = ⟨[], 0#32⟩ ∧ State.reset.cfg.pqmax = false := by decide

theorem witness_HeapOrderKept : HeapOrdered Csr.reset.heapOrder fourKeys.heap ∧
    (∃ t, exec .pqenq (State.reset.setPq fourKeys) = .next t) ∧
    ∃ t, exec .pqdeq (State.reset.setPq fourKeys) = .next t := by
  refine ⟨?_, ?_, ?_⟩
  · intro i h0 hi
    have : i < 4 := hi
    interval_cases i <;> decide
  · obtain ⟨t, h, -⟩ := next_of_view (i := .pqenq) (s := State.reset.setPq fourKeys) (f := fun t => t.cmdcnt) (v := 1#32)
      (by decide)
    exact ⟨t, h⟩
  · obtain ⟨t, h, -⟩ := next_of_view (i := .pqdeq) (s := State.reset.setPq fourKeys) (f := fun t => t.cmdcnt) (v := 1#32)
      (by decide)
    exact ⟨t, h⟩

-- a running PQENQ, whose step leaves CTRL as it is
theorem witness_HeapOrderKept_step : ∃ s t : State, s.status.busy = true ∧ decode s.cmd = .ok .pqenq ∧
    HeapOrdered s.cfg.heapOrder s.pq.heap ∧ s.pq.heap = fourKeys.heap ∧ step s = .next t ∧
    t.cfg.pqmax = s.cfg.pqmax ∧ t.cfg.htie = s.cfg.htie := by
  let s : State := (State.reset.setPq fourKeys).withFetchWord 32 0x41
  have hd : decode s.cmd = .ok .pqenq := by decide
  obtain ⟨t, h, hv⟩ := next_of_view (i := .pqenq) (s := s) (f := fun t => (t.cfg.pqmax, t.cfg.htie))
    (v := (false, false)) (by decide)
  exact ⟨s, t, rfl, hd, witness_HeapOrderKept.1, rfl,
    ((step_of_empty rfl).trans ((engineStep_busy rfl rfl).trans (runCommand_ok hd))).trans h, congrArg Prod.fst hv, congrArg Prod.snd hv⟩

-- two entries of one key under HTIE = 1, the one enqueued first at the root
theorem witness_HeapOrderKept_tie : ∃ s : State, s.cfg.htie = true ∧ HeapOrdered s.cfg.heapOrder s.pq.heap ∧
    s.pq.heap = ⟨2#32, 0#32, 0#32⟩ :: [⟨2#32, 1#32, 1#32⟩] :=
  ⟨{ State.reset with
      cfg := { Csr.reset with htie := true }, pq := ⟨[⟨2#32, 0#32, 0#32⟩, ⟨2#32, 1#32, 1#32⟩], 2#32⟩ }, rfl, by
    intro i h0 hi
    have hi' : i < 2 := hi
    obtain rfl : i = 1 := by omega
    decide, rfl⟩

theorem witness_HcountResult : rangeOk seven.holes seven.cfg.hinAddr.toNat (2 * seven.cfg.hinLen.toNat) ∧
    seven.OffDevices [⟨seven.cfg.hinAddr.toNat, 2 * seven.cfg.hinLen.toNat⟩] ∧
    (firstOccurrences (inputSyms seven)).length ≤ 4096 ∧
    ∃ s : State, s.cfg.hinLen.toNat ≤ 4096 ∧ rangeOk s.holes s.cfg.hinAddr.toNat (2 * s.cfg.hinLen.toNat) ∧
      s.onDevice [hinRegion s.cfg] = true :=
  ⟨ok_of (by decide), off_none rfl _, by decide +kernel, { seven with devices := [⟨13, 1⟩] }, by decide,
    ok_of (by decide), by decide⟩

theorem witness_HbuildResult : ∃ s : State, s.huff.stage ≠ .empty ∧ 1 ≤ s.huff.syms.length ∧
    s.huff.syms.length ≤ 4096 ∧ (s.huff.syms.map fun y => y.freq.toNat).sum < 2 ^ 32 ∧
    s.huff.syms = [⟨7#16, 2#32⟩, ⟨3#16, 2#32⟩, ⟨5#16, 2#32⟩, ⟨9#16, 1#32⟩] :=
  ⟨State.reset.setHuff (Huffman.afterCount [⟨7#16, 2#32⟩, ⟨3#16, 2#32⟩, ⟨5#16, 2#32⟩, ⟨9#16, 1#32⟩]), by decide⟩

/-- Two symbols, their tree and their code. -/
def pairSyms : List HSym := [⟨7#16, 2#32⟩, ⟨3#16, 1#32⟩]
def pairTree : List Node := [.leaf 2#32 7#16, .leaf 1#32 3#16, .internal 3#32 1 0]
def pairCodes : List Code := [⟨1, 1#64⟩, ⟨1, 0#64⟩]

theorem pairTree_ok : ArenaOk pairSyms pairTree 2 := by
  refine ⟨by decide, by decide, by decide, by decide, ?_, ?_, by decide⟩
  · intro i wt l r h
    match i, h with
    | 0, h => simp [pairTree] at h
    | 1, h => simp [pairTree] at h
    | 2, h => simp [pairTree] at h; omega
    | n + 3, h => simp [pairTree] at h
  · intro i h1 h2
    have h1' : 2 ≤ i := h1
    have h2' : i < 3 := h2
    obtain rfl : i = 2 := by omega
    exact ⟨3#32, 1, 0, rfl⟩

theorem pairCodes_ok : CodesOk pairTree 2 2 pairCodes := by
  refine ⟨by decide, ?_⟩
  intro i c h
  match i, h with
  | 0, h => obtain rfl := Option.some.inj h; decide
  | 1, h => obtain rfl := Option.some.inj h; decide
  | n + 2, h => simp [pairCodes] at h

/-- Input 7, 7, 3 at address 0, with the pair's code assigned. -/
def pairState : State := { bytes 0 [7, 0, 7, 0, 3, 0] with
  cmd := 0x53#32
  cfg := { Csr.reset with hinLen := 3#32, htabDst := 0x100#32, houtDst := 0x200#32, houtCap := 1#32 }
  huff := Huffman.afterAssign pairSyms pairTree 2 pairCodes }

theorem pair_consistent : pairState.HuffmanConsistent := ⟨by decide, by decide, pairTree_ok, pairCodes_ok, rfl⟩

theorem pair_inputs : inputSyms pairState = [7#16, 7#16, 3#16] := by decide +kernel

theorem pair_leaves : LeavesOf pairSyms (inputSyms pairState) [0, 0, 1] := by
  rw [pair_inputs]
  refine ⟨rfl, ?_⟩
  intro j i x h1 h2
  match j, h1, h2 with
  | 0, h1, h2 => obtain rfl := Option.some.inj h1; obtain rfl := Option.some.inj h2; exact ⟨_, rfl, rfl⟩
  | 1, h1, h2 => obtain rfl := Option.some.inj h1; obtain rfl := Option.some.inj h2; exact ⟨_, rfl, rfl⟩
  | 2, h1, h2 => obtain rfl := Option.some.inj h1; obtain rfl := Option.some.inj h2; exact ⟨_, rfl, rfl⟩
  | n + 3, h1, h2 => simp at h1

theorem witness_HassignResult : pairState.MemoryCanonical ∧ pairState.huff.stage = .assigned ∧
    ArenaOk pairState.huff.syms pairState.huff.nodes pairState.huff.root ∧
    (∀ bits h, walk pairState.huff.nodes pairState.huff.root bits = some h → bits.length ≤ 64) ∧
    rangeOk pairState.holes pairState.cfg.htabDst.toNat (16 * pairState.huff.syms.length) := by
  refine ⟨by unfold State.MemoryCanonical; decide +kernel, rfl, pairTree_ok, ?_, ok_of (by decide)⟩
  intro bits h hw
  rcases bits with _ | ⟨b, _ | ⟨c, t⟩⟩
  · simp
  · simp
  · exfalso
    cases b <;> simp [walk, pairState, Huffman.afterAssign, pairTree] at hw

-- the first byte of record 1 and its last one
theorem witness_HassignResult_bus : ∀ k ∈ [0, 15], ∃ s : State, s.huff = pairState.huff ∧ s.MemoryCanonical ∧
    opField s.cmd = 0x52#8 ∧ 1 < s.huff.syms.length ∧ k < 16 ∧ rangeOk s.holes s.cfg.htabDst.toNat (16 * 1 + k) ∧
    memOk s.holes (s.cfg.htabDst.toNat + 16 * 1 + k) = false := by
  have hm : pairState.MemoryCanonical := by unfold State.MemoryCanonical; decide +kernel
  intro k hk
  refine ⟨{ pairState with cmd := 0x52#32, holes := [⟨0x110 + k, 1⟩] }, rfl, hm, rfl, Nat.lt_succ_self 1, ?_,
    ok_of ?_, ?_⟩ <;>
    · revert k
      decide

/-- An arena checked node by node. -/
theorem arenaOk_of {syms : List HSym} {ns : List Node} {root : Nat} (h1 : 1 ≤ syms.length)
    (h2 : ns.length + 1 = 2 * syms.length) (h3 : root + 1 = ns.length) (h4 : ns.take syms.length = leaves syms)
    (h5 : (ns.zipIdx.all fun p => match p.1 with
      | .leaf _ _ => decide (p.2 < syms.length)
      | .internal _ l r => decide (l < p.2 ∧ r < p.2)) = true)
    (h6 : (childHandles ns).Perm (List.range root)) : ArenaOk syms ns root := by
  have mem : ∀ (i : Nat) (n : Node), ns[i]? = some n → (n, i) ∈ ns.zipIdx := fun i n h => by
    rw [List.mem_zipIdx_iff_getElem?]
    exact h
  refine ⟨h1, h2, h3, h4, fun i wt l r h => by simpa using List.all_eq_true.1 h5 _ (mem i _ h), fun i hi hl => ?_, h6⟩
  obtain ⟨n, hn⟩ : ∃ n, ns[i]? = some n := ⟨ns[i], by simp [hl]⟩
  have := List.all_eq_true.1 h5 _ (mem i n hn)
  cases n with
  | leaf wt s => simp only [decide_eq_true_eq] at this; omega
  | internal wt l r => exact ⟨wt, l, r, hn⟩

/-- 66 symbols and a tree in which each internal node has one leaf child: leaf 0 has a path of 65 bits. -/
def deepSyms : List HSym := (List.range 66).map fun i => ⟨BitVec.ofNat 16 i, 1#32⟩
def deepTree : List Node :=
  leaves deepSyms ++ (List.range 65).map fun k => .internal 1#32 (if k = 0 then 0 else 65 + k) (k + 1)

theorem witness_HassignResult_codelen : ArenaOk deepSyms deepTree 130 ∧ (0 : Nat) < deepSyms.length ∧
    walk deepTree 130 (List.replicate 65 false) = some 0 ∧ 64 < (List.replicate 65 false).length := by
  refine ⟨arenaOk_of ?_ ?_ ?_ ?_ ?_ ?_, ?_, ?_, ?_⟩ <;> decide +kernel

theorem witness_HemitResult : pairState.MemoryCanonical ∧ pairState.HuffmanConsistent ∧
    pairState.huff.stage = .assigned ∧ rangeOk pairState.holes pairState.cfg.hinAddr.toNat
      (2 * pairState.cfg.hinLen.toNat) ∧ pairState.OffDevices [⟨0, 6⟩] ∧ LeavesOf pairState.huff.syms (inputSyms pairState) [0, 0, 1] ∧
    (([0, 0, 1].flatMap fun i => codeBits (pairState.huff.codes.getD i ⟨0, 0#64⟩)).length + 7) / 8 ≤
      pairState.cfg.houtCap.toNat ∧
    rangeOk pairState.holes pairState.cfg.houtDst.toNat 1 ∧ Region.Apart ⟨0, 6⟩ ⟨0x200, 1⟩ ∧
    -- pass 2 fails at its one byte
    rangeOk [⟨0x200, 1⟩] pairState.cfg.houtDst.toNat 0 ∧ memOk [⟨0x200, 1⟩] (pairState.cfg.houtDst.toNat + 0) = false ∧
    rangeOk [⟨0x200, 1⟩] pairState.cfg.hinAddr.toNat (2 * pairState.cfg.hinLen.toNat) ∧ opField pairState.cmd = 0x53#8 :=
  ⟨by unfold State.MemoryCanonical; decide +kernel, pair_consistent, rfl, ok_of (by decide), off_none rfl _, pair_leaves,
    by decide, ok_of (by decide), Region.apart_of_le (by decide), ok_of (by decide), by decide, ok_of (by decide),
    by decide⟩

theorem witness_HuffResult : pairState.MemoryCanonical ∧ pairState.cfg.hinLen ≠ 0#32 ∧
    rangeOk pairState.holes pairState.cfg.hinAddr.toNat (2 * pairState.cfg.hinLen.toNat) ∧
    pairState.OffDevices [⟨0, 6⟩] ∧ (countTable (inputSyms pairState)).length ≤ 4096 ∧ countTable (inputSyms pairState) = pairSyms ∧
    buildTree pairState.cfg.huffOrder pairSyms = .ok (pairTree, 2) ∧ assignCodes pairTree 2 2 = .ok pairCodes ∧
    IsLongest pairCodes 1 ∧ rangeOk pairState.holes 0x100 (16 * 2) ∧ Region.Apart ⟨0, 6⟩ ⟨0x100, 32⟩ ∧
    LeavesOf pairSyms (inputSyms pairState) [0, 0, 1] ∧
    (([0, 0, 1].flatMap fun i => codeBits (pairCodes.getD i ⟨0, 0#64⟩)).length + 7) / 8 ≤ pairState.cfg.houtCap.toNat ∧
    rangeOk pairState.holes pairState.cfg.houtDst.toNat 1 ∧ Region.Apart ⟨0, 6⟩ ⟨0x200, 1⟩ ∧
    Region.Apart ⟨0x100, 32⟩ ⟨0x200, 1⟩ := by
  refine ⟨by unfold State.MemoryCanonical; decide +kernel, by decide, ok_of (by decide), off_none rfl _,
    by decide +kernel, by decide +kernel, by decide +kernel, by decide +kernel, ⟨by decide, by decide⟩, ok_of (by decide),
    Region.apart_of_le (by decide), pair_leaves, by decide, ok_of (by decide), Region.apart_of_le (by decide),
    Region.apart_of_le (by decide)⟩

-- holes under the last byte of the code table and under the one byte of the bits, and no room for the bits
theorem witness_HuffResult_errors : ∃ s u v : State, s.mem = pairState.mem ∧ s.cfg = pairState.cfg ∧
    opField s.cmd = 0x54#8 ∧ rangeOk s.holes 0 6 ∧ rangeOk s.holes 0x100 (16 * 1 + 15) ∧
    memOk s.holes (0x100 + 16 * 1 + 15) = false ∧
    u.mem = pairState.mem ∧ u.cfg.houtCap.toNat < 1 ∧ opField u.cmd = 0x54#8 ∧ rangeOk u.holes 0x100 32 ∧
    v.mem = pairState.mem ∧ v.cfg = pairState.cfg ∧ opField v.cmd = 0x54#8 ∧ rangeOk v.holes 0x100 32 ∧
    rangeOk v.holes v.cfg.houtDst.toNat 0 ∧ memOk v.holes (v.cfg.houtDst.toNat + 0) = false :=
  ⟨{ pairState with cmd := 0x54#32, holes := [⟨0x11F, 1⟩] },
    { pairState with cmd := 0x54#32, cfg := { pairState.cfg with houtCap := 0#32 } },
    { pairState with cmd := 0x54#32, holes := [⟨0x200, 1⟩] }, rfl, rfl, by decide, ok_of (by decide), ok_of (by decide),
    by decide, rfl, by decide, by decide, ok_of (by decide), rfl, rfl, by decide, ok_of (by decide), ok_of (by decide),
    by decide⟩

theorem witness_CodesPrefixFreeAndComplete : pairState.HuffmanConsistent ∧ pairState.huff.stage = .assigned ∧
    2 ≤ pairState.huff.syms.length := ⟨pair_consistent, rfl, by decide⟩

theorem witness_HuffCodeOptimal : ∃ t, pairState.OffDevices [⟨0, 6⟩] ∧ exec .huff pairState = .next t ∧ t.cmdcnt = pairState.cmdcnt + 1#32 ∧
    [1, 1].length = t.huff.syms.length ∧ ([1, 1].map fun (n : Nat) => (2 : ℚ) ^ (-(n : Int))).sum ≤ 1 := by
  obtain ⟨t, h, hv⟩ := next_of_view (i := .huff) (s := pairState) (f := fun t => (t.cmdcnt, t.huff.syms.length))
    (v := (1#32, 2)) (by decide +kernel)
  have h1 : t.cmdcnt = 1#32 := congrArg Prod.fst hv
  have h2 : t.huff.syms.length = 2 := congrArg Prod.snd hv
  exact ⟨t, off_none rfl _, h, h1, h2.symm, by norm_num⟩

theorem witness_HuffCodeOptimal_staged : ∃ u t, (pairState.huff.syms.map fun y => y.freq.toNat).sum < 2 ^ 32 ∧
    pairState.huff.syms.length ≤ 4096 ∧ exec .hbuild pairState = .next u ∧ u.cmdcnt = pairState.cmdcnt + 1#32 ∧
    exec .hassign u = .next t ∧ t.cmdcnt = u.cmdcnt + 1#32 := by
  have h : (after (exec .hbuild pairState)).bind (fun u => (after (exec .hassign u)).map fun t =>
      (u.cmdcnt, t.cmdcnt)) = some (1#32, 2#32) := by decide +kernel
  obtain ⟨u, hu, h⟩ := Option.bind_eq_some_iff.1 h
  obtain ⟨t, ht, h⟩ := Option.map_eq_some_iff.1 h
  have h1 : u.cmdcnt = 1#32 := congrArg Prod.fst h
  have h2 : t.cmdcnt = 2#32 := congrArg Prod.snd h
  exact ⟨u, t, by decide, by decide, next_of_after hu, h1, next_of_after ht, by rw [h1]; exact h2⟩

theorem witness_HuffmanStageErrors : State.reset.huff.stage = .empty ∧
    (State.reset.setHuff (Huffman.afterCount [])).huff.stage ≠ .empty ∧
    (State.reset.setHuff (Huffman.afterCount [])).huff.syms = [] ∧ State.reset.cfg.hinLen = 0#32 ∧
    opField 0x51#32 = 0x51#8 ∧ opField 0x52#32 = 0x52#8 ∧ opField 0x53#32 = 0x53#8 ∧ opField 0x54#32 = 0x54#8 := by
  decide

/-! The inputs of HuffmanInputErrors: a hole under symbol 1's second byte, a symbol in no row, no room for the bits,
and 4097 distinct symbols. -/

/-- The pair's input with no memory under address 3. -/
def holed : State := { pairState with holes := [⟨3, 1⟩] }

theorem witness_HuffmanInputErrors_bus : 1 < holed.cfg.hinLen.toNat ∧ holed.OffDevices [⟨0, 6⟩] ∧
    opField (0x50#32 : Word) = 0x50#8 ∧ opField (0x54#32 : Word) = 0x54#8 ∧
    rangeOk holed.holes holed.cfg.hinAddr.toNat (2 * 1) ∧
    (firstOccurrences ((inputSyms holed).take 1)).length ≤ 4096 ∧
    (∀ x ∈ (inputSyms holed).take 1, ∃ y ∈ holed.huff.syms, y.sym = x) ∧ holed.huff.stage = .assigned ∧
    rangeOk holed.holes (holed.cfg.hinAddr.toNat + 2 * 1) 1 ∧
    memOk holed.holes (holed.cfg.hinAddr.toNat + 2 * 1 + 1) = false ∧ opField holed.cmd = 0x53#8 := by
  have h : inputSyms holed = [7#16, 7#16, 3#16] := pair_inputs
  rw [h]
  exact ⟨by decide, off_none rfl _, by decide, by decide, ok_of (by decide), by decide, by simp [holed, pairState, Huffman.afterAssign, pairSyms], rfl,
    ok_of (by decide), by decide, by decide⟩

theorem witness_HuffmanInputErrors_nosym : ∃ s : State, (0 : Nat) < s.cfg.hinLen.toNat ∧ s.huff.stage = .assigned ∧
    rangeOk s.holes (s.cfg.hinAddr.toNat + 2 * 0) 2 ∧ (¬∃ y ∈ s.huff.syms, y.sym = inputSym s 0) ∧
    s.OffDevices [⟨0, 6⟩] ∧ opField s.cmd = 0x53#8 :=
  ⟨{ pairState with mem := [] }, by decide, rfl, ok_of (by decide), by decide +kernel, off_none rfl _, by decide⟩

theorem witness_HuffmanInputErrors_houtcap :
    ({ pairState with cfg := { pairState.cfg with houtCap := 0#32 } } : State).cfg.houtCap.toNat <
      (([0, 0, 1].flatMap fun i => codeBits (pairState.huff.codes.getD i ⟨0, 0#64⟩)).length + 7) / 8 ∧
    pairState.HuffmanConsistent ∧ pairState.OffDevices [⟨0, 6⟩] ∧
    LeavesOf pairState.huff.syms (inputSyms pairState) [0, 0, 1] ∧
    Region.Apart ⟨0, 6⟩ ⟨pairState.cfg.houtDst.toNat, 1⟩ :=
  ⟨by decide, pair_consistent, off_none rfl _, pair_leaves, Region.apart_of_le (by decide)⟩

/-- Symbols 0 to N - 1, in order, from address 0. -/
def manyStores (N : Nat) : List Store := (List.range N).map fun i => ⟨⟨2 * i, 2, i⟩, i⟩

/-- A machine whose HUFF input is those N symbols. -/
def manySyms (N : Nat) : State := { State.reset with
  cmd := 0x50#32, mem := writeAll (manyStores N) [], cfg := { Csr.reset with hinLen := BitVec.ofNat 32 N } }

theorem below_ok {a n : Nat} (h : a + n ≤ 2 ^ 32) : rangeOk [] a n := by
  intro k hk
  have hlt : a + k < 2 ^ 32 := by omega
  simp only [memOk, Config.addrTop, List.any_nil, Bool.not_false, Bool.and_true]
  exact decide_eq_true hlt

theorem manyStores_at {N j : Nat} (hj : j < N) : (manyStores N)[j]? = some ⟨⟨2 * j, 2, j⟩, j⟩ := by
  rw [manyStores, List.getElem?_map, List.getElem?_range hj, Option.map_some]

theorem manySyms_input {N : Nat} (hN : N ≤ 65536) :
    inputSyms (manySyms N) = (List.range N).map fun j => BitVec.ofNat 16 j := by
  have hlen : (manySyms N).cfg.hinLen.toNat = N := by
    show (BitVec.ofNat 32 N).toNat = N
    rw [BitVec.toNat_ofNat]
    omega
  rw [inputSyms, hlen]
  apply List.map_congr_left
  intro j hj
  have hj' : j < N := List.mem_range.1 hj
  have hall : ∀ y ∈ manyStores N, rangeOk [] y.acc.addr y.acc.size := by
    intro y hy
    obtain ⟨i, hi, rfl⟩ := List.mem_map.1 hy
    have hi' : i < N := List.mem_range.1 hi
    exact below_ok (show 2 * i + 2 ≤ 2 ^ 32 by omega)
  have hsplit : manyStores N =
      (manyStores N).take j ++ (⟨⟨2 * j, 2, j⟩, j⟩ : Store) :: (manyStores N).drop (j + 1) := by
    obtain ⟨hl, he⟩ := List.getElem?_eq_some_iff.1 (manyStores_at hj')
    rw [← he, List.getElem_cons_drop, List.take_append_drop]
  have hafter : ∀ k, k < 2 → ∀ y ∈ (manyStores N).drop (j + 1), y.acc.region.has (2 * j + k) = false := by
    intro k hk y hy
    obtain ⟨n, hn⟩ := List.mem_iff_getElem?.1 hy
    rw [List.getElem?_drop, manyStores, List.getElem?_map] at hn
    obtain ⟨i, hi, rfl⟩ := Option.map_eq_some_iff.1 hn
    obtain ⟨hlt, hi⟩ := List.getElem?_eq_some_iff.1 hi
    rw [List.getElem_range] at hi
    subst hi
    rw [Region.has_eq_false]
    left
    show 2 * j + k < 2 * (j + 1 + n)
    omega
  have hread : ∀ k, k < 2 →
      (writeAll (manyStores N) []).read (2 * j + k) = BitVec.ofNat 8 (j / 256 ^ k) := by
    intro k hk
    rw [hsplit]
    exact read_writeAll_inside (hs := []) rfl (by rw [← hsplit]; exact hall) hk (hafter k hk)
  have h0 := hread 0 (by omega)
  have h1 := hread 1 (by omega)
  rw [Nat.add_zero] at h0
  show BitVec.ofNat 16 ((writeAll (manyStores N) []).readLE (0 + 2 * j) 2) = _
  rw [Nat.zero_add]
  simp only [Memory.readLE, h0, h1, BitVec.toNat_ofNat]
  congr 1
  omega

theorem witness_HuffmanInputErrors_symcap : ∃ s : State, 4096 < s.cfg.hinLen.toNat ∧
    s.OffDevices [⟨s.cfg.hinAddr.toNat, 2 * s.cfg.hinLen.toNat⟩] ∧
    rangeOk s.holes s.cfg.hinAddr.toNat (2 * 4096) ∧ opField s.cmd = 0x50#8 ∧
    rangeOk s.holes (s.cfg.hinAddr.toNat + 2 * 4096) 2 ∧
    (firstOccurrences ((inputSyms s).take 4096)).length = 4096 ∧ inputSym s 4096 ∉ (inputSyms s).take 4096 := by
  obtain ⟨N, hN⟩ : ∃ N : Nat, N = 4097 := ⟨_, rfl⟩
  have hlen : (manySyms N).cfg.hinLen.toNat = N := by
    show (BitVec.ofNat 32 N).toNat = N
    rw [BitVec.toNat_ofNat]
    omega
  have hok : ∀ a n, a + n ≤ 2 ^ 32 → rangeOk (manySyms N).holes a n := fun a n h => below_ok h
  have hall := manySyms_input (show N ≤ 65536 by omega)
  have htake : (inputSyms (manySyms N)).take 4096 = (List.range 4096).map fun j => BitVec.ofNat 16 j := by
    rw [hall, ← List.map_take, List.take_range, hN, Nat.min_eq_left (by omega)]
  have hin : inputSym (manySyms N) 4096 = BitVec.ofNat 16 4096 := by
    rw [inputSyms, hlen] at hall
    exact List.map_inj_left.1 hall 4096 (List.mem_range.2 (by omega))
  have inj : ∀ i j, i < 4097 → j < 4097 → BitVec.ofNat 16 i = BitVec.ofNat 16 j → i = j := by
    intro i j hi hj h
    have := congrArg BitVec.toNat h
    simp only [BitVec.toNat_ofNat] at this
    omega
  refine ⟨manySyms N, by omega, off_none rfl _, hok _ _ ?_, rfl, hok _ _ ?_, ?_, ?_⟩
  · show 0 + 2 * 4096 ≤ 2 ^ 32
    omega
  · show 0 + 2 * 4096 + 2 ≤ 2 ^ 32
    omega
  · rw [htake, firstOccurrences_nodup, List.length_map, List.length_range]
    refine List.Nodup.map_on ?_ List.nodup_range
    intro i hi j hj h
    exact inj i j (by have := List.mem_range.1 hi; omega) (by have := List.mem_range.1 hj; omega) h
  · rw [htake, hin]
    intro hm
    obtain ⟨i, hi, h⟩ := List.mem_map.1 hm
    have hi' := List.mem_range.1 hi
    have := inj i 4096 (by omega) (by omega) h
    omega

end Sys2Proof.Tests
end

/-! PROOFS. Every step keeps the valid matrix registers legal (10_state.md R50): how a result of a command bears on the
registers, one lemma per shared shape of command, then the engine's turn and the host's actions. -/

namespace Sys2Proof.Machine

/-! ## Results of the pseudocode -/

/-- The result, when there is one, satisfies `P`. -/
def EndsWith {α : Type} (P : α → Prop) (e : Except Raise α) : Prop := ∀ v, e = .ok v → P v

theorem EndsWith.ok {α : Type} {P : α → Prop} {v : α} (h : P v) : EndsWith P (.ok v) :=
  fun _ e => Except.ok.inj e ▸ h

/-- Each step may use the result of the one before. -/
theorem EndsWith.bind {α β : Type} {P : β → Prop} {x : Except Raise α} {f : α → Except Raise β}
    (h : ∀ v, x = .ok v → EndsWith P (f v)) : EndsWith P (x >>= f) := by
  intro w hw
  cases x with
  | error r => exact absurd hw (by simp [Bind.bind, Except.bind])
  | ok v => exact h v rfl w hw

theorem EndsWith.mapError {α : Type} {P : α → Prop} {x : Except Raise α} (f : Raise → Raise) (h : EndsWith P x) :
    EndsWith P (x.mapError f) := by
  cases x with
  | error r => exact fun w hw => absurd hw (by simp [Except.mapError])
  | ok v => exact h

theorem EndsWith.map {α β : Type} {P : β → Prop} {Q : α → Prop} {x : Except Raise α} {f : α → β}
    (hf : ∀ v, Q v → P (f v)) (h : EndsWith Q x) : EndsWith P (x.map f) := by
  cases x with
  | error r => exact fun w hw => absurd hw (by simp [Except.map])
  | ok v => exact .ok (hf v (h v rfl))

/-! ## Updates that leave the matrix registers alone -/

/-- Legality speaks of the matrix registers only. -/
theorem State.MatricesLegal.of_mregs_eq {s t : State} (h : s.MatricesLegal) (e : t.mregs = s.mregs) :
    t.MatricesLegal := by
  unfold State.MatricesLegal
  rwa [e]

theorem State.reset_matricesLegal : State.reset.MatricesLegal := State.matricesLegal_of_all (by decide)

@[simp] theorem State.havoc_mregs (s : State) (rs : List Region) : (s.havoc rs).mregs = s.mregs := by
  obtain ⟨⟨m, i, e⟩, -⟩ := s.havoc_spec rs
  rw [e]

@[simp] theorem State.errorEntry_mregs (s : State) (r : Raise) : (s.errorEntry r).mregs = s.mregs := by
  rw [State.errorEntry_eq]

@[simp] theorem State.resultsOf_mregs (s : State) (device : Bool) (n : Nat) (ks : List (Fin 4)) :
    (s.resultsOf device n ks).mregs = s.mregs := by
  obtain ⟨⟨r, i, e⟩, -⟩ := s.resultsOf_spec device n ks
  rw [e]

@[simp] theorem State.bitsOf_mregs (s : State) (device : Bool) : (s.bitsOf device).mregs = s.mregs := by
  cases device <;> rfl

@[simp] theorem Written.settle_mregs (w : Written) : w.settle.mregs = w.state.mregs := by
  obtain ⟨⟨m, i, e⟩, -⟩ := w.settle_spec
  rw [e]

theorem State.doReset_mregs (s : State) : s.doReset.mregs = State.reset.mregs := by
  obtain ⟨⟨m, i, e⟩, -⟩ := s.doReset_spec
  rw [e]

/-! ## How a command's result bears on the next state -/

section
variable {s : State} (hs : s.MatricesLegal)
include hs

/-- A command keeps the registers legal when its pseudocode does: an error leaves them as they were (R256). -/
theorem finish_matricesLegal {t : State} {e : Except Raise State} (h : s.finish e = .next t)
    (he : EndsWith State.MatricesLegal e) : t.MatricesLegal := by
  rcases State.finish_eq_next h with ⟨u, hu, rfl⟩ | ⟨r, -, rfl⟩
  · exact (he u hu).of_mregs_eq (State.complete_mregs u)
  · exact hs.of_mregs_eq (s.errorEntry_mregs r)

/-- A storing command whose pseudocode writes no matrix register. -/
theorem settle_matricesLegal {e : Except Raise Written} (he : EndsWith (fun w => w.state.mregs = s.mregs) e) :
    EndsWith State.MatricesLegal (e.map Written.settle) :=
  he.map fun w hw => hs.of_mregs_eq (w.settle_mregs.trans hw)

/-- A source register that could be read holds a legal matrix. -/
theorem readM_wf {a : MReg} {m : Mat} (h : s.readM a = .ok m) : m.wf = true := hs a m (State.readM_ok_iff.1 h)

/-! ## Shared shapes of command -/

theorem unary_matricesLegal (d a : MReg) {f : Mat → Mat} (hf : ∀ m, m.wf = true → (f m).wf = true) :
    EndsWith State.MatricesLegal (s.unary d a f) :=
  .bind fun m hm => .ok (State.setM_legal hs (hf m (readM_wf hs hm)))

theorem elementwise_matricesLegal (d a b : MReg) (f : F64 → F64 → F64) :
    EndsWith State.MatricesLegal (s.elementwise d a b f) :=
  .bind fun _ ha => .bind fun mb _ => .bind fun _ _ => .ok (State.setM_legal hs (Mat.zip_wf f mb (readM_wf hs ha)))

theorem broadcast_matricesLegal (d a : MReg) (k : SReg) (f : F64 → F64 → F64) :
    EndsWith State.MatricesLegal (s.broadcast d a k f) :=
  unary_matricesLegal hs d a fun _ => Mat.map_wf _

theorem reduce_matricesLegal (k : SReg) (a : MReg) (before : F64 → F64 → Bool) :
    EndsWith State.MatricesLegal (s.reduce k a before) :=
  .bind fun _ _ => .ok (hs.of_mregs_eq rfl)

theorem transform88_matricesLegal (d a : MReg) {f : Mat → Mat} (hf : ∀ m, (f m).wf = true) :
    EndsWith State.MatricesLegal (s.transform88 d a f) :=
  .bind fun m _ => .bind fun _ _ => .ok (State.setM_legal hs (hf m))

theorem quantized_matricesLegal (d a : MReg) {f : Mat → Mat} (hf : ∀ m, m.wf = true → (f m).wf = true) :
    EndsWith State.MatricesLegal (s.quantized d a f) :=
  .bind fun m hm => .bind fun _ _ => .bind fun _ _ => .ok (State.setM_legal hs (hf m (readM_wf hs hm)))

end

/-! ## Loads -/

/-- A load that raises nothing gives one value for each access. -/
theorem loadAll_length {holes : List Region} {m : Memory} {l : List Access} {vs : List Nat}
    (h : loadAll holes m l = .ok vs) : vs.length = l.length := by
  induction l generalizing vs with
  | nil => exact congrArg List.length (Except.ok.inj h).symm
  | cons x t ih =>
    simp only [loadAll] at h
    split at h
    · simp at h
    · cases ht : loadAll holes m t with
      | error r => simp [ht, Except.map] at h
      | ok ws =>
        rw [ht] at h
        rw [← Except.ok.inj h, List.length_cons, List.length_cons, ih ht]

theorem checkShape_ok_iff {h w : Nat} : checkShape h w = .ok () ↔ 1 ≤ h ∧ h ≤ 8 ∧ 1 ≤ w ∧ w ≤ 8 := by
  simp only [checkShape, need_ok_iff, Bool.and_eq_true, decide_eq_true_eq, and_assoc]

theorem freeMat_wf {k h w : Nat} (hc : checkShape h w = .ok ()) : (freeMat k h w).wf = true := by
  obtain ⟨h1, h2, w1, w2⟩ := checkShape_ok_iff.1 hc
  exact Mat.wf_iff.2 ⟨h1, h2, w1, w2, by simp [freeMat]⟩

theorem bodyMload_matricesLegal {s : State} (hs : s.MatricesLegal) (d : MReg) (h w : Nat) (f : Fmt) :
    EndsWith State.MatricesLegal (bodyMload d h w f s) := by
  refine .bind fun _ hc => .bind fun raw hraw => .ok ?_
  split
  · exact (State.setM_legal hs (freeMat_wf hc)).of_mregs_eq rfl
  · obtain ⟨h1, h2, w1, w2⟩ := checkShape_ok_iff.1 hc
    have hlen : raw.length = h * w := by rw [loadAll_length hraw, Csr.cellList, List.length_map, cells_length]
    exact State.setM_legal hs (Mat.wf_iff.2 ⟨h1, h2, w1, w2, by rw [List.length_map, hlen]⟩)

/-! ## Commands that write no matrix register -/

section
variable (s : State)

theorem bodyMstore_mregs (a : MReg) (f : Fmt) : EndsWith (fun w => w.state.mregs = s.mregs) (bodyMstore a f s) :=
  .bind fun _ _ => .bind fun _ _ => .ok rfl

theorem bodyXform_mregs (etq erec : Bool) : EndsWith (fun w => w.state.mregs = s.mregs) (bodyXform etq erec s) :=
  .bind fun _ _ => .bind fun _ _ => .bind fun _ _ => .ok (by simp)

theorem bodyHcount_mregs : EndsWith (fun t => t.mregs = s.mregs) (bodyHcount s) :=
  .bind fun _ _ => .ok (by simp)

theorem bodyHbuild_mregs : EndsWith (fun t => t.mregs = s.mregs) (bodyHbuild s) :=
  .bind fun _ _ => .bind fun _ _ => .ok rfl

theorem bodyHassign_mregs : EndsWith (fun w => w.state.mregs = s.mregs) (bodyHassign s) :=
  .bind fun _ _ => .bind fun _ _ => .bind fun _ _ => .ok (by simp)

theorem bodyHemit_mregs : EndsWith (fun w => w.state.mregs = s.mregs) (bodyHemit s) :=
  .bind fun _ _ => .bind fun _ _ => .bind fun _ _ => .bind fun _ _ => .ok (by simp)

theorem bodyHuff_mregs : EndsWith (fun w => w.state.mregs = s.mregs) (bodyHuff s) :=
  .bind fun _ _ => .bind fun _ _ => .bind fun _ _ => .bind fun _ _ => .bind fun _ _ => .bind fun _ _ =>
    .bind fun _ _ => .ok (by simp)

end

/-! ## Every command -/

theorem exec_matricesLegal {i : Instr} {s t : State} (hs : s.MatricesLegal) (h : exec i s = .next t) :
    t.MatricesLegal := by
  cases i with
  | nop | pqclr =>
    obtain rfl := Host.Outcome.next.inj h
    exact hs.of_mregs_eq rfl
  | mzero d r c =>
    refine finish_matricesLegal hs h (.bind fun _ hc => .ok ?_)
    obtain ⟨h1, h2, w1, w2⟩ := checkShape_ok_iff.1 hc
    exact State.setM_legal hs (Mat.ofFn_wf _ h1 h2 w1 w2)
  | mload d r c f => exact finish_matricesLegal hs h (bodyMload_matricesLegal hs d r c f)
  | mstore a f => exact finish_matricesLegal hs h (settle_matricesLegal hs (bodyMstore_mregs s a f))
  | mget k a row col =>
    exact finish_matricesLegal hs h (.bind fun _ _ => .bind fun _ _ => .ok (hs.of_mregs_eq rfl))
  | mset d k row col =>
    exact finish_matricesLegal hs h (.bind fun _ hm => .bind fun _ _ =>
      .ok (State.setM_legal hs (Mat.set_wf row col _ (readM_wf hs hm))))
  | mmov d a => exact finish_matricesLegal hs h (unary_matricesLegal hs d a fun _ hm => hm)
  | madd d a b | msub d a b | mdiv d a b | memul d a b =>
    exact finish_matricesLegal hs h (elementwise_matricesLegal hs d a b _)
  | mmul d a b =>
    refine finish_matricesLegal hs h (.bind fun ma ha => .bind fun mb _ => .bind fun _ _ => .ok ?_)
    obtain ⟨h1, h2, -⟩ := Mat.wf_iff.1 (readM_wf hs ha)
    exact State.setM_legal hs (mprod_wf ma mb h1 h2)
  | madds d a k | msubs d a k | mmuls d a k | mdivs d a k =>
    exact finish_matricesLegal hs h (broadcast_matricesLegal hs d a k _)
  | mtrans d a => exact finish_matricesLegal hs h (unary_matricesLegal hs d a fun _ => Mat.trans_wf)
  | mabs d a | mround d a | lvlsub d a | lvladd d a =>
    exact finish_matricesLegal hs h (unary_matricesLegal hs d a fun _ => Mat.map_wf _)
  | mmin k a | mmax k a => exact finish_matricesLegal hs h (reduce_matricesLegal hs k a _)
  | mzigzag d a => exact finish_matricesLegal hs h (transform88_matricesLegal hs d a Mat.zigzag_wf)
  | meq a b => exact finish_matricesLegal hs h (.bind fun _ _ => .bind fun _ _ => .ok (hs.of_mregs_eq rfl))
  | fdct d a | idct d a =>
    exact finish_matricesLegal hs h (transform88_matricesLegal hs d a fun _ => mprod_wf _ _ (by decide) (by decide))
  | quant d a | dequant d a =>
    exact finish_matricesLegal hs h (quantized_matricesLegal hs d a fun _ => Mat.zip_wf _ _)
  | xform etq erec => exact finish_matricesLegal hs h (settle_matricesLegal hs (bodyXform_mregs s etq erec))
  | pqenq | pqdeq | pqpeek => exact finish_matricesLegal hs h (.bind fun _ _ => .ok (hs.of_mregs_eq rfl))
  | hcount => exact finish_matricesLegal hs h (fun _ hu => hs.of_mregs_eq (bodyHcount_mregs s _ hu))
  | hbuild => exact finish_matricesLegal hs h (.mapError _ fun _ hu => hs.of_mregs_eq (bodyHbuild_mregs s _ hu))
  | hassign => exact finish_matricesLegal hs h (settle_matricesLegal hs (bodyHassign_mregs s))
  | hemit => exact finish_matricesLegal hs h (settle_matricesLegal hs (bodyHemit_mregs s))
  | huff => exact finish_matricesLegal hs h (settle_matricesLegal hs (bodyHuff_mregs s))

/-! ## The engine and the host -/

theorem engineStep_matricesLegal {s t : State} (h : engineStep s = .next t) (hs : s.MatricesLegal) :
    t.MatricesLegal := by
  unfold engineStep runCommand at h
  split at h
  · split at h
    · exact exec_matricesLegal hs h
    · exact Host.Outcome.next.inj h ▸ hs.of_mregs_eq (s.errorEntry_mregs _)
  · exact Host.Outcome.next.inj h ▸ hs

theorem State.readReg_mregs (s : State) (off : Nat) : (s.readReg off).mregs = s.mregs := by
  unfold State.readReg
  split
  · rfl
  · split <;> rfl
  · rfl

theorem State.portRead_mregs (s : State) (off : BitVec 12) (size : Nat) : (s.portRead off size).mregs = s.mregs := by
  unfold State.portRead
  split
  · rfl
  · split
    · exact s.readReg_mregs off.toNat
    · rfl

theorem State.writeConfig_mregs (s : State) (r : PortReg) (v : Word) : (s.writeConfig r v).mregs = s.mregs := by
  cases r <;> rfl

theorem State.offer_mregs (s : State) (v : Word) : (s.offer v).mregs = s.mregs := by
  unfold State.offer
  split <;> rfl

/-- A write to CTRL resets the matrix registers or leaves them (R63, R702). -/
theorem State.writeCtrl_mregs (s : State) (v : Word) :
    (s.writeCtrl v).mregs = s.mregs ∨ (s.writeCtrl v).mregs = State.reset.mregs := by
  unfold State.writeCtrl
  split
  · exact .inr s.doReset_mregs
  · left
    split <;> rfl

theorem State.writeReg_mregs (s : State) (off : Nat) (v : Word) :
    (s.writeReg off v).mregs = s.mregs ∨ (s.writeReg off v).mregs = State.reset.mregs := by
  unfold State.writeReg
  split
  · exact .inl rfl
  · exact s.writeCtrl_mregs v
  · exact .inl rfl
  · exact .inl rfl
  · exact .inl (s.offer_mregs v)
  · left
    split
    · rfl
    · exact s.writeConfig_mregs _ v

theorem State.portWrite_mregs (s : State) (off : BitVec 12) (size : Nat) (v : Word) :
    (s.portWrite off size v).mregs = s.mregs ∨ (s.portWrite off size v).mregs = State.reset.mregs := by
  unfold State.portWrite
  split
  · exact .inl rfl
  · split
    · exact s.writeReg_mregs off.toNat v
    · exact .inl rfl

theorem State.hostRead_mregs (s : State) (a : Word) : (s.hostRead a).mregs = s.mregs := by
  unfold State.hostRead
  split <;> rfl

/-- What the host does to the matrix registers: nothing, or reset (R700, R702). -/
theorem hostStep_mregs {act : HostAction} {s t : State} (h : hostStep act s = .next t) :
    t.mregs = s.mregs ∨ t.mregs = State.reset.mregs := by
  cases act with
  | portRead off size => exact .inl (Host.Outcome.next.inj h ▸ s.portRead_mregs off size)
  | portWrite off size v => exact Host.Outcome.next.inj h ▸ s.portWrite_mregs off size v
  | memRead a => exact .inl (Host.Outcome.next.inj h ▸ s.hostRead_mregs a)
  | memWrite a b =>
    simp only [hostStep, State.hostWrite] at h
    split at h
    · simp at h
    · exact .inl (Host.Outcome.next.inj h ▸ rfl)
  | resetAssert => exact .inr (Host.Outcome.next.inj h ▸ s.doReset_mregs)
  | resetRelease => exact .inl (Host.Outcome.next.inj h ▸ rfl)

theorem hostStep_matricesLegal {act : HostAction} {s t : State} (h : hostStep act s = .next t)
    (hs : s.MatricesLegal) : t.MatricesLegal := by
  rcases hostStep_mregs h with e | e
  · exact hs.of_mregs_eq e
  · exact State.reset_matricesLegal.of_mregs_eq e

/-- Settles O18: a command writes one matrix register at most, with a legal matrix made from legal sources, and the host
can only reset them. -/
theorem stepKeepsMatricesLegal : Obligations.StepKeepsMatricesLegal := by
  intro s t hs h
  rcases hb : s.inbox with _ | ⟨_ | act, rest⟩
  · rw [step_of_empty hb] at h
    exact engineStep_matricesLegal h hs
  · rw [step_of_turn hb] at h
    exact engineStep_matricesLegal h (hs.of_mregs_eq rfl)
  · rw [step_of_host hb] at h
    exact hostStep_matricesLegal h (hs.of_mregs_eq rfl)

end Sys2Proof.Machine

/-! PROOFS. Every arithmetic operation rounds once to nearest, ties to even (41_matrix.md R300): the magnitudes bits 62:0
denote, in order; the nearer of two neighbours; overflow; signs; then each operation as one rounding. -/

namespace Sys2Proof.Machine

/-! ## The magnitudes in order -/

/-- The magnitude that bits 62:0 denote, in units of 2^-1074, with the exponents going on past the format's: an infinity
stands for the value that would come next. -/
def magOf (m : Nat) : Nat := if m / 2 ^ 52 = 0 then m else (2 ^ 52 + m % 2 ^ 52) * 2 ^ (m / 2 ^ 52 - 1)

/-- The binade at scale `k`: its significands are the numbers from 2^52, or from 0 in the subnormal range, to 2^53. -/
theorem magOf_binade {k n : Nat} (hk : k = 0 ∨ 2 ^ 52 ≤ n) (hn : n ≤ 2 ^ 53) : magOf (k * 2 ^ 52 + n) = n * 2 ^ k := by
  unfold magOf
  rcases Nat.lt_or_ge n (2 ^ 52) with h1 | h1
  · obtain rfl : k = 0 := by omega
    rw [if_pos (by omega)]
    omega
  · rcases Nat.lt_or_ge n (2 ^ 53) with h2 | h2
    · have hd : (k * 2 ^ 52 + n) / 2 ^ 52 = k + 1 := by omega
      have hm : (k * 2 ^ 52 + n) % 2 ^ 52 = n - 2 ^ 52 := by omega
      rw [hd, hm, if_neg (by omega), Nat.add_sub_cancel, Nat.add_sub_cancel' h1]
    · obtain rfl : n = 2 ^ 53 := by omega
      have hd : (k * 2 ^ 52 + 2 ^ 53) / 2 ^ 52 = k + 2 := by omega
      have hm : (k * 2 ^ 52 + 2 ^ 53) % 2 ^ 52 = 0 := by omega
      rw [hd, hm, if_neg (by omega), show k + 2 - 1 = k + 1 by omega, Nat.pow_succ]
      omega

theorem magOf_strictMono : StrictMono magOf := by
  refine strictMono_nat_of_lt_succ fun m => ?_
  obtain ⟨k, n, hm, hk, hn⟩ : ∃ k n, m = k * 2 ^ 52 + n ∧ (k = 0 ∨ 2 ^ 52 ≤ n) ∧ n < 2 ^ 53 :=
    ⟨m / 2 ^ 52 - 1, m - (m / 2 ^ 52 - 1) * 2 ^ 52, by omega, by omega, by omega⟩
  rw [hm, Nat.add_assoc, magOf_binade hk (by omega), magOf_binade (by omega) (by omega)]
  exact Nat.mul_lt_mul_of_pos_right (Nat.lt_succ_self n) (by positivity)

theorem magOf_zero : magOf 0 = 0 := rfl

/-- The overflow bound lies midway from the largest finite magnitude to what an infinity stands for. -/
theorem magOf_infMag : ∃ b : Nat, 0 < b ∧ magOf (infMag - 1) + 2 * b = magOf infMag ∧
    overflowBound + b = magOf infMag := by
  have top : magOf infMag = 2 ^ 54 * 2 ^ 2044 := by
    rw [show infMag = 2045 * 2 ^ 52 + 2 ^ 53 from rfl, magOf_binade (by omega) (by omega), Nat.pow_succ 2 2044]
    omega
  have max : magOf (infMag - 1) = (2 ^ 54 - 2) * 2 ^ 2044 := by
    rw [show infMag - 1 = 2045 * 2 ^ 52 + (2 ^ 53 - 1) from rfl, magOf_binade (by omega) (by omega),
      Nat.pow_succ 2 2044]
    omega
  have mid : overflowBound = (2 ^ 54 - 1) * 2 ^ 2044 := rfl
  exact ⟨2 ^ 2044, by positivity, by omega, by omega⟩

/-! ## Rounding to the nearest magnitude -/

/-- `p` denotes the magnitude nearest to `v`, the even one at a tie. -/
def NearestMag (p : Nat) (v : ℚ) : Prop :=
  ∀ y : Nat, |(magOf p : ℚ) - v| ≤ |(magOf y : ℚ) - v| ∧
    (|(magOf p : ℚ) - v| = |(magOf y : ℚ) - v| → y ≠ p → p % 2 = 0)

section
variable {n : Nat} {v : ℚ} (lo : (magOf n : ℚ) ≤ v) (hi : v < magOf (n + 1))
include lo hi

/-- Of the magnitudes below `v` the neighbour is the nearest, and of those above it too. -/
theorem magOf_neighbours_nearest (y : Nat) :
    (y ≤ n ∧ v - magOf n ≤ |(magOf y : ℚ) - v| ∧ (y ≠ n → v - magOf n < |(magOf y : ℚ) - v|)) ∨
    (n + 1 ≤ y ∧ magOf (n + 1) - v ≤ |(magOf y : ℚ) - v| ∧
      (y ≠ n + 1 → magOf (n + 1) - v < |(magOf y : ℚ) - v|)) := by
  rcases Nat.lt_or_ge n y with h | h
  · have hle : (magOf (n + 1) : ℚ) ≤ magOf y := by exact_mod_cast magOf_strictMono.monotone h
    rw [abs_of_pos (by linarith)]
    refine .inr ⟨h, by linarith, fun hne => ?_⟩
    have hlt : (magOf (n + 1) : ℚ) < magOf y := by exact_mod_cast magOf_strictMono (by omega)
    linarith
  · have hle : (magOf y : ℚ) ≤ magOf n := by exact_mod_cast magOf_strictMono.monotone h
    rw [abs_of_nonpos (by linarith)]
    refine .inl ⟨h, by linarith, fun hne => ?_⟩
    have hlt : (magOf y : ℚ) < magOf n := by exact_mod_cast magOf_strictMono (by omega)
    linarith

/-- The lower neighbour, when it is the nearer one, or the even one of two equally near. -/
theorem nearestMag_lower (hd : v - magOf n ≤ magOf (n + 1) - v)
    (ht : v - magOf n = magOf (n + 1) - v → n % 2 = 0) : NearestMag n v := by
  intro y
  rw [show |(magOf n : ℚ) - v| = v - magOf n by rw [abs_of_nonpos (by linarith)]; ring]
  rcases magOf_neighbours_nearest lo hi y with ⟨-, hle, hlt⟩ | ⟨-, hle, -⟩
  · exact ⟨hle, fun he hne => absurd he (hlt hne).ne⟩
  · exact ⟨hd.trans hle, fun he _ => ht (le_antisymm hd (he ▸ hle))⟩

/-- The upper neighbour likewise. -/
theorem nearestMag_upper (hd : magOf (n + 1) - v ≤ v - magOf n)
    (ht : magOf (n + 1) - v = v - magOf n → n % 2 = 1) : NearestMag (n + 1) v := by
  intro y
  rw [abs_of_pos (show 0 < (magOf (n + 1) : ℚ) - v by linarith)]
  rcases magOf_neighbours_nearest lo hi y with ⟨-, hle, -⟩ | ⟨-, hle, hlt⟩
  · refine ⟨hd.trans hle, fun he _ => ?_⟩
    have := ht (le_antisymm hd (he ▸ hle))
    omega
  · exact ⟨hle, fun he hne => absurd he (hlt hne).ne⟩

end

/-- `tieEven` takes the nearer neighbour, given the distances to both in parts of `den`. -/
theorem nearestMag_tieEven {n r d den : Nat} {v : ℚ} (hden : 0 < den) (hr : r < d)
    (below : v - magOf n = (r : ℚ) / den) (above : magOf (n + 1) - v = ((d : ℚ) - r) / den) :
    NearestMag (tieEven n r d) v := by
  have hden' : (0 : ℚ) < den := by exact_mod_cast hden
  have hr' : (r : ℚ) < d := by exact_mod_cast hr
  have lo : (magOf n : ℚ) ≤ v := sub_nonneg.1 (below ▸ by positivity)
  have hi : v < magOf (n + 1) := sub_pos.1 (above ▸ div_pos (by linarith) hden')
  unfold tieEven
  split
  · rename_i hup
    refine nearestMag_upper lo hi ?_ fun he => ?_
    · have : (d : ℚ) ≤ 2 * r := by exact_mod_cast (by omega : d ≤ 2 * r)
      rw [below, above]
      exact (div_le_div_iff_of_pos_right hden').2 (by linarith)
    · rw [below, above, div_left_inj' hden'.ne'] at he
      have : d = 2 * r := by exact_mod_cast (by linarith : (d : ℚ) = 2 * r)
      omega
  · rename_i hdown
    refine nearestMag_lower lo hi ?_ fun he => ?_
    · have : 2 * (r : ℚ) ≤ d := by exact_mod_cast (by omega : 2 * r ≤ d)
      rw [below, above]
      exact (div_le_div_iff_of_pos_right hden').2 (by linarith)
    · rw [below, above, div_left_inj' hden'.ne'] at he
      have : d = 2 * r := by exact_mod_cast (by linarith : (d : ℚ) = 2 * r)
      omega

/-- Adding an even number keeps the choice. -/
theorem add_tieEven (k q r d : Nat) : k * 2 ^ 52 + tieEven q r d = tieEven (k * 2 ^ 52 + q) r d := by
  have hpar : (k * 2 ^ 52 + q) % 2 = q % 2 := by omega
  unfold tieEven
  rw [hpar]
  split <;> omega

/-- Bits 62:0 before the overflow to infinity. -/
def packUnbounded (num den : Nat) : Nat :=
  let k := Nat.log2 (num / den) - 52
  let d := den * 2 ^ k
  k * 2 ^ 52 + tieEven (num / d) (num % d) d

theorem packMag_eq (num den : Nat) : packMag num den = min (packUnbounded num den) infMag := rfl

/-- The quotient by the scaled denominator has 53 significant bits, or fewer in the subnormal range. -/
theorem significand_range (num den : Nat) :
    (Nat.log2 (num / den) - 52 = 0 ∨ 2 ^ 52 ≤ num / (den * 2 ^ (Nat.log2 (num / den) - 52))) ∧
      num / (den * 2 ^ (Nat.log2 (num / den) - 52)) < 2 ^ 53 := by
  rw [← Nat.div_div_eq_div_mul]
  generalize num / den = x
  have hx : x < 2 ^ (x.log2 + 1) := Nat.lt_log2_self
  constructor
  · rcases Nat.lt_or_ge 52 x.log2 with h | h
    · right
      rw [Nat.le_div_iff_mul_le (by positivity), ← Nat.pow_add, Nat.add_sub_cancel' h.le]
      exact Nat.log2_self_le (by rintro rfl; simp at h)
    · left; omega
  · rw [Nat.div_lt_iff_lt_mul (by positivity), ← Nat.pow_add]
    exact hx.trans_le (Nat.pow_le_pow_right (by decide) (by omega))

/-- `packMag` rounds to nearest, ties to even, but for overflow. -/
theorem packUnbounded_nearest (num : Nat) {den : Nat} (hden : 0 < den) :
    NearestMag (packUnbounded num den) ((num : ℚ) / den) := by
  obtain ⟨hk, hq⟩ := significand_range num den
  unfold packUnbounded
  generalize Nat.log2 (num / den) - 52 = k at hk hq ⊢
  dsimp only
  generalize hd : den * 2 ^ k = d at hk hq ⊢
  have hd0 : 0 < d := hd ▸ by positivity
  have hr : num % d < d := Nat.mod_lt num hd0
  have hnum : d * (num / d) + num % d = num := Nat.div_add_mod num d
  generalize num / d = q at hk hq hnum ⊢
  generalize num % d = r at hr hnum ⊢
  have hlow : magOf (k * 2 ^ 52 + q) = q * 2 ^ k := magOf_binade hk (by omega)
  have hhigh : magOf (k * 2 ^ 52 + q + 1) = (q + 1) * 2 ^ k := by
    rw [Nat.add_assoc]
    exact magOf_binade (by omega) (by omega)
  have hden' : (den : ℚ) ≠ 0 := by exact_mod_cast hden.ne'
  have hd' : (d : ℚ) = den * 2 ^ k := by rw [← hd]; push_cast; rfl
  rw [add_tieEven]
  apply nearestMag_tieEven hden hr
  · rw [hlow, ← hnum]
    push_cast
    rw [hd']
    field_simp
    ring
  · rw [hhigh, ← hnum]
    push_cast
    rw [hd']
    field_simp
    ring

/-- The nearest magnitude is past the finite ones exactly from the overflow bound on. -/
theorem NearestMag.infMag_le_iff {p : Nat} {v : ℚ} (h : NearestMag p v) : infMag ≤ p ↔ (overflowBound : ℚ) ≤ v := by
  obtain ⟨b, hb, hmax, hmid⟩ := magOf_infMag
  have hb' : (0 : ℚ) < b := by exact_mod_cast hb
  have hmax' : (magOf (infMag - 1) : ℚ) + 2 * b = magOf infMag := by exact_mod_cast hmax
  have hmid' : (overflowBound : ℚ) + b = magOf infMag := by exact_mod_cast hmid
  constructor
  · intro hp
    by_contra hv
    have hle : (magOf infMag : ℚ) ≤ magOf p := by exact_mod_cast magOf_strictMono.monotone hp
    have hcloser : |(magOf (infMag - 1) : ℚ) - v| < magOf p - v := abs_lt.2 ⟨by linarith, by linarith⟩
    have hfar := (h (infMag - 1)).1
    rw [abs_of_pos (by linarith)] at hfar
    linarith
  · intro hv
    by_contra hp
    have hle : (magOf p : ℚ) ≤ magOf (infMag - 1) := by
      exact_mod_cast magOf_strictMono.monotone (show p ≤ infMag - 1 by omega)
    have hcloser : |(magOf infMag : ℚ) - v| ≤ v - magOf (infMag - 1) := abs_le.2 ⟨by linarith, by linarith⟩
    have habs : |(magOf p : ℚ) - v| = v - magOf p := by rw [abs_of_neg (by linarith)]; ring
    obtain ⟨hfar, htie⟩ := h infMag
    rw [habs] at hfar htie
    have heven : p % 2 = 0 := htie (by linarith) (by omega)
    have hmagp : (magOf p : ℚ) = magOf (infMag - 1) := by linarith
    have hlast : p = infMag - 1 := magOf_strictMono.injective (by exact_mod_cast hmagp)
    rw [hlast] at heven
    exact absurd heven (by decide)

/-! ## Signs -/

/-- The number of magnitude `m` with the sign `sgn`. -/
def signed (sgn : Bool) (m : ℚ) : ℚ := if sgn then -m else m

theorem abs_signed (sgn : Bool) {m : ℚ} (h : 0 ≤ m) : |signed sgn m| = m := by
  cases sgn <;> simp [signed, h]

theorem signed_sub (sgn : Bool) (m n : ℚ) : signed sgn m - signed sgn n = signed sgn (m - n) := by
  cases sgn
  · rfl
  · exact (neg_sub' m n).symm

theorem signed_mul (a b : Bool) (m n : ℚ) : signed a m * signed b n = signed (a != b) (m * n) := by
  cases a <;> cases b <;> simp [signed]

theorem signed_div (a b : Bool) (m n : ℚ) : signed a m / signed b n = signed (a != b) (m / n) := by
  cases a <;> cases b <;> simp [signed, neg_div, div_neg]

theorem signed_mul_right (sgn : Bool) (m n : ℚ) : signed sgn m * n = signed sgn (m * n) := by
  cases sgn <;> simp [signed]

theorem signed_div_right (sgn : Bool) (m n : ℚ) : signed sgn m / n = signed sgn (m / n) := by
  cases sgn <;> simp [signed, neg_div]

theorem sign_of_signed_pos {sgn : Bool} {m : ℚ} (hm : 0 ≤ m) (h : 0 < signed sgn m) : sgn = false := by
  cases sgn
  · rfl
  · exact absurd h (not_lt.2 (neg_nonpos.2 hm))

theorem sign_of_signed_neg {sgn : Bool} {m : ℚ} (hm : 0 ≤ m) (h : signed sgn m < 0) : sgn = true := by
  cases sgn
  · exact absurd h (not_lt.2 hm)
  · rfl

theorem signed_natAbs (v : Int) : (v : ℚ) = signed (decide (v < 0)) v.natAbs := by
  rw [Nat.cast_natAbs]
  by_cases h : v < 0
  · simp [signed, h, abs_of_neg h]
  · simp [signed, h, abs_of_nonneg (not_lt.1 h)]

/-- Among numbers of either sign the one of the nearest magnitude, with the sign of `v`, is nearest. -/
theorem NearestMag.signed_nearest {p y : Nat} {sgn : Bool} {v u : ℚ} (hv : 0 ≤ v) (h : NearestMag p v)
    (hu : |u| = magOf y) :
    |signed sgn (magOf p) - signed sgn v| ≤ |u - signed sgn v| ∧
      (|signed sgn (magOf p) - signed sgn v| = |u - signed sgn v| → u ≠ signed sgn (magOf p) → p % 2 = 0) := by
  have hw : |signed sgn (magOf p) - signed sgn v| = |(magOf p : ℚ) - v| := by
    rw [signed_sub]
    cases sgn
    · rfl
    · exact abs_neg _
  have hdist : |(magOf y : ℚ) - v| ≤ |u - signed sgn v| := by
    have := abs_abs_sub_abs_le u (signed sgn v)
    rwa [hu, abs_signed sgn hv] at this
  obtain ⟨hle, htie⟩ := h y
  rw [hw]
  refine ⟨hle.trans hdist, fun he hne => ?_⟩
  by_cases hyp : y = p
  · -- the number of the same magnitude and the other sign is as near only when both are 0
    subst hyp
    have hz : |signed sgn (magOf y)| = magOf y := abs_signed sgn (Nat.cast_nonneg _)
    have hu' : u = -signed sgn (magOf y) := (abs_eq_abs.1 (hu.trans hz.symm)).resolve_left hne
    rw [hu'] at he hne
    have hzero : signed sgn (magOf y) = 0 := by
      rcases abs_eq_abs.1 (hw.trans he) with heq | heq
      · linarith
      · have hv0 : v = 0 := by rw [← abs_signed sgn hv, abs_eq_zero]; linarith
        have hnear := (h 0).1
        rw [hv0, magOf_zero] at hnear
        rw [← abs_eq_zero, hz]
        simpa using hnear
    exact absurd (by rw [hzero, neg_zero]) hne
  · exact htie (le_antisymm hle (he ▸ hdist)) hyp

/-! ## The fields of a binary64 -/

/-- Bits 62:0. -/
def lowBits (x : F64) : Nat := x.toNat % 2 ^ 63

theorem fMag_eq_magOf (x : F64) : fMag x = magOf (lowBits x) := by
  have he : fExp x = lowBits x / 2 ^ 52 := by unfold fExp lowBits; omega
  have hf : fFrac x = lowBits x % 2 ^ 52 := by unfold fFrac lowBits; omega
  unfold fMag magOf
  rw [he, hf]
  split
  · omega
  · rfl

theorem fIsFinite_iff {x : F64} : fIsFinite x = true ↔ lowBits x < infMag := by
  simp only [fIsFinite, bne_iff_ne, fExp, lowBits, infMag]
  omega

theorem fIsInf_iff {x : F64} : fIsInf x = true ↔ lowBits x = infMag := by
  simp only [fIsInf, Bool.and_eq_true, beq_iff_eq, fExp, fFrac, lowBits, infMag]
  omega

theorem fIsZero_iff {x : F64} : fIsZero x = true ↔ lowBits x = 0 := by
  simp only [fIsZero, Bool.and_eq_true, beq_iff_eq, fExp, fFrac, lowBits]
  omega

theorem not_special_of_finite {x : F64} (h : fIsFinite x = true) : fIsNaN x = false ∧ fIsInf x = false := by
  simp only [fIsFinite, bne_iff_ne] at h
  simp [fIsNaN, fIsInf, h]

theorem fVal_eq_signed (x : F64) : (fVal x : ℚ) = signed (fSign x) (fMag x) := by
  unfold fVal signed
  split <;> simp

theorem ofSignMag_toNat (sgn : Bool) {m : Nat} (h : m ≤ infMag) :
    (ofSignMag sgn m).toNat = (if sgn then 2 ^ 63 else 0) + m := by
  unfold ofSignMag
  unfold infMag at h
  rw [BitVec.toNat_ofNat]
  cases sgn <;> simp only [if_true, Bool.false_eq_true, if_false] <;> omega

theorem lowBits_ofSignMag (sgn : Bool) {m : Nat} (h : m ≤ infMag) : lowBits (ofSignMag sgn m) = m := by
  unfold lowBits
  rw [ofSignMag_toNat sgn h]
  unfold infMag at h
  split <;> omega

theorem fSign_ofSignMag (sgn : Bool) {m : Nat} (h : m ≤ infMag) : fSign (ofSignMag sgn m) = sgn := by
  unfold fSign
  rw [BitVec.msb_eq_decide, ofSignMag_toNat sgn h]
  unfold infMag at h
  cases sgn
  · exact decide_eq_false (by rw [if_neg Bool.false_ne_true]; omega)
  · exact decide_eq_true (by rw [if_pos rfl]; omega)

theorem lowBits_fneg (x : F64) : lowBits (fneg x) = lowBits x := by
  unfold lowBits fneg
  rw [BitVec.toNat_xor, Nat.xor_mod_two_pow]
  simp

theorem fSign_fneg (x : F64) : fSign (fneg x) = !fSign x := by
  rw [fSign, fneg, BitVec.msb_xor, show (0x8000000000000000#64).msb = true by decide, Bool.xor_true]
  rfl

theorem fVal_fneg (x : F64) : fVal (fneg x) = -fVal x := by
  unfold fVal
  rw [fSign_fneg, fMag_eq_magOf, lowBits_fneg, ← fMag_eq_magOf]
  cases fSign x <;> simp

theorem fIsFinite_fneg {x : F64} (h : fIsFinite x = true) : fIsFinite (fneg x) = true := by
  rw [fIsFinite_iff, lowBits_fneg]
  exact fIsFinite_iff.1 h

/-! ## One rounding -/

theorem roundRat_nearestEven (sgn : Bool) (num : Nat) {den : Nat} (hden : 0 < den) :
    NearestEven (roundRat sgn num den) (signed sgn (num / den)) := by
  have hv : (0 : ℚ) ≤ num / den := by positivity
  have hnear := packUnbounded_nearest num hden
  unfold roundRat
  rw [packMag_eq]
  generalize packUnbounded num den = p at hnear ⊢
  generalize (num : ℚ) / den = v at hv hnear ⊢
  have hsign : fSign (ofSignMag sgn (min p infMag)) = sgn := fSign_ofSignMag sgn (min_le_right _ _)
  have hlow : lowBits (ofSignMag sgn (min p infMag)) = min p infMag := lowBits_ofSignMag sgn (min_le_right _ _)
  refine ⟨fun hlt => ?_, fun hle => ?_, fun hpos => hsign.trans (sign_of_signed_pos hv hpos),
    fun hneg => hsign.trans (sign_of_signed_neg hv hneg)⟩
  · rw [abs_signed sgn hv] at hlt
    have hp : p < infMag := not_le.1 fun hp => absurd (hnear.infMag_le_iff.1 hp) (not_le.2 hlt)
    rw [min_eq_left hp.le] at hsign hlow ⊢
    have hz : (fVal (ofSignMag sgn p) : ℚ) = signed sgn (magOf p) := by
      rw [fVal_eq_signed, hsign, fMag_eq_magOf, hlow]
    refine ⟨fIsFinite_iff.2 (hlow.trans_lt hp), fun y _ => ?_⟩
    have hy : |(fVal y : ℚ)| = magOf (lowBits y) := by
      rw [fVal_eq_signed, abs_signed _ (Nat.cast_nonneg _), fMag_eq_magOf]
    obtain ⟨hle, htie⟩ := hnear.signed_nearest (sgn := sgn) hv hy
    rw [← hz] at hle htie
    refine ⟨hle, fun he hne => ?_⟩
    have heven : p % 2 = 0 := htie he (by exact_mod_cast hne)
    rw [ofSignMag_toNat sgn hp.le]
    split <;> omega
  · rw [abs_signed sgn hv] at hle
    rw [fIsInf_iff, hlow]
    exact min_eq_right (hnear.infMag_le_iff.2 hle)

theorem fZero_eq_roundRat (sgn : Bool) : fZero sgn = roundRat sgn 0 1 := rfl

/-- A sum of two finite values; an exact zero sum, of either sign, is one rounding of 0 too. -/
theorem fadd_nearestEven {x y : F64} (hx : fIsFinite x = true) (hy : fIsFinite y = true) :
    NearestEven (fadd x y) ((fVal x : ℚ) + fVal y) := by
  obtain ⟨hxn, hxi⟩ := not_special_of_finite hx
  obtain ⟨hyn, hyi⟩ := not_special_of_finite hy
  have hadd : fadd x y = addFinite x y := by simp [fadd, hxn, hxi, hyn, hyi]
  rw [hadd, ← Int.cast_add]
  unfold addFinite
  generalize fVal x + fVal y = v
  dsimp only
  split
  · rename_i hv
    rw [fZero_eq_roundRat]
    simpa [hv, signed] using roundRat_nearestEven (fSign x && fSign y) 0 Nat.one_pos
  · have h := roundRat_nearestEven (decide (v < 0)) v.natAbs Nat.one_pos
    rwa [Nat.cast_one, div_one, ← signed_natAbs] at h

theorem fsub_nearestEven {x y : F64} (hx : fIsFinite x = true) (hy : fIsFinite y = true) :
    NearestEven (fsub x y) ((fVal x : ℚ) - fVal y) := by
  have h := fadd_nearestEven hx (fIsFinite_fneg hy)
  rwa [fVal_fneg, Int.cast_neg, ← sub_eq_add_neg] at h

theorem fUnit_pos : 0 < fUnit := by
  unfold fUnit
  positivity

theorem fmul_nearestEven {x y : F64} (hx : fIsFinite x = true) (hy : fIsFinite y = true) :
    NearestEven (fmul x y) ((fVal x : ℚ) * fVal y / fUnit) := by
  obtain ⟨hxn, hxi⟩ := not_special_of_finite hx
  obtain ⟨hyn, hyi⟩ := not_special_of_finite hy
  have hmul : fmul x y = roundRat (fSign x != fSign y) (fMag x * fMag y) fUnit := by
    simp [fmul, hxn, hxi, hyn, hyi]
  have hval : (fVal x : ℚ) * fVal y / fUnit = signed (fSign x != fSign y) ((fMag x * fMag y : Nat) / fUnit) := by
    rw [fVal_eq_signed x, fVal_eq_signed y, signed_mul, Nat.cast_mul, signed_div_right]
  rw [hmul, hval]
  exact roundRat_nearestEven _ _ fUnit_pos

theorem fdiv_nearestEven {x y : F64} (hx : fIsFinite x = true) (hy : fIsFinite y = true) (hz : fIsZero y = false) :
    NearestEven (fdiv x y) ((fVal x : ℚ) * fUnit / fVal y) := by
  obtain ⟨hxn, hxi⟩ := not_special_of_finite hx
  obtain ⟨hyn, hyi⟩ := not_special_of_finite hy
  have hdiv : fdiv x y = roundRat (fSign x != fSign y) (fMag x * fUnit) (fMag y) := by
    simp [fdiv, hxn, hxi, hyn, hyi, hz]
  have hval : (fVal x : ℚ) * fUnit / fVal y = signed (fSign x != fSign y) ((fMag x * fUnit : Nat) / fMag y) := by
    rw [fVal_eq_signed x, fVal_eq_signed y, signed_mul_right, signed_div, Nat.cast_mul]
  have hpos : 0 < fMag y := by
    have hlow : 0 < lowBits y := Nat.pos_of_ne_zero fun h => by simp [fIsZero_iff.2 h] at hz
    rw [fMag_eq_magOf]
    exact magOf_strictMono hlow
  rw [hdiv, hval]
  exact roundRat_nearestEven _ _ hpos

theorem f64_nearestEven (n : Int) : NearestEven (f64 n) ((n : ℚ) * fUnit) := by
  have h := roundRat_nearestEven (decide (n < 0)) (n.natAbs * fUnit) Nat.one_pos
  rwa [Nat.cast_one, div_one, Nat.cast_mul, ← signed_mul_right, ← signed_natAbs] at h

/-- Settles O27: each operation is one `packMag` of its exact result, and `packMag` picks the nearer of the two
neighbouring magnitudes. -/
theorem correctlyRounded : Obligations.CorrectlyRounded :=
  ⟨fun _ _ hx hy => ⟨fadd_nearestEven hx hy, fsub_nearestEven hx hy, fmul_nearestEven hx hy, fdiv_nearestEven hx hy⟩,
    f64_nearestEven⟩

end Sys2Proof.Machine

/-! PROOFS. The register frame of the commands (10_state.md R51, R53, R71, R74, R90, 43_huffman.md R451): what the named
updates leave of the registers, then the pseudocode of each command, then completion and the error entry. -/

namespace Sys2Proof.Machine

/-! ## What a command may have written when its pseudocode ends -/

/-- `u` differs from `s` in memory, in the count of free values and in what the rule of command `i` lists, only. -/
structure Framed (i : Instr) (s u : State) : Prop where
  cfg : u.cfg = s.cfg
  status : u.status = s.status
  cmd : u.cmd = s.cmd
  errRec : u.errRec = s.errRec
  holes : u.holes = s.holes
  devices : u.devices = s.devices
  resetPin : u.resetPin = s.resetPin
  inbox : u.inbox = s.inbox
  reply : u.reply = s.reply
  mregs : ∀ d : MReg, destM i ≠ some d → u.mregs[d] = s.mregs[d]
  sregs : ∀ k : SReg, destS i ≠ some k → u.sregs[k] = s.sregs[k]
  res : ∀ k : Fin 4, k ∉ destRes i → u.res[k] = s.res[k]
  hbits : writesHbits i = false → u.hbits = s.hbits
  pq : usesQueue i = false → u.pq = s.pq
  huff : isHuffman i = false → u.huff = s.huff

theorem Framed.refl (i : Instr) (s : State) : Framed i s s :=
  ⟨rfl, rfl, rfl, rfl, rfl, rfl, rfl, rfl, rfl, fun _ _ => rfl, fun _ _ => rfl, fun _ _ => rfl, fun _ => rfl,
    fun _ => rfl, fun _ => rfl⟩

section
variable {i : Instr} {s u : State} (h : Framed i s u)
include h

theorem Framed.setM {d : MReg} (m : Mat) (hd : destM i = some d) : Framed i s (u.setM d m) :=
  { h with
    mregs := fun e he => (u.setM_get_ne d m (by rintro rfl; exact he hd)).trans (h.mregs e he) }

theorem Framed.setS {k : SReg} (v : F64) (hk : destS i = some k) : Framed i s (u.setS k v) :=
  { h with
    sregs := fun j hj => (u.setS_get_ne k v (by rintro rfl; exact hj hk)).trans (h.sregs j hj) }

theorem Framed.setRes {k : Fin 4} (v : Word) (hk : k ∈ destRes i := by simp [destRes]) : Framed i s (u.setRes k v) :=
  { h with
    res := fun j hj => (u.setRes_get_ne k v (by rintro rfl; exact hj hk)).trans (h.res j hj) }

theorem Framed.setMem (m : Memory) : Framed i s (u.setMem m) := { h with }

theorem Framed.draw (n : Nat) : Framed i s (u.draw n) := { h with }

theorem Framed.setPq (q : PQueue) (hi : usesQueue i = true := by decide) : Framed i s (u.setPq q) :=
  { h with pq := fun hn => absurd hi (by simp [hn]) }

theorem Framed.setHuff (t : Huffman) (hi : isHuffman i = true := by decide) : Framed i s (u.setHuff t) :=
  { h with huff := fun hn => absurd hi (by simp [hn]) }

theorem Framed.setHbits (b : BitVec 64) (hi : writesHbits i = true := by decide) : Framed i s (u.setHbits b) :=
  { h with hbits := fun hn => absurd hi (by simp [hn]) }

theorem Framed.freeRes {ks : List (Fin 4)} (hk : ks ⊆ destRes i := by simp [destRes]) :
    Framed i s (u.freeRes ks) := by
  induction ks generalizing u with
  | nil => exact h
  | cons k t ih =>
    exact ih ((h.setRes _ (hk (by simp))).draw 1) (List.subset_of_cons_subset hk)

theorem Framed.resultsOf (device : Bool) (n : Nat) {ks : List (Fin 4)} (hk : ks ⊆ destRes i := by simp [destRes]) :
    Framed i s (u.resultsOf device n ks) := by
  cases device with
  | false => exact h
  | true => exact (h.draw n).freeRes hk

theorem Framed.bitsOf (device : Bool) (hi : writesHbits i = true := by decide) : Framed i s (u.bitsOf device) := by
  cases device with
  | false => exact h
  | true => exact (h.setHbits _ hi).draw 1

end

/-- Leaving output regions open changes memory and the count of free values only. -/
theorem Framed.settle {i : Instr} {s : State} {w : Written} (h : Framed i s w.state) : Framed i s w.settle := by
  obtain ⟨⟨m, n, e⟩, -⟩ := w.settle_spec
  rw [e]
  exact { h with }

/-! ## Errors that keep the priority queue -/

/-- The result satisfies `P`, or is an error that does not empty the priority queue (43_huffman.md R470). -/
def EndsSparing {α : Type} (P : α → Prop) : Except Raise α → Prop
  | .ok v => P v
  | .error r => r.emptiesQueue = false

/-- Every error of the result keeps the queue. -/
def Spares {α : Type} (e : Except Raise α) : Prop := EndsSparing (fun _ => True) e

section
variable {α β : Type} {P : α → Prop} {x : Except Raise α}

theorem EndsSparing.ok {v : α} (h : P v) : EndsSparing P (.ok v) := h

theorem EndsSparing.bind {Q : β → Prop} {f : α → Except Raise β} (hx : Spares x)
    (hf : ∀ v, EndsSparing Q (f v)) : EndsSparing Q (x >>= f) := by
  cases x with
  | error r => exact hx
  | ok v => exact hf v

theorem EndsSparing.map {Q : β → Prop} {f : α → β} (hf : ∀ v, P v → Q (f v)) (h : EndsSparing P x) :
    EndsSparing Q (x.map f) := by
  cases x with
  | error r => exact h
  | ok v => exact hf v h

theorem EndsSparing.mapError {f : Raise → Raise} (hf : ∀ r, r.emptiesQueue = false → (f r).emptiesQueue = false)
    (h : EndsSparing P x) : EndsSparing P (x.mapError f) := by
  cases x with
  | error r => exact hf r h
  | ok v => exact h

theorem EndsSparing.endsWith (h : EndsSparing P x) : EndsWith P x := by
  rintro v rfl
  exact h

theorem EndsSparing.spares (h : EndsSparing P x) : Spares x := by
  cases x with
  | error r => exact h
  | ok v => exact trivial

end

/-! ### The checks and the accesses -/

theorem need_spares {b : Bool} {r : Raise} (hr : r.emptiesQueue = false) : Spares (need b r) := by
  cases b with
  | false => exact hr
  | true => exact trivial

theorem readM_spares (s : State) (a : MReg) : Spares (s.readM a) := by
  unfold State.readM
  split
  · exact trivial
  · exact rfl

theorem checkQ_spares (c : Csr) : Spares (checkQ c) := by
  unfold checkQ
  split
  · exact rfl
  · exact trivial

theorem loadAll_spares (hs : List Region) (m : Memory) (l : List Access) : Spares (loadAll hs m l) := by
  induction l with
  | nil => exact trivial
  | cons x t ih =>
    unfold loadAll
    split
    · exact rfl
    · exact EndsSparing.map (fun _ _ => trivial) ih

theorem storeAll_spares (hs : List Region) (l : List Store) (m : Memory) : Spares (storeAll hs l m) := by
  induction l generalizing m with
  | nil => exact trivial
  | cons x t ih =>
    unfold storeAll
    split
    · exact rfl
    · exact ih _

theorem enq_spares (o : HeapOrder) (q : PQueue) (k p : Word) : Spares (q.enq o k p) := by
  unfold PQueue.enq
  split
  · exact rfl
  · exact trivial

theorem deq_spares (o : HeapOrder) (q : PQueue) : Spares (q.deq o) := by
  unfold PQueue.deq
  split
  · exact rfl
  · exact trivial

theorem peek_spares (q : PQueue) : Spares q.peek := by
  unfold PQueue.peek
  split
  · exact rfl
  · exact trivial

theorem readSym_error_spares {hs : List Region} {m : Memory} {c : Csr} {j : Nat} {r : Raise}
    (h : readSym hs m c j = .error r) : r.emptiesQueue = false := by
  simp only [readSym] at h
  split at h
  · exact Except.error.inj h ▸ rfl
  · simp at h

theorem countFrom_spares (hs : List Region) (m : Memory) (c : Csr) (n j : Nat) (t : List HSym) :
    Spares (countFrom hs m c n j t) := by
  induction n generalizing j t with
  | zero => exact trivial
  | succ n ih =>
    unfold countFrom
    split
    · rename_i hr
      exact readSym_error_spares hr
    · split
      · exact ih _ _
      · exact rfl

theorem lookupFrom_spares (hs : List Region) (m : Memory) (c : Csr) (syms : List HSym) (n j : Nat) :
    Spares (lookupFrom hs m c syms n j) := by
  induction n generalizing j with
  | zero => exact trivial
  | succ n ih =>
    unfold lookupFrom
    split
    · rename_i hr
      exact readSym_error_spares hr
    · split
      · exact rfl
      · exact EndsSparing.map (fun _ _ => trivial) (ih _)

theorem codesOf_spares (paths : List (Nat × Nat)) : Spares (codesOf paths) := by
  unfold codesOf
  split
  · exact rfl
  · exact trivial

theorem xformFrom_spares (hs : List Region) (c : Csr) (etq erec : Bool) (n j : Nat) (m : Memory) :
    Spares (xformFrom hs c etq erec n j m) := by
  induction n generalizing j m with
  | zero => exact trivial
  | succ n ih =>
    have hblock : Spares (xformBlock hs c etq erec j m) :=
      .bind (loadAll_spares ..) fun _ => storeAll_spares ..
    unfold xformFrom
    split
    · exact ih _ _
    · rename_i hr
      rwa [hr] at hblock

/-! ## The pseudocode of each command -/

section
variable {i : Instr} {s : State}

theorem unary_framed {d : MReg} (hd : destM i = some d) (a : MReg) (f : Mat → Mat) :
    EndsSparing (Framed i s) (s.unary d a f) :=
  .bind (readM_spares s a) fun _ => (Framed.refl i s).setM _ hd

theorem elementwise_framed {d : MReg} (hd : destM i = some d) (a b : MReg) (f : F64 → F64 → F64) :
    EndsSparing (Framed i s) (s.elementwise d a b f) :=
  .bind (readM_spares s a) fun _ => .bind (readM_spares s b) fun _ => .bind (need_spares rfl) fun _ =>
    (Framed.refl i s).setM _ hd

theorem reduce_framed {k : SReg} (hk : destS i = some k) (a : MReg) (before : F64 → F64 → Bool) :
    EndsSparing (Framed i s) (s.reduce k a before) :=
  .bind (readM_spares s a) fun _ => (Framed.refl i s).setS _ hk

theorem transform88_framed {d : MReg} (hd : destM i = some d) (a : MReg) (f : Mat → Mat) :
    EndsSparing (Framed i s) (s.transform88 d a f) :=
  .bind (readM_spares s a) fun _ => .bind (need_spares rfl) fun _ => (Framed.refl i s).setM _ hd

theorem quantized_framed {d : MReg} (hd : destM i = some d) (a : MReg) (f : Mat → Mat) :
    EndsSparing (Framed i s) (s.quantized d a f) :=
  .bind (readM_spares s a) fun _ => .bind (need_spares rfl) fun _ => .bind (checkQ_spares s.cfg) fun _ =>
    (Framed.refl i s).setM _ hd

end

section
variable (s : State)

theorem bodyMload_framed (d : MReg) (h w : Nat) (f : Fmt) :
    EndsSparing (Framed (.mload d h w f) s) (bodyMload d h w f s) := by
  refine .bind (need_spares rfl) fun _ => .bind (loadAll_spares ..) fun raw => ?_
  show Framed _ s (if _ then _ else _)
  split
  · exact ((Framed.refl _ s).setM _ rfl).draw 1
  · exact (Framed.refl _ s).setM _ rfl

theorem bodyMstore_framed (a : MReg) (f : Fmt) :
    EndsSparing (fun w => Framed (.mstore a f) s w.state) (bodyMstore a f s) :=
  .bind ((readM_spares s a).mapError fun _ h => h) fun _ =>
    .bind ((storeAll_spares ..).mapError fun _ h => h) fun _ => (Framed.refl _ s).setMem _

theorem bodyXform_framed (etq erec : Bool) :
    EndsSparing (fun w => Framed (.xform etq erec) s w.state) (bodyXform etq erec s) :=
  .bind ((need_spares rfl).mapError fun _ h => h) fun _ =>
    .bind ((checkQ_spares s.cfg).mapError fun _ h => h) fun _ =>
      .bind ((xformFrom_spares ..).mapError fun _ h => h) fun _ =>
        (((Framed.refl _ s).setMem _).setRes _).resultsOf _ 0

theorem bodyHcount_framed : EndsSparing (Framed .hcount s) (bodyHcount s) :=
  .bind ((countFrom_spares ..).mapError fun _ h => h) fun _ =>
    (((Framed.refl _ s).setHuff _).setRes _).resultsOf _ 1

theorem bodyHbuild_framed : EndsWith (Framed .hbuild s) (bodyHbuild s) :=
  .bind fun _ _ => .bind fun _ _ => .ok
    (((((Framed.refl _ s).setPq _).setHuff _).setRes _).setRes _)

theorem bodyHassign_framed : EndsSparing (fun w => Framed .hassign s w.state) (bodyHassign s) :=
  .bind ((need_spares rfl).mapError fun _ h => h) fun _ =>
    .bind ((codesOf_spares _).mapError fun _ h => h) fun _ =>
      .bind ((storeAll_spares ..).mapError fun _ h => h) fun _ =>
        (((((((Framed.refl _ s).setMem _).setHuff _).setRes _).setRes _
         ).setRes _).setRes _).draw _

theorem emitRaise_spares (c : Csr) (device : Bool) (outs : List Region) {r : Raise} (h : r.emptiesQueue = false) :
    (emitRaise c device outs r).emptiesQueue = false := by
  obtain ⟨rs, n, e, -⟩ := emitRaise_spec c device outs r
  rw [e]
  exact h

theorem bodyHemit_framed : EndsSparing (fun w => Framed .hemit s w.state) (bodyHemit s) :=
  .bind (need_spares rfl) fun _ =>
    .bind ((EndsSparing.map (fun _ _ => trivial) (lookupFrom_spares ..)).mapError
        fun _ h => emitRaise_spares _ _ _ h) fun _ =>
      .bind ((need_spares rfl).mapError fun _ h => emitRaise_spares _ _ _ h) fun _ =>
        .bind ((storeAll_spares ..).mapError fun _ h => h) fun _ =>
          ((((((Framed.refl _ s).setMem _).setHbits _).setRes _).setRes _
           ).resultsOf _ 1).bitsOf _

theorem bodyHuff_framed : EndsWith (fun w => Framed .huff s w.state) (bodyHuff s) := by
  refine .bind fun _ _ => .bind fun _ _ => .bind fun _ _ => .bind fun _ _ => .bind fun _ _ => .bind fun _ _ =>
    .bind fun _ _ => .ok ?_
  exact ((((((((((Framed.refl .huff s).setMem _).setPq _).setHuff _).setHbits _).setRes _).setRes _).setRes _).setRes
    _).resultsOf _ 2).bitsOf _

/-! ## Every command -/

/-- What every command does to the registers: its pseudocode writes what its rule lists, and its errors empty the queue
only if it is of those that use it. -/
theorem exec_framed (i : Instr) : ∃ e, exec i s = s.finish e ∧ EndsWith (Framed i s) e ∧
    (usesQueue i = false → Spares e) := by
  have sparing : ∀ e, EndsSparing (Framed i s) e → exec i s = s.finish e →
      ∃ e, exec i s = s.finish e ∧ EndsWith (Framed i s) e ∧ (usesQueue i = false → Spares e) :=
    fun e h he => ⟨e, he, h.endsWith, fun _ => h.spares⟩
  cases i with
  | nop => exact sparing (.ok s) (Framed.refl _ s) rfl
  | pqclr => exact sparing (.ok (s.setPq PQueue.empty)) ((Framed.refl _ s).setPq _) rfl
  | mzero d r c => exact sparing _ (.bind (need_spares rfl) fun _ => .ok ((Framed.refl _ s).setM _ rfl)) rfl
  | mload d r c f => exact sparing _ (bodyMload_framed s d r c f) rfl
  | mstore a f => exact sparing _ ((bodyMstore_framed s a f).map fun _ h => h.settle) rfl
  | mget k a row col =>
    exact sparing _ (.bind (readM_spares s a) fun _ => .bind (need_spares rfl) fun _ =>
      .ok ((Framed.refl _ s).setS _ rfl)) rfl
  | mset d k row col =>
    exact sparing _ (.bind (readM_spares s d) fun _ => .bind (need_spares rfl) fun _ =>
      .ok ((Framed.refl _ s).setM _ rfl)) rfl
  | madd d a b | msub d a b | mdiv d a b | memul d a b => exact sparing _ (elementwise_framed rfl a b _) rfl
  | mmul d a b =>
    exact sparing _ (.bind (readM_spares s a) fun _ => .bind (readM_spares s b) fun _ =>
      .bind (need_spares rfl) fun _ => .ok ((Framed.refl _ s).setM _ rfl)) rfl
  | mmov d a | madds d a k | msubs d a k | mmuls d a k | mdivs d a k | mtrans d a | mabs d a | mround d a
  | lvlsub d a | lvladd d a => exact sparing _ (unary_framed rfl a _) rfl
  | mmin k a | mmax k a => exact sparing _ (reduce_framed rfl a _) rfl
  | mzigzag d a | fdct d a | idct d a => exact sparing _ (transform88_framed rfl a _) rfl
  | meq a b =>
    exact sparing _ (.bind (readM_spares s a) fun _ => .bind (readM_spares s b) fun _ =>
      .ok ((Framed.refl _ s).setRes _)) rfl
  | quant d a | dequant d a => exact sparing _ (quantized_framed rfl a _) rfl
  | xform etq erec => exact sparing _ ((bodyXform_framed s etq erec).map fun _ h => h.settle) rfl
  | pqenq => exact sparing _ (.bind (enq_spares ..) fun _ => .ok ((Framed.refl _ s).setPq _)) rfl
  | pqdeq =>
    exact sparing _ (.bind (deq_spares ..) fun _ =>
      .ok ((((Framed.refl _ s).setPq _).setRes _).setRes _)) rfl
  | pqpeek =>
    exact sparing _ (.bind (peek_spares _) fun _ =>
      .ok (((Framed.refl _ s).setRes _).setRes _)) rfl
  | hcount => exact sparing _ (bodyHcount_framed s) rfl
  | hbuild => exact ⟨_, rfl, .mapError _ (bodyHbuild_framed s), fun h => absurd h (by decide)⟩
  | hassign => exact sparing _ ((bodyHassign_framed s).map fun _ h => h.settle) rfl
  | hemit => exact sparing _ ((bodyHemit_framed s).map fun _ h => h.settle) rfl
  | huff => exact ⟨_, rfl, .map (fun _ h => h.settle) (bodyHuff_framed s), fun h => absurd h (by decide)⟩

end

/-- The OP values of the Huffman unit are those of its five commands (30_encoding.md R211). -/
theorem isHuffmanOp_opcode (i : Instr) : isHuffmanOp i.opcode = isHuffman i := by
  cases i <;> rfl

/-- Settles O23: completion and the error entry change, of what is listed, DONE, ERR and BUSY, and on an error the queue
and the Huffman tables of the commands that use them. -/
theorem registerFrame : Obligations.RegisterFrame := by
  intro i s t hop h
  obtain ⟨e, he, hok, hspare⟩ := exec_framed s i
  rcases State.finish_eq_next (he ▸ h) with ⟨u, hu, rfl⟩ | ⟨r, hr, rfl⟩
  · have hw := hok u hu
    exact ⟨hw.cfg, hw.cmd, hw.holes, hw.devices, hw.resetPin, hw.inbox, hw.reply,
      (congrArg Status.cmdDrop hw.status :), (congrArg Status.wrDrop hw.status :), hw.mregs, hw.sregs, hw.res,
      hw.hbits, hw.pq, hw.huff⟩
  · rw [State.errorEntry_eq]
    refine ⟨rfl, rfl, rfl, rfl, rfl, rfl, rfl, rfl, rfl, fun _ _ => rfl, fun _ _ => rfl, fun _ _ => rfl,
      fun _ => rfl, fun hq => ?_, fun hi => ?_⟩
    · have hkeep : r.emptiesQueue = false := by simpa [Spares, EndsSparing, hr] using hspare hq
      simp [hkeep]
    · simp [hop, isHuffmanOp_opcode, hi]

end Sys2Proof.Machine

/-! PROOFS. Every step keeps BUSY exclusive of ERR and reset, ERRCODE legal and the queue within its capacity
(40_command.md R251, 60_exceptions.md R600, 44_pqueue.md R500): what the host can change of them, then the commands. -/

namespace Sys2Proof.Machine

/-! ## The host's actions -/

/-- From `s` to `t` the error record, the queue and the Huffman unit stay, and BUSY stays exclusive. -/
structure HostKeeps (s t : State) : Prop where
  errRec : t.errRec = s.errRec
  pq : t.pq = s.pq
  huff : t.huff = s.huff
  busy : s.BusyExclusive → t.BusyExclusive

theorem State.busyExclusive_of_idle {s : State} (h : s.status.busy = false) : s.BusyExclusive :=
  fun hb => absurd hb (by simp [h])

/-- BUSY stays exclusive when none of BUSY, ERR and reset is newly asserted. -/
theorem State.BusyExclusive.mono {s t : State} (h : s.BusyExclusive)
    (hb : t.status.busy = true → s.status.busy = true)
    (he : s.status.err = false → t.status.err = false) (hp : s.resetPin = false → t.resetPin = false) :
    t.BusyExclusive := by
  intro hbusy
  obtain ⟨herr, hpin⟩ := h (hb hbusy)
  exact ⟨he herr, hp hpin⟩

/-- An update of other fields. -/
theorem HostKeeps.of_eq {s t : State} (he : t.errRec = s.errRec) (hq : t.pq = s.pq) (hu : t.huff = s.huff)
    (hs : t.status = s.status) (hp : t.resetPin = s.resetPin) : HostKeeps s t :=
  ⟨he, hq, hu, fun h => h.mono (hs ▸ id) (hs ▸ id) (hp ▸ id)⟩

theorem HostKeeps.refl (s : State) : HostKeeps s s := .of_eq rfl rfl rfl rfl rfl

theorem HostKeeps.setReply {s t : State} (h : HostKeeps s t) (r : Reply) : HostKeeps s (t.setReply r) :=
  { h with }

/-- After a reset the engine's fields are those of the reset state. -/
theorem State.doReset_keeps (s : State) : HostKeeps State.reset s.doReset := by
  obtain ⟨⟨m, i, e⟩, -⟩ := s.doReset_spec
  rw [e]
  exact ⟨rfl, rfl, rfl, fun _ => State.busyExclusive_of_idle rfl⟩

theorem State.readReg_keeps (s : State) (off : Nat) : HostKeeps s (s.readReg off) := by
  unfold State.readReg
  split
  · exact .of_eq rfl rfl rfl rfl rfl
  · split <;> exact .of_eq rfl rfl rfl rfl rfl
  · exact .of_eq rfl rfl rfl rfl rfl

theorem State.writeConfig_keeps (s : State) (r : PortReg) (v : Word) : HostKeeps s (s.writeConfig r v) := by
  cases r <;> exact .of_eq rfl rfl rfl rfl rfl

theorem State.writeCtrl_keeps (s : State) (v : Word) :
    HostKeeps s (s.writeCtrl v) ∨ HostKeeps State.reset (s.writeCtrl v) := by
  unfold State.writeCtrl
  split
  · exact .inr s.doReset_keeps
  · left
    split
    · exact ⟨rfl, rfl, rfl, fun h => h.mono id id id⟩
    · exact .of_eq rfl rfl rfl rfl rfl

theorem State.writeStatus_keeps (s : State) (v : Word) : HostKeeps s (s.writeStatus v) :=
  ⟨rfl, rfl, rfl, fun h => h.mono id (fun he => by simp [State.writeStatus, he]) id⟩

/-- A command is accepted only when no error is pending (R250, R251). -/
theorem State.offer_keeps {s : State} (hp : s.resetPin = false) (v : Word) : HostKeeps s (s.offer v) := by
  unfold State.offer
  split
  · exact ⟨rfl, rfl, rfl, fun h => h.mono id id id⟩
  · rename_i hfree
    refine ⟨rfl, rfl, rfl, fun _ _ => ⟨?_, hp⟩⟩
    simp only [Bool.or_eq_true, not_or, Bool.not_eq_true] at hfree
    exact hfree.2

theorem State.writeReg_keeps {s : State} (hp : s.resetPin = false) (off : Nat) (v : Word) :
    HostKeeps s (s.writeReg off v) ∨ HostKeeps State.reset (s.writeReg off v) := by
  unfold State.writeReg
  split
  · exact .inl (.refl s)
  · exact s.writeCtrl_keeps v
  · exact .inl (s.writeStatus_keeps v)
  · exact .inl (.of_eq rfl rfl rfl rfl rfl)
  · exact .inl (State.offer_keeps hp v)
  · left
    split
    · exact ⟨rfl, rfl, rfl, fun h => h.mono id id id⟩
    · exact s.writeConfig_keeps _ v

theorem State.portRead_keeps (s : State) (off : BitVec 12) (size : Nat) : HostKeeps s (s.portRead off size) := by
  unfold State.portRead
  split
  · exact .of_eq rfl rfl rfl rfl rfl
  · split
    · exact s.readReg_keeps off.toNat
    · exact (HostKeeps.refl s).setReply _

theorem State.portWrite_keeps (s : State) (off : BitVec 12) (size : Nat) (v : Word) :
    HostKeeps s (s.portWrite off size v) ∨ HostKeeps State.reset (s.portWrite off size v) := by
  unfold State.portWrite
  split
  · exact .inl ((HostKeeps.refl s).setReply _)
  · rename_i hp
    split
    · exact (State.writeReg_keeps (by simpa using hp) off.toNat v).imp (·.setReply _) (·.setReply _)
    · exact .inl ((HostKeeps.refl s).setReply _)

theorem State.hostRead_keeps (s : State) (a : Word) : HostKeeps s (s.hostRead a) := by
  unfold State.hostRead
  split <;> exact .of_eq rfl rfl rfl rfl rfl

theorem State.assertReset_keeps (s : State) : HostKeeps State.reset s.assertReset := by
  obtain ⟨⟨m, i, e⟩, -⟩ := s.doReset_spec
  unfold State.assertReset
  rw [e]
  exact ⟨rfl, rfl, rfl, fun _ => State.busyExclusive_of_idle rfl⟩

/-- What the host does to the engine's record, queue and Huffman unit: nothing, or reset (R700, R702). -/
theorem hostStep_keeps {act : HostAction} {s t : State} (h : hostStep act s = .next t) :
    HostKeeps s t ∨ HostKeeps State.reset t := by
  cases act with
  | portRead off size => exact .inl (Host.Outcome.next.inj h ▸ s.portRead_keeps off size)
  | portWrite off size v => exact Host.Outcome.next.inj h ▸ s.portWrite_keeps off size v
  | memRead a => exact .inl (Host.Outcome.next.inj h ▸ s.hostRead_keeps a)
  | memWrite a b =>
    simp only [hostStep, State.hostWrite] at h
    split at h
    · simp at h
    · exact .inl (Host.Outcome.next.inj h ▸ .of_eq rfl rfl rfl rfl rfl)
  | resetAssert => exact .inr (Host.Outcome.next.inj h ▸ s.assertReset_keeps)
  | resetRelease => exact .inl (Host.Outcome.next.inj h ▸ ⟨rfl, rfl, rfl, fun hb => hb.mono id id fun _ => rfl⟩)

/-! ## The engine's turn -/

/-- A step is the engine's turn or a host action, on the state without the input taken. -/
theorem step_cases {s t : State} (h : step s = .next t) :
    ∃ rest, engineStep { s with inbox := rest } = .next t ∨
      ∃ act, hostStep act { s with inbox := rest } = .next t := by
  rcases hb : s.inbox with _ | ⟨_ | act, rest⟩
  · rw [step_of_empty hb] at h
    exact ⟨s.inbox, .inl h⟩
  · rw [step_of_turn hb] at h
    exact ⟨rest, .inl h⟩
  · rw [step_of_host hb] at h
    exact ⟨rest, .inr ⟨act, h⟩⟩

/-- The engine's turn runs the decoded command, or raises ILLEGAL, or changes nothing (R254, R255, R262). -/
theorem engineStep_cases {s t : State} (h : engineStep s = .next t) :
    (∃ i, s.status.busy = true ∧ decode s.cmd = .ok i ∧ exec i s = .next t) ∨
      t = s.errorEntry (Raise.illegal s.cmd) ∨ t = s := by
  unfold engineStep runCommand at h
  split at h
  · rename_i hb
    rw [Bool.and_eq_true] at hb
    split at h
    · rename_i i hi
      exact .inl ⟨i, hb.1, hi, h⟩
    · exact .inr (.inl (Host.Outcome.next.inj h).symm)
  · exact .inr (.inr (Host.Outcome.next.inj h).symm)

/-! ## ERRCODE and the queue -/

theorem State.errorEntry_errCodeLegal (s : State) (r : Raise) : (s.errorEntry r).ErrCodeLegal := by
  have hcode := r.code.toByte_range
  have hop := (opField s.cmd).isLt
  rw [State.errorEntry_eq]
  have hword : (0#16 ++ opField s.cmd ++ r.code.toByte).toNat = (opField s.cmd).toNat * 256 + r.code.toByte.toNat := by
    rw [BitVec.toNat_append, BitVec.toNat_append, ← Nat.shiftLeft_add_eq_or_of_lt r.code.toByte.isLt]
    simp [Nat.shiftLeft_eq]
  simp only [State.ErrCodeLegal, hword]
  omega

theorem State.errorEntry_queueFits {s : State} (hs : s.QueueFits) (r : Raise) : (s.errorEntry r).QueueFits := by
  rw [State.errorEntry_eq]
  unfold State.QueueFits
  dsimp only
  split
  · exact Nat.zero_le _
  · exact hs

@[simp] theorem State.resultsOf_pq (s : State) (device : Bool) (n : Nat) (ks : List (Fin 4)) :
    (s.resultsOf device n ks).pq = s.pq := by
  obtain ⟨⟨r, i, e⟩, -⟩ := s.resultsOf_spec device n ks
  rw [e]

@[simp] theorem State.bitsOf_pq (s : State) (device : Bool) : (s.bitsOf device).pq = s.pq := by
  cases device <;> rfl

theorem Written.settle_pq (w : Written) : w.settle.pq = w.state.pq := by
  obtain ⟨⟨m, i, e⟩, -⟩ := w.settle_spec
  rw [e]

/-- HUFF leaves the queue empty (43_huffman.md R466). -/
theorem bodyHuff_pq (s : State) : EndsWith (fun w => w.state.pq = PQueue.empty) (bodyHuff s) :=
  .bind fun _ _ => .bind fun _ _ => .bind fun _ _ => .bind fun _ _ => .bind fun _ _ => .bind fun _ _ =>
    .bind fun _ _ => .ok (by simp)

/-- The pseudocode of a command keeps the queue within its capacity: only PQENQ adds an entry (R503). -/
theorem exec_queueFits {i : Instr} {s t : State} (hs : s.QueueFits) (h : exec i s = .next t) : t.QueueFits := by
  have finish : ∀ e, EndsWith State.QueueFits e → s.finish e = .next t → t.QueueFits := fun e he hf => by
    rcases State.finish_eq_next hf with ⟨u, hu, rfl⟩ | ⟨r, -, rfl⟩
    · exact he u hu
    · exact State.errorEntry_queueFits hs r
  by_cases hi : usesQueue i = true
  · simp only [usesQueue, List.mem_cons, List.not_mem_nil, or_false, decide_eq_true_eq] at hi
    rcases hi with rfl | rfl | rfl | rfl | rfl
    · exact finish (.ok (s.setPq PQueue.empty)) (.ok (Nat.zero_le _)) h
    · exact finish _ (.bind fun q hq => .ok (PQueue.enq_length hq hs)) h
    · exact finish _ (.bind fun q hq => .ok (Nat.le_of_succ_le ((PQueue.deq_length hq).trans_le hs))) h
    · exact finish _ (.mapError _ (.bind fun _ _ => .bind fun _ _ => .ok (Nat.zero_le _))) h
    · refine finish _ (.map (fun w hw => ?_) (bodyHuff_pq s)) h
      rw [State.QueueFits, Written.settle_pq, hw]
      exact Nat.zero_le _
  · obtain ⟨e, he, hok, -⟩ := exec_framed s i
    refine finish e (fun u hu => ?_) (he ▸ h)
    unfold State.QueueFits
    rwa [(hok u hu).pq (by simpa using hi)]

theorem exec_busy {i : Instr} {s t : State} (h : exec i s = .next t) : t.status.busy = false := by
  obtain ⟨u, hu, hend⟩ := exec_next i s
  obtain rfl := Host.Outcome.next.inj (hu.symm.trans h)
  rcases hend with ⟨v, rfl⟩ | ⟨r, rfl⟩
  · rfl
  · rw [State.errorEntry_eq]

theorem exec_errCodeLegal {i : Instr} {s t : State} (hs : s.ErrCodeLegal) (h : exec i s = .next t) :
    t.ErrCodeLegal := by
  obtain ⟨e, he, hok, -⟩ := exec_framed s i
  rcases State.finish_eq_next (he ▸ h) with ⟨u, hu, rfl⟩ | ⟨r, -, rfl⟩
  · unfold State.ErrCodeLegal
    rwa [State.complete_errRec, (hok u hu).errRec]
  · exact s.errorEntry_errCodeLegal r

theorem State.reset_controlLegal : State.reset.BusyExclusive ∧ State.reset.ErrCodeLegal ∧ State.reset.QueueFits :=
  ⟨State.busyExclusive_of_idle rfl, ⟨by decide, by decide⟩, Nat.zero_le _⟩

/-- The host keeps the three laws, or resets to a state that meets them. -/
theorem HostKeeps.controlLegal {s t : State} (h : HostKeeps s t)
    (hs : s.BusyExclusive ∧ s.ErrCodeLegal ∧ s.QueueFits) : t.BusyExclusive ∧ t.ErrCodeLegal ∧ t.QueueFits := by
  obtain ⟨hb, he, hq⟩ := hs
  refine ⟨h.busy hb, ?_, ?_⟩
  · unfold State.ErrCodeLegal
    rwa [h.errRec]
  · unfold State.QueueFits
    rwa [h.pq]

theorem engineStep_controlLegal {s t : State} (h : engineStep s = .next t)
    (hs : s.BusyExclusive ∧ s.ErrCodeLegal ∧ s.QueueFits) : t.BusyExclusive ∧ t.ErrCodeLegal ∧ t.QueueFits := by
  obtain ⟨hb, he, hq⟩ := hs
  rcases engineStep_cases h with ⟨i, -, -, hx⟩ | rfl | rfl
  · exact ⟨State.busyExclusive_of_idle (exec_busy hx), exec_errCodeLegal he hx, exec_queueFits hq hx⟩
  · exact ⟨State.busyExclusive_of_idle (by rw [State.errorEntry_eq]), s.errorEntry_errCodeLegal _,
      State.errorEntry_queueFits hq _⟩
  · exact ⟨hb, he, hq⟩

/-- Settles O19: a command ends idle with a legal record and only PQENQ, which checks the capacity, adds to the queue;
the host accepts a command only with no error pending, or resets. -/
theorem stepKeepsControlLegal : Obligations.StepKeepsControlLegal := by
  intro s t hs h
  obtain ⟨rest, h | ⟨act, h⟩⟩ := step_cases h
  · exact engineStep_controlLegal h hs
  · rcases hostStep_keeps h with hk | hk
    · exact hk.controlLegal hs
    · exact hk.controlLegal State.reset_controlLegal

end Sys2Proof.Machine

/-! PROOFS. Every step keeps the Huffman tables consistent (10_state.md R91, 43_huffman.md R451): the tree that HBUILD
makes, as a forest that each round joins; the paths HASSIGN finds in it; what each command writes to the tables; then
the step. -/

namespace Sys2Proof.Machine

/-! ## Results without an error -/

theorem bind_eq_ok {α β : Type} {x : Except Raise α} {f : α → Except Raise β} {w : β} (h : x >>= f = .ok w) :
    ∃ v, x = .ok v ∧ f v = .ok w := by
  cases x with
  | error r => exact absurd h (by simp [Bind.bind, Except.bind])
  | ok v => exact ⟨v, rfl, h⟩

theorem mapError_eq_ok {α : Type} {x : Except Raise α} {f : Raise → Raise} {v : α} (h : x.mapError f = .ok v) :
    x = .ok v := by
  cases x with
  | error r => exact absurd h (by simp [Except.mapError])
  | ok w => exact h

theorem PQueue.enq_perm {o : HeapOrder} {q q' : PQueue} {k p : Word} (h : q.enq o k p = .ok q') :
    q'.heap.Perm (⟨k, p, q.seq⟩ :: q.heap) := by
  by_cases hc : q.heap.length = Config.pqCap
  · rw [PQueue.enq_full o q k p hc] at h
    simp at h
  · obtain ⟨q2, e, hp, -⟩ := PQueue.enq_ok o q k p hc
    exact Except.ok.inj (e.symm.trans h) ▸ hp

theorem PQueue.deq_perm {o : HeapOrder} {q : PQueue} {r : Entry × PQueue} (h : q.deq o = .ok r) :
    q.heap.Perm (r.1 :: r.2.heap) := by
  cases hq : q.heap with
  | nil =>
    rw [PQueue.deq_empty o q hq] at h
    simp at h
  | cons top rest =>
    obtain ⟨q2, e, hp, -⟩ := PQueue.deq_ok o q hq
    obtain rfl := Except.ok.inj (e.symm.trans h)
    exact (hp.cons top).symm

/-! ## The tree (R455, R456) -/

/-- The node an entry of HBUILD's queue stands for. -/
def Entry.handle (x : Entry) : Nat := x.payload.toNat

/-- The handles in the queue. -/
def PQueue.handles (q : PQueue) : List Nat := q.heap.map Entry.handle

/-- A new entry brings its handle. -/
theorem PQueue.enq_handles {o : HeapOrder} {q q' : PQueue} {k : Word} {n : Nat}
    (h : q.enq o k (BitVec.ofNat 32 n) = .ok q') (hn : n < 2 ^ 32) : q'.handles.Perm (n :: q.handles) := by
  have := (PQueue.enq_perm h).map Entry.handle
  rwa [List.map_cons, Entry.handle, BitVec.toNat_ofNat, Nat.mod_eq_of_lt hn] at this

/-- The entry that leaves takes its handle along. -/
theorem PQueue.deq_handles {o : HeapOrder} {q : PQueue} {r : Entry × PQueue} (h : q.deq o = .ok r) :
    q.handles.Perm (r.1.handle :: r.2.handles) := (PQueue.deq_perm h).map Entry.handle

theorem PQueue.handles_length (q : PQueue) : q.handles.length = q.heap.length := List.length_map _

/-- Step 2 of R456 enqueues the handles of the leaves. -/
theorem seedQueue_handles {o : HeapOrder} {syms : List HSym} {i : Nat} {q q' : PQueue}
    (h : seedQueue o syms i q = .ok q') (hi : i + syms.length ≤ 2 ^ 32) :
    q'.handles.Perm (q.handles ++ List.range' i syms.length) := by
  induction syms generalizing i q with
  | nil =>
    obtain rfl := Except.ok.inj h
    simp
  | cons y t ih =>
    simp only [seedQueue] at h
    split at h
    · simp at h
    · rename_i q1 h1
      rw [List.length_cons] at hi
      exact (ih h (by omega)).trans (((PQueue.enq_handles h1 (by omega)).append_right _).trans List.perm_middle.symm)

theorem childHandles_append_internal (ns : List Node) (wt : Word) (l r : Nat) :
    childHandles (ns ++ [.internal wt l r]) = childHandles ns ++ [l, r] := by
  simp [childHandles]

theorem childHandles_leaves (syms : List HSym) : childHandles (leaves syms) = [] := by
  simp [childHandles, leaves, List.flatMap_map]

theorem mem_childHandles {ns : List Node} {x : Nat} (h : x ∈ childHandles ns) :
    ∃ (i : Nat) (wt : Word) (l r : Nat), ns[i]? = some (Node.internal wt l r) ∧ (x = l ∨ x = r) := by
  obtain ⟨n, hn, hx⟩ := List.mem_flatMap.1 h
  obtain ⟨i, hi⟩ := List.mem_iff_getElem?.1 hn
  cases n with
  | leaf wt y => simp at hx
  | internal wt l r => exact ⟨i, wt, l, r, hi, by simpa using hx⟩

/-- The arena while HBUILD runs: the leaves, then internal nodes after their children; every node but the `roots` is the
child of exactly one node. -/
structure Forest (syms : List HSym) (ns : List Node) (roots : List Nat) : Prop where
  leaves : ns.take syms.length = leaves syms
  count : ns.length + roots.length = 2 * syms.length
  below : ∀ (i : Nat) (wt : Word) (l r : Nat), ns[i]? = some (Node.internal wt l r) → l < i ∧ r < i
  inner : ∀ i : Nat, syms.length ≤ i → i < ns.length →
    ∃ (wt : Word) (l r : Nat), ns[i]? = some (Node.internal wt l r)
  handles : (childHandles ns ++ roots).Perm (List.range ns.length)

theorem Forest.init (syms : List HSym) : Forest syms (Machine.leaves syms) (List.range syms.length) where
  leaves := List.take_of_length_le (leaves_length syms).le
  count := by rw [leaves_length, List.length_range]; omega
  below i wt l r h := by
    obtain ⟨y, -, hy⟩ := Option.map_eq_some_iff.1 (List.getElem?_map .. ▸ h)
    simp at hy
  inner i h1 h2 := by rw [leaves_length] at h2; omega
  handles := by rw [childHandles_leaves, leaves_length]; exact .refl _

section
variable {syms : List HSym} {ns : List Node} {roots : List Nat}

theorem Forest.perm {roots' : List Nat} (h : Forest syms ns roots) (hp : roots.Perm roots') :
    Forest syms ns roots' :=
  { h with
    count := hp.length_eq ▸ h.count
    handles := (hp.append_left _).symm.trans h.handles }

theorem Forest.root_lt (h : Forest syms ns roots) {x : Nat} (hx : x ∈ roots) : x < ns.length :=
  List.mem_range.1 (h.handles.subset (List.mem_append_right _ hx))

theorem Forest.length_le (h : Forest syms ns roots) : syms.length ≤ ns.length := by
  have := congrArg List.length h.leaves
  rw [List.length_take, leaves_length] at this
  omega

/-- A round of step 3 joins two roots under a new one. -/
theorem Forest.join {l r : Nat} (h : Forest syms ns (l :: r :: roots)) (wt : Word) :
    Forest syms (ns ++ [.internal wt l r]) (ns.length :: roots) where
  leaves := (List.take_append_of_le_length h.length_le).trans h.leaves
  count := by
    have := h.count
    simp only [List.length_append, List.length_cons, List.length_nil] at this ⊢
    omega
  below i wt' l' r' hi := by
    rcases lt_trichotomy i ns.length with hlt | rfl | hgt
    · exact h.below i wt' l' r' (List.getElem?_append_left hlt ▸ hi)
    · rw [List.getElem?_concat_length, Option.some.injEq, Node.internal.injEq] at hi
      obtain ⟨-, rfl, rfl⟩ := hi
      exact ⟨h.root_lt (by simp), h.root_lt (by simp)⟩
    · rw [List.getElem?_eq_none (by simp; omega)] at hi
      simp at hi
  inner i h1 h2 := by
    rcases Nat.lt_or_ge i ns.length with hlt | hge
    · rw [List.getElem?_append_left hlt]
      exact h.inner i h1 hlt
    · obtain rfl : i = ns.length := by simp at h2; omega
      exact ⟨wt, l, r, List.getElem?_concat_length⟩
  handles := by
    rw [childHandles_append_internal, List.length_append, List.length_singleton, List.range_succ]
    have hold : (ns.length :: (childHandles ns ++ [l, r] ++ roots)).Perm (ns.length :: List.range ns.length) := by
      rw [List.append_assoc]
      exact h.handles.cons _
    exact List.perm_middle.trans (hold.trans (List.perm_append_singleton ..).symm)

/-- With one root left the forest is the complete tree of R455. -/
theorem Forest.arenaOk {root : Nat} (h : Forest syms ns [root]) : ArenaOk syms ns root := by
  have hcount : ns.length + 1 = 2 * syms.length := h.count
  have hroot : root + 1 = ns.length := by
    have hlast : ns.length - 1 ∈ childHandles ns ++ [root] :=
      h.handles.symm.subset (List.mem_range.2 (by omega))
    rcases List.mem_append.1 hlast with hc | hc
    · obtain ⟨i, wt, l, r, hi, hx⟩ := mem_childHandles hc
      have := h.below i wt l r hi
      have := (List.getElem?_eq_some_iff.1 hi).1
      omega
    · have := List.mem_singleton.1 hc
      omega
  refine ⟨by omega, hcount, hroot, h.leaves, h.below, h.inner, ?_⟩
  have := h.handles
  rwa [← hroot, List.range_succ, List.perm_append_right_iff] at this

end

/-- One round of step 3: two roots leave the queue, and their new parent enters it. -/
theorem mergeOnce_forest {o : HeapOrder} {q : PQueue} {syms : List HSym} {ns : List Node} {p : PQueue × List Node}
    (h : mergeOnce o q ns = .ok p) (hf : Forest syms ns q.handles) (hd : syms.length ≤ Config.nsymMax) :
    Forest syms p.2 p.1.handles ∧ p.1.heap.length + 1 = q.heap.length := by
  obtain ⟨x, hx, h⟩ := bind_eq_ok h
  obtain ⟨y, hy, h⟩ := bind_eq_ok h
  obtain ⟨q', hq', h⟩ := bind_eq_ok h
  obtain rfl := Except.ok.inj h
  have hlt : ns.length < 2 ^ 32 := by
    have := hf.count
    simp only [Config.nsymMax] at hd
    omega
  have hroots : q.handles.Perm (x.1.handle :: y.1.handle :: y.2.handles) :=
    (PQueue.deq_handles hx).trans ((PQueue.deq_handles hy).cons _)
  have hnew : q'.handles.Perm (ns.length :: y.2.handles) := PQueue.enq_handles hq' hlt
  refine ⟨((hf.perm hroots).join _).perm hnew.symm, ?_⟩
  have h1 := hnew.length_eq
  have h2 := hroots.length_eq
  simp only [List.length_cons, PQueue.handles_length] at h1 h2
  dsimp only
  omega

theorem mergeLoop_forest {o : HeapOrder} {fuel : Nat} {q : PQueue} {syms : List HSym} {ns : List Node}
    {p : PQueue × List Node} (h : mergeLoop o fuel q ns = .ok p) (hf : Forest syms ns q.handles)
    (hd : syms.length ≤ Config.nsymMax) (hfuel : q.heap.length ≤ fuel + 1) :
    Forest syms p.2 p.1.handles ∧ p.1.heap.length ≤ 1 := by
  induction fuel generalizing q ns with
  | zero =>
    obtain rfl := Except.ok.inj h
    exact ⟨hf, hfuel⟩
  | succ n ih =>
    simp only [mergeLoop] at h
    split at h
    · rename_i hone
      obtain rfl := Except.ok.inj h
      exact ⟨hf, hone⟩
    · split at h
      · simp at h
      · rename_i p1 h1
        obtain ⟨hf1, hlen⟩ := mergeOnce_forest h1 hf hd
        exact ih h hf1 (by omega)

/-- HBUILD's tree is complete (R455), whatever the weights and the order. -/
theorem buildTree_arenaOk {o : HeapOrder} {syms : List HSym} {t : List Node × Nat} (h : buildTree o syms = .ok t)
    (hd : syms.length ≤ Config.nsymMax) : ArenaOk syms t.1 t.2 := by
  obtain ⟨q, hq, h⟩ := bind_eq_ok h
  obtain ⟨p, hp, h⟩ := bind_eq_ok h
  obtain ⟨r, hr, h⟩ := bind_eq_ok h
  obtain rfl := Except.ok.inj h
  have hseed : q.handles.Perm (List.range syms.length) := by
    rw [List.range_eq_range']
    exact seedQueue_handles hq (by simp only [Config.nsymMax] at hd; omega)
  have hlen : q.heap.length = syms.length := by
    simpa [PQueue.handles_length] using hseed.length_eq
  obtain ⟨hf, hone⟩ := mergeLoop_forest hp ((Forest.init syms).perm hseed.symm) hd (by omega)
  have hroot := PQueue.deq_handles hr
  have hempty : r.2.handles = [] := by
    have := PQueue.deq_length hr
    rw [List.eq_nil_iff_length_eq_zero, PQueue.handles_length]
    omega
  rw [hempty] at hroot
  exact (hf.perm hroot).arenaOk

/-! ## The paths (R460) -/

/-- The bits of a path, first bit most significant. -/
def pathBits (p : Nat × Nat) : List Bool := (List.range p.1).map fun t => p.2.testBit (p.1 - 1 - t)

@[simp] theorem pathBits_zero (v : Nat) : pathBits (0, v) = [] := rfl

/-- One step further down the tree adds the lowest bit. -/
theorem pathBits_succ (len v : Nat) (b : Bool) : pathBits (len + 1, 2 * v + b.toNat) = pathBits (len, v) ++ [b] := by
  have hdiv : (2 * v + b.toNat) / 2 = v := by cases b <;> simp; omega
  unfold pathBits
  rw [List.range_succ, List.map_append]
  congr 1
  · refine List.map_congr_left fun t ht => ?_
    have ht : t < len := List.mem_range.1 ht
    have : len + 1 - 1 - t = (len - 1 - t) + 1 := by omega
    simp only [this, Nat.testBit_succ, hdiv]
  · cases b <;> simp [Nat.testBit_zero]

/-- A path of at most 64 bits is the codeword's bits. -/
theorem codeBits_of_path {p : Nat × Nat} (h : p.1 ≤ Config.maxCl) :
    codeBits ⟨p.1, BitVec.ofNat 64 p.2⟩ = pathBits p := by
  refine List.map_congr_left fun t ht => ?_
  have ht : t < p.1 := List.mem_range.1 ht
  have hlt : p.1 - 1 - t < 64 := by simp only [Config.maxCl] at h; omega
  show (BitVec.ofNat 64 p.2).getLsbD _ = _
  simp only [BitVec.getLsbD_ofNat, hlt, decide_true, Bool.true_and]

/-- The node reached, one bit further. -/
theorem walk_append_singleton {ns : List Node} {h m wt l r} {bits : List Bool} (b : Bool)
    (hw : walk ns h bits = some m) (hm : ns[m]? = some (Node.internal wt l r)) (hc : (if b then r else l) < ns.length) :
    walk ns h (bits ++ [b]) = some (if b then r else l) := by
  induction bits generalizing h with
  | nil =>
    simp only [walk] at hw
    split at hw
    · obtain rfl := Option.some.inj hw
      simp [walk, hm, hc]
    · simp at hw
  | cons a t ih =>
    simp only [walk, List.cons_append] at hw ⊢
    split at hw
    · exact ih hw
    · simp at hw
    · simp at hw

/-- `c` is a child of node `h`. -/
def IsChild (ns : List Node) (h c : Nat) : Prop :=
  ∃ (wt : Word) (l r : Nat), ns[h]? = some (Node.internal wt l r) ∧ (c = l ∨ c = r)

/-- Every node of the tree lies under the root. -/
theorem ArenaOk.under_root {syms : List HSym} {ns : List Node} {root j : Nat} (h : ArenaOk syms ns root)
    (hj : j ≤ root) : Relation.ReflTransGen (IsChild ns) root j := by
  obtain ⟨-, -, hroot, -, hbelow, -, hperm⟩ := h
  induction hn : root - j using Nat.strong_induction_on generalizing j with
  | _ n ih =>
    rcases Nat.eq_or_lt_of_le hj with rfl | hlt
    · exact .refl
    · obtain ⟨k, wt, l, r, hk, hx⟩ := mem_childHandles (hperm.symm.subset (List.mem_range.2 hlt))
      have := hbelow k wt l r hk
      have := (List.getElem?_eq_some_iff.1 hk).1
      exact (ih (root - k) (by omega) (by omega) rfl).tail ⟨wt, l, r, hk, hx⟩

section
variable {ns : List Node} {root : Nat}

/-- The path to a child is one bit longer. -/
theorem walk_child {h l r len v : Nat} {wt : Word} (hw : walk ns root (pathBits (len, v)) = some h)
    (hn : ns[h]? = some (Node.internal wt l r)) (hl : l < h) (hr : r < h) :
    walk ns root (pathBits (len + 1, 2 * v)) = some l ∧ walk ns root (pathBits (len + 1, 2 * v + 1)) = some r := by
  have hlen := (List.getElem?_eq_some_iff.1 hn).1
  have hleft : pathBits (len + 1, 2 * v) = pathBits (len, v) ++ [false] := pathBits_succ len v false
  have hright : pathBits (len + 1, 2 * v + 1) = pathBits (len, v) ++ [true] := pathBits_succ len v true
  rw [hleft, hright]
  exact ⟨walk_append_singleton false hw hn (hl.trans hlen), walk_append_singleton true hw hn (hr.trans hlen)⟩

/-- Entry `j` of the table is a path from the root to node `j`. -/
def HasPath (ns : List Node) (root : Nat) (t : List (Nat × Nat)) (j : Nat) : Prop :=
  ∃ p, t[j]? = some p ∧ walk ns root (pathBits p) = some j

variable (hbelow : ∀ (i : Nat) (wt : Word) (l r : Nat), ns[i]? = some (Node.internal wt l r) → l < i ∧ r < i)
include hbelow

/-- The traversal keeps what it has found. -/
theorem assignFrom_keeps_path {fuel h len v j : Nat} {t : List (Nat × Nat)}
    (hw : walk ns root (pathBits (len, v)) = some h) (hj : HasPath ns root t j) :
    HasPath ns root (assignFrom ns fuel h len v t) j := by
  induction fuel generalizing h len v t with
  | zero => exact hj
  | succ n ih =>
    simp only [assignFrom]
    split
    · exact hj
    · obtain ⟨p, hp, hwalk⟩ := hj
      have hlt := (List.getElem?_eq_some_iff.1 hp).1
      by_cases hjh : h = j
      · subst hjh
        exact ⟨(len, v), List.getElem?_set_self hlt, hw⟩
      · exact ⟨p, (List.getElem?_set_ne hjh).trans hp, hwalk⟩
    · rename_i wt l r hn
      obtain ⟨hl, hr⟩ := hbelow h wt l r hn
      obtain ⟨wl, wr⟩ := walk_child hw hn hl hr
      exact ih wr (ih wl hj)

/-- The traversal finds every leaf under the node it starts from. -/
theorem assignFrom_finds_path {fuel h len v j : Nat} {t : List (Nat × Nat)} {wt : Word} {x : Half}
    (hw : walk ns root (pathBits (len, v)) = some h) (hu : Relation.ReflTransGen (IsChild ns) h j)
    (hleaf : ns[j]? = some (Node.leaf wt x)) (hj : j < t.length) (hfuel : h < fuel) :
    HasPath ns root (assignFrom ns fuel h len v t) j := by
  induction fuel generalizing h len v t with
  | zero => omega
  | succ n ih =>
    simp only [assignFrom]
    rcases hu.cases_head with rfl | ⟨c, ⟨wt', l, r, hn, hc⟩, hu⟩
    · simp only [hleaf]
      exact ⟨(len, v), List.getElem?_set_self hj, hw⟩
    · obtain ⟨hl, hr⟩ := hbelow h wt' l r hn
      obtain ⟨wl, wr⟩ := walk_child hw hn hl hr
      simp only [hn]
      rcases hc with rfl | rfl
      · exact assignFrom_keeps_path hbelow wr (ih wl hu hj (by omega))
      · exact ih wr hu (by rwa [assignFrom_length]) (by omega)

end

/-- HASSIGN finds the path of every leaf (R460). -/
theorem leafPaths_hasPath {syms : List HSym} {ns : List Node} {root j : Nat} (h : ArenaOk syms ns root)
    (hj : j < syms.length) : HasPath ns root (leafPaths ns root syms.length) j := by
  have hunder : Relation.ReflTransGen (IsChild ns) root j := h.under_root (by obtain ⟨-, hl, hr, -⟩ := h; omega)
  obtain ⟨-, -, hroot, htake, hbelow, -, -⟩ := h
  have hleaf : ns[j]? = some (Node.leaf syms[j].freq syms[j].sym) := by
    rw [← List.getElem?_take_of_lt hj, htake]
    simp [leaves, hj]
  have hstart : walk ns root (pathBits (0, 0)) = some root := by
    rw [pathBits_zero, walk, if_pos (by omega)]
  exact assignFrom_finds_path hbelow hstart hunder hleaf (by simpa using hj) (by omega)

/-- The codewords of a complete tree lead to their leaves (R460). -/
theorem assignCodes_codesOk {syms : List HSym} {ns : List Node} {root : Nat} {codes : List Code}
    (ha : ArenaOk syms ns root) (h : assignCodes ns root syms.length = .ok codes) :
    CodesOk ns root syms.length codes := by
  obtain ⟨hlen, hmax⟩ := assignCodes_spec h
  have hbits := codesOf_bits h (leafPaths_bits ns root syms.length)
  refine ⟨hlen, fun i c hc => ?_⟩
  have hmem := List.mem_of_getElem? hc
  refine ⟨hmax c hmem, hbits c hmem, ?_⟩
  obtain ⟨p, hp, hwalk⟩ := leafPaths_hasPath ha (hlen ▸ (List.getElem?_eq_some_iff.1 hc).1)
  have hcode : c = ⟨p.1, BitVec.ofNat 64 p.2⟩ := by
    simp only [assignCodes, codesOf] at h
    split at h
    · simp at h
    · rw [← Except.ok.inj h, List.getElem?_map, hp] at hc
      exact (Option.some.inj hc).symm
  rw [hcode, codeBits_of_path (by simpa [hcode] using hmax c hmem)]
  exact hwalk

/-! ## What the commands write to the tables -/

/-- The tables with which command `i` of the Huffman unit completes from `s`: what its body computes, or, with the input
on a device, free values (log 20). -/
inductive NewTables (s : State) : Instr → Huffman → Prop
  | counted {m : Memory} {syms : List HSym} (hc : countSyms s.holes m s.cfg = .ok syms) :
    NewTables s .hcount (Huffman.afterCount syms)
  | built {t : List Node × Nat} (hb : buildTree s.cfg.huffOrder s.huff.syms = .ok t) :
    NewTables s .hbuild (Huffman.afterBuild s.huff.syms t.1 t.2)
  | assigned {codes : List Code} (hs : s.huff.stage = .built ∨ s.huff.stage = .assigned)
    (hc : codesOf (if !isTree s.huff.nodes s.huff.root s.huff.syms.length then freePaths s.freeIdx s.huff.syms.length
      else leafPaths s.huff.nodes s.huff.root s.huff.syms.length) = .ok codes) :
    NewTables s .hassign (Huffman.afterAssign s.huff.syms s.huff.nodes s.huff.root codes)
  | encoded {m : Memory} {syms : List HSym} {t : List Node × Nat} {codes : List Code}
    (hc : countSyms s.holes m s.cfg = .ok syms) (hb : buildTree s.cfg.huffOrder syms = .ok t)
    (ha : assignCodes t.1 t.2 syms.length = .ok codes) : NewTables s .huff (Huffman.afterAssign syms t.1 t.2 codes)
  | deviceCounted (hd : s.onDevice [hinRegion s.cfg] = true) : NewTables s .hcount (Huffman.freeCounted s.freeIdx)
  | deviceEncoded (hd : s.onDevice [hinRegion s.cfg] = true) : NewTables s .huff (Huffman.freeAssigned s.freeIdx)

@[simp] theorem State.resultsOf_huff (s : State) (device : Bool) (n : Nat) (ks : List (Fin 4)) :
    (s.resultsOf device n ks).huff = s.huff := by
  obtain ⟨⟨r, i, e⟩, -⟩ := s.resultsOf_spec device n ks
  rw [e]

@[simp] theorem State.bitsOf_huff (s : State) (device : Bool) : (s.bitsOf device).huff = s.huff := by
  cases device <;> rfl

theorem Written.settle_huff (w : Written) : w.settle.huff = w.state.huff := by
  obtain ⟨⟨m, i, e⟩, -⟩ := w.settle_spec
  rw [e]

section
variable (s : State)

theorem bodyHcount_tables : EndsWith (fun u => NewTables s .hcount u.huff) (bodyHcount s) := by
  refine .bind fun syms hc => .ok ?_
  rw [State.resultsOf_huff]
  show NewTables s .hcount (if _ then _ else _)
  split
  · rename_i hd
    exact .deviceCounted hd
  · exact .counted (mapError_eq_ok hc)

theorem bodyHbuild_tables : EndsWith (fun u => NewTables s .hbuild u.huff) (bodyHbuild s) :=
  .bind fun _ _ => .bind fun _ hb => .ok (.built hb)

theorem bodyHassign_tables : EndsWith (fun w => NewTables s .hassign w.state.huff) (bodyHassign s) := by
  refine .bind fun _ hs => .bind fun codes hc => .bind fun _ _ => .ok ?_
  have hstage := need_ok_iff.1 (mapError_eq_ok hs)
  simp only [Bool.or_eq_true, beq_iff_eq] at hstage
  exact .assigned hstage (mapError_eq_ok hc)

theorem bodyHemit_huff : EndsWith (fun w => w.state.huff = s.huff) (bodyHemit s) :=
  .bind fun _ _ => .bind fun _ _ => .bind fun _ _ => .bind fun _ _ => .ok (by simp)

theorem bodyHuff_tables : EndsWith (fun w => NewTables s .huff w.state.huff) (bodyHuff s) := by
  refine .bind fun _ hc => .bind fun _ hb => .bind fun _ ha => .bind fun _ _ => .bind fun _ _ => .bind fun _ _ =>
    .bind fun _ _ => .ok ?_
  rw [State.bitsOf_huff, State.resultsOf_huff]
  show NewTables s .huff (if _ then _ else _)
  split
  · rename_i hd
    exact .deviceEncoded hd
  · exact .encoded (mapError_eq_ok hc) (mapError_eq_ok hb) (mapError_eq_ok ha)

/-- A command leaves the tables, clears them on an error (R470), or completes with new ones. -/
theorem exec_tables {i : Instr} {s t : State} (h : exec i s = .next t) :
    t.huff = s.huff ∨ t.huff = Huffman.empty ∨ NewTables s i t.huff := by
  have finish : ∀ e, EndsWith (fun u => u.huff = s.huff ∨ NewTables s i u.huff) e → s.finish e = .next t →
      t.huff = s.huff ∨ t.huff = Huffman.empty ∨ NewTables s i t.huff := fun e he hf => by
    rcases State.finish_eq_next hf with ⟨u, hu, rfl⟩ | ⟨r, -, rfl⟩
    · exact (he u hu).imp_right .inr
    · rw [State.errorEntry_eq]
      dsimp only
      split
      · exact .inr (.inl rfl)
      · exact .inl rfl
  by_cases hi : isHuffman i = true
  · simp only [isHuffman, List.mem_cons, List.not_mem_nil, or_false, decide_eq_true_eq] at hi
    rcases hi with rfl | rfl | rfl | rfl | rfl
    · exact finish _ (fun u hu => .inr (bodyHcount_tables s u hu)) h
    · exact finish _ (.mapError _ fun u hu => .inr (bodyHbuild_tables s u hu)) h
    · exact finish _ (.map (fun w hw => .inr (w.settle_huff ▸ hw)) (bodyHassign_tables s)) h
    · exact finish _ (.map (fun w hw => .inl (w.settle_huff.trans hw)) (bodyHemit_huff s)) h
    · exact finish _ (.map (fun w hw => .inr (w.settle_huff ▸ hw)) (bodyHuff_tables s)) h
  · obtain ⟨e, he, hok, -⟩ := exec_framed s i
    exact finish e (fun u hu => .inl ((hok u hu).huff (by simpa using hi))) (he ▸ h)

end

/-! ## The sizes of the tables (10_state.md R91) -/

theorem Huffman.empty_fits : Huffman.empty.Fits :=
  ⟨by decide, .nil, by decide, by decide, by simp [Huffman.empty], by simp [Huffman.empty]⟩

theorem afterCount_fits {syms : List HSym} (hl : syms.length ≤ Config.nsymMax) (hn : (syms.map HSym.sym).Nodup) :
    (Huffman.afterCount syms).Fits :=
  ⟨hl, hn, Nat.zero_le _, Nat.succ_pos _, by simp [Huffman.afterCount], by simp [Huffman.afterCount]⟩

/-- A complete tree over symbols within the capacity fits the arena. -/
theorem ArenaOk.sizes {syms : List HSym} {ns : List Node} {root : Nat} (h : ArenaOk syms ns root)
    (hl : syms.length ≤ Config.nsymMax) : ns.length ≤ Config.nodeMax ∧ root < Config.nodeMax := by
  obtain ⟨-, hlen, hroot, -⟩ := h
  simp only [Config.nsymMax, Config.nodeMax] at *
  omega

theorem afterAssign_fits {syms : List HSym} {ns : List Node} {root : Nat} {paths : List (Nat × Nat)}
    {codes : List Code} (hl : syms.length ≤ Config.nsymMax) (hn : (syms.map HSym.sym).Nodup)
    (hs : ns.length ≤ Config.nodeMax ∧ root < Config.nodeMax) (hp : paths.length = syms.length)
    (hbits : ∀ p ∈ paths, p.2 < 2 ^ p.1) (hc : codesOf paths = .ok codes) :
    (Huffman.afterAssign syms ns root codes).Fits := by
  obtain ⟨hlen, hmax⟩ := codesOf_spec hc
  obtain ⟨hnodes, hroot⟩ := hs
  exact ⟨hl, hn, hnodes, hroot, fun c hm => ⟨hmax c hm, codesOf_bits hc hbits c hm⟩, fun _ => hlen.trans hp⟩

theorem NewTables.fits {s : State} {i : Instr} {u : Huffman} (h : NewTables s i u) (hs : s.huff.Fits) : u.Fits := by
  obtain ⟨hl, hn, hnodes, hroot, -, -⟩ := hs
  cases h with
  | counted hc =>
    obtain ⟨hl', hn'⟩ := countSyms_keeps hc
    exact afterCount_fits hl' hn'
  | built hb =>
    obtain ⟨h1, h2⟩ := (buildTree_arenaOk hb hl).sizes hl
    exact ⟨hl, hn, h1, h2, by simp [Huffman.afterBuild], by simp [Huffman.afterBuild]⟩
  | assigned _ hc =>
    split at hc
    · exact afterAssign_fits hl hn ⟨hnodes, hroot⟩ (by simp [freePaths]) (freePaths_bits _ _) hc
    · exact afterAssign_fits hl hn ⟨hnodes, hroot⟩ (leafPaths_length ..) (leafPaths_bits _ _ _) hc
  | encoded hc hb ha =>
    obtain ⟨hl', hn'⟩ := countSyms_keeps hc
    have hsizes := (buildTree_arenaOk hb hl').sizes hl'
    exact afterAssign_fits hl' hn' hsizes (leafPaths_length ..) (leafPaths_bits _ _ _) ha
  | deviceCounted =>
    obtain ⟨hl', hn'⟩ := freeSyms_keeps s.freeIdx
    exact afterCount_fits hl' hn'
  | deviceEncoded => exact freeAssigned_fits s.freeIdx

/-! ## What the stage says (R451) -/

theorem Huffman.empty_consistent : Huffman.empty.Consistent := ⟨by decide, .nil, rfl⟩

/-- From stage 2 on the tables hold a complete tree. -/
theorem Huffman.Consistent.arenaOk {u : Huffman} (h : u.Consistent) (hs : u.stage = .built ∨ u.stage = .assigned) :
    ArenaOk u.syms u.nodes u.root := by
  obtain ⟨-, -, hstage⟩ := h
  rcases hs with hs | hs <;> rw [hs] at hstage <;> exact hstage.1

/-- A command that reads no device completes with consistent tables. -/
theorem NewTables.consistent {s : State} {i : Instr} {u : Huffman} (h : NewTables s i u) (hs : s.huff.Consistent)
    (hoff : s.OffDevices (inRegions i s)) : u.Consistent := by
  have off : s.OffDevices [hinRegion s.cfg] → s.onDevice [hinRegion s.cfg] = true → u.Consistent := fun h1 h2 =>
    absurd (State.onDevice_eq_false_iff.2 h1) (by simp [h2])
  have ⟨hl, hn, _⟩ := hs
  cases h with
  | counted hc =>
    obtain ⟨hl', hn'⟩ := countSyms_keeps hc
    exact ⟨hl', hn', rfl⟩
  | built hb => exact ⟨hl, hn, buildTree_arenaOk hb hl, rfl⟩
  | assigned hstage hc =>
    have ha := hs.arenaOk hstage
    rw [isTree_of_arenaOk ha] at hc
    exact ⟨hl, hn, ha, assignCodes_codesOk ha hc, rfl⟩
  | encoded hc hb hcodes =>
    obtain ⟨hl', hn'⟩ := countSyms_keeps hc
    have ha := buildTree_arenaOk hb hl'
    exact ⟨hl', hn', ha, assignCodes_codesOk ha hcodes, rfl⟩
  | deviceCounted hd => exact off hoff hd
  | deviceEncoded hd => exact off hoff hd

/-! ## The step -/

/-- The engine's turn leaves the tables, clears them, or completes the running command with new ones. -/
theorem engineStep_tables {s t : State} (h : engineStep s = .next t) :
    t.huff = s.huff ∨ t.huff = Huffman.empty ∨ ∃ i, s.runningIns = inRegions i s ∧ NewTables s i t.huff := by
  rcases engineStep_cases h with ⟨i, hb, hd, hx⟩ | rfl | rfl
  · have hrun : s.runningIns = inRegions i s := by simp [State.runningIns, State.runningRegions, hb, hd]
    exact (exec_tables hx).imp_right (·.imp_right fun hnew => ⟨i, hrun, hnew⟩)
  · rw [State.errorEntry_eq]
    exact .inl rfl
  · exact .inl rfl

/-- Taking an input changes nothing of the running command. -/
theorem State.runningIns_inbox (s : State) (rest : List Input) :
    ({ s with inbox := rest } : State).runningIns = s.runningIns := rfl

/-- Settles O20: HBUILD's queue holds the roots of a forest until one complete tree is left, HASSIGN's traversal finds
every leaf's path in it, and errors and resets leave the empty tables. -/
theorem stepKeepsHuffmanConsistent : Obligations.StepKeepsHuffmanConsistent := by
  intro s t h
  unfold State.HuffmanFits State.HuffmanConsistent
  obtain ⟨rest, h | ⟨act, h⟩⟩ := step_cases h
  · rcases engineStep_tables h with e | e | ⟨i, hrun, hnew⟩
    · rw [e]
      exact ⟨id, fun hc _ => hc⟩
    · rw [e]
      exact ⟨fun _ => Huffman.empty_fits, fun _ _ => Huffman.empty_consistent⟩
    · exact ⟨hnew.fits, fun hc hoff => hnew.consistent hc (hrun ▸ s.runningIns_inbox rest ▸ hoff)⟩
  · rcases hostStep_keeps h with hk | hk <;> rw [hk.huff]
    · exact ⟨id, fun hc _ => hc⟩
    · exact ⟨fun _ => Huffman.empty_fits, fun _ _ => Huffman.empty_consistent⟩

end Sys2Proof.Machine

/-! PROOFS. The register port (10_state.md R60 to R82) and reset (70_reset_and_hazards.md R700, R702): the offset of
each register, the word an offset reads, the writes, then what reset leaves. -/

namespace Sys2Proof.Machine

/-! ## The map and its offsets (R60) -/

/-- The byte offset of a register. -/
def PortReg.offset : PortReg → Nat
  | .id => 0x000
  | .ctrl => 0x004
  | .status => 0x008
  | .ie => 0x00C
  | .cmd => 0x010
  | .cmdcnt => 0x014
  | .errcode => 0x018
  | .erraddr => 0x01C
  | .errinfo => 0x020
  | .arg0 => 0x030
  | .arg1 => 0x034
  | .res k => 0x040 + 4 * k.val
  | .sLo k => 0x050 + 8 * k.val
  | .sHi k => 0x054 + 8 * k.val
  | .imgDim => 0x080
  | .imgSrc => 0x084
  | .zzDst => 0x088
  | .tqDst => 0x08C
  | .recDst => 0x090
  | .hinAddr => 0x0A0
  | .hinLen => 0x0A4
  | .htabDst => 0x0A8
  | .houtDst => 0x0AC
  | .houtCap => 0x0B0
  | .hnsym => 0x0B4
  | .hbitsLo => 0x0B8
  | .hbitsHi => 0x0BC
  | .pqCount => 0x0C0
  | .qtab i => 0x100 + 4 * i.val
  | .basisLo i => 0x200 + 8 * i.val
  | .basisHi i => 0x204 + 8 * i.val

/-- The registers in the order of the table of R60. -/
def portRegs : List PortReg :=
  [PortReg.id, PortReg.ctrl, PortReg.status, PortReg.ie, PortReg.cmd, PortReg.cmdcnt, PortReg.errcode,
    PortReg.erraddr, PortReg.errinfo, PortReg.arg0, PortReg.arg1] ++
  [PortReg.res 0, PortReg.res 1, PortReg.res 2, PortReg.res 3] ++
  (List.finRange 4).map PortReg.sLo ++ (List.finRange 4).map PortReg.sHi ++
  [PortReg.imgDim, PortReg.imgSrc, PortReg.zzDst, PortReg.tqDst, PortReg.recDst] ++
  [PortReg.hinAddr, PortReg.hinLen, PortReg.htabDst, PortReg.houtDst, PortReg.houtCap] ++
  [PortReg.hnsym, PortReg.hbitsLo, PortReg.hbitsHi, PortReg.pqCount] ++
  (List.finRange 64).map PortReg.qtab ++ (List.finRange 64).map PortReg.basisLo ++
  (List.finRange 64).map PortReg.basisHi

theorem mem_portRegs (r : PortReg) : r ∈ portRegs := by
  cases r with
  | res k => fin_cases k <;> simp [portRegs]
  | sLo k | sHi k => simp [portRegs]
  | qtab i | basisLo i | basisHi i => simp [portRegs]
  | _ => exact List.mem_of_elem_eq_true rfl

/-- The table of R60 lists every register at its offset with the word it reads. -/
theorem regTable_eq (s : State) : regTable s = portRegs.map fun r => (r.offset, s.regWord r) := by
  simp only [regTable, portRegs, List.map_append, List.map_map, List.map_cons, List.map_nil]
  rfl

/-- The banked offsets are not among the single ones. -/
theorem portReg_bank {off : Nat} (h : 0x050 ≤ off ∧ off < 0x070 ∨ 0x100 ≤ off) :
    portReg off = portBank off := by
  unfold portReg
  split
  case h_30 => rfl
  all_goals omega

theorem portBank_sLo (k : Fin 4) : portBank (0x050 + 8 * k.val) = some (.sLo k) := by
  have hk : Fin.ofNat 4 ((0x050 + 8 * k.val - 0x050) / 8) = k := Fin.ext (by simp only [Fin.val_ofNat]; omega)
  simp only [portBank]
  rw [if_pos (by omega), if_pos (by omega), hk]

theorem portBank_sHi (k : Fin 4) : portBank (0x054 + 8 * k.val) = some (.sHi k) := by
  have hk : Fin.ofNat 4 ((0x054 + 8 * k.val - 0x050) / 8) = k := Fin.ext (by simp only [Fin.val_ofNat]; omega)
  simp only [portBank]
  rw [if_pos (by omega), if_neg (by omega), hk]

theorem portBank_qtab (i : Fin 64) : portBank (0x100 + 4 * i.val) = some (.qtab i) := by
  have hi : Fin.ofNat 64 ((0x100 + 4 * i.val) / 4) = i := Fin.ext (by simp only [Fin.val_ofNat]; omega)
  simp only [portBank]
  rw [if_neg (by omega), if_pos (by omega), hi]

theorem portBank_basisLo (i : Fin 64) : portBank (0x200 + 8 * i.val) = some (.basisLo i) := by
  have hi : Fin.ofNat 64 ((0x200 + 8 * i.val) / 8) = i := Fin.ext (by simp only [Fin.val_ofNat]; omega)
  simp only [portBank]
  rw [if_neg (by omega), if_neg (by omega), if_pos (by omega), if_pos (by omega), hi]

theorem portBank_basisHi (i : Fin 64) : portBank (0x204 + 8 * i.val) = some (.basisHi i) := by
  have hi : Fin.ofNat 64 ((0x204 + 8 * i.val) / 8) = i := Fin.ext (by simp only [Fin.val_ofNat]; omega)
  simp only [portBank]
  rw [if_neg (by omega), if_neg (by omega), if_pos (by omega), if_neg (by omega), hi]

@[simp] theorem portReg_offset (r : PortReg) : portReg r.offset = some r := by
  cases r with
  | res k => fin_cases k <;> rfl
  | sLo k => exact (portReg_bank (by simp only [PortReg.offset]; omega)).trans (portBank_sLo k)
  | sHi k => exact (portReg_bank (by simp only [PortReg.offset]; omega)).trans (portBank_sHi k)
  | qtab i => exact (portReg_bank (by simp only [PortReg.offset]; omega)).trans (portBank_qtab i)
  | basisLo i => exact (portReg_bank (by simp only [PortReg.offset]; omega)).trans (portBank_basisLo i)
  | basisHi i => exact (portReg_bank (by simp only [PortReg.offset]; omega)).trans (portBank_basisHi i)
  | _ => rfl

theorem offset_of_portBank {off : Nat} {r : PortReg} (ha : off % 4 = 0) (h : portBank off = some r) :
    r.offset = off := by
  simp only [portBank] at h
  split at h
  · split at h <;> obtain rfl := Option.some.inj h <;> simp only [PortReg.offset, Fin.val_ofNat] <;> omega
  · split at h
    · obtain rfl := Option.some.inj h
      simp only [PortReg.offset, Fin.val_ofNat]
      omega
    · split at h
      · split at h <;> obtain rfl := Option.some.inj h <;> simp only [PortReg.offset, Fin.val_ofNat] <;> omega
      · simp at h

/-- The register found at an aligned offset has that offset. -/
theorem offset_of_portReg {off : Nat} {r : PortReg} (ha : off % 4 = 0) (h : portReg off = some r) : r.offset = off := by
  unfold portReg at h
  split at h
  case h_30 => exact offset_of_portBank ha h
  all_goals exact Option.some.inj h ▸ rfl

/-! ## Reads -/

/-- The word an offset reads while the engine is idle. -/
def State.portWord (s : State) (off : Nat) : Word :=
  match portReg off with
  | none => 0#32
  | some r => s.regWord r

theorem State.portWord_offset (s : State) (r : PortReg) : s.portWord r.offset = s.regWord r := by
  simp [State.portWord]

/-- A register that is not one of RES0 to RES3 reads its word, busy or not (R71). -/
theorem State.readReg_eq {s : State} {off : Nat}
    (h : s.status.busy = false ∨ ∀ k : Fin 4, portReg off ≠ some (.res k)) :
    s.readReg off = s.setReply (.data (s.portWord off)) := by
  unfold State.readReg State.portWord
  cases hr : portReg off with
  | none => rfl
  | some r =>
    cases r with
    | res k =>
      have hb : s.status.busy = false := h.resolve_right fun hk => hk k hr
      simp [hb]
    | _ => rfl

theorem mem_resOffsets_iff {off : Nat} : off ∈ resOffsets ↔ ∃ k : Fin 4, off = (PortReg.res k).offset := by
  simp [resOffsets, PortReg.offset, Fin.exists_fin_succ]

theorem ofNat_offset_toNat {off : Nat} (h : off < 4096) : (BitVec.ofNat 12 off).toNat = off :=
  Nat.mod_eq_of_lt h

/-- A 32-bit read of an aligned offset answers from the register there. -/
theorem step_portRead {s : State} {off : Nat} {rest : List Input} (hp : s.resetPin = false) (hlt : off < 4096)
    (ha : off % 4 = 0) (h : s.inbox = .host (.portRead (BitVec.ofNat 12 off) 4) :: rest) :
    step s = .next (({ s with inbox := rest } : State).readReg off) := by
  have hoff := ofNat_offset_toNat hlt
  rw [step_of_host h, hostStep, portRead_ok (s := { s with inbox := rest }) hp (by rw [hoff, ha]), hoff]

/-- So a write acts on the register there. -/
theorem step_portWrite {s : State} {off : Nat} {v : Word} {rest : List Input} (hp : s.resetPin = false)
    (hlt : off < 4096) (ha : off % 4 = 0) (h : s.inbox = .host (.portWrite (BitVec.ofNat 12 off) 4 v) :: rest) :
    step s = .next ((({ s with inbox := rest } : State).writeReg off v).setReply .written) := by
  have hoff := ofNat_offset_toNat hlt
  rw [step_of_host h, hostStep, portWrite_ok (s := { s with inbox := rest }) hp (by rw [hoff, ha]), hoff]

theorem step_portRead_word {s : State} {off : Nat} {rest : List Input} (hp : s.resetPin = false) (hlt : off < 4096)
    (ha : off % 4 = 0) (h : s.inbox = .host (.portRead (BitVec.ofNat 12 off) 4) :: rest)
    (hres : off ∈ resOffsets → s.status.busy = false) : step s = .next (s.took rest (.data (s.portWord off))) := by
  rw [step_portRead hp hlt ha h, State.readReg_eq]
  · rfl
  · by_cases hmem : off ∈ resOffsets
    · exact .inl (hres hmem)
    · exact .inr fun k hk => hmem (mem_resOffsets_iff.2 ⟨k, (offset_of_portReg ha hk).symm⟩)

/-! ## Writes -/

/-- The RW registers but CTRL and IE are those at `rwOffsets` (R60, R253). -/
theorem mem_rwOffsets_iff {off : Nat} :
    off ∈ rwOffsets ↔ ∃ r : PortReg, r.isConfig = true ∧ off = r.offset := by
  simp only [rwOffsets, List.mem_append, List.mem_map, List.mem_range, List.mem_cons, List.not_mem_nil, or_false]
  constructor
  · rintro (((((rfl | rfl) | ⟨k, hk, rfl⟩) | (rfl | rfl | rfl | rfl | rfl)) |
      (rfl | rfl | rfl | rfl | rfl)) | ⟨i, hi, rfl⟩)
    · exact ⟨.arg0, rfl, rfl⟩
    · exact ⟨.arg1, rfl, rfl⟩
    · rcases Nat.even_or_odd' k with ⟨j, rfl | rfl⟩
      · exact ⟨.sLo ⟨j, by omega⟩, rfl, by simp only [PortReg.offset]; omega⟩
      · exact ⟨.sHi ⟨j, by omega⟩, rfl, by simp only [PortReg.offset]; omega⟩
    · exact ⟨.imgDim, rfl, rfl⟩
    · exact ⟨.imgSrc, rfl, rfl⟩
    · exact ⟨.zzDst, rfl, rfl⟩
    · exact ⟨.tqDst, rfl, rfl⟩
    · exact ⟨.recDst, rfl, rfl⟩
    · exact ⟨.hinAddr, rfl, rfl⟩
    · exact ⟨.hinLen, rfl, rfl⟩
    · exact ⟨.htabDst, rfl, rfl⟩
    · exact ⟨.houtDst, rfl, rfl⟩
    · exact ⟨.houtCap, rfl, rfl⟩
    · exact ⟨.qtab ⟨i, hi⟩, rfl, rfl⟩
  · rintro ⟨r, hr, rfl⟩
    cases r with
    | sLo k => exact .inl (.inl (.inl (.inr ⟨2 * k.val, by omega, by simp only [PortReg.offset]; omega⟩)))
    | sHi k => exact .inl (.inl (.inl (.inr ⟨2 * k.val + 1, by omega, by simp only [PortReg.offset]; omega⟩)))
    | qtab i => exact .inr ⟨i.val, i.isLt, rfl⟩
    | _ => simp [PortReg.offset, PortReg.isConfig] at hr ⊢

/-- Outside the RW and W1C registers and CMD a write does nothing (R60). -/
theorem State.writeReg_ignored {s : State} {off : Nat} (ha : off % 4 = 0)
    (h : off ∉ [0x004, 0x008, 0x00C, 0x010]) (hrw : off ∉ rwOffsets) (v : Word) : s.writeReg off v = s := by
  unfold State.writeReg
  cases hr : portReg off with
  | none => rfl
  | some r =>
    have hoff := offset_of_portReg ha hr
    have hconf : r.isConfig = false := by
      by_contra hc
      exact hrw (mem_rwOffsets_iff.2 ⟨r, by simpa using hc, hoff.symm⟩)
    cases r with
    | ctrl | status | ie | cmd => exact absurd h (by rw [← hoff]; decide)
    | id | cmdcnt | errcode | erraddr | errinfo | res k | hnsym | hbitsLo | hbitsHi | pqCount | basisLo i | basisHi i =>
      simp [PortReg.isConfig, State.writeConfig]
    | _ => simp [PortReg.isConfig] at hconf

/-- Settles O9: the table of R60 is the map's registers at their offsets, and the decoder of offsets finds no other. -/
theorem registerMap : Obligations.RegisterMap := by
  intro s off rest hp hlt ha
  refine ⟨fun v hv hres hread => ?_, fun hres hb hread => ?_, fun hnone hread => ?_, fun v hw hrw hwrite => ?_⟩
  · rw [regTable_eq, List.mem_map] at hv
    obtain ⟨r, -, hr⟩ := hv
    obtain ⟨rfl, rfl⟩ := Prod.mk.inj hr
    rw [step_portRead_word hp hlt ha hread hres, State.portWord_offset]
  · obtain ⟨k, rfl⟩ := mem_resOffsets_iff.1 hres
    refine ⟨Config.freeWord s.freeIdx, s.freeIdx + 1, ?_⟩
    rw [step_portRead hp hlt ha hread]
    simp only [State.readReg, portReg_offset, hb, if_true]
    rfl
  · have hreg : portReg off = none := by
      by_contra hc
      obtain ⟨r, hr⟩ := Option.ne_none_iff_exists'.1 hc
      refine hnone ?_
      rw [regTable_eq, List.map_map]
      exact List.mem_map.2 ⟨r, mem_portRegs r, offset_of_portReg ha hr⟩
    have hres : off ∈ resOffsets → s.status.busy = false := fun hm => by
      obtain ⟨k, rfl⟩ := mem_resOffsets_iff.1 hm
      simp at hreg
    rw [step_portRead_word hp hlt ha hread hres, State.portWord, hreg]
  · rw [step_portWrite hp hlt ha hwrite, State.writeReg_ignored ha hw hrw]
    rfl

/-! ## What a write to an RW register leaves in the others -/

/-- What an RW register reads after `v` is written: the reserved bits of QTAB, CTRL and IE read 0 (R61, R63, R65,
R80). -/
def PortReg.readBack (v : Word) : PortReg → Word
  | .qtab _ => v &&& 0xFFFF#32
  | .ctrl => v &&& 0xE#32
  | .ie => v &&& 0x6#32
  | _ => v

/-- The CTRL bits a write without SRST sets. -/
def Csr.setCtrl (c : Csr) (v : Word) : Csr :=
  { c with rnd := v.getLsbD 1, pqmax := v.getLsbD 2, htie := v.getLsbD 3 }

theorem setWidth_low_half (v : Word) : (v.setWidth 16).setWidth 32 = v &&& 0xFFFF#32 := by
  ext i hi
  simp only [BitVec.getElem_setWidth, BitVec.getLsbD_setWidth, BitVec.getElem_and]
  interval_cases i <;> simp

theorem ctrlWord_setCtrl (c : Csr) (v : Word) : (c.setCtrl v).ctrlWord = v &&& 0xE#32 := by
  apply BitVec.eq_of_getLsbD_eq
  intro i hi
  simp only [Csr.ctrlWord, Csr.setCtrl, BitVec.getLsbD_append, BitVec.getLsbD_and]
  interval_cases i <;> simp

theorem ieWord_setIe (c : Csr) (v : Word) :
    ({ c with doneIe := v.getLsbD 1, errIe := v.getLsbD 2 } : Csr).ieWord = v &&& 0x6#32 := by
  apply BitVec.eq_of_getLsbD_eq
  intro i hi
  simp only [Csr.ieWord, BitVec.getLsbD_append, BitVec.getLsbD_and]
  interval_cases i <;> simp

theorem State.writeConfig_reads (s : State) {r : PortReg} (hr : r.isConfig = true) (v : Word) :
    (s.writeConfig r v).regWord r = r.readBack v := by
  cases r with
  | sLo k =>
    simp only [State.writeConfig, State.regWord, State.setS_get_self, PortReg.readBack]
    exact BitVec.extractLsb'_append_eq_right
  | sHi k =>
    simp only [State.writeConfig, State.regWord, State.setS_get_self, PortReg.readBack]
    exact BitVec.extractLsb'_append_eq_left
  | qtab i =>
    simp only [State.writeConfig, State.regWord, PortReg.readBack, ← setWidth_low_half]
    simp
  | id | ctrl | status | ie | cmd | cmdcnt | errcode | erraddr | errinfo | res k | hnsym | hbitsLo | hbitsHi | pqCount
  | basisLo i | basisHi i => simp [PortReg.isConfig] at hr
  | _ => rfl

/-- A write to a scalar register changes what its two halves read, and no other register (R53). -/
theorem State.scalarWrite_keeps (s : State) (k : SReg) (x : F64) {r : PortReg} (hlo : r ≠ .sLo k)
    (hhi : r ≠ .sHi k) :
    (s.setS k x).regWord r = s.regWord r := by
  cases r with
  | sLo j =>
    have hj : j ≠ k := fun h => hlo (h ▸ rfl)
    simp only [State.regWord, State.setS_get_ne s k x hj]
  | sHi j =>
    have hj : j ≠ k := fun h => hhi (h ▸ rfl)
    simp only [State.regWord, State.setS_get_ne s k x hj]
  | _ => rfl

theorem State.writeConfig_keeps_word (s : State) {r other : PortReg} (h : other ≠ r) (v : Word) :
    (s.writeConfig r v).regWord other = s.regWord other := by
  cases r with
  | sLo k =>
    by_cases hhi : other = .sHi k
    · rw [hhi]
      simp only [State.writeConfig, State.regWord, State.setS_get_self]
      exact BitVec.extractLsb'_append_eq_left
    · exact s.scalarWrite_keeps k _ h hhi
  | sHi k =>
    by_cases hlo : other = .sLo k
    · rw [hlo]
      simp only [State.writeConfig, State.regWord, State.setS_get_self]
      exact BitVec.extractLsb'_append_eq_right
    · exact s.scalarWrite_keeps k _ hlo h
  | qtab i =>
    cases other with
    | qtab j =>
      have hij : i.val ≠ j.val := fun e => h (by rw [Fin.ext e])
      have := Vector.getElem_set_ne (xs := s.cfg.qtab) (x := v.setWidth 16) i.isLt j.isLt hij
      exact congrArg (·.setWidth 32) this
    | _ => rfl
  | id | ctrl | status | ie | cmd | cmdcnt | errcode | erraddr | errinfo | res k | hnsym | hbitsLo | hbitsHi | pqCount
  | basisLo i | basisHi i => rfl
  | arg0 | arg1 | imgDim | imgSrc | zzDst | tqDst | recDst | hinAddr | hinLen | htabDst | houtDst | houtCap =>
    cases other <;>
      simp_all [State.writeConfig, State.regWord, State.statusWord, Csr.ctrlWord, Csr.ieWord]

/-- `u` is `s` after `v` was written to the RW register `r`: it reads back, and no other register changes. -/
structure ReadsBack (s u : State) (r : PortReg) (v : Word) : Prop where
  status : u.status = s.status
  resetPin : u.resetPin = s.resetPin
  inbox : u.inbox = s.inbox
  word : u.regWord r = r.readBack v
  other : ∀ q, q ≠ r → u.regWord q = s.regWord q

/-- The registers a host sets while the engine is idle: CTRL without SRST, IE, and those of `isConfig`. -/
def PortReg.isSetBy (v : Word) (r : PortReg) : Prop :=
  r.isConfig = true ∨ r = .ie ∨ r = .ctrl ∧ v.getLsbD 0 = false

theorem State.writeConfig_readsBack (s : State) {r : PortReg} (hr : r.isConfig = true) (v : Word) :
    ReadsBack s (s.writeConfig r v) r v where
  status := by cases r <;> rfl
  resetPin := by cases r <;> rfl
  inbox := by cases r <;> rfl
  word := s.writeConfig_reads hr v
  other _ hq := s.writeConfig_keeps_word hq v

theorem State.writeIe_readsBack (s : State) (v : Word) : ReadsBack s (s.writeIe v) .ie v where
  status := rfl
  resetPin := rfl
  inbox := rfl
  word := ieWord_setIe s.cfg v
  other q hq := by
    cases q with
    | ie => exact absurd rfl hq
    | _ => rfl

theorem State.writeCtrl_readsBack {s : State} (hb : s.status.busy = false) {v : Word} (hv : v.getLsbD 0 = false) :
    ReadsBack s (s.writeCtrl v) .ctrl v := by
  have hw : s.writeCtrl v = { s with cfg := s.cfg.setCtrl v } := by
    rw [State.writeCtrl, hv, hb]
    rfl
  rw [hw]
  refine ⟨rfl, rfl, rfl, ctrlWord_setCtrl s.cfg v, fun q hq => ?_⟩
  cases q with
  | ctrl => exact absurd rfl hq
  | _ => rfl

theorem State.writeReg_readsBack {s : State} (hb : s.status.busy = false) {r : PortReg} {v : Word}
    (hr : r.isSetBy v) : ReadsBack s (s.writeReg r.offset v) r v := by
  unfold State.writeReg
  rw [portReg_offset]
  rcases hr with hr | rfl | ⟨rfl, hv⟩
  · have hw := s.writeConfig_readsBack hr v
    cases r with
    | ctrl | status | ie | cmd => simp [PortReg.isConfig] at hr
    | _ => simpa [hb] using hw
  · exact s.writeIe_readsBack v
  · exact State.writeCtrl_readsBack hb hv

/-- The reserved bits by offset. -/
theorem PortReg.readBack_eq {r : PortReg} {v : Word} (hr : r.isSetBy v) : r.readBack v =
    if 0x100 ≤ r.offset then v &&& 0xFFFF#32 else if r.offset = 0x004 then v &&& 0xE#32
      else if r.offset = 0x00C then v &&& 0x6#32 else v := by
  rcases hr with hr | rfl | ⟨rfl, -⟩
  · cases r with
    | qtab i => simp [PortReg.readBack, PortReg.offset]
    | sLo k | sHi k => fin_cases k <;> rfl
    | id | ctrl | status | ie | cmd | cmdcnt | errcode | erraddr | errinfo | res k | hnsym | hbitsLo | hbitsHi
    | pqCount | basisLo i | basisHi i => simp [PortReg.isConfig] at hr
    | _ => rfl
  · rfl
  · rfl

theorem exists_isSetBy {off : Nat} {v : Word}
    (h : off ∈ rwOffsets ∨ off = 0x00C ∨ off = 0x004 ∧ v.getLsbD 0 = false) :
    ∃ r : PortReg, r.isSetBy v ∧ off = r.offset := by
  rcases h with h | rfl | ⟨rfl, hv⟩
  · obtain ⟨r, hr, ho⟩ := mem_rwOffsets_iff.1 h
    exact ⟨r, .inl hr, ho⟩
  · exact ⟨.ie, .inr (.inl rfl), rfl⟩
  · exact ⟨.ctrl, .inr (.inr ⟨rfl, hv⟩), rfl⟩

/-- Every register lies aligned in the 4 KiB window (R60). -/
theorem PortReg.offset_aligned (r : PortReg) : r.offset < 4096 ∧ r.offset % 4 = 0 := by
  cases r with
  | res k | sLo k | sHi k => simp only [PortReg.offset]; omega
  | qtab i | basisLo i | basisHi i => simp only [PortReg.offset]; omega
  | _ => decide

/-- The offsets of other registers read what they read before. -/
theorem ReadsBack.portWord_other {s u : State} {r : PortReg} {v : Word} (h : ReadsBack s u r v) {off : Nat}
    (ha : off % 4 = 0) (hne : off ≠ r.offset) : u.portWord off = s.portWord off := by
  unfold State.portWord
  cases hq : portReg off with
  | none => rfl
  | some q => exact h.other q fun e => hne (e ▸ (offset_of_portReg ha hq).symm)

/-- Settles O10: each RW register has its offset to itself, and a write sets its field and no other. -/
theorem configWriteReadsBack : Obligations.ConfigWriteReadsBack := by
  intro s off other v rest hp hb hin hlt ha hrw
  obtain ⟨r, hr, rfl⟩ := exists_isSetBy hrw
  obtain ⟨hrlt, hra⟩ := r.offset_aligned
  have hw := State.writeReg_readsBack
    (s := { s with inbox := .host (.portRead (BitVec.ofNat 12 other) 4) :: rest }) hb hr
  generalize hu : State.writeReg { s with inbox := .host (.portRead (BitVec.ofNat 12 other) 4) :: rest } r.offset v = u
    at hw
  refine ⟨u.setReply .written, u.portWord other, ?_, ?_, ?_, fun hne => ?_⟩
  · rw [step_portWrite hp hrlt hra hin, hu]
  · exact step_portRead_word (s := u.setReply .written) (hw.resetPin.trans hp) hlt ha hw.inbox
      fun _ => (congrArg Status.busy hw.status).trans hb
  · rintro rfl
    rw [State.portWord_offset, hw.word, PortReg.readBack_eq hr]
  · rw [hw.portWord_other ha hne]
    exact step_portRead_word (s := { s with inbox := .host (.portRead (BitVec.ofNat 12 other) 4) :: rest }) hp hlt ha
      rfl fun _ => hb

/-! ## STATUS, the interrupt line and refused accesses (R61, R64, R620, R630) -/

theorem step_writeStatus {s : State} {v : Word} {rest : List Input} (hp : s.resetPin = false)
    (h : s.hostWrites 0x008 v rest) : step s = .next ((s.took rest .written).writeStatus v) := by
  rw [step_portWrite hp (by decide) (by decide) h]
  rfl

theorem State.offer_free {s : State} (hb : s.status.busy = false) (he : s.status.err = false) (w : Word) :
    s.offer w = s.accept w := by
  simp [State.offer, hb, he]

/-- Settles O11: `writeStatus` masks the four W1C bits; with ERR cleared `offer` accepts. -/
theorem statusAndInterrupt : Obligations.StatusAndInterrupt := by
  refine ⟨fun s v rest hp h => step_writeStatus hp h, fun s v w rest hp hb hv h => ?_, fun s => ?_⟩
  · have hclear : ((s.took (.host (.portWrite 0x010#12 4 w) :: rest) .written).writeStatus v).status.err = false := by
      simp [State.writeStatus, hv]
    refine ⟨_, _, step_writeStatus hp h, step_portWrite (off := 0x010) hp (by decide) (by decide) rfl, ?_⟩
    rw [State.writeReg, show portReg 0x010 = some .cmd from rfl]
    dsimp only
    rw [State.offer_free (by exact hb) (by exact hclear)]
    exact ⟨rfl, rfl, rfl⟩
  · simp only [State.irq, Bool.or_eq_true, Bool.and_eq_true]

theorem portRead_bad {s : State} {off : BitVec 12} {size : Nat} (hp : s.resetPin = false)
    (hok : portOk off size = false) : s.portRead off size = s.setReply .portError := by
  simp [State.portRead, hp, hok]

theorem portWrite_bad {s : State} {off : BitVec 12} {size : Nat} {v : Word} (hp : s.resetPin = false)
    (hok : portOk off size = false) : s.portWrite off size v = s.setReply .portError := by
  simp [State.portWrite, hp, hok]

/-- Settles O14: `portOk` fails, and the access is answered with the port error alone. -/
theorem badPortAccess : Obligations.BadPortAccess := by
  intro s off size rest hp hbad
  have hok := portOk_false hbad
  refine ⟨fun h => ?_, fun v h => ?_⟩
  · rw [step_of_host h, hostStep, portRead_bad (s := { s with inbox := rest }) hp hok]
    rfl
  · rw [step_of_host h, hostStep, portWrite_bad (s := { s with inbox := rest }) hp hok]
    rfl

/-! ## Reset (R95, R700, R702) -/

/-- What reset leaves: the engine's fields at their reset values, and memory outside the output regions of a command
that was running. -/
theorem State.doReset_eq {s : State} (hm : s.MemoryCanonical) {pin : Bool} (hp : s.resetPin = pin) :
    s.doReset = { State.reset with
      mem := s.doReset.mem, holes := s.holes, devices := s.devices, resetPin := pin, inbox := s.inbox,
      reply := s.reply, freeIdx := s.doReset.freeIdx } ∧
      (∀ a, outside s.runningOuts a → s.doReset.mem.read a = s.mem.read a) ∧
      (s.status.busy = false → s.doReset.mem = s.mem) := by
  obtain ⟨⟨m, i, e⟩, -, hread⟩ := s.doReset_spec
  refine ⟨by rw [e, hp], hread hm, fun hb => ?_⟩
  rw [State.doReset, State.runningOuts_idle hb]
  rfl

/-- Settles O12: a CTRL write with SRST is `doReset`, before BUSY is looked at. -/
theorem softReset : Obligations.SoftReset := by
  intro s v rest hm hp hv h
  have hw : ({ s with inbox := rest } : State).writeReg 0x004 v = ({ s with inbox := rest } : State).doReset := by
    rw [State.writeReg, show portReg 0x004 = some .ctrl from rfl]
    dsimp only
    rw [State.writeCtrl, if_pos hv]
  obtain ⟨heq, hread, hidle⟩ := State.doReset_eq (s := { s with inbox := rest }) hm hp
  refine ⟨_, step_portWrite hp (by decide) (by decide) h, ?_⟩
  rw [hw]
  exact ⟨congrArg (State.setReply · .written) heq, hread, hidle⟩

theorem portRead_underReset {s : State} {off : BitVec 12} {size : Nat} (hp : s.resetPin = true) :
    s.portRead off size = s.replyFree := by
  simp [State.portRead, hp]

theorem portWrite_underReset {s : State} {off : BitVec 12} {size : Nat} {v : Word} (hp : s.resetPin = true) :
    s.portWrite off size v = s.setReply .noResponse := by
  simp [State.portWrite, hp]

/-- Settles O13: `assertReset` is `doReset` with the level held, and under it the engine's turn and the port do nothing
but answer. -/
theorem hardwareReset : Obligations.HardwareReset := by
  intro s rest hm
  refine ⟨fun h => ?_, fun hp => ⟨fun h => ?_, fun off size v h => ?_, fun off size h => ?_⟩, fun h => ?_⟩
  · obtain ⟨heq, hread, hidle⟩ := State.doReset_eq (s := { s with inbox := rest }) hm rfl
    exact ⟨_, step_of_host h, congrArg (fun u => { u with resetPin := true }) heq, hread, hidle⟩
  · exact (step_of_turn h).trans (engineStep_idle (.inr hp))
  · rw [step_of_host h, hostStep, portWrite_underReset (s := { s with inbox := rest }) hp]
    rfl
  · refine ⟨Config.freeWord s.freeIdx, s.freeIdx + 1, ?_⟩
    rw [step_of_host h, hostStep, portRead_underReset (s := { s with inbox := rest }) hp]
    rfl
  · exact step_of_host h

/-- Entry `8k + n` of the ROM, by row and column. -/
theorem basis_get (i : Fin 64) : basis.get (i.val / 8) (i.val % 8) = basisEntry (i.val / 8) (i.val % 8) :=
  Mat.ofFn_get (by omega) (by omega)

theorem qtabReset_get (i : Fin 64) : Config.qtabReset[i] = Config.qtabRows.getD i.val 0 := by
  have hi : i.val < Config.qtabRows.length := i.isLt
  rw [List.getD_eq_getElem _ _ hi]
  rfl

/-- Settles O15: the registers of the map one by one; an unwritten one reads 0. -/
theorem resetValues : Obligations.ResetValues := by
  refine ⟨fun off v hv => ?_, by decide, by decide, rfl, rfl, rfl, rfl⟩
  rw [regTable_eq, List.mem_map] at hv
  obtain ⟨r, -, hr⟩ := hv
  obtain ⟨rfl, rfl⟩ := Prod.mk.inj hr
  cases r with
  | id => exact .inl ⟨rfl, rfl⟩
  | basisLo i =>
    have hoff : (PortReg.basisLo i).offset = 0x200 + 8 * i.val := rfl
    refine .inr (.inl ⟨by omega, by omega, ?_⟩)
    rw [show ((PortReg.basisLo i).offset - 0x200) / 64 = i.val / 8 by omega,
      show ((PortReg.basisLo i).offset - 0x200) / 8 % 8 = i.val % 8 by omega, basis_get, if_pos (by omega)]
    rfl
  | basisHi i =>
    have hoff : (PortReg.basisHi i).offset = 0x204 + 8 * i.val := rfl
    refine .inr (.inl ⟨by omega, by omega, ?_⟩)
    rw [show ((PortReg.basisHi i).offset - 0x200) / 64 = i.val / 8 by omega,
      show ((PortReg.basisHi i).offset - 0x200) / 8 % 8 = i.val % 8 by omega, basis_get, if_neg (by omega)]
    rfl
  | qtab i =>
    have hoff : (PortReg.qtab i).offset = 0x100 + 4 * i.val := rfl
    refine .inr (.inr (.inl ⟨by omega, by omega, ?_⟩))
    rw [show ((PortReg.qtab i).offset - 0x100) / 4 = i.val by omega, ← qtabReset_get]
    rfl
  | res k | sLo k | sHi k =>
    refine .inr (.inr (.inr ?_))
    fin_cases k <;> exact ⟨by decide, by decide, by decide⟩
  | _ => exact .inr (.inr (.inr ⟨by decide, by decide, by decide⟩))

/-- Settles O21: what the reset state holds meets each law at once. -/
theorem resetMeetsInvariants : Obligations.ResetMeetsInvariants := by
  obtain ⟨hbusy, hcode, hqueue⟩ := State.reset_controlLegal
  exact ⟨reset_mem_wf, State.reset_matricesLegal, hbusy, hcode, hqueue, Huffman.empty_consistent,
    Huffman.empty_fits⟩

end Sys2Proof.Machine

/-! PROOFS. The matrix unit: MEQ, QUANT and DEQUANT (41_matrix.md R331, 42_transform.md R405, R412, R413), and the error
of an invalid source (10_state.md R52). -/

namespace Sys2Proof.Machine

/-! ## MEQ -/

/-- The comparison of MEQ is equality of the shapes and of every pair of elements (R331). -/
theorem Mat.sameValue_iff {x y : Mat} : x.sameValue y = true ↔
    x.h = y.h ∧ x.w = y.w ∧ ∀ r c, r < x.h → c < x.w → feq (x.get r c) (y.get r c) = true := by
  simp only [Mat.sameValue, Bool.and_eq_true, beq_iff_eq, List.all_eq_true, and_assoc]
  refine and_congr_right fun _ => and_congr_right fun _ => ⟨fun h r c hr hc => ?_, fun h rc hrc => ?_⟩
  · exact h (r, c) (mem_cells.2 ⟨hr, hc⟩)
  · obtain ⟨hr, hc⟩ := mem_cells.1 hrc
    exact h rc.1 rc.2 hr hc

/-- Settles O42: MEQ reads both sources, checks nothing more, and writes the comparison to RES0. -/
theorem equalityResult : Obligations.EqualityResult := by
  intro a b x y s ha hb
  have hexec : exec (.meq a b) s = .next (s.setRes 0 (boolWord (x.sameValue y))).complete := by
    simp only [exec, execMeq, State.readM_some ha, State.readM_some hb]
    rfl
  refine ⟨fun h => ?_, fun h => ?_⟩
  · rw [hexec, Mat.sameValue_iff.2 h]
    rfl
  · rw [hexec, Bool.eq_false_iff.2 fun hs => h (Mat.sameValue_iff.1 hs)]
    rfl

/-! ## QUANT and DEQUANT -/

section
variable {s : State} {a : MReg} {m : Mat} (ha : s.mregs[a] = some m) (hh : m.h = 8) (hw : m.w = 8)
include ha hh hw

/-- On a valid 8 by 8 source only the check of the table is left. -/
theorem State.quantized_eq (d : MReg) (f : Mat → Mat) :
    s.quantized d a f = checkQ s.cfg >>= fun _ => .ok (s.setM d (f m)) := by
  rw [State.quantized, State.readM_some ha]
  show check88 m >>= _ = _
  rw [check88_ok hh hw]
  rfl

theorem State.quantized_ok (hq : ∀ i : Fin 64, s.cfg.qtab[i] ≠ 0#16) (d : MReg) (f : Mat → Mat) :
    s.finish (s.quantized d a f) = .next (s.setM d (f m)).complete := by
  rw [State.quantized_eq ha hh hw, checkQ_ok_iff.2 hq]
  rfl

theorem State.quantized_qzero {i : Fin 64} (hz : s.cfg.qtab[i] = 0#16)
    (hl : ∀ j : Fin 64, j < i → s.cfg.qtab[j] ≠ 0#16) (hop : isHuffmanOp (opField s.cmd) = false) (d : MReg)
    (f : Mat → Mat) :
    s.finish (s.quantized d a f) = .next (s.stopped 0x08#8 0#32 (BitVec.ofNat 32 i.val)) := by
  rw [State.quantized_eq ha hh hw, checkQ_error hz hl]
  exact congrArg _ (State.errorEntry_plain s _ _ hop)

end

/-- An 8 by 8 matrix combined with the quantization table, element by element (00_scope.md R18). -/
theorem zip_qMat_hasElements {m : Mat} (hh : m.h = 8) (hw : m.w = 8) (c : Csr) (f : F64 → F64 → F64) :
    HasElements (m.zip f c.qMat) 8 8 fun r k => f (m.get r k) (f64 ((c.qAt (8 * r + k)).toNat : Int)) := by
  obtain ⟨h1, h2, h3, h4⟩ := Mat.zip_hasElements f m c.qMat
  rw [hh] at h1
  rw [hw] at h2
  rw [hh, hw] at h3 h4
  exact ⟨h1, h2, h3, fun r k hr hk => (h4 r k hr hk).trans (congrArg (f _) (Mat.ofFn_get hr hk))⟩

/-- Settles O43: with the checks passed both are an elementwise image with the table; the check of the table names its
first zero. -/
theorem quantizerResults : Obligations.QuantizerResults := by
  intro d a m s ha hh hw
  refine ⟨fun hq => ⟨⟨_, zip_qMat_hasElements hh hw s.cfg fdiv, ?_⟩,
    _, zip_qMat_hasElements hh hw s.cfg fmul, ?_⟩, fun i hz hl => ⟨fun hop => ?_, fun hop => ?_⟩⟩
  · exact State.quantized_ok ha hh hw hq d _
  · exact State.quantized_ok ha hh hw hq d _
  · exact State.quantized_qzero ha hh hw hz hl (by rw [hop]; rfl) d _
  · exact State.quantized_qzero ha hh hw hz hl (by rw [hop]; rfl) d _

/-! ## UNINIT -/

/-- A command whose first step reads an invalid source raises UNINIT with its number. -/
theorem finish_uninit {s : State} {a : MReg} (ha : s.mregs[a] = none) (hop : isHuffmanOp (opField s.cmd) = false)
    (f : Mat → Except Raise State) :
    s.finish (s.readM a >>= f) = .next (s.stopped 0x05#8 0#32 (BitVec.ofNat 32 a.val)) := by
  rw [State.readM_none ha]
  exact congrArg _ (State.errorEntry_plain s _ _ hop)

/-- So does a command of two sources, for its first invalid one. -/
theorem finish_uninit_pair {s : State} {a b x : MReg} {before after : List MReg} (hs : [a, b] = before ++ x :: after)
    (hb : ∀ y ∈ before, s.mregs[y] ≠ none) (hx : s.mregs[x] = none) (hop : isHuffmanOp (opField s.cmd) = false)
    (f : Mat → Mat → Except Raise State) :
    s.finish (s.readM a >>= fun ma => s.readM b >>= f ma) =
      .next (s.stopped 0x05#8 0#32 (BitVec.ofNat 32 x.val)) := by
  rcases before with _ | ⟨y, _ | ⟨z, t⟩⟩
  · obtain ⟨rfl, -⟩ := List.cons.inj hs
    exact finish_uninit hx hop _
  · simp only [List.cons_append, List.nil_append, List.cons.injEq] at hs
    obtain ⟨rfl, rfl, -⟩ := hs
    obtain ⟨m, hm⟩ := Option.ne_none_iff_exists'.1 (hb a (by simp))
    rw [State.readM_some hm]
    exact finish_uninit hx hop _
  · simp at hs

/-- MSTORE spares its output regions then (R260). -/
theorem execMstore_uninit {s : State} {a : MReg} (ha : s.mregs[a] = none) (hop : isHuffmanOp (opField s.cmd) = false)
    (f : Fmt) : execMstore a f s = .next (s.stopped 0x05#8 0#32 (BitVec.ofNat 32 a.val)) := by
  have hbody : bodyMstore a f s = .error ((Raise.plain .uninit (BitVec.ofNat 32 a.val)).sparing
      (mstoreOuts s.cfg f ⟨8, 8, []⟩)) := by
    simp only [bodyMstore, State.readM_none ha]
    rfl
  rw [execMstore, hbody]
  show Host.Outcome.next (s.errorEntry _) = _
  rw [State.errorEntry_sparing s rfl, State.errorEntry_plain s _ _ hop]
  rfl

/-- A command with a source register is none of the Huffman unit. -/
theorem isHuffman_of_sourcesOf {i : Instr} {a : MReg} (h : a ∈ sourcesOf i) : isHuffman i = false := by
  cases i with
  | hcount | hbuild | hassign | hemit | huff => simp [sourcesOf] at h
  | _ => rfl

/-- Settles O44: each command reads its sources first, in the order of the list. -/
theorem uninitRaised : Obligations.UninitRaised := by
  intro i a before after s hop hsrc hbefore ha
  have hnh : isHuffmanOp (opField s.cmd) = false := by
    rw [hop, isHuffmanOp_opcode]
    exact isHuffman_of_sourcesOf (a := a) (by simp [hsrc])
  have single : ∀ b, [b] = before ++ a :: after → b = a := fun b hb => by
    rcases before with _ | ⟨y, t⟩
    · exact (List.cons.inj hb).1
    · simp at hb
  cases i with
  | mstore b f =>
    obtain rfl := single _ hsrc
    exact execMstore_uninit ha hnh f
  | mget k b row col | mset b k row col | mmov d b | madds d b k | msubs d b k | mmuls d b k | mdivs d b k | mtrans d b
  | mabs d b | mround d b | mmin k b | mmax k b | mzigzag d b | fdct d b | idct d b | quant d b | dequant d b
  | lvlsub d b | lvladd d b =>
    obtain rfl := single _ hsrc
    exact finish_uninit ha hnh _
  | madd d b c | msub d b c | mdiv d b c | memul d b c | mmul d b c | meq b c =>
    exact finish_uninit_pair hsrc hbefore ha hnh _
  | nop | mzero | mload | xform | pqclr | pqenq | pqdeq | pqpeek | hcount | hbuild | hassign | hemit | huff =>
    simp [sourcesOf] at hsrc

end Sys2Proof.Machine

/-! PROOFS. System memory under every step (20_memory.md R150, R157, R170, R171): which bytes the stores of a command
change, that the canonical form is kept, and what the host's own accesses do. -/

namespace Sys2Proof.Machine

/-! ## Bytes changed in regions only -/

/-- `m'` is canonical, and differs from `m` in bytes of the regions only. -/
structure Memory.ChangedIn (rs : List Region) (m m' : Memory) : Prop where
  wf : m'.wf = true
  read : ∀ a, outside rs a → m'.read a = m.read a

theorem Memory.ChangedIn.refl {m : Memory} (h : m.wf = true) (rs : List Region) : Memory.ChangedIn rs m m :=
  ⟨h, fun _ _ => rfl⟩

theorem Memory.ChangedIn.trans {rs : List Region} {m m' m'' : Memory} (h : Memory.ChangedIn rs m m')
    (h' : Memory.ChangedIn rs m' m'') : Memory.ChangedIn rs m m'' :=
  ⟨h'.wf, fun a ha => (h'.read a ha).trans (h.read a ha)⟩

/-- An access lies in a region. -/
def Access.inside (x : Access) (r : Region) : Prop := r.base ≤ x.addr ∧ x.addr + x.size ≤ r.base + r.len

/-- An access lies in one of the regions. -/
def Access.within (x : Access) (rs : List Region) : Prop := ∃ r ∈ rs, x.inside r

theorem Access.within.outside {x : Access} {rs : List Region} (h : x.within rs) {a : Nat} (ha : outside rs a) :
    x.region.has a = false := by
  obtain ⟨r, hr, hlo, hhi⟩ := h
  have hra := Region.has_eq_false.1 (ha r hr)
  refine Region.has_eq_false.2 ?_
  simp only [Access.region]
  omega

/-- Stores that all answer change bytes of the regions they lie in. -/
theorem storeAll_changedIn {hs : List Region} {l : List Store} {m m' : Memory} {rs : List Region}
    (h : storeAll hs l m = .ok m') (hm : m.wf = true) (hl : ∀ x ∈ l, x.acc.within rs) :
    Memory.ChangedIn rs m m' := by
  obtain ⟨hok, rfl⟩ := storeAll_ok_iff.1 h
  exact ⟨writeAll_wf hm hok, fun a ha => read_writeAll_outside hm hok fun x hx => (hl x hx).outside ha⟩

theorem Written.settle_changedIn {w : Written} {m : Memory} (h : Memory.ChangedIn w.outs m w.state.mem) :
    Memory.ChangedIn w.outs m w.settle.mem := by
  obtain ⟨-, hwf, hread⟩ := w.settle_spec
  exact h.trans ⟨hwf h.wf, hread h.wf⟩

theorem State.errorEntry_changedIn {s : State} (hm : s.mem.wf = true) (r : Raise) :
    Memory.ChangedIn r.dirty s.mem (s.errorEntry r).mem := by
  obtain ⟨hwf, hread⟩ := s.errorEntry_mem r hm
  exact ⟨hwf, hread⟩

/-! ## The stores of MSTORE, the code table and the bit sequence -/

theorem mstoreList_within (c : Csr) (f : Fmt) (m : Mat) : ∀ x ∈ mstoreList c f m, x.acc.within (mstoreOuts c f m) := by
  intro x hx
  obtain ⟨rc, hrc, rfl⟩ := List.mem_map.1 hx
  exact ⟨_, List.mem_map_of_mem (List.mem_map_of_mem hrc), Nat.le_refl _, Nat.le_refl _⟩

/-- A record's store is one of the code table's. -/
theorem mem_tableStores {c : Csr} {syms : List HSym} {codes : List Code} {x : Store}
    (h : x ∈ tableStores c syms codes) : ∃ (i : Nat) (y : HSym) (cd : Code), syms[i]? = some y ∧ codes[i]? = some cd ∧
      x = ⟨⟨c.htabDst.toNat + 16 * i, 16, i⟩, recordVal y cd⟩ := by
  obtain ⟨i, hi, rfl⟩ := List.mem_mapIdx.1 h
  obtain ⟨h1, h2⟩ := List.getElem?_zip_eq_some.1 (List.getElem?_eq_getElem hi)
  exact ⟨i, _, _, h1, h2, rfl⟩

theorem tableStores_within {c : Csr} {syms : List HSym} {codes : List Code} {d : Nat} {rs : List Region}
    (hd : syms.length ≤ d) (hr : tableRegion c d ∈ rs) : ∀ x ∈ tableStores c syms codes, x.acc.within rs := by
  intro x hx
  obtain ⟨i, y, cd, hi, -, rfl⟩ := mem_tableStores hx
  have := (List.getElem?_eq_some_iff.1 hi).1
  refine ⟨_, hr, ?_, ?_⟩ <;> simp only [tableRegion] <;> omega

theorem bitStores_within {c : Csr} {bits : List Bool} {b : Nat} {rs : List Region} (hb : bits.length ≤ b)
    (hr : bitsRegion c b ∈ rs) : ∀ x ∈ bitStores c bits, x.acc.within rs := by
  intro x hx
  obtain ⟨k, hk, rfl⟩ := List.mem_map.1 hx
  have hk := List.mem_range.1 hk
  refine ⟨_, hr, ?_, ?_⟩ <;> simp only [bitsRegion, byteCount] at hk ⊢ <;> omega

/-! ## The stores of XFORM -/

/-- The raster's bytes, counted in blocks of 64 (42_transform.md R420). -/
theorem Csr.blockCount_mul {c : Csr} (hw : c.imgW % 8 = 0) (hh : c.imgH % 8 = 0) :
    64 * c.blockCount = c.imgW * c.imgH := by
  obtain ⟨p, hp⟩ := Nat.dvd_of_mod_eq_zero hw
  obtain ⟨q, hq⟩ := Nat.dvd_of_mod_eq_zero hh
  rw [Csr.blockCount, hp, hq, Nat.mul_div_cancel_left _ (by decide), Nat.mul_div_cancel_left _ (by decide)]
  ring

/-- Cell (r, k) of a block lies in the raster. -/
theorem Csr.samplePos_lt {c : Csr} (hw : c.imgW % 8 = 0) (hh : c.imgH % 8 = 0) {j r k : Nat} (hj : j < c.blockCount)
    (hr : r < 8) (hk : k < 8) : c.samplePos j r k < c.imgW * c.imgH := by
  obtain ⟨p, hp⟩ := Nat.dvd_of_mod_eq_zero hw
  obtain ⟨q, hq⟩ := Nat.dvd_of_mod_eq_zero hh
  rw [Csr.blockCount, hp, hq, Nat.mul_div_cancel_left _ (by decide), Nat.mul_div_cancel_left _ (by decide)] at hj
  have hp0 : 0 < p := Nat.pos_of_ne_zero fun h => by simp [h] at hj
  have hrow : 8 * (j / p) + r < 8 * q := by
    have := (Nat.div_lt_iff_lt_mul hp0).2 (Nat.mul_comm p q ▸ hj)
    omega
  have hcol : 8 * (j % p) + k < 8 * p := by
    have := Nat.mod_lt j hp0
    omega
  simp only [Csr.samplePos, hp, hq, Nat.mul_div_cancel_left p (show 0 < 8 by decide)]
  calc _ = (8 * (j / p) + r) * (8 * p) + (8 * (j % p) + k) := by ring
    _ < 8 * q * (8 * p) := cell_lt hrow hcol
    _ = 8 * p * (8 * q) := Nat.mul_comm ..

section
variable {c : Csr} (hw : c.imgW % 8 = 0) (hh : c.imgH % 8 = 0) {j : Nat} (hj : j < c.blockCount) (tr : Mat)
include hw hh hj

theorem zzStores_inside : ∀ x ∈ zzStores c j tr, x.acc.inside ⟨c.zzDst.toNat, 2 * (c.imgW * c.imgH)⟩ := by
  intro x hx
  obtain ⟨i, hi, rfl⟩ := List.mem_map.1 hx
  have hi := List.mem_range.1 hi
  have hcount := Csr.blockCount_mul hw hh
  simp only [Access.inside]
  omega

theorem tqStores_inside : ∀ x ∈ tqStores c j tr, x.acc.inside ⟨c.tqDst.toNat, 2 * (c.imgW * c.imgH)⟩ := by
  intro x hx
  obtain ⟨rc, hrc, rfl⟩ := List.mem_map.1 hx
  obtain ⟨hr, hk⟩ := mem_cells.1 hrc
  have := Csr.samplePos_lt hw hh hj hr hk
  simp only [Access.inside]
  omega

theorem recStores_inside : ∀ x ∈ recStores c j tr, x.acc.inside ⟨c.recDst.toNat, c.imgW * c.imgH⟩ := by
  intro x hx
  obtain ⟨rc, hrc, rfl⟩ := List.mem_map.1 hx
  obtain ⟨hr, hk⟩ := mem_cells.1 hrc
  have := Csr.samplePos_lt hw hh hj hr hk
  simp only [Access.inside]
  omega

theorem blockStores_within (etq erec : Bool) :
    ∀ x ∈ blockStores c etq erec j tr, x.acc.within (xformOuts c etq erec) := by
  intro x hx
  simp only [blockStores, List.mem_append] at hx
  rcases hx with (hx | hx) | hx
  · exact ⟨_, by simp [xformOuts], zzStores_inside hw hh hj tr x hx⟩
  · cases etq with
    | false => simp at hx
    | true => exact ⟨_, by simp [xformOuts], tqStores_inside hw hh hj tr x hx⟩
  · cases erec with
    | false => simp at hx
    | true => exact ⟨_, by simp [xformOuts], recStores_inside hw hh hj _ x hx⟩

end

theorem xformFrom_changedIn {hs : List Region} {c : Csr} (hw : c.imgW % 8 = 0) (hh : c.imgH % 8 = 0)
    {etq erec : Bool} {n j : Nat} {m m' : Memory} (h : xformFrom hs c etq erec n j m = .ok m')
    (hj : j + n ≤ c.blockCount) (hm : m.wf = true) : Memory.ChangedIn (xformOuts c etq erec) m m' := by
  induction n generalizing j m with
  | zero =>
    obtain rfl := Except.ok.inj h
    exact .refl hm _
  | succ n ih =>
    simp only [xformFrom] at h
    split at h
    · rename_i m1 h1
      obtain ⟨raw, -, hstore⟩ := bind_eq_ok h1
      have hblock := storeAll_changedIn hstore hm (blockStores_within hw hh (by omega) _ etq erec)
      exact hblock.trans (ih h (by omega) hblock.wf)
    · simp at h

/-- The check of the sides (42_transform.md R420). -/
theorem checkImg_ok_iff {c : Csr} : checkImg c = .ok () ↔ c.imgW % 8 = 0 ∧ c.imgH % 8 = 0 := by
  simp only [checkImg, need_ok_iff, Bool.and_eq_true, beq_iff_eq]

/-! ## The commands that store -/

@[simp] theorem State.resultsOf_mem (s : State) (device : Bool) (n : Nat) (ks : List (Fin 4)) :
    (s.resultsOf device n ks).mem = s.mem := by
  obtain ⟨⟨r, i, e⟩, -⟩ := s.resultsOf_spec device n ks
  rw [e]

@[simp] theorem State.bitsOf_mem (s : State) (device : Bool) : (s.bitsOf device).mem = s.mem := by
  cases device <;> rfl

section
variable {s : State} (hm : s.mem.wf = true)
include hm

theorem bodyMstore_changedIn (a : MReg) (f : Fmt) :
    EndsWith (fun w => Memory.ChangedIn w.outs s.mem w.state.mem) (bodyMstore a f s) :=
  .bind fun m _ => .bind fun _ h => .ok (storeAll_changedIn (mapError_eq_ok h) hm (mstoreList_within s.cfg f m))

theorem bodyXform_changedIn (etq erec : Bool) :
    EndsWith (fun w => Memory.ChangedIn w.outs s.mem w.state.mem) (bodyXform etq erec s) := by
  refine .bind fun _ hi => .bind fun _ _ => .bind fun m h => .ok ?_
  obtain ⟨hw, hh⟩ := checkImg_ok_iff.1 (mapError_eq_ok hi)
  simpa using xformFrom_changedIn hw hh (mapError_eq_ok h) (by omega) hm

theorem bodyHassign_changedIn :
    EndsWith (fun w => Memory.ChangedIn w.outs s.mem w.state.mem) (bodyHassign s) :=
  .bind fun _ _ => .bind fun _ _ => .bind fun _ h => .ok
    (storeAll_changedIn (mapError_eq_ok h) hm (tableStores_within (Nat.le_refl _) (by simp)))

theorem bodyHemit_changedIn :
    EndsWith (fun w => Memory.ChangedIn w.outs s.mem w.state.mem) (bodyHemit s) := by
  refine .bind fun _ _ => .bind fun bits hb => .bind fun _ _ => .bind fun m h => .ok ?_
  rw [State.bitsOf_mem, State.resultsOf_mem]
  refine storeAll_changedIn (mapError_eq_ok h) hm ?_
  dsimp only
  split
  · rename_i hd
    rw [hd]
    exact bitStores_within (emitBits_le_emitMost (mapError_eq_ok hb)) (List.mem_singleton_self _)
  · exact bitStores_within (Nat.le_refl _) (List.mem_singleton_self _)

theorem bodyHuff_changedIn :
    EndsWith (fun w => Memory.ChangedIn w.outs s.mem w.state.mem) (bodyHuff s) := by
  refine .bind fun _ _ => .bind fun _ _ => .bind fun _ _ => .bind fun m1 h1 => .bind fun _ _ => .bind fun _ _ =>
    .bind fun m2 h2 => .ok ?_
  rw [State.bitsOf_mem, State.resultsOf_mem]
  have hm1 := storeAll_wf hm (mapError_eq_ok h1)
  refine (storeAll_changedIn (mapError_eq_ok h1) hm ?_).trans (storeAll_changedIn (mapError_eq_ok h2) hm1 ?_)
  · exact tableStores_within (Nat.le_max_left _ _) List.mem_cons_self
  · exact bitStores_within ((Nat.le_max_right _ _).trans (Nat.le_max_left _ _))
      (List.mem_cons_of_mem _ (List.mem_singleton_self _))

theorem storingBody_changedIn {i : Instr} {e : Except Raise Written} (h : storingBody i s = some e) :
    EndsWith (fun w => Memory.ChangedIn w.outs s.mem w.state.mem) e := by
  cases i <;> simp only [storingBody, Option.some.injEq, reduceCtorEq] at h <;> subst h
  case mstore a f => exact bodyMstore_changedIn hm a f
  case xform etq erec => exact bodyXform_changedIn hm etq erec
  case hassign => exact bodyHassign_changedIn hm
  case hemit => exact bodyHemit_changedIn hm
  case huff => exact bodyHuff_changedIn hm

end

theorem exec_storing {i : Instr} {s : State} {e : Except Raise Written} (h : storingBody i s = some e) :
    exec i s = s.finish (e.map Written.settle) := by
  cases i <;> simp only [storingBody, Option.some.injEq, reduceCtorEq] at h <;> subst h <;> rfl

/-- A storing command changes bytes of its output regions only, whether it completes or fails. -/
theorem exec_storing_changedIn {i : Instr} {s t : State} {e : Except Raise Written} (he : storingBody i s = some e)
    (hm : s.mem.wf = true) (h : exec i s = .next t) : Memory.ChangedIn (outRegions i s) s.mem t.mem := by
  rw [exec_storing he] at h
  unfold outRegions
  rw [he]
  cases e with
  | ok w =>
    obtain rfl := Host.Outcome.next.inj h
    exact Written.settle_changedIn (storingBody_changedIn hm he w rfl)
  | error r =>
    obtain rfl := Host.Outcome.next.inj h
    exact State.errorEntry_changedIn hm r

/-! ## The commands that store nothing -/

/-- The result satisfies `P`, or is an error that leaves no byte of memory open and, if `off`, one before which no free
value was drawn. -/
def EndsQuiet {α : Type} (off : Prop) (P : α → Prop) : Except Raise α → Prop
  | .ok v => P v
  | .error r => r.dirty = [] ∧ (off → r.drawn = 0)

/-- Every error of the result is such. -/
def Quiet {α : Type} (e : Except Raise α) : Prop := EndsQuiet True (fun _ => True) e

section
variable {α β : Type} {off : Prop} {P : α → Prop} {Q : β → Prop} {x : Except Raise α}

theorem EndsQuiet.bind {f : α → Except Raise β} (hx : Quiet x) (hf : ∀ v, EndsQuiet off Q (f v)) :
    EndsQuiet off Q (x >>= f) := by
  cases x with
  | error r => exact ⟨hx.1, fun _ => hx.2 trivial⟩
  | ok v => exact hf v

theorem Quiet.bind {f : α → Except Raise β} (hx : Quiet x) (hf : ∀ v, Quiet (f v)) : Quiet (x >>= f) :=
  EndsQuiet.bind hx hf

theorem Quiet.map (hx : Quiet x) (f : α → β) : Quiet (x.map f) := by
  cases x with
  | error r => exact hx
  | ok v => exact trivial

theorem EndsQuiet.mapError {f : Raise → Raise} (hf : ∀ r, (f r).dirty = r.dirty ∧ (off → (f r).drawn = r.drawn))
    (h : EndsQuiet off P x) : EndsQuiet off P (x.mapError f) := by
  cases x with
  | error r => exact ⟨(hf r).1.trans h.1, fun hn => ((hf r).2 hn).trans (h.2 hn)⟩
  | ok v => exact h

end

/-! ### The checks and the accesses -/

theorem Raise.plain_quiet {α : Type} (c : ErrCode) (n : Word) : Quiet (.error (Raise.plain c n) : Except Raise α) :=
  ⟨rfl, fun _ => rfl⟩

theorem Raise.bus_quiet {α : Type} (w : Bool) (b i : Nat) : Quiet (.error (Raise.bus w b i) : Except Raise α) :=
  ⟨rfl, fun _ => rfl⟩

theorem need_plain_quiet (b : Bool) (c : ErrCode) (n : Word) : Quiet (need b (Raise.plain c n)) := by
  cases b with
  | false => exact Raise.plain_quiet c n
  | true => exact trivial

theorem readM_quiet (s : State) (a : MReg) : Quiet (s.readM a) := by
  unfold State.readM
  split
  · exact trivial
  · exact Raise.plain_quiet _ _

theorem checkQ_quiet (c : Csr) : Quiet (checkQ c) := by
  unfold checkQ
  split
  · exact Raise.plain_quiet _ _
  · exact trivial

theorem loadAll_quiet (hs : List Region) (m : Memory) (l : List Access) : Quiet (loadAll hs m l) := by
  induction l with
  | nil => exact trivial
  | cons x t ih =>
    unfold loadAll
    split
    · exact Raise.bus_quiet ..
    · exact ih.map _

theorem enq_quiet (o : HeapOrder) (q : PQueue) (k p : Word) : Quiet (q.enq o k p) := by
  unfold PQueue.enq
  split
  · exact Raise.plain_quiet _ _
  · exact trivial

theorem deq_quiet (o : HeapOrder) (q : PQueue) : Quiet (q.deq o) := by
  unfold PQueue.deq
  split
  · exact Raise.plain_quiet _ _
  · exact trivial

theorem peek_quiet (q : PQueue) : Quiet q.peek := by
  unfold PQueue.peek
  split
  · exact Raise.plain_quiet _ _
  · exact trivial

theorem readSym_quiet (hs : List Region) (m : Memory) (c : Csr) (j : Nat) : Quiet (readSym hs m c j) := by
  simp only [readSym]
  split
  · exact Raise.bus_quiet ..
  · exact trivial

theorem countFrom_quiet (hs : List Region) (m : Memory) (c : Csr) (n j : Nat) (t : List HSym) :
    Quiet (countFrom hs m c n j t) := by
  induction n generalizing j t with
  | zero => exact trivial
  | succ n ih =>
    have hread := readSym_quiet hs m c j
    unfold countFrom
    split
    · rename_i hr
      rwa [hr] at hread
    · split
      · exact ih _ _
      · exact ⟨rfl, fun _ => rfl⟩

theorem seedQueue_quiet (o : HeapOrder) (syms : List HSym) (i : Nat) (q : PQueue) : Quiet (seedQueue o syms i q) := by
  induction syms generalizing i q with
  | nil => exact trivial
  | cons y t ih =>
    have henq := enq_quiet o q y.freq (BitVec.ofNat 32 i)
    unfold seedQueue
    split
    · rename_i hr
      rwa [hr] at henq
    · exact ih _ _

theorem mergeLoop_quiet (o : HeapOrder) (fuel : Nat) (q : PQueue) (ns : List Node) :
    Quiet (mergeLoop o fuel q ns) := by
  induction fuel generalizing q ns with
  | zero => exact trivial
  | succ n ih =>
    have honce : Quiet (mergeOnce o q ns) :=
      .bind (deq_quiet ..) fun _ => .bind (deq_quiet ..) fun _ => .bind (enq_quiet ..) fun _ => trivial
    unfold mergeLoop
    split
    · exact trivial
    · split
      · rename_i hr
        rwa [hr] at honce
      · exact ih _ _

theorem buildTree_quiet (o : HeapOrder) (syms : List HSym) : Quiet (buildTree o syms) :=
  .bind (seedQueue_quiet ..) fun _ => .bind (mergeLoop_quiet ..) fun _ => .bind (deq_quiet ..) fun _ => trivial

/-! ### The pseudocode -/

/-- `u` has the memory of `s`, and, with the input of command `i` off every device, its count of free values. -/
def QuietlyDone (i : Instr) (s u : State) : Prop :=
  u.mem = s.mem ∧ (s.OffDevices (inRegions i s) → u.freeIdx = s.freeIdx)

section
variable {s : State} {i : Instr}

theorem QuietlyDone.of_eq {u : State} (hm : u.mem = s.mem) (hf : u.freeIdx = s.freeIdx) : QuietlyDone i s u :=
  ⟨hm, fun _ => hf⟩

theorem unary_quiet (d a : MReg) (f : Mat → Mat) :
    EndsQuiet (s.OffDevices (inRegions i s)) (QuietlyDone i s) (s.unary d a f) :=
  .bind (readM_quiet s a) fun _ => .of_eq rfl rfl

theorem elementwise_quiet (d a b : MReg) (f : F64 → F64 → F64) :
    EndsQuiet (s.OffDevices (inRegions i s)) (QuietlyDone i s) (s.elementwise d a b f) :=
  .bind (readM_quiet s a) fun _ => .bind (readM_quiet s b) fun _ => .bind (need_plain_quiet ..) fun _ =>
    .of_eq rfl rfl

theorem reduce_quiet (k : SReg) (a : MReg) (before : F64 → F64 → Bool) :
    EndsQuiet (s.OffDevices (inRegions i s)) (QuietlyDone i s) (s.reduce k a before) :=
  .bind (readM_quiet s a) fun _ => .of_eq rfl rfl

theorem transform88_quiet (d a : MReg) (f : Mat → Mat) :
    EndsQuiet (s.OffDevices (inRegions i s)) (QuietlyDone i s) (s.transform88 d a f) :=
  .bind (readM_quiet s a) fun _ => .bind (need_plain_quiet ..) fun _ => .of_eq rfl rfl

theorem quantized_quiet (d a : MReg) (f : Mat → Mat) :
    EndsQuiet (s.OffDevices (inRegions i s)) (QuietlyDone i s) (s.quantized d a f) :=
  .bind (readM_quiet s a) fun _ => .bind (need_plain_quiet ..) fun _ => .bind (checkQ_quiet _) fun _ => .of_eq rfl rfl

theorem bodyMload_quiet (d : MReg) (h w : Nat) (f : Fmt) :
    EndsQuiet (s.OffDevices (inRegions (.mload d h w f) s)) (QuietlyDone (.mload d h w f) s)
      (bodyMload d h w f s) := by
  cases hc : checkShape h w with
  | error r =>
    have hq : Quiet (checkShape h w) := need_plain_quiet ..
    simp only [bodyMload, hc] at hq ⊢
    exact ⟨hq.1, fun _ => hq.2 trivial⟩
  | ok u =>
    simp only [bodyMload, hc]
    change EndsQuiet _ _ (loadAll s.holes s.mem _ >>= _)
    refine .bind (loadAll_quiet ..) fun raw => ?_
    show QuietlyDone _ s (if _ then _ else _)
    split
    · rename_i hd
      refine ⟨rfl, fun hoff => absurd (State.onDevice_eq_false_iff.2 hoff) ?_⟩
      simp [inRegions, hc, whenOk, hd]
    · exact .of_eq rfl rfl

theorem bodyHcount_quiet :
    EndsQuiet (s.OffDevices (inRegions .hcount s)) (QuietlyDone .hcount s) (bodyHcount s) := by
  have off : s.OffDevices (inRegions .hcount s) → s.onDevice [hinRegion s.cfg] = false := 
    State.onDevice_eq_false_iff.2
  unfold bodyHcount
  dsimp only
  cases hc : countSyms s.holes (s.readView s.mem [hinRegion s.cfg] 0) s.cfg with
  | error r =>
    have hq : Quiet (countSyms s.holes (s.readView s.mem [hinRegion s.cfg] 0) s.cfg) := countFrom_quiet ..
    rw [hc] at hq
    exact ⟨hq.1, fun h => by rw [off h]; rfl⟩
  | ok syms => exact ⟨by simp, fun h => by rw [off h]; rfl⟩

end

/-- What every command that stores nothing does to memory: nothing. -/
theorem exec_quiet {i : Instr} (s : State) (hi : storesToMemory i = false) :
    ∃ e, exec i s = s.finish e ∧ EndsQuiet (s.OffDevices (inRegions i s)) (QuietlyDone i s) e := by
  cases i with
  | nop => exact ⟨.ok s, rfl, .of_eq rfl rfl⟩
  | pqclr => exact ⟨.ok (s.setPq PQueue.empty), rfl, .of_eq rfl rfl⟩
  | mzero d r c => exact ⟨_, rfl, .bind (need_plain_quiet ..) fun _ => .of_eq rfl rfl⟩
  | mload d r c f => exact ⟨_, rfl, bodyMload_quiet d r c f⟩
  | mget k a row col =>
    exact ⟨_, rfl, .bind (readM_quiet s a) fun _ => .bind (need_plain_quiet ..) fun _ => .of_eq rfl rfl⟩
  | mset d k row col =>
    exact ⟨_, rfl, .bind (readM_quiet s d) fun _ => .bind (need_plain_quiet ..) fun _ => .of_eq rfl rfl⟩
  | madd d a b | msub d a b | mdiv d a b | memul d a b => exact ⟨_, rfl, elementwise_quiet d a b _⟩
  | mmul d a b =>
    exact ⟨_, rfl, .bind (readM_quiet s a) fun _ => .bind (readM_quiet s b) fun _ =>
      .bind (need_plain_quiet ..) fun _ => .of_eq rfl rfl⟩
  | mmov d a | madds d a k | msubs d a k | mmuls d a k | mdivs d a k | mtrans d a | mabs d a | mround d a
  | lvlsub d a | lvladd d a => exact ⟨_, rfl, unary_quiet d a _⟩
  | mmin k a | mmax k a => exact ⟨_, rfl, reduce_quiet k a _⟩
  | mzigzag d a | fdct d a | idct d a => exact ⟨_, rfl, transform88_quiet d a _⟩
  | meq a b =>
    exact ⟨_, rfl, .bind (readM_quiet s a) fun _ => .bind (readM_quiet s b) fun _ => .of_eq rfl rfl⟩
  | quant d a | dequant d a => exact ⟨_, rfl, quantized_quiet d a _⟩
  | pqenq => exact ⟨_, rfl, .bind (enq_quiet ..) fun _ => .of_eq rfl rfl⟩
  | pqdeq => exact ⟨_, rfl, .bind (deq_quiet ..) fun _ => .of_eq rfl rfl⟩
  | pqpeek => exact ⟨_, rfl, .bind (peek_quiet _) fun _ => .of_eq rfl rfl⟩
  | hcount => exact ⟨_, rfl, bodyHcount_quiet⟩
  | hbuild =>
    exact ⟨_, rfl, .mapError (fun _ => ⟨rfl, fun _ => rfl⟩)
      (.bind (need_plain_quiet ..) fun _ => .bind (buildTree_quiet ..) fun _ => .of_eq rfl rfl)⟩
  | mstore | xform | hassign | hemit | huff => simp [storesToMemory] at hi

theorem exec_quiet_mem {i : Instr} {s t : State} (hi : storesToMemory i = false) (h : exec i s = .next t) :
    t.mem = s.mem ∧ (s.OffDevices (inRegions i s) → t.freeIdx = s.freeIdx) := by
  obtain ⟨e, he, hq⟩ := exec_quiet s hi
  rcases State.finish_eq_next (he ▸ h) with ⟨u, rfl, rfl⟩ | ⟨r, rfl, rfl⟩
  · exact hq
  · obtain ⟨hdirty, hdrawn⟩ := hq
    rw [State.errorEntry_eq, hdirty]
    exact ⟨rfl, fun hoff => congrArg (s.freeIdx + ·) (hdrawn hoff)⟩

theorem exists_storingBody {i : Instr} (hi : storesToMemory i = true) (s : State) : ∃ e, storingBody i s = some e := by
  cases i with
  | mstore | xform | hassign | hemit | huff => exact ⟨_, rfl⟩
  | _ => simp [storesToMemory] at hi

/-! ## Every step -/

theorem exec_memoryCanonical {i : Instr} {s t : State} (hs : s.MemoryCanonical) (h : exec i s = .next t) :
    t.MemoryCanonical := by
  cases hi : storesToMemory i with
  | false =>
    unfold State.MemoryCanonical
    rwa [(exec_quiet_mem hi h).1]
  | true =>
    obtain ⟨e, he⟩ := exists_storingBody hi s
    exact (exec_storing_changedIn he hs h).wf

theorem engineStep_memoryCanonical {s t : State} (h : engineStep s = .next t) (hs : s.MemoryCanonical) :
    t.MemoryCanonical := by
  rcases engineStep_cases h with ⟨i, -, -, hx⟩ | rfl | rfl
  · exact exec_memoryCanonical hs hx
  · exact (s.errorEntry_mem _ hs).1
  · exact hs

/-! ### The host's actions -/

theorem State.readReg_mem (s : State) (off : Nat) : (s.readReg off).mem = s.mem := by
  unfold State.readReg
  split
  · rfl
  · split <;> rfl
  · rfl

theorem State.portRead_mem (s : State) (off : BitVec 12) (size : Nat) : (s.portRead off size).mem = s.mem := by
  unfold State.portRead
  split
  · rfl
  · split
    · exact s.readReg_mem off.toNat
    · rfl

theorem State.writeConfig_mem (s : State) (r : PortReg) (v : Word) : (s.writeConfig r v).mem = s.mem := by
  cases r <;> rfl

theorem State.offer_mem (s : State) (v : Word) : (s.offer v).mem = s.mem := by
  unfold State.offer
  split <;> rfl

/-- A write to CTRL leaves memory, or is a reset (R63, R702). -/
theorem State.writeCtrl_mem (s : State) (v : Word) :
    (s.writeCtrl v).mem = s.mem ∨ (s.writeCtrl v).mem = s.doReset.mem := by
  unfold State.writeCtrl
  split
  · exact .inr rfl
  · left
    split <;> rfl

theorem State.writeReg_mem (s : State) (off : Nat) (v : Word) :
    (s.writeReg off v).mem = s.mem ∨ (s.writeReg off v).mem = s.doReset.mem := by
  unfold State.writeReg
  split
  · exact .inl rfl
  · exact s.writeCtrl_mem v
  · exact .inl rfl
  · exact .inl rfl
  · exact .inl (s.offer_mem v)
  · left
    split
    · rfl
    · exact s.writeConfig_mem _ v

theorem State.portWrite_mem (s : State) (off : BitVec 12) (size : Nat) (v : Word) :
    (s.portWrite off size v).mem = s.mem ∨ (s.portWrite off size v).mem = s.doReset.mem := by
  unfold State.portWrite
  split
  · exact .inl rfl
  · split
    · exact s.writeReg_mem off.toNat v
    · exact .inl rfl

theorem State.hostRead_mem (s : State) (a : Word) : (s.hostRead a).mem = s.mem := by
  unfold State.hostRead
  split <;> rfl

/-- What a host action does to memory: nothing, a reset's free bytes, or one byte written. -/
theorem hostStep_mem {act : HostAction} {s t : State} (h : hostStep act s = .next t) :
    t.mem = s.mem ∨ t.mem = s.doReset.mem ∨ ∃ (a : Word) (b : Byte), t.mem = s.mem.write a.toNat b := by
  cases act with
  | portRead off size => exact .inl (Host.Outcome.next.inj h ▸ s.portRead_mem off size)
  | portWrite off size v =>
    obtain rfl := Host.Outcome.next.inj h
    exact (s.portWrite_mem off size v).imp_right .inl
  | memRead a => exact .inl (Host.Outcome.next.inj h ▸ s.hostRead_mem a)
  | memWrite a b =>
    simp only [hostStep, State.hostWrite] at h
    split at h
    · simp at h
    · exact .inr (.inr ⟨a, b, Host.Outcome.next.inj h ▸ rfl⟩)
  | resetAssert => exact .inr (.inl (Host.Outcome.next.inj h ▸ rfl))
  | resetRelease => exact .inl (Host.Outcome.next.inj h ▸ rfl)

theorem hostStep_memoryCanonical {act : HostAction} {s t : State} (h : hostStep act s = .next t)
    (hs : s.MemoryCanonical) : t.MemoryCanonical := by
  unfold State.MemoryCanonical
  rcases hostStep_mem h with e | e | ⟨a, b, e⟩ <;> rw [e]
  · exact hs
  · obtain ⟨-, hwf, -⟩ := s.doReset_spec
    exact hwf hs
  · exact Memory.write_wf hs b a.isLt

/-- Settles O17: stores that answer, free bytes below 2^32 and the host's writes keep the form; nothing else writes. -/
theorem stepKeepsMemoryCanonical : Obligations.StepKeepsMemoryCanonical := by
  intro s t hs h
  obtain ⟨rest, h | ⟨act, h⟩⟩ := step_cases h
  · exact engineStep_memoryCanonical h hs
  · exact hostStep_memoryCanonical h hs

/-- Settles O24: a command that stores nothing has neither stores nor open regions; a storing one stores inside its
output regions, and its free bytes lie there too. -/
theorem memoryFrame : Obligations.MemoryFrame := by
  intro i s t h
  refine ⟨fun hi => ?_, fun hi hs => ?_⟩
  · obtain ⟨hmem, hfree⟩ := exec_quiet_mem hi h
    exact ⟨fun a => by rw [hmem], hfree⟩
  · obtain ⟨e, he⟩ := exists_storingBody hi s
    exact (exec_storing_changedIn he hs h).read

/-! ## The host's own accesses (R170, R711) -/

theorem outside_iff_any {rs : List Region} {a : Nat} : outside rs a ↔ (rs.any fun r => r.has a) = false := by
  simp [outside]

theorem hostWrite_outside {s : State} {a : Word} (h : outside (s.runningIns ++ s.runningOuts) a.toNat) (b : Byte) :
    s.hostWrite a b = .next ((s.setMem (s.mem.write a.toNat b)).setReply .written) := by
  simp only [State.hostWrite, outside_iff_any.1 h, Bool.false_eq_true, if_false]

theorem hostWrite_refused {s : State} {a : Word} (h : ¬outside (s.runningIns ++ s.runningOuts) a.toNat) (b : Byte) :
    s.hostWrite a b = .refused (.hostTouchesRunning a.toNat) := by
  rw [outside_iff_any, Bool.not_eq_false] at h
  simp only [State.hostWrite, h, if_true]

theorem hostRead_outside {s : State} {a : Word} (h : outside (s.devices ++ s.runningBuffers) a.toNat) :
    s.hostRead a = s.setReply (.byte (s.mem.read a.toNat)) := by
  simp only [State.hostRead, outside_iff_any.1 h, Bool.false_eq_true, if_false]

theorem hostRead_free {s : State} {a : Word} (h : ¬outside (s.devices ++ s.runningBuffers) a.toNat) :
    s.hostRead a = s.replyFreeByte := by
  rw [outside_iff_any, Bool.not_eq_false] at h
  simp only [State.hostRead, h, if_true]

/-- The output regions of XFORM do not depend on how it ends (R160, R171). -/
theorem outBuffers_xform (etq erec : Bool) (s : State) :
    outBuffers (.xform etq erec) s = xformOuts s.cfg etq erec := by
  unfold outBuffers storingBody bodyXform
  cases checkImg s.cfg with
  | error r => rfl
  | ok _ =>
    cases checkQ s.cfg with
    | error r => rfl
    | ok _ =>
      dsimp only
      cases xformFrom s.holes s.cfg etq erec s.cfg.blockCount 0 s.mem <;> rfl

/-- Nor do those of HASSIGN. -/
theorem outBuffers_hassign (s : State) : outBuffers .hassign s = [tableRegion s.cfg s.huff.syms.length] := by
  unfold outBuffers storingBody bodyHassign
  dsimp only
  cases checkStage s.huff (s.huff.stage == .built || s.huff.stage == .assigned) with
  | error r => rfl
  | ok _ =>
    cases codesOf (if !isTree s.huff.nodes s.huff.root s.huff.syms.length then
        freePaths s.freeIdx s.huff.syms.length
      else leafPaths s.huff.nodes s.huff.root s.huff.syms.length) with
    | error r => rfl
    | ok codes =>
      dsimp only [Except.mapError, Bind.bind, Except.bind]
      cases storeAll s.holes (tableStores s.cfg s.huff.syms codes) s.mem <;> rfl

theorem State.runningBuffers_of_decode {s : State} {i : Instr} (hb : s.status.busy = true)
    (hd : decode s.cmd = .ok i) : s.runningBuffers = outBuffers i s := by
  simp only [State.runningBuffers, State.runningRegions, hb, hd, if_true]

/-- Settles O16: the host's accesses are byte-wide, and refused or free only in the running command's regions. -/
theorem hostMemoryAccess : Obligations.HostMemoryAccess := by
  intro s a b rest hs u
  refine ⟨fun hout h => ?_, fun hout h => ?_, fun hout h => ?_, fun hout h => ?_, fun hb => ⟨fun etq erec hd => ?_,
    fun hd => ?_⟩, fun hb => ?_⟩
  · exact ⟨s.mem.write a.toNat b, (step_of_host h).trans (hostWrite_outside hout b),
      fun c => Memory.read_write hs a.toNat c b⟩
  · exact (step_of_host h).trans (hostWrite_refused hout b)
  · exact (step_of_host h).trans (congrArg _ (hostRead_outside hout))
  · exact ⟨Config.freeByte s.freeIdx, s.freeIdx + 1, (step_of_host h).trans (congrArg _ (hostRead_free hout))⟩
  · exact (State.runningBuffers_of_decode (s := u) hb hd).trans (outBuffers_xform etq erec u)
  · exact (State.runningBuffers_of_decode (s := u) hb hd).trans (outBuffers_hassign u)
  · exact ⟨State.runningIns_idle (s := u) hb, State.runningOuts_idle (s := u) hb, State.runningBuffers_idle (s := u) hb⟩

end Sys2Proof.Machine

/-! PROOFS. Loads and stores of a matrix (41_matrix.md R312, R313): the error entry of a command in terms of `stopped`,
lists of stores that share no byte, the cells in row-major order, then MLOAD and MSTORE. -/

namespace Sys2Proof.Machine

/-! ## The error entry (60_exceptions.md R610) -/

/-- An error of a command that is not of the Huffman unit and does not empty the queue. -/
theorem State.errorEntry_eq_stopped (s : State) {r : Raise} (hop : isHuffmanOp (opField s.cmd) = false)
    (hq : r.emptiesQueue = false) : s.errorEntry r =
      { s.stopped r.code.toByte r.addr r.info with
        mem := (s.errorEntry r).mem, freeIdx := (s.errorEntry r).freeIdx } := by
  rw [State.errorEntry_eq]
  simp [State.stopped, hop, hq]

/-- An error of a command of the Huffman unit that does not empty the queue. -/
theorem State.errorEntry_eq_stoppedHuffman (s : State) {r : Raise} (hop : isHuffmanOp (opField s.cmd) = true)
    (hc : r.code ≠ .illegal) (hq : r.emptiesQueue = false) : s.errorEntry r =
      { s.stoppedHuffman r.code.toByte r.addr r.info with
        mem := (s.errorEntry r).mem, freeIdx := (s.errorEntry r).freeIdx } := by
  have hb : (r.code != .illegal) = true := by simpa using hc
  rw [State.errorEntry_eq]
  simp [State.stopped, State.stoppedHuffman, hop, hq, hb]

/-- An error of HUFF from its building body on, which empties the queue (43_huffman.md R470). -/
theorem State.errorEntry_eq_emptied (s : State) {r : Raise} (hop : isHuffmanOp (opField s.cmd) = true)
    (hc : r.code ≠ .illegal) (hq : r.emptiesQueue = true) : s.errorEntry r =
      { (s.stoppedHuffman r.code.toByte r.addr r.info).setPq PQueue.empty with
        mem := (s.errorEntry r).mem, freeIdx := (s.errorEntry r).freeIdx } := by
  have hb : (r.code != .illegal) = true := by simpa using hc
  rw [State.errorEntry_eq]
  simp [State.stopped, State.stoppedHuffman, State.setPq, hop, hq, hb]

/-- An error that leaves no byte open, and before which no free value was drawn, leaves memory as it was. -/
theorem State.errorEntry_quiet (s : State) {r : Raise} (hd : r.dirty = []) (hn : r.drawn = 0) :
    (s.errorEntry r).mem = s.mem ∧ (s.errorEntry r).freeIdx = s.freeIdx := by
  rw [State.errorEntry_eq, hd, hn]
  exact ⟨rfl, rfl⟩

/-! ## Values that were stored -/

theorem Region.has_eq_true {r : Region} {a : Nat} : r.has a = true ↔ r.base ≤ a ∧ a < r.base + r.len := by
  simp only [Region.has, Bool.and_eq_true, decide_eq_true_eq]

/-- The stored value is read back when every other store of the list lies apart from it. -/
theorem readLE_writeAll {hs : List Region} {l : List Store} {m : Memory} {x : Store} (hm : m.wf = true)
    (hok : ∀ y ∈ l, rangeOk hs y.acc.addr y.acc.size)
    (hapart : ∀ y ∈ l, y ≠ x → Region.Apart y.acc.region x.acc.region)
    (hx : x ∈ l ∨ m.readLE x.acc.addr x.acc.size = x.val % 256 ^ x.acc.size) :
    (writeAll l m).readLE x.acc.addr x.acc.size = x.val % 256 ^ x.acc.size := by
  induction l generalizing m with
  | nil => exact hx.resolve_left (by simp)
  | cons y t ih =>
    have hy : ∀ z ∈ [y], rangeOk hs z.acc.addr z.acc.size := by simpa using hok y (by simp)
    refine ih (m := writeAll [y] m) (writeAll_wf hm hy) (fun z hz => hok z (by simp [hz]))
      (fun z hz => hapart z (by simp [hz])) ?_
    by_cases hyx : y = x
    · subst hyx
      right
      rcases Nat.eq_zero_or_pos y.acc.size with h0 | h0
      · simp [h0, Memory.readLE, Nat.mod_one]
      · exact Memory.readLE_writeLE hm y.val ((hok y (by simp)).le_addrTop h0)
    · refine hx.imp (fun hmem => (List.mem_cons.1 hmem).resolve_left (Ne.symm hyx)) fun hread => ?_
      rw [← hread]
      refine Memory.readLE_congr fun k hk => read_writeAll_outside hm hy fun z hz => ?_
      obtain rfl := List.mem_singleton.1 hz
      by_contra hhas
      exact hapart z (by simp) hyx (x.acc.addr + k)
        ⟨by simpa using hhas, Region.has_eq_true.2 ⟨Nat.le_add_right _ _, Nat.add_lt_add_left hk _⟩⟩

/-- Regions clash exactly when they are not all apart. -/
theorem regionsClash_eq_false_iff {outs ins : List Region} : regionsClash outs ins = false ↔
    outs.Pairwise Region.Apart ∧ ∀ o ∈ outs, ∀ r ∈ ins, Region.Apart o r := by
  induction outs with
  | nil => simp [regionsClash]
  | cons o t ih =>
    simp only [regionsClash, Bool.or_eq_false_iff, ih, List.any_eq_false, Bool.not_eq_true,
      Region.overlaps_eq_false_iff, List.pairwise_cons, List.forall_mem_cons]
    tauto

/-! ## Cells in row-major order -/

theorem range_split {k n : Nat} (h : k < n) :
    List.range n = List.range k ++ k :: List.range' (k + 1) (n - (k + 1)) := by
  have happend := List.range'_append_1 (s := 0) (m := k) (n := n - (k + 1) + 1)
  rw [Nat.zero_add] at happend
  rw [List.range_eq_range', List.range_eq_range', ← List.range'_succ, happend]
  congr 1
  omega

/-- The cells before (r, c), and those after. -/
theorem cells_split {h w r c : Nat} (hr : r < h) (hc : c < w) :
    ∃ before after, cells h w = before ++ (r, c) :: after ∧
      (∀ q ∈ before, q.1 < h ∧ q.2 < w ∧ (q.1 < r ∨ q.1 = r ∧ q.2 < c)) := by
  refine ⟨(List.range (r * w + c)).map fun k => (k / w, k % w),
    (List.range' (r * w + c + 1) (h * w - (r * w + c + 1))).map fun k => (k / w, k % w), ?_, ?_⟩
  · rw [cells, range_split (cell_lt hr hc), List.map_append, List.map_cons, cell_div hc, cell_mod hc]
  · intro q hq
    obtain ⟨k, hk, rfl⟩ := List.mem_map.1 hq
    have hk := List.mem_range.1 hk
    have hw : 0 < w := by omega
    have hdiv : k / w ≤ r := by
      have := Nat.div_le_div_right (c := w) hk.le
      rwa [cell_div hc] at this
    have hmod := Nat.mod_lt k hw
    refine ⟨by dsimp only; omega, hmod, ?_⟩
    have hsum := Nat.div_add_mod k w
    rcases Nat.lt_or_eq_of_le hdiv with hlt | heq
    · exact .inl hlt
    · refine .inr ⟨heq, ?_⟩
      rw [heq, Nat.mul_comm] at hsum
      dsimp only
      omega

/-- The accesses of a matrix's elements up to (r, c), when the byte `k` of that element is the first that does not
answer. -/
theorem Csr.firstBad_cell {hs : List Region} {c : Csr} {es h w r k col : Nat} (hr : r < h) (hc : col < w) (hk : k < es)
    (hbefore : ∀ r' c', r' < h → c' < w → r' < r ∨ (r' = r ∧ c' < col) →
      rangeOk hs (c.cell es r' c').addr es)
    (hok : rangeOk hs (c.cell es r col).addr k) (hbad : memOk hs ((c.cell es r col).addr + k) = false) :
    ∃ before after, cells h w = before ++ (r, col) :: after ∧
      (∀ q ∈ before, rangeOk hs (c.cell es q.1 q.2).addr (c.cell es q.1 q.2).size) ∧
      firstBad hs (c.cell es r col).addr (c.cell es r col).size = some ((c.cell es r col).addr + k) := by
  obtain ⟨before, after, heq, hlt⟩ := cells_split hr hc
  refine ⟨before, after, heq, fun q hq => ?_, firstBad_some_iff.2 ⟨k, hk, rfl, hok, hbad⟩⟩
  obtain ⟨h1, h2, h3⟩ := hlt q hq
  exact hbefore q.1 q.2 h1 h2 h3

/-! ## MLOAD -/

/-- The matrix a load gives off every device: each element from its own bytes (R312). -/
def loadedMat (s : State) (f : Fmt) (h w : Nat) : Mat :=
  Mat.ofFn h w fun r c => fmtLoad f (s.mem.readLE (s.cfg.cell (fmtSize f) r c).addr (fmtSize f))

theorem execMload_ok {d : MReg} {h w : Nat} {f : Fmt} {s : State} (hs : checkShape h w = .ok ())
    (hok : ∀ r c, r < h → c < w → rangeOk s.holes (s.cfg.cell (fmtSize f) r c).addr (fmtSize f)) :
    exec (.mload d h w f) s = .next (if s.onDevice (mloadIns s.cfg f h w) then
      (s.setM d (freeMat s.freeIdx h w)).draw 1 else s.setM d (loadedMat s f h w)).complete := by
  have hload := loadAll_ok (m := s.mem) (l := s.cfg.cellList (fmtSize f) h w) (hs := s.holes) fun x hx => by
    obtain ⟨rc, hrc, rfl⟩ := List.mem_map.1 hx
    obtain ⟨hr, hc⟩ := mem_cells.1 hrc
    exact hok rc.1 rc.2 hr hc
  have hmat : (⟨h, w, ((s.cfg.cellList (fmtSize f) h w).map fun x => s.mem.readLE x.addr x.size).map (fmtLoad f)⟩ : Mat)
      = loadedMat s f h w := by
    simp only [loadedMat, Mat.ofFn, Csr.cellList, cells, List.map_map]
    rfl
  simp only [exec, execMload, bodyMload, hs, hload]
  rw [← hmat]
  rfl

theorem execMload_bus {d : MReg} {h w : Nat} {f : Fmt} {s : State} {before after : List (Nat × Nat)} {r c b : Nat}
    (hs : checkShape h w = .ok ()) (hcells : cells h w = before ++ (r, c) :: after)
    (hbefore : ∀ q ∈ before,
      rangeOk s.holes (s.cfg.cell (fmtSize f) q.1 q.2).addr (s.cfg.cell (fmtSize f) q.1 q.2).size)
    (hbad : firstBad s.holes (s.cfg.cell (fmtSize f) r c).addr (s.cfg.cell (fmtSize f) r c).size = some b) :
    exec (.mload d h w f) s = .next (s.errorEntry (Raise.bus false b (8 * r + c))) := by
  have hload : loadAll s.holes s.mem (s.cfg.cellList (fmtSize f) h w) = .error (Raise.bus false b (8 * r + c)) := by
    rw [Csr.cellList, hcells, List.map_append, List.map_cons]
    refine loadAll_error (fun y hy => ?_) hbad
    obtain ⟨q, hq, rfl⟩ := List.mem_map.1 hy
    exact hbefore q hq
  simp only [exec, execMload, bodyMload, hs, hload]
  rfl

/-- The value of an element is that of R312. -/
theorem fmtLoad_u8 {raw : Nat} (h : raw < 256) : fmtLoad .u8 raw = f64 (raw : Int) := by
  rw [fmtLoad, BitVec.toNat_ofNat, Nat.mod_eq_of_lt h]

theorem Raise.bus_false_info {i : Nat} (hi : i < 2 ^ 31) (b : Nat) :
    (Raise.bus false b i).info = BitVec.ofNat 32 i := by
  simp only [Raise.bus, Bool.false_eq_true, if_false, Nat.mod_eq_of_lt hi, Nat.zero_add]

/-- An error on plain memory of a command that is not of the Huffman unit. -/
theorem State.errorEntry_bus (s : State) (b i : Nat) (hop : isHuffmanOp (opField s.cmd) = false) (hi : i < 2 ^ 31) :
    s.errorEntry (Raise.bus false b i) = s.stopped 0x09#8 (BitVec.ofNat 32 b) (BitVec.ofNat 32 i) := by
  obtain ⟨hmem, hfree⟩ := s.errorEntry_quiet (r := Raise.bus false b i) rfl rfl
  rw [s.errorEntry_eq_stopped hop rfl, hmem, hfree, Raise.bus_false_info hi]
  rfl

/-- Settles O33: with the shape legal the loads run in row-major order; the first byte that does not answer stops
them. -/
theorem mloadResult : Obligations.MloadResult := by
  intro d h w f s es value a
  have hes : es = fmtSize f := by cases f <;> rfl
  clear_value es
  subst hes
  have hvalue : ∀ r c, fmtLoad f (s.mem.readLE (a r c) (fmtSize f)) = value (s.mem.readLE (a r c) (fmtSize f)) :=
    fun r c => by
      cases f with
      | f64 | i16 => rfl
      | u8 => exact fmtLoad_u8 (Memory.readLE_lt _ _ 1)
  refine ⟨fun hshape hok => ?_, fun hop hshape r c k hr hc hk hbefore hreach hbad => ?_, fun hop hshape => ?_⟩
  · have hs := checkShape_ok_iff.2 hshape
    obtain ⟨h1, h2, w1, w2⟩ := hshape
    rw [execMload_ok hs hok]
    by_cases hdev : s.onDevice (mloadIns s.cfg f h w) = true
    · refine ⟨freeMat s.freeIdx h w, s.freeIdx + 1, freeMat_wf hs, rfl, rfl, by rw [if_pos hdev]; rfl, fun hoff => ?_⟩
      have : s.onDevice (mloadIns s.cfg f h w) = false := State.onDevice_eq_false_iff.2 fun reg hreg dev hdev => by
        obtain ⟨x, hx, rfl⟩ := List.mem_map.1 hreg
        obtain ⟨rc, hrc, rfl⟩ := List.mem_map.1 hx
        obtain ⟨hr, hc⟩ := mem_cells.1 hrc
        exact hoff rc.1 rc.2 hr hc dev hdev
      simp [hdev] at this
    · refine ⟨loadedMat s f h w, s.freeIdx, Mat.ofFn_wf _ h1 h2 w1 w2, rfl, rfl, by rw [if_neg hdev]; rfl,
        fun _ => ⟨rfl, ?_⟩⟩
      obtain ⟨-, -, hlen, hget⟩ := Mat.ofFn_hasElements h w
        fun r c => fmtLoad f (s.mem.readLE (a r c) (fmtSize f))
      exact ⟨rfl, rfl, hlen, fun r c hr hc => (hget r c hr hc).trans (hvalue r c)⟩
  · obtain ⟨before, after, hcells, hall, hfirst⟩ :=
      Csr.firstBad_cell (c := s.cfg) hr hc hk hbefore hreach hbad
    rw [execMload_bus (checkShape_ok_iff.2 hshape) hcells hall hfirst,
      s.errorEntry_bus _ _ (by rw [hop]; rfl) (by omega)]
    rfl
  · have hs : checkShape h w = .error (Raise.plain .shape (BitVec.ofNat 32 (h * 16 + w))) := by
      exact need_error_iff.2 ⟨Bool.eq_false_iff.2 fun hc => hshape (checkShape_ok_iff.1 (need_ok_iff.2 hc)), rfl⟩
    simp only [exec, execMload, bodyMload, hs]
    exact congrArg _ (s.errorEntry_plain _ _ (by rw [hop]; rfl))

/-! ## MSTORE -/

theorem execMstore_ok {a : MReg} {f : Fmt} {m : Mat} {s : State} (ha : s.mregs[a] = some m)
    (hok : ∀ r c, r < m.h → c < m.w → rangeOk s.holes (s.cfg.cell (fmtSize f) r c).addr (fmtSize f)) :
    exec (.mstore a f) s = .next (Written.settle
      ⟨s.setMem (writeAll (mstoreList s.cfg f m) s.mem), [], mstoreOuts s.cfg f m, false⟩).complete := by
  have hstore := storeAll_ok (m := s.mem) (l := mstoreList s.cfg f m) (hs := s.holes) fun x hx => by
    obtain ⟨rc, hrc, rfl⟩ := List.mem_map.1 hx
    obtain ⟨hr, hc⟩ := mem_cells.1 hrc
    exact hok rc.1 rc.2 hr hc
  simp only [exec, execMstore, bodyMstore, State.readM_some ha]
  simp only [Except.mapError, Bind.bind, Except.bind, hstore]
  rfl

theorem execMstore_bus {a : MReg} {f : Fmt} {m : Mat} {s : State} {before after : List (Nat × Nat)} {r c b : Nat}
    (ha : s.mregs[a] = some m) (hcells : cells m.h m.w = before ++ (r, c) :: after)
    (hbefore : ∀ q ∈ before,
      rangeOk s.holes (s.cfg.cell (fmtSize f) q.1 q.2).addr (s.cfg.cell (fmtSize f) q.1 q.2).size)
    (hbad : firstBad s.holes (s.cfg.cell (fmtSize f) r c).addr (s.cfg.cell (fmtSize f) r c).size = some b) :
    exec (.mstore a f) s =
      .next (s.errorEntry ((Raise.bus true b (8 * r + c)).withDirty (mstoreOuts s.cfg f m))) := by
  have hstore : storeAll s.holes (mstoreList s.cfg f m) s.mem = .error (Raise.bus true b (8 * r + c)) := by
    rw [mstoreList, hcells, List.map_append, List.map_cons]
    refine storeAll_error (fun y hy => ?_) hbad
    obtain ⟨q, hq, rfl⟩ := List.mem_map.1 hy
    exact hbefore q hq
  simp only [exec, execMstore, bodyMstore, State.readM_some ha]
  simp only [Except.mapError, Bind.bind, Except.bind, hstore]
  rfl

/-- The bytes of a stored element are no more than its width. -/
theorem fmtStore_lt (f : Fmt) (rm : Bool) (x : F64) : fmtStore f rm x < 256 ^ fmtSize f := by
  cases f with
  | f64 => exact x.isLt
  | i16 => exact (toI16 x rm).isLt
  | u8 => exact (clampByte x).isLt

/-- MSTORE's output regions are apart when no two elements share a byte. -/
theorem mstoreOuts_pairwise {c : Csr} {f : Fmt} {m : Mat} (h : ∀ p ∈ cells m.h m.w, ∀ q ∈ cells m.h m.w, p ≠ q →
      Region.Apart (c.cell (fmtSize f) p.1 p.2).region (c.cell (fmtSize f) q.1 q.2).region) :
    (mstoreOuts c f m).Pairwise Region.Apart := by
  have hnodup : (cells m.h m.w).Nodup := by
    refine List.Nodup.map_on (fun x _ y _ hxy => ?_) List.nodup_range
    obtain ⟨hdiv, hmod⟩ := Prod.mk.inj hxy
    rw [← Nat.div_add_mod x m.w, hdiv, hmod, Nat.div_add_mod]
  simp only [mstoreOuts, Csr.cellList, List.map_map, List.pairwise_map]
  exact hnodup.imp_of_mem fun hp hq hne => h _ hp _ hq hne

/-- Settles O34: the stores run in row-major order, and each is read back when no two share a byte. -/
theorem mstoreResult : Obligations.MstoreResult := by
  intro a f m s hs ha es raw at_
  have hes : es = fmtSize f := by cases f <;> rfl
  clear_value es
  subst hes
  have hraw : ∀ x, raw x = fmtStore f s.cfg.rnd x := fun x => by cases f <;> rfl
  refine ⟨fun hok => ?_, fun hop r c k hr hc hk hbefore hreach hbad => ?_⟩
  · refine ⟨_, execMstore_ok ha hok, ?_, fun hapart r c hr hc => ?_⟩
    · obtain ⟨⟨mem, i, e⟩, -⟩ := Written.settle_spec
        ⟨s.setMem (writeAll (mstoreList s.cfg f m) s.mem), [], mstoreOuts s.cfg f m, false⟩
      rw [e]
      rfl
    · have hcells : ∀ p ∈ cells m.h m.w, ∀ q ∈ cells m.h m.w, p ≠ q →
          Region.Apart (s.cfg.cell (fmtSize f) p.1 p.2).region (s.cfg.cell (fmtSize f) q.1 q.2).region :=
        fun p hp q hq hne => hapart p.1 p.2 q.1 q.2 (mem_cells.1 hp).1 (mem_cells.1 hp).2 (mem_cells.1 hq).1
          (mem_cells.1 hq).2 fun h => hne (Prod.ext h.1 h.2)
      rw [Written.settle_of_disjoint _ rfl
        (regionsClash_eq_false_iff.2 ⟨mstoreOuts_pairwise hcells, by simp⟩), hraw]
      have hrc : (r, c) ∈ cells m.h m.w := mem_cells.2 ⟨hr, hc⟩
      refine (readLE_writeAll (l := mstoreList s.cfg f m) (hs := s.holes)
        (x := ⟨s.cfg.cell (fmtSize f) r c, fmtStore f s.cfg.rnd (m.get r c)⟩) hs
        (fun y hy => ?_) (fun y hy hne => ?_) (.inl (List.mem_map_of_mem hrc))).trans
        (Nat.mod_eq_of_lt (fmtStore_lt f s.cfg.rnd (m.get r c)))
      · obtain ⟨q, hq, rfl⟩ := List.mem_map.1 hy
        exact hok q.1 q.2 (mem_cells.1 hq).1 (mem_cells.1 hq).2
      · obtain ⟨q, hq, rfl⟩ := List.mem_map.1 hy
        exact hcells q hq (r, c) hrc fun h => hne (by rw [h])
  · obtain ⟨before, after, hcells, hall, hfirst⟩ :=
      Csr.firstBad_cell (c := s.cfg) hr hc hk hbefore hreach hbad
    exact ⟨_, execMstore_bus ha hcells hall hfirst, s.errorEntry_eq_stopped (by rw [hop]; rfl) rfl⟩

end Sys2Proof.Machine

/-! PROOFS. XFORM (42_transform.md R420, R423): its accesses in order and the first that does not answer, the memory it
leaves, the outputs of each block, then the stepwise commands on one block. -/

namespace Sys2Proof.Machine

/-! ## The first access that does not answer (R153) -/

/-- The error of the first of the accesses, reads or writes (`true`), that does not answer. -/
def firstBus (hs : List Region) : List (Bool × Access) → Option Raise
  | [] => none
  | x :: t =>
    match firstBad hs x.2.addr x.2.size with
    | some b => some (Raise.bus x.1 b x.2.idx)
    | none => firstBus hs t

theorem firstBus_append (hs : List Region) (l l' : List (Bool × Access)) :
    firstBus hs (l ++ l') = (firstBus hs l).or (firstBus hs l') := by
  induction l with
  | nil => rfl
  | cons x t ih =>
    simp only [List.cons_append, firstBus]
    split
    · rfl
    · exact ih

theorem firstBus_eq_none_iff {hs : List Region} {l : List (Bool × Access)} :
    firstBus hs l = none ↔ ∀ x ∈ l, rangeOk hs x.2.addr x.2.size := by
  induction l with
  | nil => simp [firstBus]
  | cons x t ih =>
    rw [List.forall_mem_cons, ← ih, ← firstBad_none_iff, firstBus]
    split <;> rename_i h <;> simp [h]

/-- The accesses before answer, and of the access `x` the bytes before byte `k`. -/
theorem firstBus_split {hs : List Region} {before after : List (Bool × Access)} {x : Bool × Access} {k : Nat}
    (hbefore : ∀ y ∈ before, rangeOk hs y.2.addr y.2.size) (hk : k < x.2.size) (hok : rangeOk hs x.2.addr k)
    (hbad : memOk hs (x.2.addr + k) = false) :
    firstBus hs (before ++ x :: after) = some (Raise.bus x.1 (x.2.addr + k) x.2.idx) := by
  rw [firstBus_append, firstBus_eq_none_iff.2 hbefore, Option.none_or, firstBus,
    firstBad_some_iff.2 ⟨k, hk, rfl, hok, hbad⟩]

theorem loadAll_of_firstBus {hs : List Region} {m : Memory} {l : List Access} {r : Raise}
    (h : firstBus hs (l.map (Prod.mk false)) = some r) : loadAll hs m l = .error r := by
  induction l with
  | nil => simp [firstBus] at h
  | cons x t ih =>
    rw [List.map_cons, firstBus] at h
    rw [loadAll]
    cases hx : firstBad hs x.addr x.size with
    | some b =>
      simp only [hx] at h
      exact congrArg _ (Option.some.inj h)
    | none =>
      simp only [hx] at h
      rw [ih h]
      rfl

theorem storeAll_of_firstBus {hs : List Region} {m : Memory} {l : List Store} {r : Raise}
    (h : firstBus hs ((l.map Store.acc).map (Prod.mk true)) = some r) : storeAll hs l m = .error r := by
  induction l generalizing m with
  | nil => simp [firstBus] at h
  | cons x t ih =>
    rw [List.map_cons, List.map_cons, firstBus] at h
    rw [storeAll]
    cases hx : firstBad hs x.acc.addr x.acc.size with
    | some b =>
      simp only [hx] at h
      exact congrArg _ (Option.some.inj h)
    | none =>
      simp only [hx] at h
      exact ih h

/-! ## The accesses of XFORM -/

theorem zzStores_acc (c : Csr) (j : Nat) (tr tr' : Mat) :
    (zzStores c j tr).map Store.acc = (zzStores c j tr').map Store.acc := by
  simp only [zzStores, List.map_map, Function.comp_def]

theorem tqStores_acc (c : Csr) (j : Nat) (tr tr' : Mat) :
    (tqStores c j tr).map Store.acc = (tqStores c j tr').map Store.acc := by
  simp only [tqStores, List.map_map, Function.comp_def]

theorem recStores_acc (c : Csr) (j : Nat) (tr tr' : Mat) :
    (recStores c j tr).map Store.acc = (recStores c j tr').map Store.acc := by
  simp only [recStores, List.map_map, Function.comp_def]

/-- The accesses of a block do not depend on its values. -/
theorem blockStores_acc (c : Csr) (etq erec : Bool) (j : Nat) (tr tr' : Mat) :
    (blockStores c etq erec j tr).map Store.acc = (blockStores c etq erec j tr').map Store.acc := by
  have hzz := zzStores_acc c j tr tr'
  have htq := tqStores_acc c j tr tr'
  have hrec := recStores_acc c j (blockRec c tr) (blockRec c tr')
  cases etq <;> cases erec <;> simp [blockStores, hzz, htq, hrec]

/-- The accesses of block `j` in order. -/
def blockAccesses (c : Csr) (etq erec : Bool) (j : Nat) : List (Bool × Access) :=
  (blockLoads c j).map (Prod.mk false) ++ ((blockStores c etq erec j ⟨8, 8, []⟩).map Store.acc).map (Prod.mk true)

theorem xformAccesses_eq (c : Csr) (etq erec : Bool) :
    xformAccesses c etq erec = (List.range' 0 c.blockCount).flatMap (blockAccesses c etq erec) := by
  rw [xformAccesses, ← List.range_eq_range']
  refine List.flatMap_congr fun j _ => ?_
  simp only [blockAccesses, blockLoads, blockStores, zzStores, tqStores, recStores, cells, List.map_append,
    List.map_map, List.append_assoc]
  cases etq <;> cases erec <;> rfl

/-- XFORM stops at the first access that does not answer. -/
theorem xformFrom_of_firstBus {hs : List Region} {c : Csr} {etq erec : Bool} {n j : Nat} {m : Memory} {r : Raise}
    (h : firstBus hs ((List.range' j n).flatMap (blockAccesses c etq erec)) = some r) :
    xformFrom hs c etq erec n j m = .error r := by
  induction n generalizing j m with
  | zero => simp [firstBus] at h
  | succ n ih =>
    rw [List.range'_succ, List.flatMap_cons, firstBus_append, blockAccesses, firstBus_append] at h
    simp only [xformFrom, xformBlock]
    cases hload : firstBus hs ((blockLoads c j).map (Prod.mk false)) with
    | some q =>
      rw [hload] at h
      rw [loadAll_of_firstBus hload]
      exact congrArg _ (Option.some.inj h)
    | none =>
      rw [hload, Option.none_or] at h
      rw [loadAll_ok fun x hx => firstBus_eq_none_iff.1 hload _ (List.mem_map_of_mem hx)]
      generalize hraw : (blockLoads c j).map (fun x => m.readLE x.addr x.size) = raw
      have hacc := blockStores_acc c etq erec j ⟨8, 8, []⟩ (blockTr c (sampleMat raw))
      rw [hacc] at h
      simp only [Bind.bind, Except.bind]
      cases hstore : firstBus hs
          (((blockStores c etq erec j (blockTr c (sampleMat raw))).map Store.acc).map (Prod.mk true)) with
      | some q =>
        rw [hstore] at h
        rw [storeAll_of_firstBus hstore]
        exact congrArg _ (Option.some.inj h)
      | none =>
        rw [hstore, Option.none_or] at h
        rw [storeAll_ok fun x hx => firstBus_eq_none_iff.1 hstore (true, x.acc)
          (List.mem_map_of_mem (List.mem_map_of_mem hx))]
        exact ih h

/-! ## The memory XFORM leaves -/

/-- The samples of block `j`. -/
def blockSamples (c : Csr) (m : Memory) (j : Nat) : Mat :=
  sampleMat ((blockLoads c j).map fun x => m.readLE x.addr x.size)

/-- Memory after `n` blocks from block `j` on. -/
def xformMem (c : Csr) (etq erec : Bool) : Nat → Nat → Memory → Memory
  | 0, _, m => m
  | n + 1, j, m =>
    xformMem c etq erec n (j + 1) (writeAll (blockStores c etq erec j (blockTr c (blockSamples c m j))) m)

/-- The stores of `n` blocks from block `j` on, when the samples are those of memory `m`. -/
def xformStores (c : Csr) (etq erec : Bool) (m : Memory) (n j : Nat) : List Store :=
  (List.range' j n).flatMap fun i => blockStores c etq erec i (blockTr c (blockSamples c m i))

theorem mem_xformStores {c : Csr} {etq erec : Bool} {m : Memory} {n j : Nat} {x : Store} :
    x ∈ xformStores c etq erec m n j ↔
      ∃ i, j ≤ i ∧ i < j + n ∧ x ∈ blockStores c etq erec i (blockTr c (blockSamples c m i)) := by
  simp only [xformStores, List.mem_flatMap, List.mem_range'_1, and_assoc]

theorem rangeOk.sub {hs : List Region} {r : Region} {x : Access} (h : rangeOk hs r.base r.len) (hx : x.inside r) :
    rangeOk hs x.addr x.size := by
  intro k hk
  obtain ⟨hlo, hhi⟩ := hx
  have := h (x.addr - r.base + k) (by omega)
  rwa [show r.base + (x.addr - r.base + k) = x.addr + k by omega] at this

theorem Access.inside.has {x : Access} {r : Region} (h : x.inside r) {a : Nat} (ha : x.region.has a = true) :
    r.has a = true := by
  obtain ⟨hlo, hhi⟩ := h
  simp only [Region.has_eq_true, Access.region] at ha ⊢
  omega

/-- An access in one region is apart from an access in a region apart from it. -/
theorem Region.Apart.of_inside {r q : Region} {x y : Access} (h : Region.Apart r q) (hx : x.inside r)
    (hy : y.inside q) : Region.Apart x.region y.region := by
  rintro a ⟨hax, hay⟩
  exact h a ⟨hx.has hax, hy.has hay⟩

section
variable {hs : List Region} {c : Csr} {etq erec : Bool} (hw : c.imgW % 8 = 0) (hh : c.imgH % 8 = 0)
include hw hh

theorem blockLoads_inside {j : Nat} (hj : j < c.blockCount) :
    ∀ x ∈ blockLoads c j, x.inside ⟨c.imgSrc.toNat, c.imgW * c.imgH⟩ := by
  intro x hx
  obtain ⟨rc, hrc, rfl⟩ := List.mem_map.1 hx
  obtain ⟨hr, hk⟩ := mem_cells.1 hrc
  have := Csr.samplePos_lt hw hh hj hr hk
  simp only [Access.inside]
  omega

theorem blockStores_rangeOk (hout : ∀ r ∈ xformOuts c etq erec, rangeOk hs r.base r.len) {j : Nat}
    (hj : j < c.blockCount) (tr : Mat) : ∀ x ∈ blockStores c etq erec j tr, rangeOk hs x.acc.addr x.acc.size := by
  intro x hx
  obtain ⟨r, hr, hin⟩ := blockStores_within hw hh hj tr etq erec x hx
  exact (hout r hr).sub hin

theorem xformFrom_ok (hin : rangeOk hs c.imgSrc.toNat (c.imgW * c.imgH))
    (hout : ∀ r ∈ xformOuts c etq erec, rangeOk hs r.base r.len) {n j : Nat} (hj : j + n ≤ c.blockCount)
    (m : Memory) : xformFrom hs c etq erec n j m = .ok (xformMem c etq erec n j m) := by
  induction n generalizing j m with
  | zero => rfl
  | succ n ih =>
    have hload := loadAll_ok (m := m) fun x hx => hin.sub (blockLoads_inside hw hh (j := j) (by omega) x hx)
    have hstore := storeAll_ok (m := m)
      (blockStores_rangeOk hw hh hout (j := j) (by omega) (blockTr c (blockSamples c m j)))
    have hblock : xformBlock hs c etq erec j m =
        .ok (writeAll (blockStores c etq erec j (blockTr c (blockSamples c m j))) m) := by
      rw [xformBlock, hload]
      exact hstore
    simp only [xformFrom, hblock]
    exact ih (by omega) _

/-- With the outputs apart from the raster every block's samples are those before the command. -/
theorem xformMem_eq (hout : ∀ r ∈ xformOuts c etq erec, rangeOk hs r.base r.len)
    (hapart : ∀ r ∈ xformOuts c etq erec, Region.Apart ⟨c.imgSrc.toNat, c.imgW * c.imgH⟩ r) {m m0 : Memory}
    {n j : Nat} (hj : j + n ≤ c.blockCount) (hm : m.wf = true)
    (heq : ∀ a, Region.has ⟨c.imgSrc.toNat, c.imgW * c.imgH⟩ a = true → m.read a = m0.read a) :
    xformMem c etq erec n j m = writeAll (xformStores c etq erec m0 n j) m := by
  induction n generalizing j m with
  | zero => rfl
  | succ n ih =>
    have hsamples : blockSamples c m j = blockSamples c m0 j := by
      refine congrArg sampleMat (List.map_congr_left fun x hx => Memory.readLE_congr fun k hk => heq _ ?_)
      refine (blockLoads_inside hw hh (by omega) x hx).has ?_
      simp only [Region.has_eq_true, Access.region]
      omega
    have hok := blockStores_rangeOk hw hh hout (j := j) (by omega) (blockTr c (blockSamples c m0 j))
    rw [xformMem, hsamples, ih (by omega) (writeAll_wf hm hok)]
    · simp only [xformStores, List.range'_succ, List.flatMap_cons, writeAll, List.foldl_append]
    · intro a ha
      refine (read_writeAll_outside hm hok fun x hx => ?_).trans (heq a ha)
      obtain ⟨r, hr, hin⟩ := blockStores_within hw hh (by omega) _ etq erec x hx
      exact Bool.eq_false_iff.2 fun hhas => hapart r hr a ⟨ha, hin.has hhas⟩

end

/-! ## The stores share no byte -/

/-- Slots of one size share no byte. -/
theorem slots_apart {b z n n' : Nat} (h : n ≠ n') : Region.Apart ⟨b + z * n, z⟩ ⟨b + z * n', z⟩ := by
  have key : ∀ p q, p < q → Region.Apart ⟨b + z * p, z⟩ ⟨b + z * q, z⟩ := fun p q hpq => by
    refine Region.apart_of_le ?_
    have := Nat.mul_le_mul_left z (Nat.succ_le_of_lt hpq)
    rw [Nat.mul_succ] at this
    dsimp only
    omega
  rcases Nat.lt_or_gt_of_ne h with hlt | hlt
  · exact key n n' hlt
  · exact (key n' n hlt).symm

/-- A raster position is the position of one cell of one block. -/
theorem Csr.samplePos_inj {c : Csr} (hw : c.imgW % 8 = 0) (h0 : 0 < c.imgW / 8) {j r k j' r' k' : Nat} (hr : r < 8)
    (hk : k < 8) (hr' : r' < 8) (hk' : k' < 8) (h : c.samplePos j r k = c.samplePos j' r' k') :
    j = j' ∧ r = r' ∧ k = k' := by
  have hlt := Nat.mod_lt j h0
  have hlt' := Nat.mod_lt j' h0
  have hcol : 8 * (j % (c.imgW / 8)) + k < c.imgW := by omega
  have hcol' : 8 * (j' % (c.imgW / 8)) + k' < c.imgW := by omega
  simp only [Csr.samplePos, Nat.add_assoc] at h
  have hdiv := congrArg (· / c.imgW) h
  have hmod := congrArg (· % c.imgW) h
  rw [cell_div hcol, cell_div hcol'] at hdiv
  rw [cell_mod hcol, cell_mod hcol'] at hmod
  refine ⟨?_, by omega, by omega⟩
  rw [← Nat.div_add_mod j (c.imgW / 8), ← Nat.div_add_mod j' (c.imgW / 8),
    show j / (c.imgW / 8) = j' / (c.imgW / 8) by omega, show j % (c.imgW / 8) = j' % (c.imgW / 8) by omega]

section
variable {c : Csr} {t : Nat → Mat} {j j' : Nat} {x y : Store}

theorem zzStores_apart (hx : x ∈ zzStores c j (t j)) (hy : y ∈ zzStores c j' (t j')) (hne : y ≠ x) :
    Region.Apart y.acc.region x.acc.region := by
  obtain ⟨i, hi, rfl⟩ := List.mem_map.1 hx
  obtain ⟨i', hi', rfl⟩ := List.mem_map.1 hy
  have hi := List.mem_range.1 hi
  have hi' := List.mem_range.1 hi'
  refine slots_apart fun h => hne ?_
  obtain rfl : j' = j := by omega
  obtain rfl : i' = i := by omega
  rfl

theorem tqStores_apart (hw : c.imgW % 8 = 0) (h0 : 0 < c.imgW / 8) (hx : x ∈ tqStores c j (t j))
    (hy : y ∈ tqStores c j' (t j')) (hne : y ≠ x) : Region.Apart y.acc.region x.acc.region := by
  obtain ⟨q, hq, rfl⟩ := List.mem_map.1 hx
  obtain ⟨q', hq', rfl⟩ := List.mem_map.1 hy
  obtain ⟨hr, hk⟩ := mem_cells.1 hq
  obtain ⟨hr', hk'⟩ := mem_cells.1 hq'
  refine slots_apart fun h => hne ?_
  obtain ⟨rfl, e1, e2⟩ := Csr.samplePos_inj hw h0 hr' hk' hr hk h
  rw [Prod.ext e1 e2]

theorem recStores_apart (hw : c.imgW % 8 = 0) (h0 : 0 < c.imgW / 8) (hx : x ∈ recStores c j (t j))
    (hy : y ∈ recStores c j' (t j')) (hne : y ≠ x) : Region.Apart y.acc.region x.acc.region := by
  obtain ⟨q, hq, rfl⟩ := List.mem_map.1 hx
  obtain ⟨q', hq', rfl⟩ := List.mem_map.1 hy
  obtain ⟨hr, hk⟩ := mem_cells.1 hq
  obtain ⟨hr', hk'⟩ := mem_cells.1 hq'
  have hslot := slots_apart (b := c.recDst.toNat) (z := 1) (n := c.samplePos j' q'.1 q'.2)
    (n' := c.samplePos j q.1 q.2) fun h => hne <| by
      obtain ⟨rfl, e1, e2⟩ := Csr.samplePos_inj hw h0 hr' hk' hr hk h
      rw [Prod.ext e1 e2]
  rwa [Nat.one_mul, Nat.one_mul] at hslot

end

theorem mem_blockStores {c : Csr} {etq erec : Bool} {j : Nat} {tr : Mat} {x : Store} :
    x ∈ blockStores c etq erec j tr ↔
      x ∈ zzStores c j tr ∨ (etq = true ∧ x ∈ tqStores c j tr) ∨ (erec = true ∧ x ∈ recStores c j (blockRec c tr)) := by
  cases etq <;> cases erec <;> simp [blockStores]

/-- XFORM's planes and raster, pairwise. -/
theorem xformRegions_apart {c : Csr} {etq erec : Bool}
    (h : (xformIns c ++ xformOuts c etq erec).Pairwise Region.Apart) :
    (etq = true → Region.Apart ⟨c.zzDst.toNat, 2 * (c.imgW * c.imgH)⟩ ⟨c.tqDst.toNat, 2 * (c.imgW * c.imgH)⟩) ∧
    (erec = true → Region.Apart ⟨c.zzDst.toNat, 2 * (c.imgW * c.imgH)⟩ ⟨c.recDst.toNat, c.imgW * c.imgH⟩) ∧
    (etq = true → erec = true →
      Region.Apart ⟨c.tqDst.toNat, 2 * (c.imgW * c.imgH)⟩ ⟨c.recDst.toNat, c.imgW * c.imgH⟩) := by
  cases etq <;> cases erec <;> simp_all [xformIns, xformOuts]

section
variable {c : Csr} {etq erec : Bool} (hw : c.imgW % 8 = 0) (hh : c.imgH % 8 = 0)
  (hpair : (xformIns c ++ xformOuts c etq erec).Pairwise Region.Apart)
include hw hh hpair

/-- No two stores of XFORM share a byte. -/
theorem xformStores_apart (h0 : 0 < c.imgW / 8) {m : Memory} {x y : Store} {n : Nat} (hn : n ≤ c.blockCount)
    (hx : x ∈ xformStores c etq erec m n 0) (hy : y ∈ xformStores c etq erec m n 0) (hne : y ≠ x) :
    Region.Apart y.acc.region x.acc.region := by
  obtain ⟨hzt, hzr, htr⟩ := xformRegions_apart hpair
  obtain ⟨i, -, hi, hx⟩ := mem_xformStores.1 hx
  obtain ⟨i', -, hi', hy⟩ := mem_xformStores.1 hy
  have hi : i < c.blockCount := by omega
  have hi' : i' < c.blockCount := by omega
  rcases mem_blockStores.1 hx with hx | ⟨eq, hx⟩ | ⟨er, hx⟩ <;>
    rcases mem_blockStores.1 hy with hy | ⟨eq', hy⟩ | ⟨er', hy⟩
  · exact zzStores_apart (t := fun i => blockTr c (blockSamples c m i)) hx hy hne
  · exact (hzt eq').symm.of_inside (tqStores_inside hw hh hi' _ y hy) (zzStores_inside hw hh hi _ x hx)
  · exact (hzr er').symm.of_inside (recStores_inside hw hh hi' _ y hy) (zzStores_inside hw hh hi _ x hx)
  · exact (hzt eq).of_inside (zzStores_inside hw hh hi' _ y hy) (tqStores_inside hw hh hi _ x hx)
  · exact tqStores_apart (t := fun i => blockTr c (blockSamples c m i)) hw h0 hx hy hne
  · exact (htr eq er').symm.of_inside (recStores_inside hw hh hi' _ y hy) (tqStores_inside hw hh hi _ x hx)
  · exact (hzr er).of_inside (zzStores_inside hw hh hi' _ y hy) (recStores_inside hw hh hi _ x hx)
  · exact (htr eq' er).of_inside (tqStores_inside hw hh hi' _ y hy) (recStores_inside hw hh hi _ x hx)
  · exact recStores_apart (t := fun i => blockRec c (blockTr c (blockSamples c m i))) hw h0 hx hy hne

/-- Each store of XFORM is read back after it. -/
theorem readLE_xformMem {hs : List Region} (hout : ∀ r ∈ xformOuts c etq erec, rangeOk hs r.base r.len) {m : Memory}
    (hm : m.wf = true) {j : Nat} (hj : j < c.blockCount) {x : Store}
    (hx : x ∈ blockStores c etq erec j (blockTr c (blockSamples c m j))) :
    (xformMem c etq erec c.blockCount 0 m).readLE x.acc.addr x.acc.size = x.val % 256 ^ x.acc.size := by
  have h0 : 0 < c.imgW / 8 := Nat.pos_of_ne_zero fun h => by simp [Csr.blockCount, h] at hj
  have hmem : x ∈ xformStores c etq erec m c.blockCount 0 := mem_xformStores.2 ⟨j, by omega, by omega, hx⟩
  obtain ⟨-, -, hins⟩ := List.pairwise_append.1 hpair
  rw [xformMem_eq hw hh hout (hins _ (by simp [xformIns])) (by omega) hm fun _ _ => rfl]
  refine readLE_writeAll (hs := hs) hm (fun y hy => ?_)
    (fun y hy hne => xformStores_apart hw hh hpair h0 (Nat.le_refl _) hmem hy hne) (.inl hmem)
  obtain ⟨i, -, hi, hy⟩ := mem_xformStores.1 hy
  exact blockStores_rangeOk hw hh hout (by omega) _ y hy

end

/-! ## XFORM's outcome -/

theorem Csr.samplePos_block (c : Csr) {by_ bx r k : Nat} (hbx : bx < c.imgW / 8) :
    c.samplePos (by_ * (c.imgW / 8) + bx) r k = (8 * by_ + r) * c.imgW + 8 * bx + k := by
  simp only [Csr.samplePos, cell_div hbx, cell_mod hbx]

theorem Csr.block_lt (c : Csr) {by_ bx : Nat} (hby : by_ < c.imgH / 8) (hbx : bx < c.imgW / 8) :
    by_ * (c.imgW / 8) + bx < c.blockCount := by
  have := cell_lt hby hbx
  rwa [Nat.mul_comm (c.imgH / 8)] at this

/-- The samples of the block in row `by_` and column `bx` of the raster's blocks. -/
theorem blockSamples_eq (c : Csr) (m : Memory) {by_ bx : Nat} (hbx : bx < c.imgW / 8) :
    blockSamples c m (by_ * (c.imgW / 8) + bx) =
      sampleBlock m (c.imgSrc.toNat + 8 * by_ * c.imgW + 8 * bx) c.imgW := by
  have hread : ∀ i, m.readLE (c.imgSrc.toNat + c.samplePos (by_ * (c.imgW / 8) + bx) (i / 8) (i % 8)) 1 =
      (m.read (c.imgSrc.toNat + 8 * by_ * c.imgW + 8 * bx + i / 8 * c.imgW + i % 8)).toNat := fun i => by
    rw [c.samplePos_block hbx, show c.imgSrc.toNat + ((8 * by_ + i / 8) * c.imgW + 8 * bx + i % 8) =
      c.imgSrc.toNat + 8 * by_ * c.imgW + 8 * bx + i / 8 * c.imgW + i % 8 by ring]
    simp [Memory.readLE]
  simp only [blockSamples, sampleMat, blockLoads, cells, sampleBlock, Mat.ofFn, List.map_map, Function.comp_def, hread,
    List.bind_eq_flatMap, List.pure_def, List.flatMap_map,
    ← List.map_eq_flatMap]

/-- One RES register that a command has written, when it read a device: a free word. -/
theorem State.resultsOf_single (s : State) (device : Bool) (n : Nat) (k : Fin 4) (v : Word) :
    ∃ v' i, (s.setRes k v).resultsOf device n [k] = { s.setRes k v' with freeIdx := i } ∧
      (device = false → v' = v) := by
  cases device with
  | false => exact ⟨v, s.freeIdx, rfl, fun _ => rfl⟩
  | true =>
    refine ⟨Config.freeWord (s.freeIdx + n), s.freeIdx + n + 1, ?_, fun h => by simp at h⟩
    simp [State.resultsOf, State.freeRes, State.setRes, State.draw]

/-- What XFORM leaves before its regions are looked at. -/
def xformWritten (s : State) (etq erec : Bool) : Written :=
  ⟨((s.setMem (xformMem s.cfg etq erec s.cfg.blockCount 0 s.mem)).setRes 0
    (BitVec.ofNat 32 s.cfg.blockCount)).resultsOf (s.onDevice (xformIns s.cfg)) 0 [0], xformIns s.cfg,
    xformOuts s.cfg etq erec, s.onDevice (xformIns s.cfg)⟩

section
variable {s : State} {etq erec : Bool}

theorem execXform_ok (hw : s.cfg.imgW % 8 = 0) (hh : s.cfg.imgH % 8 = 0) (hq : ∀ i : Fin 64, s.cfg.qtab[i] ≠ 0#16)
    (hok : ∀ r ∈ xformIns s.cfg ++ xformOuts s.cfg etq erec, rangeOk s.holes r.base r.len) :
    exec (.xform etq erec) s = .next (xformWritten s etq erec).settle.complete := by
  have hx := xformFrom_ok (n := s.cfg.blockCount) (j := 0) hw hh
    (hok ⟨s.cfg.imgSrc.toNat, s.cfg.imgW * s.cfg.imgH⟩ (by simp [xformIns]))
    (fun r hr => hok r (List.mem_append_right _ hr)) (by omega) s.mem
  simp only [exec, execXform, bodyXform, checkImg_ok_iff.2 ⟨hw, hh⟩, checkQ_ok_iff.2 hq, hx]
  rfl

theorem execXform_error (hw : s.cfg.imgW % 8 = 0) (hh : s.cfg.imgH % 8 = 0) (hq : ∀ i : Fin 64, s.cfg.qtab[i] ≠ 0#16)
    {r : Raise} (hr : firstBus s.holes (xformAccesses s.cfg etq erec) = some r) :
    exec (.xform etq erec) s = .next (s.errorEntry (r.withDirty (xformOuts s.cfg etq erec))) := by
  rw [xformAccesses_eq] at hr
  simp only [exec, execXform, bodyXform, checkImg_ok_iff.2 ⟨hw, hh⟩, checkQ_ok_iff.2 hq,
    xformFrom_of_firstBus (m := s.mem) hr]
  rfl

/-- The outputs of a block, when the regions share no byte and the raster is off every device. -/
theorem xformWritten_mem (hpair : (xformIns s.cfg ++ xformOuts s.cfg etq erec).Pairwise Region.Apart)
    (hoff : s.OffDevices (xformIns s.cfg)) :
    (xformWritten s etq erec).settle.mem = xformMem s.cfg etq erec s.cfg.blockCount 0 s.mem := by
  obtain ⟨-, hp, hins⟩ := List.pairwise_append.1 hpair
  rw [Written.settle_of_disjoint _ (State.onDevice_eq_false_iff.2 hoff)
    (regionsClash_eq_false_iff.2 ⟨hp, fun o ho r hr => (hins r hr o ho).symm⟩)]
  simp [xformWritten]

end

/-- The outputs of the block in row `by_` and column `bx`, when the regions share no byte and the raster is off every
device. -/
theorem xformOutputs {s : State} {etq erec : Bool} (hm : s.mem.wf = true) (hw : s.cfg.imgW % 8 = 0)
    (hh : s.cfg.imgH % 8 = 0) (hout : ∀ r ∈ xformOuts s.cfg etq erec, rangeOk s.holes r.base r.len)
    (hpair : (xformIns s.cfg ++ xformOuts s.cfg etq erec).Pairwise Region.Apart) (hoff : s.OffDevices (xformIns s.cfg))
    {by_ bx : Nat} (hby : by_ < s.cfg.imgH / 8) (hbx : bx < s.cfg.imgW / 8) :
    let m := (xformWritten s etq erec).settle.mem
    let tr := blockTr s.cfg (sampleBlock s.mem (s.cfg.imgSrc.toNat + 8 * by_ * s.cfg.imgW + 8 * bx) s.cfg.imgW)
    (∀ i, i < 64 → m.readLE (s.cfg.zzDst.toNat + 2 * (64 * (by_ * (s.cfg.imgW / 8) + bx) + i)) 2 =
      (toI16 (tr.get (zz i / 8) (zz i % 8)) s.cfg.rnd).toNat) ∧
    (etq = true → ∀ r k, r < 8 → k < 8 →
      m.readLE (s.cfg.tqDst.toNat + 2 * ((8 * by_ + r) * s.cfg.imgW + 8 * bx + k)) 2 =
        (toI16 (tr.get r k) s.cfg.rnd).toNat) ∧
    (erec = true → ∀ r k, r < 8 → k < 8 →
      m.read (s.cfg.recDst.toNat + (8 * by_ + r) * s.cfg.imgW + 8 * bx + k) =
        clampByte ((blockRec s.cfg tr).get r k)) := by
  intro m tr
  have hj := s.cfg.block_lt hby hbx
  have hread : ∀ x ∈ blockStores s.cfg etq erec (by_ * (s.cfg.imgW / 8) + bx) tr,
      m.readLE x.acc.addr x.acc.size = x.val % 256 ^ x.acc.size := by
    simp only [m, tr]
    rw [xformWritten_mem hpair hoff, ← blockSamples_eq s.cfg s.mem hbx]
    exact fun x hx => readLE_xformMem hw hh hpair hout hm hj hx
  refine ⟨fun i hi => ?_, fun hetq r k hr hk => ?_, fun herec r k hr hk => ?_⟩
  · have hx := hread _ (mem_blockStores.2 (.inl (List.mem_map_of_mem (List.mem_range.2 hi))))
    exact hx.trans (Nat.mod_eq_of_lt (toI16 _ _).isLt)
  · have hx := hread _ (mem_blockStores.2 (.inr (.inl ⟨hetq,
      List.mem_map_of_mem (mem_cells (p := (r, k)).2 ⟨hr, hk⟩)⟩)))
    rw [← Csr.samplePos_block _ hbx]
    exact hx.trans (Nat.mod_eq_of_lt (toI16 _ _).isLt)
  · have hx := hread _ (mem_blockStores.2 (.inr (.inr ⟨herec,
      List.mem_map_of_mem (mem_cells (p := (r, k)).2 ⟨hr, hk⟩)⟩)))
    dsimp only at hx
    rw [Csr.samplePos_block _ hbx] at hx
    refine BitVec.eq_of_toNat_eq ?_
    simpa [Memory.readLE, ← Nat.add_assoc, Nat.mod_eq_of_lt (clampByte _).isLt] using hx

/-- Settles O47: the checks, then the blocks' accesses in order; without an error the stores of all blocks are read back
when no regions meet, and the samples are those before the command. -/
theorem xformResult : Obligations.XformResult := by
  intro etq erec s hs c w h ins outs
  have houts : outs = xformOuts s.cfg etq erec := rfl
  refine ⟨fun hw hh hq hok => ?_, fun hop hw hh hq before after x k hacc hbefore hk hreach hbad => ?_,
    fun hop hdim => ?_, fun hop hw hh i hz hl => ?_⟩
  · obtain ⟨v, i, hres, hv⟩ := State.resultsOf_single
      (s.setMem (xformMem s.cfg etq erec s.cfg.blockCount 0 s.mem)) (s.onDevice (xformIns s.cfg)) 0 0
      (BitVec.ofNat 32 s.cfg.blockCount)
    refine ⟨_, v, execXform_ok hw hh hq hok, ?_, fun hoff => hv (State.onDevice_eq_false_iff.2 hoff),
      fun hoff hpair by_ bx hby hbx => ?_⟩
    · obtain ⟨⟨mem, n, e⟩, -⟩ := (xformWritten s etq erec).settle_spec
      rw [e, xformWritten, hres]
      rfl
    · rw [State.complete_mem]
      exact xformOutputs hs hw hh (fun r hr => hok r (List.mem_append_right _ hr)) hpair hoff hby hbx
  · have hbus := firstBus_split (hs := s.holes) (after := after) hbefore hk hreach hbad
    rw [← hacc] at hbus
    exact ⟨_, execXform_error hw hh hq hbus, s.errorEntry_eq_stopped (by rw [hop]; rfl) rfl⟩
  · have himg : checkImg s.cfg = .error (Raise.plain .imgdim s.cfg.imgDim) :=
      need_error_iff.2 ⟨Bool.eq_false_iff.2 fun hc => hdim (checkImg_ok_iff.1 (need_ok_iff.2 hc)), rfl⟩
    simp only [exec, execXform, bodyXform, himg]
    exact congrArg _ ((s.errorEntry_sparing rfl _).trans (s.errorEntry_plain _ _ (by rw [hop]; rfl)))
  · simp only [exec, execXform, bodyXform, checkImg_ok_iff (c := s.cfg).2 ⟨hw, hh⟩, checkQ_error (c := s.cfg) hz hl]
    exact congrArg _ ((s.errorEntry_sparing rfl _).trans (s.errorEntry_plain _ _ (by rw [hop]; rfl)))

/-! ## The stepwise commands (R423) -/

/-- With `c` configured, the command takes an 8 by 8 matrix in M[a] to its image under `f` in M[d]. -/
def Maps88 (c : Csr) (i : Instr) (d a : MReg) (f : Mat → Mat) : Prop :=
  ∀ s m, s.cfg = c → s.mregs[a] = some m → m.h = 8 → m.w = 8 → exec i s = .next (s.setM d (f m)).complete

theorem State.unary_maps {s : State} {d a : MReg} {f : Mat → Mat} {m : Mat} (ha : s.mregs[a] = some m) :
    s.finish (s.unary d a f) = .next (s.setM d (f m)).complete := by
  rw [State.unary, State.readM_some ha]
  rfl

theorem State.transform88_maps {s : State} {d a : MReg} {f : Mat → Mat} {m : Mat} (ha : s.mregs[a] = some m)
    (hh : m.h = 8) (hw : m.w = 8) : s.finish (s.transform88 d a f) = .next (s.setM d (f m)).complete := by
  rw [State.transform88, State.readM_some ha]
  show s.finish (check88 m >>= _) = _
  rw [check88_ok hh hw]
  rfl

theorem lvlsub_maps (c : Csr) (d a : MReg) : Maps88 c (.lvlsub d a) d a lvlsubMat :=
  fun _ _ _ ha _ _ => State.unary_maps ha

theorem lvladd_maps (c : Csr) (d a : MReg) : Maps88 c (.lvladd d a) d a lvladdMat :=
  fun _ _ _ ha _ _ => State.unary_maps ha

theorem mround_maps (c : Csr) (d a : MReg) : Maps88 c (.mround d a) d a (Mat.map fun x => roundInt x c.rnd) := by
  rintro s m rfl ha - -
  exact State.unary_maps ha

theorem fdct_maps (c : Csr) (d a : MReg) : Maps88 c (.fdct d a) d a fdctMat :=
  fun _ _ _ ha hh hw => State.transform88_maps ha hh hw

theorem idct_maps (c : Csr) (d a : MReg) : Maps88 c (.idct d a) d a idctMat :=
  fun _ _ _ ha hh hw => State.transform88_maps ha hh hw

theorem mzigzag_maps (c : Csr) (d a : MReg) : Maps88 c (.mzigzag d a) d a Mat.zigzag :=
  fun _ _ _ ha hh hw => State.transform88_maps ha hh hw

theorem quant_maps {c : Csr} (hq : ∀ i : Fin 64, c.qtab[i] ≠ 0#16) (d a : MReg) :
    Maps88 c (.quant d a) d a (quantMat c) := by
  rintro s m rfl ha hh hw
  exact State.quantized_ok ha hh hw hq d _

theorem dequant_maps {c : Csr} (hq : ∀ i : Fin 64, c.qtab[i] ≠ 0#16) (d a : MReg) :
    Maps88 c (.dequant d a) d a (dequantMat c) := by
  rintro s m rfl ha hh hw
  exact State.quantized_ok ha hh hw hq d _

theorem runCommands_of_exec {i : Instr} {s s' : State} (h : exec i s = .next s') (t : List Instr) :
    runCommands (i :: t) s = runCommands t s' := by
  rw [runCommands, h]

theorem Maps88.run {c : Csr} {i : Instr} {d a : MReg} {f : Mat → Mat} (h : Maps88 c i d a f) {s : State} {m : Mat}
    (hc : s.cfg = c) (ha : s.mregs[a] = some m) (hh : m.h = 8) (hw : m.w = 8) (t : List Instr) :
    runCommands (i :: t) s = runCommands t (s.setM d (f m)).complete :=
  runCommands_of_exec (h s m hc ha hh hw) t

/-- The stepwise commands on a block in M[0], and the matrix registers they leave (R423). -/
theorem runCommands_block {s : State} {c : Csr} {b : Mat} (hc : s.cfg = c) (hb : s.mregs[(0 : MReg)] = some b)
    (hh : b.h = 8) (hw : b.w = 8) (hq : ∀ i : Fin 64, c.qtab[i] ≠ 0#16) :
    ∃ t, runCommands [.lvlsub 1 0, .fdct 2 1, .quant 3 2, .mround 4 3, .mzigzag 5 4, .dequant 6 4, .idct 7 6,
      .lvladd 7 7] s = .next t ∧
      t.mregs[(4 : MReg)] = some (blockTr c b) ∧ t.mregs[(5 : MReg)] = some (blockTr c b).zigzag ∧
      t.mregs[(7 : MReg)] = some (blockRec c (blockTr c b)) := by
  have hself : ∀ (u : State) (d : MReg) (m : Mat), (u.setM d m).complete.mregs[d] = some m := State.setM_get_self
  have hother : ∀ (u : State) {d e : MReg} (m : Mat), e ≠ d → (u.setM d m).complete.mregs[e] = u.mregs[e] :=
    fun u _ _ m he => u.setM_get_ne _ m he
  have hdequant : ∀ (u : State) (m m' : Mat), ((u.setM 4 m).complete.setM 5 m').complete.mregs[(4 : MReg)] = some m :=
    fun u m m' => (hother _ _ (by decide)).trans (hself u 4 m)
  rw [(lvlsub_maps c 1 0).run hc hb hh hw,
    (fdct_maps c 2 1).run (by exact hc) (hself _ _ _) (by exact hh) (by exact hw),
    (quant_maps hq 3 2).run (by exact hc) (hself _ _ _) rfl rfl,
    (mround_maps c 4 3).run (by exact hc) (hself _ _ _) rfl rfl,
    (mzigzag_maps c 5 4).run (by exact hc) (hself _ _ _) rfl rfl,
    (dequant_maps hq 6 4).run (by exact hc) (hdequant _ _ _) rfl rfl,
    (idct_maps c 7 6).run (by exact hc) (hself _ _ _) rfl rfl,
    (lvladd_maps c 7 7).run (by exact hc) (hself _ _ _) rfl rfl]
  rw [blockRec, blockTr]
  refine ⟨_, rfl, ?_, ?_, hself _ _ _⟩
  · rw [hother _ _ (by decide), hother _ _ (by decide), hother _ _ (by decide), hdequant]
  · rw [hother _ _ (by decide), hother _ _ (by decide), hother _ _ (by decide), hself]

/-- The zigzag sequence read by position. -/
theorem Mat.zigzag_get (m : Mat) {i : Nat} (hi : i < 64) :
    m.zigzag.get (i / 8) (i % 8) = m.get (zz i / 8) (zz i % 8) := by
  rw [Mat.zigzag, Mat.ofFn_get (by omega) (by omega), Nat.div_add_mod]

section
variable {s : State} {by_ bx : Nat} (hw : s.cfg.imgW % 8 = 0) (hh : s.cfg.imgH % 8 = 0) (hby : by_ < s.cfg.imgH / 8)
  (hbx : bx < s.cfg.imgW / 8)
  (harg0 : s.cfg.arg0.toNat = s.cfg.imgSrc.toNat + 8 * by_ * s.cfg.imgW + 8 * bx)
  (harg1 : s.cfg.arg1.toNat = s.cfg.imgW)
include hw hh hby hbx harg0 harg1

/-- The elements that MLOAD reads of a block are in the raster. -/
theorem cell_inside_raster {r k : Nat} (hr : r < 8) (hk : k < 8) :
    (s.cfg.cell 1 r k).inside ⟨s.cfg.imgSrc.toNat, s.cfg.imgW * s.cfg.imgH⟩ := by
  have hpos := Csr.samplePos_lt hw hh (s.cfg.block_lt hby hbx) hr hk
  rw [s.cfg.samplePos_block hbx, Nat.add_mul] at hpos
  simp only [Access.inside, Csr.cell, harg0, harg1]
  omega

/-- MLOAD of a block of the raster loads its samples. -/
theorem execMload_block (hin : rangeOk s.holes s.cfg.imgSrc.toNat (s.cfg.imgW * s.cfg.imgH))
    (hoff : s.OffDevices (xformIns s.cfg)) (d : MReg) :
    exec (.mload d 8 8 .u8) s = .next (s.setM d (sampleBlock s.mem s.cfg.arg0.toNat s.cfg.imgW)).complete := by
  have hinside : ∀ r k, r < 8 → k < 8 → _ := fun r k hr hk =>
    cell_inside_raster hw hh hby hbx harg0 harg1 hr hk
  have hdev : s.onDevice (mloadIns s.cfg .u8 8 8) = false := State.onDevice_eq_false_iff.2 fun q hq v hv => by
    obtain ⟨x, hx, rfl⟩ := List.mem_map.1 hq
    obtain ⟨rc, hrc, rfl⟩ := List.mem_map.1 hx
    obtain ⟨hr, hk⟩ := mem_cells.1 hrc
    rintro a ⟨ha, hva⟩
    exact hoff _ (List.mem_singleton_self _) v hv a ⟨(hinside rc.1 rc.2 hr hk).has ha, hva⟩
  have hmat : loadedMat s .u8 8 8 = sampleBlock s.mem s.cfg.arg0.toNat s.cfg.imgW := by
    simp only [loadedMat, sampleBlock, Csr.cell, fmtSize, harg1, Nat.mul_one]
    refine congrArg (Mat.ofFn 8 8) (funext fun r => funext fun k => ?_)
    rw [show ∀ a, s.mem.readLE a 1 = (s.mem.read a).toNat from fun a => by simp [Memory.readLE],
      fmtLoad_u8 (s.mem.read _).isLt]
  rw [execMload_ok rfl fun r k hr hk => hin.sub (hinside r k hr hk), hdev, hmat]
  rfl

end

/-- Settles O48: the stepwise commands compose the functions that XFORM's pipeline is made of. -/
theorem xformAgreesWithCommands : Obligations.XformAgreesWithCommands := by
  intro s by_ bx hm c w h regions hw hh hq hby hbx hok hpair hoff harg0 harg1
  have hload := execMload_block hw hh hby hbx harg0 harg1 (hok _ (List.mem_cons_self ..)) hoff 0
  obtain ⟨t, hrun, h4, h5, h7⟩ := runCommands_block
    (s := (s.setM 0 (sampleBlock s.mem s.cfg.arg0.toNat s.cfg.imgW)).complete) rfl (State.setM_get_self ..) rfl rfl hq
  obtain ⟨hzz, htq, hrec⟩ := xformOutputs (etq := true) (erec := true) hm hw hh
    (fun r hr => hok r (List.mem_cons_of_mem _ hr)) hpair hoff hby hbx
  rw [show s.cfg.imgSrc.toNat + 8 * by_ * s.cfg.imgW + 8 * bx = s.cfg.arg0.toNat from harg0.symm] at hzz htq hrec
  refine ⟨t, _, _, _, _, (runCommands_of_exec hload _).trans hrun, execXform_ok hw hh hq hok, h4, h5, h7, rfl,
    fun i hi => ?_, htq rfl, hrec rfl⟩
  rw [Mat.zigzag_get _ hi]
  exact hzz i hi

end Sys2Proof.Machine

/-! PROOFS. Reading the symbol array (43_huffman.md R450, R452): the table of a part of the input, the leaves of its
symbols, then HCOUNT. -/

namespace Sys2Proof.Machine

/-! ## First occurrences and counts -/

theorem firstOccurrences_append_singleton (l : List Half) (x : Half) : firstOccurrences (l ++ [x]) =
    if x ∈ firstOccurrences l then firstOccurrences l else firstOccurrences l ++ [x] := by
  simp only [firstOccurrences, List.foldl_append, List.foldl_cons, List.foldl_nil]
  rfl

theorem firstOccurrences_spec (l : List Half) :
    (firstOccurrences l).Nodup ∧ (firstOccurrences l).length ≤ l.length ∧ ∀ x, x ∈ firstOccurrences l ↔ x ∈ l := by
  induction l using List.reverseRecOn with
  | nil => exact ⟨.nil, Nat.le_refl _, fun x => by simp [firstOccurrences]⟩
  | append_singleton l x ih =>
    obtain ⟨hn, hl, hm⟩ := ih
    rw [firstOccurrences_append_singleton]
    split
    · rename_i hx
      refine ⟨hn, by rw [List.length_append]; omega, fun y => ?_⟩
      rw [hm, List.mem_append, List.mem_singleton, or_iff_left_of_imp]
      rintro rfl
      exact (hm y).1 hx
    · rename_i hx
      refine ⟨List.nodup_append.2 ⟨hn, by simp, ?_⟩, by simp only [List.length_append]; omega, fun y => by simp [hm]⟩
      rintro y hy z hz rfl
      exact hx (List.mem_singleton.1 hz ▸ hy)

theorem firstOccurrences_length_mono (l : List Half) (x : Half) :
    (firstOccurrences l).length ≤ (firstOccurrences (l ++ [x])).length := by
  rw [firstOccurrences_append_singleton]
  split
  · exact Nat.le_refl _
  · simp

@[simp] theorem countTable_length (l : List Half) : (countTable l).length = (firstOccurrences l).length := by
  simp [countTable]

theorem countTable_syms (l : List Half) : (countTable l).map HSym.sym = firstOccurrences l := by
  simp [countTable, Function.comp_def]

theorem symIndex_countTable_none {l : List Half} {x : Half} : symIndex (countTable l) x = none ↔ x ∉ l := by
  rw [symIndex_none, ← (firstOccurrences_spec l).2.2, ← countTable_syms, List.mem_map, not_exists]
  exact forall_congr' fun y => not_and.symm

/-- A symbol seen before raises its count. -/
theorem countTable_append_mem {l : List Half} {x : Half} {i : Nat} (h : symIndex (countTable l) x = some i) :
    countTable (l ++ [x]) = (countTable l).modify i fun y => { y with freq := y.freq + 1#32 } := by
  have hx : x ∈ l := by
    by_contra hn
    rw [symIndex_countTable_none.2 hn] at h
    exact absurd h (by simp)
  obtain ⟨hnodup, -, hmem⟩ := firstOccurrences_spec l
  obtain ⟨y, hy, rfl⟩ := symIndex_some h
  rw [countTable, List.getElem?_map, Option.map_eq_some_iff] at hy
  obtain ⟨x, hi, rfl⟩ := hy
  dsimp only at hx
  rw [countTable, firstOccurrences_append_singleton, if_pos ((hmem x).2 hx)]
  obtain ⟨hlt, hget⟩ := List.getElem?_eq_some_iff.1 hi
  refine List.ext_getElem (by simp) fun k h1 h2 => ?_
  have hk : k < (firstOccurrences l).length := by simpa using h1
  simp only [countTable, List.getElem_map, List.getElem_modify, List.count_append, List.count_singleton]
  by_cases hik : i = k
  · subst hik
    simp [hget, BitVec.ofNat_add]
  · have hne : x ≠ (firstOccurrences l)[k] := fun e => hik ((hnodup.getElem_inj_iff).1 (hget.trans e))
    simp [hne, hik]

/-- A new symbol becomes the last row. -/
theorem countTable_append_new {l : List Half} {x : Half} (h : x ∉ l) :
    countTable (l ++ [x]) = countTable l ++ [⟨x, 1#32⟩] := by
  obtain ⟨-, -, hmem⟩ := firstOccurrences_spec l
  rw [countTable, firstOccurrences_append_singleton, if_neg (mt (hmem x).1 h), List.map_append, countTable]
  congr 1
  · refine List.map_congr_left fun y hy => ?_
    have hne : x ≠ y := fun e => h (e ▸ (hmem y).1 hy)
    simp [List.count_append, hne]
  · simp [List.count_append, List.count_eq_zero.2 h]

/-- Counting one more symbol of a sequence, when there is room for a new one. -/
theorem countSym_countTable {l : List Half} {x : Half} (h : (firstOccurrences (l ++ [x])).length ≤ Config.nsymMax) :
    countSym (countTable l) x = some (countTable (l ++ [x])) := by
  unfold countSym
  split
  · rename_i i hi
    rw [countTable_append_mem hi]
  · rename_i hn
    have hx := symIndex_countTable_none.1 hn
    have hlen := congrArg List.length (countTable_append_new hx)
    rw [countTable_length, List.length_append, List.length_singleton] at hlen
    rw [if_neg (by omega), countTable_append_new hx]

/-- No room for a new symbol (R452). -/
theorem countSym_countTable_full {l : List Half} {x : Half} (hx : x ∉ l)
    (h : (firstOccurrences l).length = Config.nsymMax) : countSym (countTable l) x = none := by
  rw [countSym, symIndex_countTable_none.2 hx]
  exact if_pos (by rw [countTable_length, h])

/-! ## The input read symbol by symbol -/

/-- Symbol `j` of the input array in memory `m`. -/
def Csr.symAt (c : Csr) (m : Memory) (j : Nat) : Half := BitVec.ofNat 16 (m.readLE (c.hinAddr.toNat + 2 * j) 2)

/-- The first `n` symbols of the input array. -/
def Csr.symsTo (c : Csr) (m : Memory) (n : Nat) : List Half := (List.range n).map (c.symAt m)

theorem inputSyms_take {s : State} {j : Nat} (h : j ≤ s.cfg.hinLen.toNat) :
    (inputSyms s).take j = s.cfg.symsTo s.mem j := by
  rw [inputSyms, ← List.map_take, List.take_range, Nat.min_eq_left h]
  rfl

@[simp] theorem Csr.symsTo_length (c : Csr) (m : Memory) (n : Nat) : (c.symsTo m n).length = n := by
  simp [Csr.symsTo]

theorem Csr.symsTo_succ (c : Csr) (m : Memory) (n : Nat) : c.symsTo m (n + 1) = c.symsTo m n ++ [c.symAt m n] := by
  simp [Csr.symsTo, List.range_succ]

section
variable {hs : List Region} {m : Memory} {c : Csr}

theorem rangeOk.symbol {n j : Nat} (h : rangeOk hs c.hinAddr.toNat (2 * n)) (hj : j < n) :
    rangeOk hs (c.hinAddr.toNat + 2 * j) 2 := by
  intro k hk
  have := h (2 * j + k) (by omega)
  rwa [← Nat.add_assoc] at this

theorem readSym_of_rangeOk {n j : Nat} (h : rangeOk hs c.hinAddr.toNat (2 * n)) (hj : j < n) :
    readSym hs m c j = .ok (c.symAt m j) := readSym_ok (h.symbol hj)

theorem readSym_of_bad {j k : Nat} (hk : k < 2) (hok : rangeOk hs (c.hinAddr.toNat + 2 * j) k)
    (hbad : memOk hs (c.hinAddr.toNat + 2 * j + k) = false) :
    readSym hs m c j = .error (Raise.bus false (c.hinAddr.toNat + 2 * j + k) j) :=
  readSym_bad (firstBad_some_iff.2 ⟨k, hk, rfl, hok, hbad⟩)

/-- Counting reaches symbol `n` with the table of the symbols before it. -/
theorem countFrom_symsTo {n : Nat} (k : Nat) (hok : rangeOk hs c.hinAddr.toNat (2 * n))
    (hd : (firstOccurrences (c.symsTo m n)).length ≤ Config.nsymMax) :
    countFrom hs m c (n + k) 0 [] = countFrom hs m c k n (countTable (c.symsTo m n)) := by
  induction n generalizing k with
  | zero => rw [Nat.zero_add]; rfl
  | succ n ih =>
    rw [Csr.symsTo_succ] at hd ⊢
    have hlast := readSym_of_rangeOk (m := m) hok (Nat.lt_succ_self n)
    rw [show n + 1 + k = n + (k + 1) by omega, ih (k + 1) (fun i hi => hok i (by omega))
      ((firstOccurrences_length_mono _ _).trans hd), countFrom, hlast]
    simp only [countSym_countTable hd]

theorem countSyms_ok (hok : rangeOk hs c.hinAddr.toNat (2 * c.hinLen.toNat))
    (hd : (firstOccurrences (c.symsTo m c.hinLen.toNat)).length ≤ Config.nsymMax) :
    countSyms hs m c = .ok (countTable (c.symsTo m c.hinLen.toNat)) := countFrom_symsTo 0 hok hd

section
variable {j : Nat} (hj : j < c.hinLen.toNat) (hok : rangeOk hs c.hinAddr.toNat (2 * j))
  (hd : (firstOccurrences (c.symsTo m j)).length ≤ Config.nsymMax)
include hj hok hd

theorem countSyms_symbol : countSyms hs m c =
    countFrom hs m c (c.hinLen.toNat - j - 1 + 1) j (countTable (c.symsTo m j)) := by
  rw [countSyms, ← countFrom_symsTo _ hok hd]
  congr 1
  omega

/-- The first symbol that does not answer (R452). -/
theorem countSyms_bus {k : Nat} (hk : k < 2) (hpre : rangeOk hs (c.hinAddr.toNat + 2 * j) k)
    (hbad : memOk hs (c.hinAddr.toNat + 2 * j + k) = false) :
    countSyms hs m c = .error (Raise.bus false (c.hinAddr.toNat + 2 * j + k) j) := by
  rw [countSyms_symbol hj hok hd, countFrom, readSym_of_bad hk hpre hbad]

/-- The symbol that would be the 4097th distinct one (R452). -/
theorem countSyms_symcap (hsym : rangeOk hs (c.hinAddr.toNat + 2 * j) 2)
    (hfull : (firstOccurrences (c.symsTo m j)).length = Config.nsymMax) (hnew : c.symAt m j ∉ c.symsTo m j) :
    countSyms hs m c = .error (symcapRaise c j) := by
  have hread : readSym hs m c j = .ok (c.symAt m j) := readSym_ok hsym
  rw [countSyms_symbol hj hok hd, countFrom, hread]
  simp only [countSym_countTable_full hnew hfull]

end

/-! ## The leaves of the input's symbols (R463, pass 1) -/

theorem lookupFrom_reaches {syms : List HSym} {n j : Nat} (k : Nat) {g : Nat → Nat}
    (hok : rangeOk hs c.hinAddr.toNat (2 * (j + n)))
    (hg : ∀ i, j ≤ i → i < j + n → symIndex syms (c.symAt m i) = some (g i)) :
    lookupFrom hs m c syms (n + k) j =
      (lookupFrom hs m c syms k (j + n)).map fun is => (List.range' j n).map g ++ is := by
  induction n generalizing j with
  | zero =>
    rw [Nat.zero_add, Nat.add_zero]
    cases lookupFrom hs m c syms k j <;> rfl
  | succ n ih =>
    rw [Nat.add_right_comm, lookupFrom, readSym_of_rangeOk hok (by omega)]
    simp only [hg j (Nat.le_refl _) (by omega)]
    rw [ih (by rwa [Nat.add_right_comm j]) fun i hi hi' => hg i (by omega) (by omega), Nat.add_right_comm j 1 n,
      ← Nat.add_assoc j n 1]
    cases lookupFrom hs m c syms k (j + n + 1) <;> rfl

theorem lookupFrom_ok {syms : List HSym} {n : Nat} {g : Nat → Nat} (hok : rangeOk hs c.hinAddr.toNat (2 * n))
    (hg : ∀ i, i < n → symIndex syms (c.symAt m i) = some (g i)) :
    lookupFrom hs m c syms n 0 = .ok ((List.range n).map g) := by
  have h := lookupFrom_reaches (syms := syms) (j := 0) 0 (by rwa [Nat.zero_add]) fun i _ hi => hg i (by omega)
  rwa [List.range_eq_range', ← List.append_nil ((List.range' 0 n).map g)]

end

/-- In a table of distinct symbols the row that holds a symbol is its index. -/
theorem symIndex_of_getElem? {syms : List HSym} (hn : (syms.map HSym.sym).Nodup) {i : Nat} {y : HSym}
    (h : syms[i]? = some y) : symIndex syms y.sym = some i := by
  cases hx : symIndex syms y.sym with
  | none => exact absurd rfl (symIndex_none.1 hx y (List.mem_of_getElem? h))
  | some k =>
    obtain ⟨z, hz, he⟩ := symIndex_some hx
    have hk : (syms.map HSym.sym)[k]? = some y.sym := by rw [List.getElem?_map, hz, Option.map_some, he]
    have hi : (syms.map HSym.sym)[i]? = some y.sym := by rw [List.getElem?_map, h, Option.map_some]
    obtain ⟨hk1, hk2⟩ := List.getElem?_eq_some_iff.1 hk
    obtain ⟨hi1, hi2⟩ := List.getElem?_eq_some_iff.1 hi
    rw [(hn.getElem_inj_iff).1 (hk2.trans hi2.symm)]

/-- The leaves that `LeavesOf` names are those pass 1 finds. -/
theorem lookupFrom_leavesOf {hs : List Region} {m : Memory} {c : Csr} {syms : List HSym} {is : List Nat}
    (hok : rangeOk hs c.hinAddr.toNat (2 * c.hinLen.toNat)) (hn : (syms.map HSym.sym).Nodup)
    (h : LeavesOf syms (c.symsTo m c.hinLen.toNat) is) : lookupFrom hs m c syms c.hinLen.toNat 0 = .ok is := by
  obtain ⟨hlen, hrow⟩ := h
  rw [Csr.symsTo_length] at hlen
  have his : is = (List.range c.hinLen.toNat).map fun i => is.getD i 0 := by
    refine List.ext_getElem (by simp [hlen]) fun k h1 h2 => ?_
    simp [List.getD_eq_getElem?_getD, h1]
  refine (lookupFrom_ok hok fun i hi => ?_).trans (congrArg Except.ok his.symm)
  have hi' : i < is.length := by omega
  obtain ⟨y, hy, hsym⟩ := hrow i (is.getD i 0) (c.symAt m i) (by simp [List.getD_eq_getElem?_getD, hi'])
    (by simp [Csr.symsTo, hi])
  rw [← hsym]
  exact symIndex_of_getElem? hn hy

/-! ## HCOUNT -/

/-- An error of a Huffman command that leaves no byte open, and before which no free value was drawn. -/
theorem State.errorEntry_stoppedHuffman (s : State) {r : Raise} (hop : isHuffmanOp (opField s.cmd) = true)
    (hc : r.code ≠ .illegal) (hq : r.emptiesQueue = false) (hd : r.dirty = []) (hn : r.drawn = 0) :
    s.errorEntry r = s.stoppedHuffman r.code.toByte r.addr r.info := by
  obtain ⟨hm, hf⟩ := s.errorEntry_quiet hd hn
  rw [s.errorEntry_eq_stoppedHuffman hop hc hq, hm, hf]
  rfl

/-- Off every device HCOUNT's counting is that of memory. -/
theorem execHcount_error {s : State} (hoff : s.OffDevices [hinRegion s.cfg]) {r : Raise}
    (h : countSyms s.holes s.mem s.cfg = .error r) : exec .hcount s = .next (s.errorEntry (r.drawing 0)) := by
  have hdev := State.onDevice_eq_false_iff.2 hoff
  simp only [exec, execHcount, bodyHcount, State.readView_off hdev, h, hdev]
  rfl

/-- HCOUNT with the table it counts, in memory or in what a device answers. -/
theorem execHcount_ok {s : State} {syms : List HSym}
    (h : countSyms s.holes (s.readView s.mem [hinRegion s.cfg] 0) s.cfg = .ok syms) :
    exec .hcount s = .next (((s.setHuff (if s.onDevice [hinRegion s.cfg] then Huffman.freeCounted s.freeIdx
      else Huffman.afterCount syms)).setRes 0 (BitVec.ofNat 32 syms.length)).resultsOf
        (s.onDevice [hinRegion s.cfg]) 1 [0]).complete := by
  simp only [exec, execHcount, bodyHcount, h]
  rfl

/-- Settles O52: the table after `n` symbols is the table of those symbols, in memory as in what a device answers. -/
theorem hcountResult : Obligations.HcountResult := by
  intro s hok
  refine ⟨fun hoff hd => ?_, fun hlen => ?_⟩
  · have hdev : s.onDevice [hinRegion s.cfg] = false := State.onDevice_eq_false_iff.2 hoff
    have hcount : countSyms s.holes s.mem s.cfg = .ok (countTable (inputSyms s)) := countSyms_ok hok hd
    rw [execHcount_ok (by rw [State.readView_off hdev, hcount]), hdev, countTable_length]
    rfl
  · have hd := ((firstOccurrences_spec (s.cfg.symsTo (s.readView s.mem [hinRegion s.cfg] 0) _)).2.1.trans_eq
      (s.cfg.symsTo_length _ _)).trans hlen
    rw [execHcount_ok (countSyms_ok hok hd)]
    obtain ⟨v, n, hres, -⟩ := State.resultsOf_single _ (s.onDevice [hinRegion s.cfg]) 1 0 _
    rw [hres]
    split
    · exact ⟨freeSyms s.freeIdx, v, n, rfl⟩
    · exact ⟨_, v, n, rfl⟩

end Sys2Proof.Machine

/-! PROOFS. The code table (20_memory.md R162, 43_huffman.md R460): the one path to each node of a tree, the records in
memory, then HASSIGN. -/

namespace Sys2Proof.Machine

/-! ## The path to a node is unique -/

/-- The handles of a node's children. -/
def Node.childList : Node → List Nat
  | .leaf _ _ => []
  | .internal _ l r => [l, r]

theorem childHandles_eq_flatMap (ns : List Node) : childHandles ns = ns.flatMap Node.childList := rfl

/-- Node `c` is the first (`false`) or second (`true`) child of node `h`. -/
def ChildAt (ns : List Node) (h : Nat) (b : Bool) (c : Nat) : Prop :=
  ∃ (wt : Word) (l r : Nat), ns[h]? = some (Node.internal wt l r) ∧ c = if b then r else l

theorem ChildAt.mem_childHandles {ns : List Node} {h c : Nat} {b : Bool} (hc : ChildAt ns h b c) :
    c ∈ childHandles ns := by
  obtain ⟨wt, l, r, hn, rfl⟩ := hc
  rw [childHandles_eq_flatMap]
  refine List.mem_flatMap.2 ⟨_, List.mem_of_getElem? hn, ?_⟩
  cases b <;> simp [Node.childList]

/-- No node is a child twice. -/
theorem ChildAt.unique {ns : List Node} (hd : (childHandles ns).Nodup) {h h' c : Nat} {b b' : Bool}
    (hc : ChildAt ns h b c) (hc' : ChildAt ns h' b' c) : h = h' ∧ b = b' := by
  rw [childHandles_eq_flatMap] at hd
  obtain ⟨hself, hpair⟩ := List.nodup_flatMap.1 hd
  obtain ⟨wt, l, r, hn, rfl⟩ := hc
  obtain ⟨wt', l', r', hn', he⟩ := hc'
  obtain ⟨hlt, hget⟩ := List.getElem?_eq_some_iff.1 hn
  obtain ⟨hlt', hget'⟩ := List.getElem?_eq_some_iff.1 hn'
  have hsep : ∀ {i k : Nat} (hi : i < ns.length) (hk : k < ns.length), i < k → _ :=
    fun hi hk hik => List.pairwise_iff_getElem.1 hpair _ _ hi hk hik
  have hin : ∀ (c : Bool) (w : Word) (x y : Nat), (if c then y else x) ∈ (Node.internal w x y).childList :=
    fun c w x y => by cases c <;> simp [Node.childList]
  rcases lt_trichotomy h h' with hlt2 | rfl | hlt2
  · have := hsep hlt hlt' hlt2
    simp only [Function.onFun, hget, hget'] at this
    exact absurd (he ▸ hin b' wt' l' r') (this (hin b wt l r))
  · rw [hn] at hn'
    obtain ⟨-, rfl, rfl⟩ := Node.internal.inj (Option.some.inj hn')
    have hlr := hself _ (List.mem_of_getElem? hn)
    refine ⟨rfl, ?_⟩
    cases b <;> cases b' <;> simp_all [Node.childList]
  · have := hsep hlt' hlt hlt2
    simp only [Function.onFun, hget, hget'] at this
    exact absurd (he ▸ hin b' wt' l' r') fun hm => this hm (hin b wt l r)

/-- The last step of a path is one to a child. -/
theorem walk_last {ns : List Node} {root c : Nat} {bits : List Bool} {b : Bool}
    (h : walk ns root (bits ++ [b]) = some c) : ∃ m, walk ns root bits = some m ∧ ChildAt ns m b c := by
  induction bits generalizing root with
  | nil =>
    rw [List.nil_append, walk] at h
    cases hn : ns[root]? with
    | none => simp [hn] at h
    | some n =>
      cases n with
      | leaf wt x => simp [hn] at h
      | internal wt l r =>
        simp only [hn, walk, Option.ite_none_right_eq_some, Option.some.injEq] at h
        exact ⟨root, if_pos (List.getElem?_eq_some_iff.1 hn).1, wt, l, r, hn, h.2.symm⟩
  | cons a t ih =>
    rw [List.cons_append, walk] at h
    rw [walk]
    cases hn : ns[root]? with
    | none => simp [hn] at h
    | some n =>
      cases n with
      | leaf wt x => simp [hn] at h
      | internal wt l r =>
        simp only [hn] at h ⊢
        exact ih h

/-- Two paths from the root to one node are the same. -/
theorem ArenaOk.walk_unique {syms : List HSym} {ns : List Node} {root : Nat} (h : ArenaOk syms ns root)
    {p q : List Bool} {c : Nat} (hp : walk ns root p = some c) (hq : walk ns root q = some c) : p = q := by
  obtain ⟨-, -, -, -, -, -, hperm⟩ := h
  have hroot : ∀ {b m}, ¬ChildAt ns m b root := fun hc =>
    Nat.lt_irrefl _ (List.mem_range.1 (hperm.subset hc.mem_childHandles))
  have hnil : ∀ {c}, walk ns root [] = some c → c = root := fun hw => by
    rw [walk] at hw
    split at hw
    · exact (Option.some.inj hw).symm
    · simp at hw
  induction p using List.reverseRecOn generalizing c q with
  | nil =>
    obtain rfl := hnil hp
    rcases List.eq_nil_or_concat' q with rfl | ⟨q, b, rfl⟩
    · rfl
    · obtain ⟨m, -, hc⟩ := walk_last hq
      exact absurd hc hroot
  | append_singleton p b ih =>
    obtain ⟨m, hm, hc⟩ := walk_last hp
    rcases List.eq_nil_or_concat' q with rfl | ⟨q, b', rfl⟩
    · obtain rfl := hnil hq
      exact absurd hc hroot
    · obtain ⟨m', hm', hc'⟩ := walk_last hq
      obtain ⟨rfl, rfl⟩ := hc.unique (hperm.nodup_iff.2 List.nodup_range) hc'
      rw [ih hm hm']

/-! ## The codewords of the paths -/

@[simp] theorem pathBits_length (p : Nat × Nat) : (pathBits p).length = p.1 := by
  simp [pathBits]

theorem leafPaths_walk {syms : List HSym} {ns : List Node} {root i : Nat} {p : Nat × Nat} (h : ArenaOk syms ns root)
    (hp : (leafPaths ns root syms.length)[i]? = some p) : walk ns root (pathBits p) = some i := by
  have hi := (List.getElem?_eq_some_iff.1 hp).1
  rw [leafPaths_length] at hi
  obtain ⟨q, hq, hw⟩ := leafPaths_hasPath h hi
  obtain rfl := Option.some.inj (hp.symm.trans hq)
  exact hw

theorem codesOf_ok {paths : List (Nat × Nat)} (h : ∀ p ∈ paths, p.1 ≤ Config.maxCl) :
    ∃ codes, codesOf paths = .ok codes := by
  have hnone : paths.findIdx? (fun p => decide (Config.maxCl < p.1)) = none :=
    List.findIdx?_eq_none_iff.2 fun p hp => decide_eq_false (Nat.not_lt.2 (h p hp))
  exact ⟨_, by rw [codesOf, hnone]⟩

theorem codesOf_error {paths : List (Nat × Nat)} {i : Nat} {p : Nat × Nat} (hi : paths[i]? = some p)
    (hp : Config.maxCl < p.1) (hbefore : ∀ j q, j < i → paths[j]? = some q → q.1 ≤ Config.maxCl) :
    codesOf paths = .error (Raise.plain .codelen (BitVec.ofNat 32 i)) := by
  obtain ⟨hlt, hget⟩ := List.getElem?_eq_some_iff.1 hi
  have hsome : paths.findIdx? (fun p => decide (Config.maxCl < p.1)) = some i :=
    List.findIdx?_eq_some_iff_getElem.2 ⟨hlt, decide_eq_true (hget ▸ hp), fun j hj => by
      have := hbefore j _ hj (List.getElem?_eq_getElem (by omega))
      simpa using this⟩
  rw [codesOf, hsome]

theorem isLongest_maxLen {codes : List Code} (h : codes ≠ []) : IsLongest codes (maxLen codes) := by
  have key : ∀ (l : List Nat) (a : Nat), l.foldl max a = a ∨ l.foldl max a ∈ l := fun l => by
    induction l with
    | nil => exact fun a => .inl rfl
    | cons x t ih =>
      intro a
      rw [List.foldl_cons, List.mem_cons]
      rcases ih (max a x) with he | hm
      · rw [he]
        rcases max_choice a x with ha | hx
        · exact .inl ha
        · exact .inr (.inl hx)
      · exact .inr (.inr hm)
  refine ⟨fun c hc => maxLen_le hc, ?_⟩
  rcases key (codes.map Code.len) 0 with h0 | hm
  · obtain ⟨c, hc⟩ := List.exists_mem_of_ne_nil codes h
    exact ⟨c, hc, Nat.le_antisymm (maxLen_le hc) (by rw [maxLen, h0]; exact Nat.zero_le _)⟩
  · exact List.mem_map.1 hm

theorem IsLongest.unique {codes : List Code} {n n' : Nat} (h : IsLongest codes n) (h' : IsLongest codes n') :
    n = n' := by
  obtain ⟨hle, c, hc, rfl⟩ := h
  obtain ⟨hle', c', hc', rfl⟩ := h'
  exact Nat.le_antisymm (hle' c hc) (hle c' hc')

/-! ## Stores in order -/

/-- The first byte that does not answer is byte `k` of the store at index `i`. -/
theorem storeAll_bus {hs : List Region} {l : List Store} {m : Memory} {i k : Nat} {x : Store} (hi : l[i]? = some x)
    (hbefore : ∀ j y, j < i → l[j]? = some y → rangeOk hs y.acc.addr y.acc.size) (hk : k < x.acc.size)
    (hok : rangeOk hs x.acc.addr k) (hbad : memOk hs (x.acc.addr + k) = false) :
    storeAll hs l m = .error (Raise.bus true (x.acc.addr + k) x.acc.idx) := by
  obtain ⟨hlt, hget⟩ := List.getElem?_eq_some_iff.1 hi
  rw [← List.take_append_drop i l, List.drop_eq_getElem_cons hlt, hget]
  refine storeAll_error (fun y hy => ?_) (firstBad_some_iff.2 ⟨k, hk, rfl, hok, hbad⟩)
  obtain ⟨j, hj⟩ := List.mem_iff_getElem?.1 hy
  rw [List.getElem?_take] at hj
  split at hj
  · exact hbefore j y ‹_› hj
  · simp at hj

/-! ## The records in memory -/

theorem Memory.readLE_add (m : Memory) (a n k : Nat) :
    m.readLE a (n + k) = m.readLE a n + 256 ^ n * m.readLE (a + n) k := by
  induction n generalizing a with
  | zero => simp [Memory.readLE]
  | succ n ih =>
    rw [Nat.add_right_comm, Memory.readLE, ih, Memory.readLE, Nat.add_assoc a 1 n, Nat.add_comm 1 n, Nat.pow_succ]
    ring

/-- A record is its fields (R162). -/
theorem recordAt_of_readLE {m : Memory} {a : Nat} {y : HSym} {c : Code} (hc : c.len < 256)
    (h : m.readLE a 16 = recordVal y c) : RecordAt m a y c := by
  have hsplit : m.readLE a 16 = m.readLE a 2 + 256 ^ 2 * (m.readLE (a + 2) 1 + 256 ^ 1 * (m.readLE (a + 3) 1 +
      256 ^ 1 * (m.readLE (a + 4) 4 + 256 ^ 4 * m.readLE (a + 8) 8))) := by
    rw [show (16 : Nat) = 2 + (1 + (1 + (4 + 8))) from rfl, m.readLE_add, m.readLE_add, m.readLE_add, m.readLE_add]
  rw [hsplit, recordVal] at h
  have h1 := m.readLE_lt a 2
  have h2 := m.readLE_lt (a + 2) 1
  have h3 := m.readLE_lt (a + 3) 1
  have h4 := m.readLE_lt (a + 4) 4
  have hsym := y.sym.isLt
  have hfreq := y.freq.isLt
  simp only [Nat.reducePow] at h h1 h2 h3 h4 hsym hfreq
  refine ⟨?_, ?_, ?_, ?_, ?_⟩ <;> omega

theorem recordVal_lt {y : HSym} {c : Code} (hc : c.len < 256) : recordVal y c < 256 ^ 16 := by
  have hsym := y.sym.isLt
  have hfreq := y.freq.isLt
  have hbits := c.bits.isLt
  simp only [recordVal, Nat.reducePow] at *
  omega

theorem tableStores_getElem? {c : Csr} {syms : List HSym} {codes : List Code} {i : Nat} {y : HSym} {cd : Code}
    (hy : syms[i]? = some y) (hc : codes[i]? = some cd) :
    (tableStores c syms codes)[i]? = some ⟨⟨c.htabDst.toNat + 16 * i, 16, i⟩, recordVal y cd⟩ := by
  have hzip : (List.zip syms codes)[i]? = some (y, cd) := List.getElem?_zip_eq_some.2 ⟨hy, hc⟩
  rw [tableStores, List.getElem?_mapIdx, hzip, Option.map_some]

section
variable {hs : List Region} {c : Csr} {syms : List HSym} {codes : List Code}

theorem tableStores_rangeOk (hok : rangeOk hs c.htabDst.toNat (16 * syms.length)) :
    ∀ x ∈ tableStores c syms codes, rangeOk hs x.acc.addr x.acc.size := by
  intro x hx
  obtain ⟨r, hr, hin⟩ := tableStores_within (c := c) (Nat.le_refl _) (List.mem_singleton_self _) x hx
  obtain rfl := List.mem_singleton.1 hr
  exact rangeOk.sub hok hin

/-- The stores of HASSIGN leave the code table in memory. -/
theorem tableAt_writeAll {m : Memory} (hm : m.wf = true) (hok : rangeOk hs c.htabDst.toNat (16 * syms.length))
    (hlen : ∀ cd ∈ codes, cd.len ≤ Config.maxCl) :
    TableAt (writeAll (tableStores c syms codes) m) c.htabDst.toNat syms codes := by
  intro i y cd hy hcd
  have hlt : cd.len < 256 := (hlen cd (List.mem_of_getElem? hcd)).trans_lt (by decide)
  refine recordAt_of_readLE hlt ?_
  have hmem := List.mem_of_getElem? (tableStores_getElem? (c := c) hy hcd)
  refine (readLE_writeAll hm (tableStores_rangeOk hok) (fun z hz hne => ?_) (.inl hmem)).trans
    (Nat.mod_eq_of_lt (recordVal_lt hlt))
  obtain ⟨k, y', cd', hy', hcd', rfl⟩ := mem_tableStores hz
  refine slots_apart fun hki => hne ?_
  subst hki
  rw [Option.some.inj (hy.symm.trans hy'), Option.some.inj (hcd.symm.trans hcd')]

/-- The first byte of the code table that does not answer. -/
theorem tableStores_bus {m : Memory} (hl : codes.length = syms.length) {i k : Nat} (hi : i < syms.length) (hk : k < 16)
    (hok : rangeOk hs c.htabDst.toNat (16 * i + k)) (hbad : memOk hs (c.htabDst.toNat + 16 * i + k) = false) :
    storeAll hs (tableStores c syms codes) m = .error (Raise.bus true (c.htabDst.toNat + 16 * i + k) i) := by
  refine storeAll_bus (x := ⟨⟨c.htabDst.toNat + 16 * i, 16, i⟩, recordVal syms[i] codes[i]⟩)
    (tableStores_getElem? (List.getElem?_eq_getElem hi) (List.getElem?_eq_getElem (hl ▸ hi)))
    (fun j y hj hy => ?_) hk ?_ hbad
  · obtain ⟨j', y', cd', hy', hcd', rfl⟩ := mem_tableStores (List.mem_of_getElem? hy)
    have hstore := Option.some.inj (hy.symm.trans
      (tableStores_getElem? (List.getElem?_eq_getElem (hj.trans hi)) (List.getElem?_eq_getElem (hl ▸ hj.trans hi))))
    have hj' : j' = j := congrArg (fun x => x.acc.idx) hstore
    exact hok.sub (r := ⟨c.htabDst.toNat, 16 * i + k⟩) ⟨by simp, by dsimp only; omega⟩
  · exact fun n hn => by
      have := hok (16 * i + n) (by omega)
      rwa [← Nat.add_assoc] at this

end

/-! ## HASSIGN -/

theorem ok_bind {α β : Type} (v : α) (f : α → Except Raise β) : (Except.ok v >>= f) = f v := rfl

theorem mapError_ok {α : Type} (v : α) (f : Raise → Raise) : (Except.ok v : Except Raise α).mapError f = .ok v := rfl

section
variable {s : State} (hs : s.huff.stage = .built ∨ s.huff.stage = .assigned)
  (ha : ArenaOk s.huff.syms s.huff.nodes s.huff.root)
include hs ha

theorem execHassign_codelen {r : Raise} (hc : assignCodes s.huff.nodes s.huff.root s.huff.syms.length = .error r) :
    exec .hassign s = .next
      (s.errorEntry ((r.withDirty [tableRegion s.cfg s.huff.syms.length]).drawing 0)) := by
  have hstage : (s.huff.stage == .built || s.huff.stage == .assigned) = true := by simpa using hs
  rw [assignCodes] at hc
  simp only [exec, execHassign, bodyHassign, hstage, isTree_of_arenaOk ha, Bool.not_true, Bool.false_eq_true, if_false,
    hc]
  rfl

variable {codes : List Code} (hc : assignCodes s.huff.nodes s.huff.root s.huff.syms.length = .ok codes)
include hc

theorem execHassign_bus {r : Raise} (hr : storeAll s.holes (tableStores s.cfg s.huff.syms codes) s.mem = .error r) :
    exec .hassign s = .next
      (s.errorEntry ((r.withDirty [tableRegion s.cfg s.huff.syms.length]).drawing 0)) := by
  have hstage : (s.huff.stage == .built || s.huff.stage == .assigned) = true := by simpa using hs
  rw [assignCodes] at hc
  simp only [exec, execHassign, bodyHassign, hstage, isTree_of_arenaOk ha, Bool.not_true, Bool.false_eq_true, if_false,
    hc, mapError_ok, ok_bind, hr]
  rfl

theorem execHassign_ok {m : Memory} (hm : storeAll s.holes (tableStores s.cfg s.huff.syms codes) s.mem = .ok m) :
    let u := Huffman.afterAssign s.huff.syms s.huff.nodes s.huff.root codes
    exec .hassign s = .next ((((((s.setMem m).setHuff u).setRes 0 (BitVec.ofNat 32 s.huff.syms.length)).setRes 1
      (BitVec.ofNat 32 (maxLen codes))).setRes 2 (u.total.extractLsb' 0 32)).setRes 3
        (u.total.extractLsb' 32 32)).complete := by
  have hstage : (s.huff.stage == .built || s.huff.stage == .assigned) = true := by simpa using hs
  rw [assignCodes] at hc
  simp only [exec, execHassign, bodyHassign, hstage, isTree_of_arenaOk ha, Bool.not_true, Bool.false_eq_true, if_false,
    hc, mapError_ok, ok_bind, hm]
  rfl

end

/-- Settles O54: the traversal finds the one path to each leaf, and the stores of the records share no byte. -/
theorem hassignResult : Obligations.HassignResult := by
  intro s hm hstage harena d a
  have hpath : ∀ {i p}, (leafPaths s.huff.nodes s.huff.root d)[i]? = some p →
      walk s.huff.nodes s.huff.root (pathBits p) = some i := leafPaths_walk harena
  refine ⟨fun hdepth => ?_, fun hop i bits hi hw hlong hbefore => ?_⟩
  · obtain ⟨codes, hc⟩ := codesOf_ok (paths := leafPaths s.huff.nodes s.huff.root d) fun p hp => by
      obtain ⟨i, hi⟩ := List.mem_iff_getElem?.1 hp
      exact pathBits_length p ▸ hdepth _ _ (hpath hi)
    obtain ⟨hlen, hmax⟩ := assignCodes_spec hc
    refine ⟨fun hok => ?_, fun hop i k hi hk hpre hbad => ?_⟩
    · have hne : codes ≠ [] := fun h => by
        have hd := harena.1
        rw [h, List.length_nil] at hlen
        omega
      exact ⟨codes, maxLen codes, _, assignCodes_codesOk harena hc, isLongest_maxLen hne, tableAt_writeAll hm hok hmax,
        execHassign_ok hstage harena hc (storeAll_ok (tableStores_rangeOk hok))⟩
    · exact ⟨_, execHassign_bus hstage harena hc (tableStores_bus hlen hi hk hpre hbad),
        s.errorEntry_eq_stoppedHuffman (by rw [hop]; rfl) (show ErrCode.bus ≠ .illegal by decide) rfl⟩
  · have hget := List.getElem?_eq_getElem (l := leafPaths s.huff.nodes s.huff.root d) (i := i)
      (by rwa [leafPaths_length])
    have hbits := harena.walk_unique (hpath hget) hw
    refine ⟨_, execHassign_codelen hstage harena (codesOf_error hget ?_ fun j q hj hq => ?_),
      s.errorEntry_eq_stoppedHuffman (by rw [hop]; rfl) (show ErrCode.codelen ≠ .illegal by decide) rfl⟩
    · rwa [← pathBits_length, hbits]
    · exact pathBits_length q ▸ hbefore j _ hj (hpath hq)

end Sys2Proof.Machine

/-! PROOFS. HEMIT (20_memory.md R161, 43_huffman.md R463): the bit sequence in memory, and how the command ends off
every device. -/

namespace Sys2Proof.Machine

/-! ## The bit sequence in memory -/

/-- The bits of a number built bit by bit, the first most significant. -/
theorem testBit_foldl_bits (f : Nat → Bool) {n t : Nat} (ht : t < n) :
    ((List.range n).foldl (fun v i => 2 * v + (f i).toNat) 0).testBit (n - 1 - t) = f t := by
  induction n with
  | zero => omega
  | succ n ih =>
    rw [List.range_succ, List.foldl_append, List.foldl_cons, List.foldl_nil]
    generalize hv : (List.range n).foldl (fun v i => 2 * v + (f i).toNat) 0 = v at ih
    rcases Nat.lt_or_ge t n with hlt | hge
    · rw [show n + 1 - 1 - t = (n - 1 - t) + 1 by omega, Nat.testBit_succ,
        show (2 * v + (f n).toNat) / 2 = v by cases f n <;> simp; omega]
      exact ih hlt
    · obtain rfl : t = n := by omega
      rw [Nat.add_sub_cancel, Nat.sub_self]
      cases f t <;> simp [Nat.testBit_zero]

theorem sequenceByte_bit (bits : List Bool) (k : Nat) {n : Nat} (hn : n < 8) :
    (BitVec.ofNat 8 (sequenceByte bits k)).getLsbD (7 - n) = bits.getD (8 * k + n) false := by
  rw [BitVec.getLsbD_ofNat, decide_eq_true (show 7 - n < 8 by omega), Bool.true_and]
  exact testBit_foldl_bits (fun t => bits.getD (8 * k + t) false) hn

theorem bitStores_getElem? {c : Csr} {bits : List Bool} {k : Nat} (hk : k < byteCount bits.length) :
    (bitStores c bits)[k]? = some ⟨⟨c.houtDst.toNat + k, 1, k⟩, sequenceByte bits k⟩ := by
  simp [bitStores, hk]

section
variable {hs : List Region} {c : Csr} {bits : List Bool}

theorem bitStores_rangeOk (hok : rangeOk hs c.houtDst.toNat (byteCount bits.length)) :
    ∀ x ∈ bitStores c bits, rangeOk hs x.acc.addr x.acc.size := by
  intro x hx
  obtain ⟨r, hr, hin⟩ := bitStores_within (c := c) (Nat.le_refl _) (List.mem_singleton_self _) x hx
  obtain rfl := List.mem_singleton.1 hr
  exact rangeOk.sub hok hin

/-- Pass 2 leaves the bit sequence in memory (R161). -/
theorem bitsAt_writeAll {m : Memory} (hm : m.wf = true) (hok : rangeOk hs c.houtDst.toNat (byteCount bits.length)) :
    BitsAt (writeAll (bitStores c bits) m) c.houtDst.toNat bits := by
  intro k n hk hn
  have hread := readLE_writeAll hm (bitStores_rangeOk hok) (fun z hz hne => by
    obtain ⟨k', -, rfl⟩ := List.mem_map.1 hz
    have hslot := slots_apart (b := c.houtDst.toNat) (z := 1) (n := k') (n' := k) fun h => hne (h ▸ rfl)
    rwa [Nat.one_mul, Nat.one_mul] at hslot) (.inl (List.mem_of_getElem? (bitStores_getElem? (c := c) hk)))
  have hbyte : (writeAll (bitStores c bits) m).read (c.houtDst.toNat + k) = BitVec.ofNat 8 (sequenceByte bits k) :=
    BitVec.eq_of_toNat_eq (by simpa [Memory.readLE] using hread)
  rw [hbyte, sequenceByte_bit bits k hn]

/-- The first byte of the output that does not answer. -/
theorem bitStores_bus {m : Memory} {k : Nat} (hk : k < byteCount bits.length) (hok : rangeOk hs c.houtDst.toNat k)
    (hbad : memOk hs (c.houtDst.toNat + k) = false) :
    storeAll hs (bitStores c bits) m = .error (Raise.bus true (c.houtDst.toNat + k) k) := by
  refine storeAll_bus (bitStores_getElem? hk) (fun j y hj hy => ?_) Nat.zero_lt_one
    (fun n hn => absurd hn (Nat.not_lt_zero n)) hbad
  obtain rfl := Option.some.inj ((bitStores_getElem? (hj.trans hk)).symm.trans hy)
  exact hok.sub (r := ⟨c.houtDst.toNat, k⟩) ⟨Nat.le_add_right _ _, by dsimp only; omega⟩

end

/-! ## How HEMIT ends -/

theorem regionsClash_singleton {o r : Region} : regionsClash [o] [r] = false ↔ Region.Apart o r := by
  simp [regionsClash_eq_false_iff]

theorem checkCap_ok {c : Csr} {n : Nat} (h : n ≤ c.houtCap.toNat) : checkCap c n = .ok () :=
  need_ok_iff.2 (decide_eq_true h)

theorem checkCap_error {c : Csr} {n : Nat} (h : c.houtCap.toNat < n) :
    checkCap c n = .error (Raise.plain .houtcap (BitVec.ofNat 32 (min n (2 ^ 32 - 1)))) :=
  need_error_iff.2 ⟨decide_eq_false (Nat.not_le.2 h), rfl⟩

/-- The bits of the leaves that `LeavesOf` names, when all input answers. -/
theorem emitBits_ok {hs : List Region} {m : Memory} {c : Csr} {syms : List HSym} {codes : List Code} {is : List Nat}
    (hok : rangeOk hs c.hinAddr.toNat (2 * c.hinLen.toNat)) (hn : (syms.map HSym.sym).Nodup)
    (h : LeavesOf syms (c.symsTo m c.hinLen.toNat) is) : emitBits hs m c syms codes = .ok (sequenceBits codes is) := by
  rw [emitBits, lookupFrom_leavesOf hok hn h]
  rfl

/-- What HEMIT leaves before its regions are looked at. -/
def hemitWritten (s : State) (bits : List Bool) (m : Memory) : Written :=
  ⟨(((s.setMem m).setHbits (bitCount bits)).setRes 0 ((bitCount bits).extractLsb' 0 32)).setRes 1
    ((bitCount bits).extractLsb' 32 32), [hinRegion s.cfg], [bitsRegion s.cfg bits.length], false⟩

section
variable {s : State} (hs : s.huff.stage = .assigned) (hoff : s.OffDevices [hinRegion s.cfg])
include hs hoff

theorem execHemit_emitError {r : Raise} (hr : emitBits s.holes s.mem s.cfg s.huff.syms s.huff.codes = .error r) :
    exec .hemit s = .next (s.errorEntry (emitRaise s.cfg false (if r.code == .bus then
      [bitsRegion s.cfg (emitMost false s.holes s.mem s.cfg s.huff.syms s.huff.codes)] else []) r)) := by
  have hdev := State.onDevice_eq_false_iff.2 hoff
  simp only [exec, execHemit, bodyHemit, State.readView_off hdev, hdev, hr, hs]
  rfl

variable {bits : List Bool} (hb : emitBits s.holes s.mem s.cfg s.huff.syms s.huff.codes = .ok bits)
include hb

theorem execHemit_houtcap (hc : s.cfg.houtCap.toNat < byteCount bits.length) :
    exec .hemit s = .next (s.errorEntry (emitRaise s.cfg false [bitsRegion s.cfg bits.length]
      (Raise.plain .houtcap (BitVec.ofNat 32 (min (byteCount bits.length) (2 ^ 32 - 1)))))) := by
  have hdev := State.onDevice_eq_false_iff.2 hoff
  simp only [exec, execHemit, bodyHemit, State.readView_off hdev, hdev, hb, hs, mapError_ok, ok_bind, checkCap_error hc]
  rfl

variable (hc : byteCount bits.length ≤ s.cfg.houtCap.toNat)
include hc

theorem execHemit_bus {r : Raise} (hr : storeAll s.holes (bitStores s.cfg bits) s.mem = .error r) :
    exec .hemit s = .next (s.errorEntry ((r.withDirty [bitsRegion s.cfg bits.length]).drawing 0)) := by
  have hdev := State.onDevice_eq_false_iff.2 hoff
  simp only [exec, execHemit, bodyHemit, State.readView_off hdev, hdev, hb, hs, mapError_ok, ok_bind, checkCap_ok hc,
    hr]
  rfl

theorem execHemit_ok {m : Memory} (hm : storeAll s.holes (bitStores s.cfg bits) s.mem = .ok m) :
    exec .hemit s = .next (hemitWritten s bits m).settle.complete := by
  have hdev := State.onDevice_eq_false_iff.2 hoff
  simp only [exec, execHemit, bodyHemit, State.readView_off hdev, hdev, hb, hs, mapError_ok, ok_bind, checkCap_ok hc,
    hm]
  rfl

end

/-- Settles O55: pass 1 finds the leaves of the input, and the stores of pass 2 share no byte. -/
theorem hemitResult : Obligations.HemitResult := by
  intro s is hm hcons hstage input hok hoff hleaves bits n b a hcap
  have hbits : emitBits s.holes s.mem s.cfg s.huff.syms s.huff.codes = .ok bits := emitBits_ok hok hcons.2.1 hleaves
  refine ⟨fun hout => ?_, fun hop k hk hpre hbad => ?_⟩
  · refine ⟨_, execHemit_ok hstage hoff hbits hcap (storeAll_ok (bitStores_rangeOk hout)), ?_, fun hapart => ?_⟩
    · obtain ⟨⟨mem, i, e⟩, -⟩ := (hemitWritten s bits (writeAll (bitStores s.cfg bits) s.mem)).settle_spec
      rw [e]
      rfl
    · rw [Written.settle_of_disjoint _ rfl (regionsClash_singleton.2 hapart.symm)]
      exact bitsAt_writeAll hm hout
  · exact ⟨_, execHemit_bus hstage hoff hbits hcap (bitStores_bus hk hpre hbad),
      s.errorEntry_eq_stoppedHuffman (by rw [hop]; rfl) (show ErrCode.bus ≠ .illegal by decide) rfl⟩

end Sys2Proof.Machine

/-! PROOFS. The errors while symbols are read (43_huffman.md R452, R463, R466, R470): how far HUFF and HEMIT could have
written, and the first symbol that stops HCOUNT, HUFF or HEMIT. -/

namespace Sys2Proof.Machine

/-! ## How far an input could have filled the outputs (log 7) -/

/-- The one leaf of a tree of one symbol is its root. -/
theorem pathTotal_singleton {o : HeapOrder} {y : HSym} {t : List Node × Nat} (h : buildTree o [y] = .ok t) :
    pathTotal [y] (leafPaths t.1 t.2 1) = 0 := by
  have ha : ArenaOk [y] t.1 t.2 := buildTree_arenaOk h (show 1 ≤ Config.nsymMax by decide)
  obtain ⟨p, hp, hw⟩ := leafPaths_hasPath ha (j := 0) (by simp)
  have hroot : walk t.1 t.2 [] = some 0 := by
    obtain ⟨-, hlen, hr, -⟩ := ha
    simp only [List.length_singleton] at hlen
    rw [walk, if_pos (by omega), show t.2 = 0 by omega]
  have hp0 : p.1 = 0 := by rw [← pathBits_length, ha.walk_unique hw hroot, List.length_nil]
  obtain ⟨q, hq⟩ := List.length_eq_one_iff.1 (leafPaths_length t.1 t.2 1)
  rw [List.length_singleton, hq] at hp
  obtain rfl := Option.some.inj hp
  simp [hq, pathTotal, hp0]

/-- A single symbol takes no bit. -/
theorem huffMost_bits_of_single {c : Csr} (h1 : c.hinLen.toNat = 1) {known : List Half} (hk : known.length ≤ 1) :
    (huffMost c known).2 = 0 := by
  have hrows : ∃ y, (known.dedup.map fun x => (⟨x, BitVec.ofNat 32 (known.count x)⟩ : HSym)) ++
      List.replicate (c.hinLen.toNat - known.length) ⟨0#16, 1#32⟩ = [y] := by
    rw [h1]
    rcases known with _ | ⟨x, _ | ⟨x', t⟩⟩
    · exact ⟨_, rfl⟩
    · exact ⟨⟨x, BitVec.ofNat 32 ([x].count x)⟩, by simp⟩
    · simp at hk
  obtain ⟨y, hy⟩ := hrows
  simp only [huffMost, hy]
  rw [if_pos (show [y].length ≤ Config.nsymMax from (by decide : 1 ≤ Config.nsymMax))]
  cases ht : buildTree c.huffOrder [y] with
  | error r => rfl
  | ok t => exact pathTotal_singleton ht

theorem maxLen_le_of_forall {codes : List Code} {n : Nat} (h : ∀ c ∈ codes, c.len ≤ n) : maxLen codes ≤ n := by
  rcases eq_or_ne codes [] with rfl | hne
  · exact Nat.zero_le n
  · obtain ⟨-, c, hc, he⟩ := isLongest_maxLen hne
    exact he ▸ h c hc

/-! ## The symbol that stops HEMIT -/

section
variable {hs : List Region} {m : Memory} {c : Csr} {syms : List HSym} {codes : List Code} {j : Nat}
  (hj : j < c.hinLen.toNat) (hok : rangeOk hs c.hinAddr.toNat (2 * j))
  (hseen : ∀ x ∈ c.symsTo m j, ∃ y ∈ syms, y.sym = x)
include hj hok hseen

/-- When all symbols before have a row, the bits end at the first error. -/
theorem emitBits_error {r : Raise} (hr : ∀ n, lookupFrom hs m c syms (n + 1) j = .error r) :
    emitBits hs m c syms codes = .error r := by
  have hrow : ∀ i, i < j → symIndex syms (c.symAt m i) = some ((symIndex syms (c.symAt m i)).getD 0) := fun i hi => by
    obtain ⟨y, hy, he⟩ := hseen (c.symAt m i) (List.mem_map_of_mem (List.mem_range.2 hi))
    cases hx : symIndex syms (c.symAt m i) with
    | none => exact absurd he (symIndex_none.1 hx y hy)
    | some k => rfl
  have hreach := lookupFrom_reaches (hs := hs) (m := m) (c := c) (syms := syms) (j := 0) (n := j)
    (c.hinLen.toNat - j - 1 + 1) (by rwa [Nat.zero_add]) fun i _ hi => hrow i (by omega)
  rw [Nat.zero_add, hr, show j + (c.hinLen.toNat - j - 1 + 1) = c.hinLen.toNat by omega] at hreach
  rw [emitBits, hreach]
  rfl

theorem emitBits_bus {k : Nat} (hk : k < 2) (hpre : rangeOk hs (c.hinAddr.toNat + 2 * j) k)
    (hbad : memOk hs (c.hinAddr.toNat + 2 * j + k) = false) :
    emitBits hs m c syms codes = .error (Raise.bus false (c.hinAddr.toNat + 2 * j + k) j) :=
  emitBits_error hj hok hseen fun n => by rw [lookupFrom, readSym_of_bad hk hpre hbad]

theorem emitBits_nosym (hsym : rangeOk hs (c.hinAddr.toNat + 2 * j) 2) (hnone : ¬∃ y ∈ syms, y.sym = c.symAt m j) :
    emitBits hs m c syms codes = .error (nosymRaise c j) :=
  emitBits_error hj hok hseen fun n => by
    have hread : readSym hs m c j = .ok (c.symAt m j) := readSym_ok hsym
    have hidx : symIndex syms (c.symAt m j) = none := symIndex_none.2 fun y hy he => hnone ⟨y, hy, he⟩
    rw [lookupFrom, hread]
    simp only [hidx]

end

/-! ## The errors -/

/-- An error of a Huffman command that leaves the regions `rs` open. -/
theorem State.errorEntry_dirty (s : State) {r : Raise} (hop : isHuffmanOp (opField s.cmd) = true)
    (hc : r.code ≠ .illegal) (hq : r.emptiesQueue = false) :
    s.errorEntry r = { s.stoppedHuffman r.code.toByte r.addr r.info with
      mem := (s.errorEntry r).mem, freeIdx := (s.errorEntry r).freeIdx } ∧
    (s.MemoryCanonical → ∀ x, outside r.dirty x → (s.errorEntry r).mem.read x = s.mem.read x) :=
  ⟨s.errorEntry_eq_stoppedHuffman hop hc hq, fun hm => (s.errorEntry_mem r hm).2⟩

theorem State.errorEntry_emitRaise (s : State) {r : Raise} (hop : isHuffmanOp (opField s.cmd) = true)
    (hc : r.code ≠ .illegal) (hq : r.emptiesQueue = false) (outs : List Region) :
    s.errorEntry (emitRaise s.cfg false outs r) = { s.stoppedHuffman r.code.toByte r.addr r.info with
      mem := (s.errorEntry (emitRaise s.cfg false outs r)).mem,
      freeIdx := (s.errorEntry (emitRaise s.cfg false outs r)).freeIdx } ∧
    (s.MemoryCanonical → ∀ x, outside outs x →
      (s.errorEntry (emitRaise s.cfg false outs r)).mem.read x = s.mem.read x) := by
  obtain ⟨rs, n, hspec, hrs⟩ := emitRaise_spec s.cfg false outs r
  rw [hspec]
  obtain ⟨hstopped, hread⟩ := s.errorEntry_dirty (r := { r with dirty := rs, outs := outs, drawn := n }) hop hc hq
  refine ⟨hstopped, fun hm x hx => hread hm x ?_⟩
  rcases hrs with rfl | rfl
  · exact fun _ h => absurd h List.not_mem_nil
  · exact hx

theorem Raise.bus_false (b j : Nat) :
    Raise.bus false b j = ⟨.bus, BitVec.ofNat 32 b, BitVec.ofNat 32 (j % 2 ^ 31), [], [], false, 0⟩ := by
  simp [Raise.bus]

/-- Off every device HUFF's counting is that of memory; an error of it leaves what the input could have filled. -/
theorem execHuff_countError {s : State} (hoff : s.OffDevices [hinRegion s.cfg]) {r : Raise}
    (hr : countSyms s.holes s.mem s.cfg = .error r) : exec .huff s = .next (s.errorEntry ((r.withDirty
      [tableRegion s.cfg (huffMost s.cfg (answered s.holes s.mem s.cfg)).1,
        bitsRegion s.cfg (huffMost s.cfg (answered s.holes s.mem s.cfg)).2]).drawing 0)) := by
  have hdev := State.onDevice_eq_false_iff.2 hoff
  simp only [exec, execHuff, bodyHuff, State.readView_off hdev, hdev, hr, huffOuts, Nat.zero_max]
  rfl

/-- Settles O60: each command reaches symbol `j` with the table, or the leaves, of the symbols before it. -/
theorem huffmanInputErrors : Obligations.HuffmanInputErrors := by
  intro s j hj a input most table buffer longest seen stops
  have hseen : seen = s.cfg.symsTo s.mem j := inputSyms_take hj.le
  have hknown := answered_length_le s.holes s.mem s.cfg
  refine ⟨huffMost_rows_le hknown, fun h1 => ?_, fun n hn => ?_, fun hoff hpre => ⟨fun hop hd => ⟨?_, ?_⟩,
    fun hop hd => ⟨?_, ?_⟩, fun hop hstage hrows => ⟨?_, ?_, ?_⟩⟩⟩
  · have h1 : s.cfg.hinLen.toNat = 1 := by rw [h1]; rfl
    exact huffMost_bits_of_single h1 (h1 ▸ hknown)
  · exact (emitMost_le ..).trans (Nat.mul_le_mul_left _ (maxLen_le_of_forall hn))
  · intro k hk hok hbad
    rw [execHcount_error hoff (countSyms_bus hj hpre (hseen ▸ hd) hk hok hbad), Raise.bus_false]
    exact congrArg _
      (s.errorEntry_stoppedHuffman (by rw [hop]; rfl) (show ErrCode.bus ≠ .illegal by decide) rfl rfl rfl)
  · intro hok hfull hnew
    rw [execHcount_error hoff (countSyms_symcap hj hpre (hseen ▸ hd) hok (hseen ▸ hfull) (hseen ▸ hnew))]
    exact congrArg _
      (s.errorEntry_stoppedHuffman (by rw [hop]; rfl) (show ErrCode.symcap ≠ .illegal by decide) rfl rfl rfl)
  · intro k hk hok hbad
    refine ⟨_, execHuff_countError hoff (countSyms_bus hj hpre (hseen ▸ hd) hk hok hbad), ?_⟩
    rw [Raise.bus_false]
    exact s.errorEntry_dirty (by rw [hop]; rfl) (show ErrCode.bus ≠ .illegal by decide) rfl
  · intro hok hfull hnew
    exact ⟨_, execHuff_countError hoff (countSyms_symcap hj hpre (hseen ▸ hd) hok (hseen ▸ hfull) (hseen ▸ hnew)),
      s.errorEntry_dirty (by rw [hop]; rfl) (show ErrCode.symcap ≠ .illegal by decide) rfl⟩
  · intro k hk hok hbad
    refine ⟨_, execHemit_emitError hstage hoff (emitBits_bus hj hpre (hseen ▸ hrows) hk hok hbad), ?_⟩
    rw [Raise.bus_false]
    exact s.errorEntry_dirty (by rw [hop]; rfl) (show ErrCode.bus ≠ .illegal by decide) rfl
  · intro hok hnone
    rw [execHemit_emitError hstage hoff (emitBits_nosym hj hpre (hseen ▸ hrows) hok hnone)]
    exact congrArg _
      (s.errorEntry_stoppedHuffman (by rw [hop]; rfl) (show ErrCode.nosym ≠ .illegal by decide) rfl rfl rfl)
  · intro is hcons hin hleaves n hcap
    have hbits := emitBits_ok (codes := s.huff.codes) hin hcons.2.1 hleaves
    have hexec := execHemit_houtcap hstage hoff hbits hcap
    refine ⟨⟨_, hexec, ?_⟩, fun hapart => ?_⟩
    · exact s.errorEntry_emitRaise (by rw [hop]; rfl) (show ErrCode.houtcap ≠ .illegal by decide) rfl _
    · have hclash : regionsClash [bitsRegion s.cfg (sequenceBits s.huff.codes is).length] [hinRegion s.cfg] = false :=
        regionsClash_singleton.2 hapart.symm
      rw [hexec, emitRaise_untouched (by exact (show ErrCode.houtcap ≠ .bus by decide)) hclash]
      exact congrArg _
        (s.errorEntry_stoppedHuffman (by rw [hop]; rfl) (show ErrCode.houtcap ≠ .illegal by decide) rfl rfl rfl)

end Sys2Proof.Machine

/-! PROOFS. HUFF (43_huffman.md R466): the length of the bit sequence as the sum of count times length, what each body
of the command does off every device, and how it ends. -/

namespace Sys2Proof.Machine

/-! ## The number of bits is the sum of count times length -/

theorem sum_zipWith_eq_zero {α β : Type} {f : α → β → Nat} {l : List α} (h : ∀ a ∈ l, ∀ b, f a b = 0) (l' : List β) :
    (List.zipWith f l l').sum = 0 := by
  induction l generalizing l' with
  | nil => rfl
  | cons a t ih =>
    cases l' with
    | nil => rfl
    | cons b t' =>
      rw [List.zipWith_cons_cons, List.sum_cons, h a (by simp), ih fun x hx => h x (by simp [hx])]

/-- In a table of distinct symbols the row of a symbol contributes its codeword's length, and no other row. -/
theorem sum_row_of_symbol {syms : List HSym} (hn : (syms.map HSym.sym).Nodup) {codes : List Code} {i : Nat} {y : HSym}
    (hl : codes.length = syms.length) (hy : syms[i]? = some y) :
    (List.zipWith (fun (z : HSym) (c : Code) => (if y.sym = z.sym then 1 else 0) * c.len) syms codes).sum =
      (codes.getD i ⟨0, 0#64⟩).len := by
  induction syms generalizing codes i with
  | nil => simp at hy
  | cons z t ih =>
    obtain ⟨hz, hn⟩ := List.nodup_cons.1 hn
    cases codes with
    | nil => simp at hl
    | cons c codes =>
      rw [List.zipWith_cons_cons, List.sum_cons]
      cases i with
      | zero =>
        obtain rfl := Option.some.inj hy
        rw [if_pos rfl, Nat.one_mul, sum_zipWith_eq_zero fun x hx d => ?_]
        · rfl
        · have hne : z.sym ≠ x.sym := fun he => hz (List.mem_map.2 ⟨x, hx, he.symm⟩)
          rw [if_neg hne, Nat.zero_mul]
      | succ i =>
        have hmem : y.sym ∈ t.map HSym.sym := List.mem_map_of_mem (List.mem_of_getElem? (by simpa using hy))
        have hne : y.sym ≠ z.sym := fun he => hz (he ▸ hmem)
        rw [if_neg hne, Nat.zero_mul, Nat.zero_add, ih hn (by simpa using hl) (by simpa using hy)]
        rfl

theorem sum_zipWith_add {α β : Type} (f g : α → β → Nat) (l : List α) (l' : List β) :
    (List.zipWith (fun a b => f a b + g a b) l l').sum = (List.zipWith f l l').sum + (List.zipWith g l l').sum := by
  induction l generalizing l' with
  | nil => rfl
  | cons a t ih =>
    cases l' with
    | nil => rfl
    | cons b t' =>
      simp only [List.zipWith_cons_cons, List.sum_cons, ih]
      omega

/-- Each symbol of a sequence has its codeword's length, so each row has that length once for each occurrence. -/
theorem sequenceBits_length {syms : List HSym} (hn : (syms.map HSym.sym).Nodup) {codes : List Code}
    (hl : codes.length = syms.length) {l : List Half} {is : List Nat} (h : LeavesOf syms l is) :
    (sequenceBits codes is).length =
      (List.zipWith (fun (y : HSym) (c : Code) => l.count y.sym * c.len) syms codes).sum := by
  induction l generalizing is with
  | nil =>
    obtain rfl : is = [] := List.length_eq_zero_iff.1 h.1
    exact (sum_zipWith_eq_zero (fun y _ c => by rw [List.count_nil, Nat.zero_mul]) codes).symm
  | cons x l ih =>
    obtain ⟨hlen, hrow⟩ := h
    cases is with
    | nil => simp at hlen
    | cons i is =>
      obtain ⟨y, hy, rfl⟩ := hrow 0 i x rfl rfl
      have hrest : LeavesOf syms l is := ⟨by simpa using hlen, fun j k z hk hz => hrow (j + 1) k z hk hz⟩
      have hcount : (fun (z : HSym) (c : Code) => (y.sym :: l).count z.sym * c.len) =
          fun z c => l.count z.sym * c.len + (if y.sym = z.sym then 1 else 0) * c.len := by
        funext z c
        rw [List.count_cons, Nat.add_mul]
        simp
      rw [hcount, sum_zipWith_add, ← ih hrest, sum_row_of_symbol hn hl hy, Nat.add_comm]
      simp [sequenceBits]

/-- The rows of a counted input hold the exact counts, since no input is as long as 2^32. -/
theorem countTable_freq {l : List Half} (hl : l.length < 2 ^ 32) :
    ∀ y ∈ countTable l, y.freq.toNat = l.count y.sym := by
  intro y hy
  obtain ⟨x, -, rfl⟩ := List.mem_map.1 hy
  exact BitVec.toNat_ofNat .. ▸ Nat.mod_eq_of_lt (List.count_le_length.trans_lt hl)

/-- The bits of a counted input are the sum of count times length (R460, R463). -/
theorem sequenceBits_countTable {l : List Half} (hl : l.length < 2 ^ 32) {codes : List Code}
    (hc : codes.length = (countTable l).length) {is : List Nat} (h : LeavesOf (countTable l) l is) :
    (sequenceBits codes is).length = codedTotal (countTable l) codes := by
  rw [sequenceBits_length (by rw [countTable_syms]; exact (firstOccurrences_spec l).1) hc h, codedTotal]
  congr 1
  refine List.ext_getElem (by simp) fun k h1 h2 => ?_
  simp only [List.getElem_zipWith]
  rw [countTable_freq hl _ (List.getElem_mem _)]

/-! ## Memory after the code table -/

theorem TableAt.congr {m m' : Memory} {a : Nat} {syms : List HSym} {codes : List Code} (h : TableAt m a syms codes)
    (heq : ∀ k, k < 16 * syms.length → m'.read (a + k) = m.read (a + k)) : TableAt m' a syms codes := by
  intro i y c hy hc
  have hi := (List.getElem?_eq_some_iff.1 hy).1
  have hread : ∀ o n, o + n ≤ 16 → m'.readLE (a + 16 * i + o) n = m.readLE (a + 16 * i + o) n := fun o n hn =>
    Memory.readLE_congr fun k hk => by
      have := heq (16 * i + o + k) (by omega)
      rwa [← Nat.add_assoc, ← Nat.add_assoc] at this
  obtain ⟨h1, h2, h3, h4, h5⟩ := h i y c hy hc
  exact ⟨(hread 0 2 (by decide)).trans h1, (hread 2 1 (by decide)).trans h2, (hread 3 1 (by decide)).trans h3,
    (hread 4 4 (by decide)).trans h4, (hread 8 8 (by decide)).trans h5⟩

section
variable {hs : List Region} {c : Csr} {m : Memory}

/-- Symbols read the same from memories that agree on the input. -/
theorem Csr.symsTo_congr {m' : Memory} (h : ∀ a, (hinRegion c).has a = true → m'.read a = m.read a) :
    c.symsTo m' c.hinLen.toNat = c.symsTo m c.hinLen.toNat := by
  refine List.map_congr_left fun j hj => congrArg (BitVec.ofNat 16) (Memory.readLE_congr fun k hk => h _ ?_)
  have hj := List.mem_range.1 hj
  refine Region.has_eq_true.2 ?_
  simp only [hinRegion]
  omega

/-- A byte outside the code table is untouched by it. -/
theorem read_tableStores_outside {syms : List HSym} {codes : List Code} (hm : m.wf = true)
    (hok : rangeOk hs c.htabDst.toNat (16 * syms.length)) {a : Nat} (ha : (tableRegion c syms.length).has a = false) :
    (writeAll (tableStores c syms codes) m).read a = m.read a :=
  read_writeAll_outside hm (tableStores_rangeOk hok) fun x hx =>
    (tableStores_within (Nat.le_refl _) (List.mem_singleton_self _) x hx).outside
      fun _ hr => List.mem_singleton.1 hr ▸ ha

/-- A byte outside the bit sequence is untouched by it. -/
theorem read_bitStores_outside {bits : List Bool} (hm : m.wf = true)
    (hok : rangeOk hs c.houtDst.toNat (byteCount bits.length)) {a : Nat}
    (ha : (bitsRegion c bits.length).has a = false) : (writeAll (bitStores c bits) m).read a = m.read a :=
  read_writeAll_outside hm (bitStores_rangeOk hok) fun x hx =>
    (bitStores_within (Nat.le_refl _) (List.mem_singleton_self _) x hx).outside
      fun _ hr => List.mem_singleton.1 hr ▸ ha

end

/-! ## How HUFF ends -/

/-- What HUFF leaves off every device, before its regions are looked at. -/
def huffWritten (s : State) (syms : List HSym) (t : List Node × Nat) (codes : List Code) (bits : List Bool)
    (outs : List Region) (m : Memory) : Written :=
  ⟨((((((((s.setMem m).setPq PQueue.empty).setHuff (Huffman.afterAssign syms t.1 t.2 codes)).setHbits
    (bitCount bits)).setRes 0 (BitVec.ofNat 32 syms.length)).setRes 1 (BitVec.ofNat 32 (maxLen codes))).setRes 2
      ((bitCount bits).extractLsb' 0 32)).setRes 3 ((bitCount bits).extractLsb' 32 32)), [hinRegion s.cfg], outs, false⟩

section
variable {s : State} (hoff : s.OffDevices [hinRegion s.cfg]) {syms : List HSym} {t : List Node × Nat}
  {codes : List Code} (hcount : countSyms s.holes s.mem s.cfg = .ok syms)
  (hbuild : buildTree s.cfg.huffOrder syms = .ok t) (hassign : assignCodes t.1 t.2 syms.length = .ok codes)
include hoff hcount hbuild hassign

/-- The first byte of the code table that does not answer stops the assigning body. -/
theorem execHuff_tableBus {r : Raise} (hr : storeAll s.holes (tableStores s.cfg syms codes) s.mem = .error r) :
    exec .huff s = .next (s.errorEntry (huffRaise false
      [tableRegion s.cfg syms.length, bitsRegion s.cfg (codedTotal syms codes)] r)) := by
  have hdev := State.onDevice_eq_false_iff.2 hoff
  simp only [exec, execHuff, bodyHuff, State.readView_off hdev, hdev, hcount, hbuild, hassign, hr, mapError_ok, ok_bind,
    pathTotal_of_assignCodes syms hassign, Bool.false_eq_true, if_false, huffOuts_zero]
  rfl

variable {m : Memory} (hm : storeAll s.holes (tableStores s.cfg syms codes) s.mem = .ok m) {bits : List Bool}
  (hbits : emitBits s.holes m s.cfg syms codes = .ok bits) (htotal : bits.length = codedTotal syms codes)
include hm hbits htotal

theorem execHuff_houtcap (hcap : s.cfg.houtCap.toNat < byteCount bits.length) :
    exec .huff s = .next (s.errorEntry (huffEmitRaise false [hinRegion s.cfg]
      [tableRegion s.cfg syms.length, bitsRegion s.cfg bits.length]
      (Raise.plain .houtcap (BitVec.ofNat 32 (min (byteCount bits.length) (2 ^ 32 - 1)))))) := by
  have hdev := State.onDevice_eq_false_iff.2 hoff
  simp only [exec, execHuff, bodyHuff, State.readView_off hdev, hdev, hcount, hbuild, hassign, hm, hbits, mapError_ok,
    ok_bind, pathTotal_of_assignCodes syms hassign, Bool.false_eq_true, if_false, huffOuts_zero, ← htotal, Nat.max_self,
    checkCap_error hcap]
  rfl

variable (hcap : byteCount bits.length ≤ s.cfg.houtCap.toNat)
include hcap

theorem execHuff_bitsBus {r : Raise} (hr : storeAll s.holes (bitStores s.cfg bits) m = .error r) :
    exec .huff s = .next (s.errorEntry (huffRaise false
      [tableRegion s.cfg syms.length, bitsRegion s.cfg bits.length] r)) := by
  have hdev := State.onDevice_eq_false_iff.2 hoff
  simp only [exec, execHuff, bodyHuff, State.readView_off hdev, hdev, hcount, hbuild, hassign, hm, hbits, mapError_ok,
    ok_bind, pathTotal_of_assignCodes syms hassign, Bool.false_eq_true, if_false, huffOuts_zero, ← htotal, Nat.max_self,
    checkCap_ok hcap, hr]
  rfl

theorem execHuff_ok {m' : Memory} (hm' : storeAll s.holes (bitStores s.cfg bits) m = .ok m') :
    exec .huff s = .next (huffWritten s syms t codes bits
      [tableRegion s.cfg syms.length, bitsRegion s.cfg bits.length] m').settle.complete := by
  have hdev := State.onDevice_eq_false_iff.2 hoff
  simp only [exec, execHuff, bodyHuff, State.readView_off hdev, hdev, hcount, hbuild, hassign, hm, hbits, mapError_ok,
    ok_bind, pathTotal_of_assignCodes syms hassign, Bool.false_eq_true, if_false, huffOuts_zero, ← htotal, Nat.max_self,
    checkCap_ok hcap, hm']
  rfl

end

/-- An error of HUFF from its building body on. -/
theorem State.errorEntry_huffRaise (s : State) {r : Raise} (hop : isHuffmanOp (opField s.cmd) = true)
    (hc : r.code ≠ .illegal) (rs : List Region) : s.errorEntry (huffRaise false rs r) =
      { (s.stoppedHuffman r.code.toByte r.addr r.info).setPq PQueue.empty with
        mem := (s.errorEntry (huffRaise false rs r)).mem, freeIdx := (s.errorEntry (huffRaise false rs r)).freeIdx } :=
  s.errorEntry_eq_emptied (r := huffRaise false rs r) hop hc rfl

theorem regionsClash_pair {o o' r : Region} :
    regionsClash [o, o'] [r] = false ↔ Region.Apart o o' ∧ Region.Apart o r ∧ Region.Apart o' r := by
  simp [regionsClash_eq_false_iff]

/-- Settles O56: the four bodies in order, each with its own lemma; the input reads the same after the code table, which
lies apart from it. -/
theorem huffResult : Obligations.HuffResult := by
  intro s ns root codes is longest hm hne syms input table hin hoff hd hbuild hassign hlongest hleaves bits n b a stops
  have hcount : countSyms s.holes s.mem s.cfg = .ok syms := countSyms_ok hin ((countTable_length _).symm.trans_le hd)
  have harena : ArenaOk syms ns root := buildTree_arenaOk hbuild hd
  obtain ⟨hlen, hmax⟩ := assignCodes_spec hassign
  have htotal : bits.length = codedTotal syms codes :=
    sequenceBits_countTable (by simp [inputSyms, s.cfg.hinLen.isLt]) hlen hleaves
  refine ⟨assignCodes_codesOk harena hassign, htotal, fun hop i k hi hk hpre hbad => ?_, fun htab hapart => ?_⟩
  · exact ⟨_, execHuff_tableBus hoff hcount hbuild hassign (tableStores_bus hlen hi hk hpre hbad),
      s.errorEntry_huffRaise (by rw [hop]; rfl) (show ErrCode.bus ≠ .illegal by decide) _⟩
  have htables : storeAll s.holes (tableStores s.cfg syms codes) s.mem =
      .ok (writeAll (tableStores s.cfg syms codes) s.mem) := storeAll_ok (tableStores_rangeOk htab)
  have hm1 : (writeAll (tableStores s.cfg syms codes) s.mem).wf = true := writeAll_wf hm (tableStores_rangeOk htab)
  have hsyms : s.cfg.symsTo (writeAll (tableStores s.cfg syms codes) s.mem) s.cfg.hinLen.toNat = inputSyms s :=
    Csr.symsTo_congr fun x hx => read_tableStores_outside hm htab
      (Bool.eq_false_iff.2 fun htx => hapart x ⟨hx, htx⟩)
  have hemit : emitBits s.holes (writeAll (tableStores s.cfg syms codes) s.mem) s.cfg syms codes = .ok bits :=
    emitBits_ok hin (by rw [countTable_syms]; exact (firstOccurrences_spec _).1) (hsyms.symm ▸ hleaves)
  refine ⟨fun hcap hout => ?_, fun hop hcap => ?_, fun hop hcap k hk hpre hbad => ?_⟩
  · refine ⟨_, execHuff_ok hoff hcount hbuild hassign htables hemit htotal hcap (storeAll_ok (bitStores_rangeOk hout)),
      ?_, fun hinout htabout => ?_⟩
    · obtain ⟨⟨mem, i, e⟩, -⟩ := (huffWritten s syms (ns, root) codes bits
        [tableRegion s.cfg syms.length, bitsRegion s.cfg bits.length]
        (writeAll (bitStores s.cfg bits) (writeAll (tableStores s.cfg syms codes) s.mem))).settle_spec
      rw [e, huffWritten, (isLongest_maxLen fun h => ?_).unique hlongest, Huffman.afterAssign, ← htotal]
      · rfl
      · obtain ⟨-, cd, hcd, -⟩ := hlongest
        simp [h] at hcd
    · rw [Written.settle_of_disjoint _ rfl (regionsClash_pair.2 ⟨htabout, hapart.symm, hinout.symm⟩)]
      refine ⟨(tableAt_writeAll hm htab hmax).congr fun k hk => read_bitStores_outside hm1 hout ?_,
        bitsAt_writeAll hm1 hout⟩
      refine Bool.eq_false_iff.2 fun hbit => htabout _ ⟨Region.has_eq_true.2 ⟨Nat.le_add_right _ _, ?_⟩, hbit⟩
      exact Nat.add_lt_add_left hk _
  · refine ⟨_, ⟨execHuff_houtcap hoff hcount hbuild hassign htables hemit htotal hcap, ?_⟩,
      fun hinout htabout x hx => ?_⟩
    · obtain ⟨rs, he, -⟩ := huffEmitRaise_spec false [hinRegion s.cfg]
        [tableRegion s.cfg syms.length, bitsRegion s.cfg bits.length]
        (Raise.plain .houtcap (BitVec.ofNat 32 (min (byteCount bits.length) (2 ^ 32 - 1))))
      rw [he]
      exact s.errorEntry_eq_emptied (by rw [hop]; rfl) (show ErrCode.houtcap ≠ .illegal by decide) rfl
    · have hclash : regionsClash [tableRegion s.cfg syms.length, bitsRegion s.cfg bits.length] [hinRegion s.cfg] =
          false := regionsClash_pair.2 ⟨htabout, hapart.symm, hinout.symm⟩
      refine (s.errorEntry_mem _ hm).2 x ?_
      rw [huffEmitRaise, hclash]
      exact fun r hr => List.mem_singleton.1 hr ▸ hx
  · exact ⟨_, execHuff_bitsBus hoff hcount hbuild hassign htables hemit htotal hcap (bitStores_bus hk hpre hbad),
      s.errorEntry_huffRaise (by rw [hop]; rfl) (show ErrCode.bus ≠ .illegal by decide) _⟩

end Sys2Proof.Machine

/-! PROOFS. The heap order (44_pqueue.md R506, R507): sifting restores it, `enq` and `deq` keep it, and no entry is
better than the root. -/

namespace Sys2Proof.Machine

/-- Index `k` is a child of index `p` in a heap of `n` entries. -/
def HeapChild (n k p : Nat) : Prop := 0 < k ∧ k < n ∧ (k - 1) / 2 = p

theorem heapOrdered_iff {o : HeapOrder} {h : List Entry} :
    HeapOrdered o h ↔ ∀ k p, HeapChild h.length k p → better o (heapAt h k) (heapAt h p) = false :=
  ⟨fun hh k _ ⟨h0, hk, hp⟩ => hp ▸ hh k h0 hk, fun hh k h0 hk => hh k _ ⟨h0, hk, rfl⟩⟩

/-- The heap order but at index `i` against its parent: the children of `i` already fit below that parent. -/
structure OrderedBelow (o : HeapOrder) (h : List Entry) (i : Nat) : Prop where
  other : ∀ k p, HeapChild h.length k p → k ≠ i → better o (heapAt h k) (heapAt h p) = false
  skip : ∀ k p, HeapChild h.length k i → HeapChild h.length i p → better o (heapAt h k) (heapAt h p) = false

/-- The heap order but at index `i` against its children: they already fit below the parent of `i`. -/
structure OrderedAbove (o : HeapOrder) (h : List Entry) (i : Nat) : Prop where
  other : ∀ k p, HeapChild h.length k p → p ≠ i → better o (heapAt h k) (heapAt h p) = false
  skip : ∀ k p, HeapChild h.length k i → HeapChild h.length i p → better o (heapAt h k) (heapAt h p) = false

/-- An exchange with a worse parent moves the one open place up. -/
theorem OrderedBelow.swap {o : HeapOrder} {h : List Entry} {i p : Nat} (hh : OrderedBelow o h i)
    (hp : HeapChild h.length i p) (hb : better o (heapAt h i) (heapAt h p) = true) :
    OrderedBelow o (heapSwap h i p) p := by
  have hip : i < h.length := hp.2.1
  have hpp : p < h.length := by obtain ⟨h0, -, h2⟩ := hp; omega
  have hpi : p ≠ i := by obtain ⟨h0, -, h2⟩ := hp; omega
  have hat := fun k => heapSwap_at (k := k) hip hpp
  constructor <;> simp only [heapSwap_length]
  · intro k q hkq hkp
    rw [hat, hat, if_neg hkp]
    by_cases hki : k = i
    · subst hki
      obtain rfl : q = p := by obtain ⟨-, -, h2⟩ := hp; obtain ⟨-, -, h2'⟩ := hkq; omega
      rw [if_pos rfl, if_pos rfl]
      exact better_asymm hb
    · rw [if_neg hki]
      by_cases hqp : q = p
      · rw [if_pos hqp]
        exact not_better_trans (hh.other k p (hqp ▸ hkq) hki) (better_asymm hb)
      · rw [if_neg hqp]
        by_cases hqi : q = i
        · rw [if_pos hqi]
          exact hh.skip k p (hqi ▸ hkq) hp
        · rw [if_neg hqi]
          exact hh.other k q hkq hki
  · intro k q hkp hpq
    have hqp : q ≠ p := by obtain ⟨h0, -, h2⟩ := hpq; omega
    have hqi : q ≠ i := by obtain ⟨h0, -, h2⟩ := hpq; obtain ⟨h0', -, h2'⟩ := hp; omega
    have hkp' : k ≠ p := by obtain ⟨h0, -, h2⟩ := hkp; omega
    rw [hat, hat, if_neg hqp, if_neg hqi, if_neg hkp']
    have hparent := hh.other p q hpq hpi
    by_cases hki : k = i
    · rw [if_pos hki]
      exact hparent
    · rw [if_neg hki]
      exact not_better_trans (hh.other k p hkp hki) hparent

theorem siftUp_heapOrdered (o : HeapOrder) {fuel : Nat} {h : List Entry} {i : Nat} (hh : OrderedBelow o h i)
    (hi : i < h.length) (hfuel : i ≤ fuel) : HeapOrdered o (siftUp o fuel h i) := by
  induction fuel generalizing h i with
  | zero => exact heapOrdered_iff.2 fun k p hk => hh.other k p hk (by obtain ⟨h0, -⟩ := hk; omega)
  | succ n ih =>
    simp only [siftUp]
    split
    · exact heapOrdered_iff.2 fun k p hk => hh.other k p hk (by obtain ⟨h0, -⟩ := hk; omega)
    · rename_i h0
      have hp : HeapChild h.length i ((i - 1) / 2) := ⟨Nat.pos_of_ne_zero h0, hi, rfl⟩
      split
      · rename_i hb
        exact ih (hh.swap hp hb) (by rw [heapSwap_length]; omega) (by omega)
      · rename_i hb
        refine heapOrdered_iff.2 fun k q hk => ?_
        by_cases hki : k = i
        · subst hki
          obtain ⟨-, -, rfl⟩ := hk
          exact Bool.eq_false_iff.2 hb
        · exact hh.other k q hk hki

/-- The best child is a child, and no child is better. -/
theorem bestChild_spec {o : HeapOrder} {h : List Entry} {i : Nat} (hi : 2 * i + 1 < h.length) :
    HeapChild h.length (bestChild o h i) i ∧
      ∀ k, HeapChild h.length k i → better o (heapAt h k) (heapAt h (bestChild o h i)) = false := by
  have hcases : ∀ k, HeapChild h.length k i → k = 2 * i + 1 ∨ k = 2 * i + 2 ∧ 2 * i + 2 < h.length :=
    fun k ⟨h0, hk, hp⟩ => by omega
  unfold bestChild
  split
  · rename_i hc
    refine ⟨⟨by omega, hc.1, by omega⟩, fun k hk => ?_⟩
    rcases hcases k hk with rfl | ⟨rfl, -⟩
    · exact better_asymm hc.2
    · exact better_irrefl o _
  · rename_i hc
    refine ⟨⟨by omega, hi, by omega⟩, fun k hk => ?_⟩
    rcases hcases k hk with rfl | ⟨rfl, hlt⟩
    · exact better_irrefl o _
    · exact Bool.eq_false_iff.2 fun hb => hc ⟨hlt, hb⟩

/-- An exchange with the best child moves the one open place down. -/
theorem OrderedAbove.swap {o : HeapOrder} {h : List Entry} {i c : Nat} (hh : OrderedAbove o h i)
    (hc : HeapChild h.length c i) (hbest : ∀ k, HeapChild h.length k i → better o (heapAt h k) (heapAt h c) = false)
    (hb : better o (heapAt h c) (heapAt h i) = true) : OrderedAbove o (heapSwap h i c) c := by
  have hcl : c < h.length := hc.2.1
  have hil : i < h.length := by obtain ⟨h0, -, h2⟩ := hc; omega
  have hci : c ≠ i := by obtain ⟨h0, -, h2⟩ := hc; omega
  have hat := fun k => heapSwap_at (k := k) hil hcl
  constructor <;> simp only [heapSwap_length]
  · intro k p hkp hpc
    rw [hat, hat, if_neg hpc]
    by_cases hpi : p = i
    · subst hpi
      rw [if_pos rfl]
      by_cases hkc : k = c
      · rw [if_pos hkc]
        exact better_asymm hb
      · have hki : k ≠ p := by obtain ⟨h0, -, h2⟩ := hkp; omega
        rw [if_neg hkc, if_neg hki]
        exact hbest k hkp
    · have hkc : k ≠ c := by
        rintro rfl
        exact hpi (hkp.2.2.symm.trans hc.2.2)
      rw [if_neg hpi, if_neg hkc]
      by_cases hki : k = i
      · rw [if_pos hki]
        exact hh.skip c p hc (hki ▸ hkp)
      · rw [if_neg hki]
        exact hh.other k p hkp hpi
  · intro k p hkc hcp
    obtain rfl : p = i := hcp.2.2.symm.trans hc.2.2
    have hkc' : k ≠ c := by obtain ⟨h0, -, h2⟩ := hkc; omega
    have hki : k ≠ p := by obtain ⟨h0, -, h2⟩ := hkc; obtain ⟨h0', -, h2'⟩ := hc; omega
    rw [hat, hat, if_neg hkc', if_neg hki, if_neg hci.symm, if_pos rfl]
    exact hh.other k c hkc hci

theorem siftDown_heapOrdered (o : HeapOrder) {fuel : Nat} {h : List Entry} {i : Nat} (hh : OrderedAbove o h i)
    (hfuel : h.length ≤ i + fuel) : HeapOrdered o (siftDown o fuel h i) := by
  have hdone : h.length ≤ 2 * i + 1 → HeapOrdered o h := fun hl => heapOrdered_iff.2 fun k p hk =>
    hh.other k p hk (by obtain ⟨h0, h1, h2⟩ := hk; omega)
  induction fuel generalizing h i with
  | zero => exact hdone (by omega)
  | succ n ih =>
    simp only [siftDown]
    split
    · exact hdone ‹_›
    · rename_i hl
      obtain ⟨hc, hbest⟩ := bestChild_spec (o := o) (h := h) (i := i) (by omega)
      split
      · rename_i hb
        have hswap := hh.swap hc hbest hb
        refine ih hswap (by rw [heapSwap_length]; obtain ⟨h0, -, h2⟩ := hc; omega) fun hl' => ?_
        exact heapOrdered_iff.2 fun k p hk => hswap.other k p hk (by obtain ⟨h0, h1, h2⟩ := hk; omega)
      · rename_i hb
        refine heapOrdered_iff.2 fun k p hk => ?_
        by_cases hpi : p = i
        · subst hpi
          exact not_better_trans (hbest k hk) (Bool.eq_false_iff.2 hb)
        · exact hh.other k p hk hpi

/-! ## The queue operations -/

theorem PQueue.enq_heapOrdered {o : HeapOrder} {q q' : PQueue} {k p : Word} (hq : HeapOrdered o q.heap)
    (h : q.enq o k p = .ok q') : HeapOrdered o q'.heap := by
  rw [PQueue.enq] at h
  split at h
  · simp at h
  · rw [← Except.ok.inj h]
    have hat : ∀ j, j < q.heap.length → heapAt (q.heap ++ [⟨k, p, q.seq⟩]) j = heapAt q.heap j := fun j hj =>
      List.getD_append _ _ _ _ hj
    refine siftUp_heapOrdered o ⟨fun j r hj hne => ?_, fun j r hj hr => ?_⟩ (by simp) (Nat.le_refl _)
    · obtain ⟨h0, hlt, hr⟩ := hj
      rw [List.length_append, List.length_singleton] at hlt
      rw [hat j (by omega), hat r (by omega)]
      exact hr ▸ hq j h0 (by omega)
    · obtain ⟨h0, hlt, hr'⟩ := hj
      obtain ⟨h0', -⟩ := hr
      rw [List.length_append, List.length_singleton] at hlt
      omega

theorem heapPop_heapOrdered {o : HeapOrder} {h : List Entry} (hh : HeapOrdered o h) : HeapOrdered o (heapPop o h) := by
  unfold heapPop
  cases hd : h.dropLast with
  | nil => exact fun k _ hk => absurd hk (Nat.not_lt_zero k)
  | cons x t =>
    have hlen : t.length + 2 = h.length := by
      have := congrArg List.length hd
      rw [List.length_dropLast, List.length_cons] at this
      omega
    have hat : ∀ j, 0 < j → j < t.length + 1 → heapAt (heapAt h (h.length - 1) :: t) j = heapAt h j := fun j h0 hj => by
      have hdrop : heapAt (x :: t) j = heapAt h j := by
        rw [← hd, heapAt_of_lt (by rw [List.length_dropLast]; omega), heapAt_of_lt (by omega), List.getElem_dropLast]
      obtain ⟨i, rfl⟩ : ∃ i, j = i + 1 := ⟨j - 1, by omega⟩
      exact hdrop
    refine siftDown_heapOrdered o ⟨fun k p hk hp => ?_, fun k p _ hp => absurd hp.1 (Nat.lt_irrefl 0)⟩
      (by rw [List.length_cons]; omega)
    obtain ⟨h0, hlt, hp'⟩ := hk
    rw [List.length_cons] at hlt
    rw [hat k h0 hlt, hat p (by omega) (by omega)]
    exact hp' ▸ hh k h0 (by omega)

/-- No entry of an ordered heap is better than its root. -/
theorem HeapOrdered.root_best {o : HeapOrder} {h : List Entry} (hh : HeapOrdered o h) {i : Nat} (hi : i < h.length) :
    better o (heapAt h i) (heapAt h 0) = false := by
  induction i using Nat.strong_induction_on with
  | _ i ih =>
    rcases Nat.eq_zero_or_pos i with rfl | h0
    · exact better_irrefl o _
    · exact not_better_trans (hh i h0 hi) (ih _ (by omega) (by omega))

/-- What leaves an ordered queue is no worse than what stays, which is ordered. -/
theorem PQueue.deq_heapOrdered {o : HeapOrder} {q : PQueue} {r : Entry × PQueue} (hq : HeapOrdered o q.heap)
    (h : q.deq o = .ok r) : HeapOrdered o r.2.heap ∧ ∀ e ∈ r.2.heap, better o e r.1 = false := by
  have hperm := PQueue.deq_perm h
  cases hheap : q.heap with
  | nil =>
    rw [PQueue.deq_empty o q hheap] at h
    simp at h
  | cons top rest =>
    rw [PQueue.deq, hheap] at h
    obtain rfl := Except.ok.inj h
    rw [hheap] at hq
    refine ⟨heapPop_heapOrdered hq, fun e he => ?_⟩
    have hmem : e ∈ top :: rest := hheap ▸ hperm.symm.subset (List.mem_cons_of_mem _ he)
    obtain ⟨i, hi, rfl⟩ := List.mem_iff_getElem.1 hmem
    exact heapAt_of_lt hi ▸ hq.root_best hi

/-- In a min-queue what is not better has no smaller key. -/
theorem key_le_of_not_better {o : HeapOrder} (ho : o.maxheap = false) {x y : Entry} (h : better o y x = false) :
    x.key.toNat ≤ y.key.toNat := by
  unfold better at h
  by_cases hk : y.key = x.key
  · rw [hk]
  · simp only [ne_eq, hk, not_false_eq_true, if_true, ho, Bool.false_eq_true, if_false, decide_eq_false_iff_not] at h
    bv_omega

end Sys2Proof.Machine

/-! PROOFS. The tree of 43_huffman.md R456 is optimal (R471): two lightest entries may take the two longest codewords,
so a round of step 3 loses nothing against any lengths that meet Kraft's inequality. -/

namespace Sys2Proof.Machine

/-! ## Lengths that meet Kraft's inequality -/

/-- The Kraft sum of a collection of lengths. -/
def kraftSum (lens : Multiset Nat) : ℚ := (lens.map fun n => (1 / 2 : ℚ) ^ n).sum

/-- The total of weight times length. -/
def codeCost (p : Multiset (Nat × Nat)) : Nat := (p.map fun x => x.1 * x.2).sum

@[simp] theorem kraftSum_cons (n : Nat) (lens : Multiset Nat) :
    kraftSum (n ::ₘ lens) = (1 / 2 : ℚ) ^ n + kraftSum lens := by
  simp [kraftSum]

@[simp] theorem codeCost_cons (x : Nat × Nat) (p : Multiset (Nat × Nat)) :
    codeCost (x ::ₘ p) = x.1 * x.2 + codeCost p := by
  simp [codeCost]

/-- In units of the shortest share the Kraft sum is a whole number. -/
theorem kraftSum_mul_pow {lens : Multiset Nat} {n : Nat} (h : ∀ k ∈ lens, k ≤ n) :
    ∃ m : Nat, kraftSum lens * 2 ^ n = m := by
  induction lens using Multiset.induction_on with
  | empty => exact ⟨0, by simp [kraftSum]⟩
  | cons k t ih =>
    obtain ⟨m, hm⟩ := ih fun j hj => h j (Multiset.mem_cons_of_mem hj)
    have hk := h k (Multiset.mem_cons_self k t)
    refine ⟨2 ^ (n - k) + m, ?_⟩
    rw [kraftSum_cons, add_mul, hm, Nat.cast_add, Nat.cast_pow, Nat.cast_ofNat, ← Nat.sub_add_cancel hk, pow_add,
      Nat.sub_add_cancel hk, one_div, inv_pow]
    field_simp

/-! ## Exchanging lengths -/

/-- The lightest entry may take the longest length. -/
theorem exchange_lightest {x l : Nat} {q : Multiset (Nat × Nat)} (hx : ∀ p ∈ q, x ≤ p.1) :
    ∃ l' q', q'.map Prod.fst = q.map Prod.fst ∧ l' ::ₘ q'.map Prod.snd = l ::ₘ q.map Prod.snd ∧
      (∀ p ∈ q', p.2 ≤ l') ∧ x * l' + codeCost q' ≤ x * l + codeCost q := by
  induction q using Multiset.induction_on with
  | empty => exact ⟨l, 0, rfl, rfl, by simp, Nat.le_refl _⟩
  | cons p t ih =>
    obtain ⟨l', t', hfst, hsnd, hmax, hcost⟩ := ih fun q hq => hx q (Multiset.mem_cons_of_mem hq)
    have hxp := hx p (Multiset.mem_cons_self p t)
    rcases Nat.le_total p.2 l' with hle | hle
    · refine ⟨l', p ::ₘ t', by simp [hfst], ?_, ?_, ?_⟩
      · rw [Multiset.map_cons, Multiset.cons_swap, hsnd, Multiset.cons_swap, ← Multiset.map_cons]
      · exact fun q hq => (Multiset.mem_cons.1 hq).elim (fun e => e ▸ hle) (hmax q)
      · simp only [codeCost_cons]
        omega
    · refine ⟨p.2, (p.1, l') ::ₘ t', by simp [hfst], ?_, ?_, ?_⟩
      · rw [Multiset.map_cons, Multiset.map_cons, hsnd, Multiset.cons_swap]
      · exact fun q hq => (Multiset.mem_cons.1 hq).elim (fun e => e ▸ hle) fun hq => (hmax q hq).trans hle
      · simp only [codeCost_cons]
        have := mul_add_mul_le_mul_add_mul hxp hle
        omega

/-- With the two longest lengths at the two lightest entries, their parent takes one bit less. -/
theorem kraftSum_merge {la lb : Nat} {lens : Multiset Nat} (hmax : ∀ n ∈ lens, n ≤ lb)
    (hk : kraftSum (la ::ₘ lb ::ₘ lens) ≤ 1) : 1 ≤ lb ∧ kraftSum ((lb - 1) ::ₘ lens) ≤ 1 := by
  obtain ⟨m, hm⟩ := kraftSum_mul_pow hmax
  simp only [kraftSum_cons] at hk ⊢
  have hpos : (0 : ℚ) < 2 ^ lb := by positivity
  have hshare : (1 / 2 : ℚ) ^ lb * 2 ^ lb = 1 := by rw [← mul_pow]; norm_num
  have hla : (0 : ℚ) < (1 / 2) ^ la := by positivity
  have hlt : m + 1 < 2 ^ lb := by
    have h1 : ((1 / 2 : ℚ) ^ lb + kraftSum lens) * 2 ^ lb < 1 * 2 ^ lb := mul_lt_mul_of_pos_right (by linarith) hpos
    rw [add_mul, hshare, hm, one_mul] at h1
    have h2 : ((m + 1 : Nat) : ℚ) < ((2 ^ lb : Nat) : ℚ) := by push_cast; linarith
    exact_mod_cast h2
  have hlb : 1 ≤ lb := Nat.one_le_iff_ne_zero.2 fun h0 => by simp [h0] at hlt
  refine ⟨hlb, ?_⟩
  have hdouble : (1 / 2 : ℚ) ^ (lb - 1) * 2 ^ lb = 2 := by
    conv_lhs => rw [show lb = (lb - 1) + 1 by omega, pow_succ, Nat.add_sub_cancel, ← mul_assoc, ← mul_pow]
    norm_num
  have hle : ((1 / 2 : ℚ) ^ (lb - 1) + kraftSum lens) * 2 ^ lb ≤ 1 * 2 ^ lb := by
    rw [add_mul, hdouble, hm, one_mul]
    have : ((m + 2 : Nat) : ℚ) ≤ ((2 ^ lb : Nat) : ℚ) := by exact_mod_cast hlt
    push_cast at this
    linarith
  exact le_of_mul_le_mul_right hle hpos

/-- Joining the two lightest entries costs at least their weight (R456 step 3). -/
theorem merge_lightest {a b la lb : Nat} {r : Multiset (Nat × Nat)} (hab : a ≤ b) (hb : ∀ p ∈ r, b ≤ p.1)
    (hk : kraftSum (la ::ₘ lb ::ₘ r.map Prod.snd) ≤ 1) :
    ∃ l r', r'.map Prod.fst = r.map Prod.fst ∧ kraftSum (l ::ₘ r'.map Prod.snd) ≤ 1 ∧
      (a + b) + codeCost ((a + b, l) ::ₘ r') ≤ codeCost ((a, la) ::ₘ (b, lb) ::ₘ r) := by
  obtain ⟨la', q, hfst, hsnd, hmax, hcost⟩ := exchange_lightest (x := a) (l := la) (q := (b, lb) ::ₘ r) fun p hp =>
    (Multiset.mem_cons.1 hp).elim (fun e => e ▸ hab) fun hp => hab.trans (hb p hp)
  rw [Multiset.map_cons] at hfst hsnd
  obtain ⟨⟨b', lb1⟩, hmem, hbe, hrest⟩ := (Multiset.map_eq_cons _ _ _ _).2 hfst
  obtain rfl : b' = b := hbe
  obtain ⟨r1, rfl⟩ := Multiset.exists_cons_of_mem hmem
  rw [Multiset.erase_cons_head] at hrest
  obtain ⟨lb', r', hfst', hsnd', hmax', hcost'⟩ := exchange_lightest (x := b') (l := lb1) (q := r1) fun p hp => by
    have hw : p.1 ∈ r.map Prod.fst := hrest ▸ Multiset.mem_map_of_mem _ hp
    obtain ⟨p', hp', he⟩ := Multiset.mem_map.1 hw
    exact he ▸ hb p' hp'
  have hlens : la' ::ₘ lb' ::ₘ r'.map Prod.snd = la ::ₘ lb ::ₘ r.map Prod.snd := by
    rw [hsnd', ← hsnd, Multiset.map_cons]
  have hla : lb' ≤ la' := by
    have hin : lb' ∈ lb1 ::ₘ r1.map Prod.snd := hsnd' ▸ Multiset.mem_cons_self _ _
    rw [← Multiset.map_cons Prod.snd (b', lb1) r1] at hin
    obtain ⟨p, hp, rfl⟩ := Multiset.mem_map.1 hin
    exact hmax p hp
  obtain ⟨h1, hkraft⟩ := kraftSum_merge (fun n hn => by
    obtain ⟨p, hp, rfl⟩ := Multiset.mem_map.1 hn
    exact hmax' p hp) (hlens ▸ hk)
  refine ⟨lb' - 1, r', hfst'.trans hrest, hkraft, ?_⟩
  obtain ⟨n, rfl⟩ : ∃ n, lb' = n + 1 := ⟨lb' - 1, by omega⟩
  have hmul := Nat.mul_le_mul_left a hla
  simp only [codeCost_cons, Nat.add_sub_cancel] at hcost hcost' ⊢
  rw [Nat.add_mul]
  rw [Nat.mul_succ] at hcost' hmul
  omega

/-! ## The rounds of step 3 -/

/-- The weights in the queue. -/
def PQueue.weights (q : PQueue) : Multiset Nat := (q.heap : Multiset Entry).map fun e => e.key.toNat

/-- The weight of an internal node; a leaf has none here. -/
def Node.inner : Node → Nat
  | .leaf _ _ => 0
  | .internal wt _ _ => wt.toNat

/-- The sum of the internal nodes' weights. -/
def innerSum (ns : List Node) : Nat := (ns.map Node.inner).sum

theorem innerSum_append (ns : List Node) (wt : Word) (l r : Nat) :
    innerSum (ns ++ [.internal wt l r]) = innerSum ns + wt.toNat := by
  simp [innerSum, Node.inner]

theorem PQueue.enq_weights {o : HeapOrder} {q q' : PQueue} {k p : Word} (h : q.enq o k p = .ok q') :
    q'.weights = k.toNat ::ₘ q.weights := by
  rw [PQueue.weights, Multiset.coe_eq_coe.2 (PQueue.enq_perm h)]
  rfl

theorem PQueue.deq_weights {o : HeapOrder} {q : PQueue} {r : Entry × PQueue} (h : q.deq o = .ok r) :
    q.weights = r.1.key.toNat ::ₘ r.2.weights := by
  rw [PQueue.weights, Multiset.coe_eq_coe.2 (PQueue.deq_perm h)]
  rfl

theorem PQueue.mem_weights {q : PQueue} {w : Nat} : w ∈ q.weights ↔ ∃ e ∈ q.heap, e.key.toNat = w := by
  simp [PQueue.weights]

theorem mergeOnce_eq {o : HeapOrder} {q : PQueue} {ns : List Node} {p : PQueue × List Node}
    (h : mergeOnce o q ns = .ok p) : ∃ x y : Entry × PQueue, q.deq o = .ok x ∧ x.2.deq o = .ok y ∧
      y.2.enq o (weightSum x.1.key y.1.key) (BitVec.ofNat 32 ns.length) = .ok p.1 ∧
      p.2 = ns ++ [.internal (weightSum x.1.key y.1.key) x.1.handle y.1.handle] := by
  obtain ⟨x, hx, h⟩ := bind_eq_ok h
  obtain ⟨y, hy, h⟩ := bind_eq_ok h
  obtain ⟨q', hq', h⟩ := bind_eq_ok h
  obtain rfl := Except.ok.inj h
  exact ⟨x, y, hx, hy, hq', rfl⟩

theorem weightSum_toNat {x y : Word} (h : x.toNat + y.toNat < 2 ^ 32) : (weightSum x y).toNat = x.toNat + y.toNat := by
  rw [weightSum_of_lt h, BitVec.toNat_add, Nat.mod_eq_of_lt h]

theorem nodeWeight_append {ns : List Node} {n : Node} {i : Nat} (hi : i < ns.length) :
    nodeWeight (ns ++ [n]) i = nodeWeight ns i := by
  rw [nodeWeight, List.getElem?_append_left hi, nodeWeight]

/-- Each internal node weighs exactly what its children weigh together. -/
def SumsExact (ns : List Node) : Prop :=
  ∀ (i : Nat) (wt : Word) (l r : Nat), ns[i]? = some (Node.internal wt l r) →
    wt.toNat = (nodeWeight ns l).toNat + (nodeWeight ns r).toNat

/-- HBUILD's queue and arena while no weight overflows: an ordered heap of the forest's roots, each with its node's
weight. -/
structure Building (o : HeapOrder) (syms : List HSym) (q : PQueue) (ns : List Node) : Prop where
  forest : Forest syms ns q.handles
  ordered : HeapOrdered o q.heap
  keys : ∀ e ∈ q.heap, nodeWeight ns e.handle = e.key
  sums : SumsExact ns
  total : q.weights.sum < 2 ^ 32

section
variable {o : HeapOrder} {syms : List HSym} {q : PQueue} {ns : List Node} {p : PQueue × List Node}

theorem Building.handle_lt (h : Building o syms q ns) {e : Entry} (he : e ∈ q.heap) : e.handle < ns.length :=
  h.forest.root_lt (List.mem_map_of_mem he)

/-- A round of step 3 keeps the invariant. -/
theorem Building.after_mergeOnce (h : Building o syms q ns) (hm : mergeOnce o q ns = .ok p)
    (hd : syms.length ≤ Config.nsymMax) : Building o syms p.1 p.2 := by
  obtain ⟨x, y, hx, hy, hq', hns⟩ := mergeOnce_eq hm
  obtain ⟨hord1, -⟩ := PQueue.deq_heapOrdered h.ordered hx
  obtain ⟨hord2, -⟩ := PQueue.deq_heapOrdered hord1 hy
  have hperm : q.heap.Perm (x.1 :: y.1 :: y.2.heap) := (PQueue.deq_perm hx).trans ((PQueue.deq_perm hy).cons _)
  have hxq : x.1 ∈ q.heap := hperm.symm.subset (by simp)
  have hyq : y.1 ∈ q.heap := hperm.symm.subset (by simp)
  have hweights : q.weights = x.1.key.toNat ::ₘ y.1.key.toNat ::ₘ y.2.weights := by
    rw [PQueue.deq_weights hx, PQueue.deq_weights hy]
  have htotal := h.total
  rw [hweights, Multiset.sum_cons, Multiset.sum_cons] at htotal
  have hwt : (weightSum x.1.key y.1.key).toNat = x.1.key.toNat + y.1.key.toNat := weightSum_toNat (by omega)
  have hlen : ns.length < 2 ^ 32 := by
    have := h.forest.count
    simp only [Config.nsymMax] at hd
    omega
  obtain ⟨hforest, -⟩ := mergeOnce_forest hm h.forest hd
  refine ⟨hforest, PQueue.enq_heapOrdered hord2 hq', fun e he => ?_, fun i wt l r hi => ?_, ?_⟩
  · rw [hns]
    rcases List.mem_cons.1 ((PQueue.enq_perm hq').subset he) with rfl | he
    · have hhandle : (BitVec.ofNat 32 ns.length).toNat = ns.length := by
        rw [BitVec.toNat_ofNat, Nat.mod_eq_of_lt hlen]
      simp only [Entry.handle, hhandle, nodeWeight, List.getElem?_concat_length]
    · have heq : e ∈ q.heap := hperm.symm.subset (by simp [he])
      rw [nodeWeight_append (h.handle_lt heq), h.keys e heq]
  · rw [hns] at hi ⊢
    rcases Nat.lt_or_ge i ns.length with hlt | hge
    · rw [List.getElem?_append_left hlt] at hi
      obtain ⟨hl, hr⟩ := h.forest.below i wt l r hi
      rw [nodeWeight_append (hl.trans hlt), nodeWeight_append (hr.trans hlt)]
      exact h.sums i wt l r hi
    · have hlast := (List.getElem?_eq_some_iff.1 hi).1
      rw [List.length_append, List.length_singleton] at hlast
      obtain rfl : i = ns.length := by omega
      rw [List.getElem?_concat_length] at hi
      obtain ⟨rfl, rfl, rfl⟩ := Node.internal.inj (Option.some.inj hi)
      rw [nodeWeight_append (h.handle_lt hxq), nodeWeight_append (h.handle_lt hyq), h.keys _ hxq, h.keys _ hyq, hwt]
  · rw [PQueue.enq_weights hq', Multiset.sum_cons, hwt]
    omega

/-- Against any lengths that meet Kraft's inequality a round of step 3 loses nothing. -/
theorem Building.mergeOnce_cost (ho : o.maxheap = false) (h : Building o syms q ns) (hm : mergeOnce o q ns = .ok p)
    {c : Multiset (Nat × Nat)} (hc : c.map Prod.fst = q.weights) (hk : kraftSum (c.map Prod.snd) ≤ 1) :
    ∃ c', c'.map Prod.fst = p.1.weights ∧ kraftSum (c'.map Prod.snd) ≤ 1 ∧
      innerSum p.2 + codeCost c' ≤ innerSum ns + codeCost c := by
  obtain ⟨x, y, hx, hy, hq', hns⟩ := mergeOnce_eq hm
  obtain ⟨hord1, hbest1⟩ := PQueue.deq_heapOrdered h.ordered hx
  obtain ⟨-, hbest2⟩ := PQueue.deq_heapOrdered hord1 hy
  have hxy : x.1.key.toNat ≤ y.1.key.toNat :=
    key_le_of_not_better ho (hbest1 _ ((PQueue.deq_perm hy).symm.subset List.mem_cons_self))
  have htotal := h.total
  rw [PQueue.deq_weights hx, PQueue.deq_weights hy] at hc htotal
  rw [Multiset.sum_cons, Multiset.sum_cons] at htotal
  have hwt : (weightSum x.1.key y.1.key).toNat = x.1.key.toNat + y.1.key.toNat := weightSum_toNat (by omega)
  obtain ⟨⟨a, la⟩, ha, hae, hc1⟩ := (Multiset.map_eq_cons _ _ _ _).2 hc
  obtain ⟨c1, rfl⟩ := Multiset.exists_cons_of_mem ha
  rw [Multiset.erase_cons_head] at hc1
  obtain ⟨⟨b, lb⟩, hb, hbe, hr⟩ := (Multiset.map_eq_cons _ _ _ _).2 hc1
  obtain ⟨r, rfl⟩ := Multiset.exists_cons_of_mem hb
  rw [Multiset.erase_cons_head] at hr
  obtain rfl : a = x.1.key.toNat := hae
  obtain rfl : b = y.1.key.toNat := hbe
  obtain ⟨l, r', hfst, hkraft, hcost⟩ := merge_lightest (la := la) (lb := lb) (r := r) hxy (fun z hz => by
    have hw : z.1 ∈ y.2.weights := hr ▸ Multiset.mem_map_of_mem Prod.fst hz
    obtain ⟨e, he, hez⟩ := PQueue.mem_weights.1 hw
    exact (key_le_of_not_better ho (hbest2 e he)).trans_eq hez) (by simpa using hk)
  refine ⟨(x.1.key.toNat + y.1.key.toNat, l) ::ₘ r', ?_, by simpa using hkraft, ?_⟩
  · rw [PQueue.enq_weights hq', hwt, Multiset.map_cons, hfst, hr]
  · rw [hns, innerSum_append, hwt]
    omega

/-- All rounds of step 3. -/
theorem Building.after_mergeLoop (ho : o.maxheap = false) {fuel : Nat} (h : Building o syms q ns)
    (hm : mergeLoop o fuel q ns = .ok p) (hd : syms.length ≤ Config.nsymMax) : Building o syms p.1 p.2 ∧
      ∀ c : Multiset (Nat × Nat), c.map Prod.fst = q.weights → kraftSum (c.map Prod.snd) ≤ 1 →
        innerSum p.2 ≤ innerSum ns + codeCost c := by
  induction fuel generalizing q ns with
  | zero =>
    obtain rfl := Except.ok.inj hm
    exact ⟨h, fun c _ _ => Nat.le_add_right _ _⟩
  | succ n ih =>
    simp only [mergeLoop] at hm
    split at hm
    · obtain rfl := Except.ok.inj hm
      exact ⟨h, fun c _ _ => Nat.le_add_right _ _⟩
    · split at hm
      · simp at hm
      · rename_i p1 h1
        obtain ⟨hb, hcost⟩ := ih (h.after_mergeOnce h1 hd) hm
        refine ⟨hb, fun c hc hk => ?_⟩
        obtain ⟨c', hc', hk', hle⟩ := h.mergeOnce_cost ho h1 hc hk
        have := hcost c' hc' hk'
        omega

end

/-! ## The whole of R456 -/

theorem nodeWeight_leaves {syms : List HSym} {i : Nat} {y : HSym} (h : syms[i]? = some y) :
    nodeWeight (leaves syms) i = y.freq := by
  rw [nodeWeight, leaves, List.getElem?_map, h, Option.map_some]

/-- Step 2 of R456 enqueues each leaf with its weight, in heap order. -/
theorem seedQueue_spec {o : HeapOrder} {all syms : List HSym} {i : Nat} {q q' : PQueue}
    (h : seedQueue o syms i q = .ok q') (hall : all.drop i = syms) (hlen : all.length ≤ Config.nsymMax)
    (hq : HeapOrdered o q.heap) (hkeys : ∀ e ∈ q.heap, nodeWeight (leaves all) e.handle = e.key) :
    HeapOrdered o q'.heap ∧ (∀ e ∈ q'.heap, nodeWeight (leaves all) e.handle = e.key) ∧
      q'.weights = q.weights + (syms.map fun y => y.freq.toNat : List Nat) := by
  induction syms generalizing i q with
  | nil =>
    obtain rfl := Except.ok.inj h
    exact ⟨hq, hkeys, by simp⟩
  | cons y t ih =>
    have hi : i < all.length := by
      by_contra hge
      rw [List.drop_eq_nil_of_le (by omega)] at hall
      simp at hall
    rw [List.drop_eq_getElem_cons hi] at hall
    obtain ⟨rfl, ht⟩ := List.cons.inj hall
    simp only [seedQueue] at h
    split at h
    · simp at h
    · rename_i q1 h1
      obtain ⟨hord, hk, hw⟩ := ih h ht (PQueue.enq_heapOrdered hq h1) fun e he => by
        rcases List.mem_cons.1 ((PQueue.enq_perm h1).subset he) with rfl | he
        · have hi32 : i < 2 ^ 32 := by simp only [Config.nsymMax] at hlen; omega
          rw [Entry.handle, BitVec.toNat_ofNat, Nat.mod_eq_of_lt hi32]
          exact nodeWeight_leaves (List.getElem?_eq_getElem hi)
        · exact hkeys e he
      refine ⟨hord, hk, ?_⟩
      rw [hw, PQueue.enq_weights h1, List.map_cons, ← Multiset.cons_coe, Multiset.add_cons, Multiset.cons_add]

/-- The tree of a table whose counts sum below 2^32: its weights are exact, and no lengths that meet Kraft's inequality
cost less than its internal nodes weigh. -/
theorem buildTree_optimal {o : HeapOrder} (ho : o.maxheap = false) {syms : List HSym} {t : List Node × Nat}
    (h : buildTree o syms = .ok t) (hd : syms.length ≤ Config.nsymMax)
    (hsum : (syms.map fun y => y.freq.toNat).sum < 2 ^ 32) : SumsExact t.1 ∧
      ∀ c : Multiset (Nat × Nat), c.map Prod.fst = (syms.map fun y => y.freq.toNat : List Nat) →
        kraftSum (c.map Prod.snd) ≤ 1 → innerSum t.1 ≤ codeCost c := by
  obtain ⟨q, hq, h⟩ := bind_eq_ok h
  obtain ⟨p, hp, h⟩ := bind_eq_ok h
  obtain ⟨r, hr, h⟩ := bind_eq_ok h
  obtain rfl := Except.ok.inj h
  obtain ⟨hord, hkeys, hweights⟩ := seedQueue_spec (all := syms) hq rfl hd (fun k _ hk => absurd hk (Nat.not_lt_zero k))
    (by simp [PQueue.empty])
  have hempty : PQueue.empty.weights = 0 := rfl
  rw [hempty, Multiset.zero_add] at hweights
  have hforest : Forest syms (leaves syms) q.handles := by
    have hseed := seedQueue_handles hq (by simp only [Config.nsymMax] at hd; omega)
    rw [← List.range_eq_range'] at hseed
    exact (Forest.init syms).perm hseed.symm
  have hbuilding : Building o syms q (leaves syms) :=
    { forest := hforest
      ordered := hord
      keys := hkeys
      sums := fun i wt l r hi => by
        obtain ⟨y, -, hy⟩ := Option.map_eq_some_iff.1 (List.getElem?_map .. ▸ hi)
        simp at hy
      total := by rwa [hweights, Multiset.sum_coe] }
  obtain ⟨hb, hcost⟩ := hbuilding.after_mergeLoop ho hp hd
  refine ⟨hb.sums, fun c hc hk => ?_⟩
  have hleaves : innerSum (leaves syms) = 0 := by
    rw [innerSum, leaves, List.map_map]
    exact List.sum_eq_zero fun n hn => by
      obtain ⟨y, -, rfl⟩ := List.mem_map.1 hn
      rfl
  have := hcost c (hc.trans hweights.symm) hk
  rwa [hleaves, Nat.zero_add] at this

end Sys2Proof.Machine

/-! PROOFS. Total length and tree (43_huffman.md R460, R471): the sum of count times length is the weight of the
internal nodes, so the codes that HUFF, or HBUILD and HASSIGN, assign are optimal. -/

namespace Sys2Proof.Machine

/-! ## Depths -/

theorem ArenaOk.exists_walk {syms : List HSym} {ns : List Node} {root j : Nat} (h : ArenaOk syms ns root)
    (hj : j ≤ root) : ∃ bits, walk ns root bits = some j := by
  have hunder := h.under_root hj
  obtain ⟨-, -, hroot, -, hbelow, -, -⟩ := h
  induction hunder with
  | refl => exact ⟨[], if_pos (by omega)⟩
  | tail _ hc ih =>
    obtain ⟨wt, l, r, hn, hx⟩ := hc
    have hlt := (List.getElem?_eq_some_iff.1 hn).1
    obtain ⟨hl, hr⟩ := hbelow _ wt l r hn
    obtain ⟨bits, hw⟩ := ih (by omega)
    rcases hx with rfl | rfl
    · exact ⟨_, walk_append_singleton false hw hn (hl.trans hlt)⟩
    · exact ⟨_, walk_append_singleton true hw hn (hr.trans hlt)⟩

/-- Each node of a tree has one depth. -/
def IsDepth (ns : List Node) (root : Nat) (dep : Nat → Nat) : Prop :=
  ∀ i bits, walk ns root bits = some i → bits.length = dep i

theorem ArenaOk.exists_depth {syms : List HSym} {ns : List Node} {root : Nat} (h : ArenaOk syms ns root) :
    ∃ dep, IsDepth ns root dep := by
  have key : ∀ i, ∃ k, ∀ bits, walk ns root bits = some i → bits.length = k := fun i => by
    by_cases hi : ∃ p, walk ns root p = some i
    · obtain ⟨p, hp⟩ := hi
      exact ⟨p.length, fun q hq => congrArg List.length (h.walk_unique hq hp)⟩
    · exact ⟨0, fun q hq => absurd ⟨q, hq⟩ hi⟩
  choose dep hdep using key
  exact ⟨dep, hdep⟩

section
variable {syms : List HSym} {ns : List Node} {root : Nat} {dep : Nat → Nat} (h : ArenaOk syms ns root)
  (hdep : IsDepth ns root dep)
include h hdep

theorem IsDepth.root_eq : dep root = 0 := by
  obtain ⟨-, -, hroot, -⟩ := h
  have hw : walk ns root [] = some root := if_pos (by omega)
  rw [← hdep root [] hw, List.length_nil]

theorem IsDepth.child {i : Nat} {wt : Word} {l r : Nat} (hn : ns[i]? = some (.internal wt l r)) :
    dep l = dep i + 1 ∧ dep r = dep i + 1 := by
  have hlt := (List.getElem?_eq_some_iff.1 hn).1
  obtain ⟨bits, hw⟩ := h.exists_walk (j := i) (by obtain ⟨-, -, hroot, -⟩ := h; omega)
  obtain ⟨-, -, -, -, hbelow, -, -⟩ := h
  obtain ⟨hl, hr⟩ := hbelow i wt l r hn
  have hleft := hdep _ _ (walk_append_singleton false hw hn (hl.trans hlt))
  have hright := hdep _ _ (walk_append_singleton true hw hn (hr.trans hlt))
  rw [List.length_append, hdep i bits hw] at hleft hright
  exact ⟨hleft.symm, hright.symm⟩

end

/-! ## Sums over the nodes of an arena -/

/-- The weight of a node. -/
def Node.weight : Node → Nat
  | .leaf wt _ => wt.toNat
  | .internal wt _ _ => wt.toNat

/-- The values of a node's children together. -/
def Node.childSum (f : Nat → Nat) : Node → Nat
  | .leaf _ _ => 0
  | .internal _ l r => f l + f r

/-- A leaf's weight times its depth; an internal node counts nothing. -/
def Node.leafCost (dep : Nat) : Node → Nat
  | .leaf wt _ => wt.toNat * dep
  | .internal _ _ _ => 0

theorem sum_childHandles (ns : List Node) (f : Nat → Nat) :
    ((childHandles ns).map f).sum = (ns.map (Node.childSum f)).sum := by
  induction ns with
  | nil => rfl
  | cons n t ih =>
    rw [childHandles_eq_flatMap, List.flatMap_cons, ← childHandles_eq_flatMap, List.map_append, List.sum_append, ih,
      List.map_cons, List.sum_cons]
    cases n <;> simp [Node.childSum, Node.childList]

theorem nodeWeight_toNat {ns : List Node} {i : Nat} {n : Node} (h : ns[i]? = some n) :
    (nodeWeight ns i).toNat = n.weight := by
  rw [nodeWeight, h]
  cases n <;> rfl

/-- A sum over the nodes with their handles. -/
def nodeSum (ns : List Node) (g : Node → Nat → Nat) : Nat := (ns.zipIdx.map fun p => g p.1 p.2).sum

theorem nodeSum_congr {ns : List Node} {g g' : Node → Nat → Nat} (h : ∀ n i, ns[i]? = some n → g n i = g' n i) :
    nodeSum ns g = nodeSum ns g' :=
  congrArg List.sum (List.map_congr_left fun p hp => h p.1 p.2 (List.mem_zipIdx_iff_getElem?.1 hp))

theorem nodeSum_add (ns : List Node) (g g' : Node → Nat → Nat) :
    nodeSum ns (fun n i => g n i + g' n i) = nodeSum ns g + nodeSum ns g' := List.sum_map_add

theorem nodeSum_fst (ns : List Node) (g : Node → Nat) : nodeSum ns (fun n _ => g n) = (ns.map g).sum := by
  have hmap : (ns.zipIdx.map fun p => g p.1) = (ns.zipIdx.map Prod.fst).map g := by rw [List.map_map]; rfl
  rw [nodeSum, hmap, List.zipIdx_map_fst]

theorem nodeSum_snd (ns : List Node) (f : Nat → Nat) :
    nodeSum ns (fun _ i => f i) = ((List.range ns.length).map f).sum := by
  have hmap : (ns.zipIdx.map fun p => f p.2) = (ns.zipIdx.map Prod.snd).map f := by rw [List.map_map]; rfl
  rw [nodeSum, hmap, List.zipIdx_map_snd, List.range_eq_range']

/-- Weight times depth over all nodes but the root, counted by node and by parent: what the internal nodes weigh is what
the leaves cost. -/
theorem innerSum_eq_leafCost {syms : List HSym} {ns : List Node} {root : Nat} {dep : Nat → Nat}
    (h : ArenaOk syms ns root) (hs : SumsExact ns) (hdep : IsDepth ns root dep) :
    innerSum ns = nodeSum ns fun n i => n.leafCost (dep i) := by
  have hroot : root + 1 = ns.length := h.2.2.1
  have hperm : (childHandles ns).Perm (List.range root) := h.2.2.2.2.2.2
  have hnode : ∀ n i, ns[i]? = some n → (nodeWeight ns i).toNat * dep i + n.inner =
      n.leafCost (dep i) + n.childSum fun c => (nodeWeight ns c).toNat * dep c := fun n i hn => by
    rw [nodeWeight_toNat hn]
    cases n with
    | leaf wt x => rfl
    | internal wt l r =>
      obtain ⟨hl, hr⟩ := IsDepth.child h hdep hn
      simp only [Node.weight, Node.inner, Node.leafCost, Node.childSum, hl, hr, hs i wt l r hn]
      ring
  have hsum := nodeSum_congr hnode
  rw [nodeSum_add, nodeSum_add, nodeSum_fst, nodeSum_fst, ← sum_childHandles, nodeSum_snd ns fun i =>
    (nodeWeight ns i).toNat * dep i, (hperm.map _).sum_eq, ← hroot, List.range_succ, List.map_append, List.sum_append,
    List.map_singleton, IsDepth.root_eq h hdep, List.sum_singleton, Nat.mul_zero, Nat.add_zero] at hsum
  rw [innerSum]
  omega

/-- The leaves of an arena cost the sum of count times length. -/
theorem codedTotal_eq_leafCost {syms : List HSym} {ns : List Node} {root : Nat} {dep : Nat → Nat} {codes : List Code}
    (h : ArenaOk syms ns root) (hdep : IsDepth ns root dep) (hc : CodesOk ns root syms.length codes) :
    (nodeSum ns fun n i => n.leafCost (dep i)) = codedTotal syms codes := by
  obtain ⟨-, -, -, htake, -, hinner, -⟩ := h
  obtain ⟨hlen, hcode⟩ := hc
  have hsplit : ns = leaves syms ++ ns.drop syms.length := by rw [← htake, List.take_append_drop]
  have hrest : (((ns.drop syms.length).zipIdx syms.length).map fun p => p.1.leafCost (dep p.2)).sum = 0 :=
    List.sum_eq_zero fun x hx => by
      obtain ⟨p, hp, rfl⟩ := List.mem_map.1 hx
      obtain ⟨hle, hget⟩ := List.mem_zipIdx_iff_le_and_getElem?_sub.1 hp
      rw [List.getElem?_drop, Nat.add_sub_cancel' hle] at hget
      obtain ⟨wt, l, r, hn⟩ := hinner p.2 hle (List.getElem?_eq_some_iff.1 hget).1
      have hinternal : p.1 = .internal wt l r := Option.some.inj (hget.symm.trans hn)
      rw [hinternal, Node.leafCost]
  have hleaves : ((leaves syms).zipIdx.map fun p => p.1.leafCost (dep p.2)) =
      List.zipWith (fun (y : HSym) (c : Code) => y.freq.toNat * c.len) syms codes := by
    refine List.ext_getElem (by simp [leaves, hlen]) fun k h1 h2 => ?_
    have hk : k < codes.length := by simp at h2; omega
    have hdk : codes[k].len = dep k := by
      rw [← codeBits_length, hdep k _ (hcode k _ (List.getElem?_eq_getElem hk)).2.2]
    simp [leaves, Node.leafCost, hdk]
  rw [nodeSum, hsplit, List.zipIdx_append, List.map_append, List.sum_append, hleaves, leaves_length, Nat.zero_add,
    hrest, Nat.add_zero, codedTotal]

/-! ## Optimal codes -/

theorem kraftSum_coe (lens : List Nat) :
    kraftSum (lens : Multiset Nat) = (lens.map fun (n : Nat) => (2 : ℚ) ^ (-(n : Int))).sum := by
  rw [kraftSum, Multiset.map_coe, Multiset.sum_coe]
  refine congrArg List.sum (List.map_congr_left fun n _ => ?_)
  rw [zpow_neg, zpow_natCast, one_div, inv_pow]

/-- The code of a counted table is optimal (R471). -/
theorem codes_optimal {o : HeapOrder} (ho : o.maxheap = false) {syms : List HSym} {t : List Node × Nat}
    {codes : List Code} (hb : buildTree o syms = .ok t) (ha : assignCodes t.1 t.2 syms.length = .ok codes)
    (hd : syms.length ≤ Config.nsymMax) (hsum : (syms.map fun y => y.freq.toNat).sum < 2 ^ 32) {lens : List Nat}
    (hl : lens.length = syms.length) (hk : (lens.map fun (n : Nat) => (2 : ℚ) ^ (-(n : Int))).sum ≤ 1) :
    (List.zipWith (fun (y : HSym) (c : Code) => y.freq.toNat * c.len) syms codes).sum ≤
      (List.zipWith (fun (y : HSym) (n : Nat) => y.freq.toNat * n) syms lens).sum := by
  have harena := buildTree_arenaOk hb hd
  obtain ⟨dep, hdep⟩ := harena.exists_depth
  obtain ⟨hexact, hbest⟩ := buildTree_optimal ho hb hd hsum
  have hcost := hbest ((syms.map fun y => y.freq.toNat).zip lens : List (Nat × Nat))
    (by rw [Multiset.map_coe, List.map_fst_zip (by simp [hl])])
    (by rw [Multiset.map_coe, List.map_snd_zip (by simp [hl]), kraftSum_coe]; exact hk)
  rw [innerSum_eq_leafCost harena hexact hdep,
    codedTotal_eq_leafCost harena hdep (assignCodes_codesOk harena ha)] at hcost
  refine hcost.trans_eq ?_
  rw [codeCost, Multiset.map_coe, Multiset.sum_coe, List.map_zip_eq_zipWith, List.zipWith_map_left]
  rfl

/-! ## The counts of an input -/

theorem countSym_sum {t t' : List HSym} {x : Half} (h : countSym t x = some t') :
    (t'.map fun y => y.freq.toNat).sum ≤ (t.map fun y => y.freq.toNat).sum + 1 := by
  rcases countSym_cases h with ⟨i, -, rfl⟩ | ⟨-, -, rfl⟩
  · clear h
    induction t generalizing i with
    | nil => simp
    | cons y t ih =>
      cases i with
      | zero =>
        have hone : (y.freq + 1#32).toNat ≤ y.freq.toNat + 1 := by
          rw [BitVec.toNat_add]
          exact Nat.mod_le _ _
        simp only [List.modify_zero_cons, List.map_cons, List.sum_cons]
        omega
      | succ i =>
        have := ih i
        simp only [List.modify_succ_cons, List.map_cons, List.sum_cons]
        omega
  · simp

theorem countFrom_sum {hs : List Region} {m : Memory} {c : Csr} {n j : Nat} {t t' : List HSym}
    (h : countFrom hs m c n j t = .ok t') :
    (t'.map fun y => y.freq.toNat).sum ≤ (t.map fun y => y.freq.toNat).sum + n := by
  induction n generalizing j t with
  | zero => exact (Except.ok.inj h) ▸ Nat.le_refl _
  | succ n ih =>
    simp only [countFrom] at h
    split at h
    · simp at h
    · split at h
      · rename_i t2 h2
        have h3 := ih h
        have h4 := countSym_sum h2
        omega
      · simp at h

/-- A command that counts itself complete has completed. -/
theorem State.finish_completed {s t : State} {e : Except Raise State} (h : s.finish e = .next t)
    (hc : t.cmdcnt = s.cmdcnt + 1#32) : ∃ u, e = .ok u ∧ t = u.complete := by
  rcases State.finish_eq_next h with ⟨u, hu, rfl⟩ | ⟨r, -, rfl⟩
  · exact ⟨u, hu, rfl⟩
  · rw [State.errorEntry_eq] at hc
    have hcnt : s.cmdcnt = s.cmdcnt + 1#32 := hc
    exact absurd hcnt (by bv_omega)

/-- Settles O58: both ways lead through the tree of R456 over counts that sum below 2^32. -/
theorem huffCodeOptimal : Obligations.HuffCodeOptimal := by
  refine ⟨fun s t hoff h hc => ?_, fun s u t hsum hd hb hbc ha hac => ?_⟩
  · obtain ⟨v, hv, rfl⟩ := State.finish_completed h hc
    have htables : NewTables s .huff v.huff :=
      EndsWith.map (P := fun u => NewTables s .huff u.huff) (fun w hw => w.settle_huff ▸ hw) (bodyHuff_tables s) v hv
    have hdev := State.onDevice_eq_false_iff.2 hoff
    intro lens hl hk
    rw [State.complete_huff] at hl ⊢
    generalize v.huff = w at htables hl ⊢
    cases htables with
    | encoded hcount hbuild hassign =>
      have hsum := countFrom_sum hcount
      exact codes_optimal rfl hbuild hassign (countSyms_keeps hcount).1
        (hsum.trans_lt (by simpa using s.cfg.hinLen.isLt)) hl hk
    | deviceEncoded hd => exact absurd hd (by rw [hinRegion, hdev]; exact Bool.false_ne_true)
  · obtain ⟨v, hv, rfl⟩ := State.finish_completed hb hbc
    have hbuilt : NewTables s .hbuild v.huff := bodyHbuild_tables s v (mapError_eq_ok hv)
    obtain ⟨w, hw, rfl⟩ := State.finish_completed ha hac
    have hassigned : NewTables v.complete .hassign w.huff :=
      EndsWith.map (P := fun u => NewTables v.complete .hassign u.huff) (fun w hw => w.settle_huff ▸ hw)
        (bodyHassign_tables v.complete) w hw
    intro lens hl hk
    rw [State.complete_huff] at hl ⊢
    generalize hx : w.huff = x at hassigned hl ⊢
    generalize hy : v.huff = y at hbuilt
    cases hbuilt with
    | built hbuild =>
      cases hassigned with
      | assigned hs hcodes =>
        rw [State.complete_huff, hy] at hcodes hl ⊢
        have htree := isTree_of_arenaOk (buildTree_arenaOk hbuild hd)
        simp only [Huffman.afterBuild, Huffman.afterAssign, htree, Bool.not_true, Bool.false_eq_true, if_false]
          at hcodes hl ⊢
        exact codes_optimal rfl hbuild hcodes hd hsum hl hk

end Sys2Proof.Machine

/-! PROOFS. The command word (30_encoding.md R200 to R225): decoding is the row test of the opcode's row and then the
operands of the fields, and under a row's mask a word is its opcode and its used fields packed again. -/

namespace Sys2Proof

/-! ## The opcode map (R210) -/

/-- The command of the row of the given one, with the operands that the fields of `w` hold (R201, R206). -/
def Instr.withFields (w : Word) : Instr → Except DecodeError Instr
  | .mzero _ _ _ => .ok (.mzero (dField w) (xField w) (yField w))
  | .mload _ _ _ _ => (fmtField w).map fun f => .mload (dField w) (xField w) (yField w) f
  | .mstore _ _ => (fmtField w).map fun f => .mstore (aField w) f
  | .mget _ _ _ _ => .ok (.mget (sField w) (aField w) (xField w) (yField w))
  | .mset _ _ _ _ => .ok (.mset (dField w) (sField w) (xField w) (yField w))
  | .mmov _ _ => .ok (.mmov (dField w) (aField w))
  | .madd _ _ _ => .ok (.madd (dField w) (aField w) (bField w))
  | .msub _ _ _ => .ok (.msub (dField w) (aField w) (bField w))
  | .mdiv _ _ _ => .ok (.mdiv (dField w) (aField w) (bField w))
  | .memul _ _ _ => .ok (.memul (dField w) (aField w) (bField w))
  | .mmul _ _ _ => .ok (.mmul (dField w) (aField w) (bField w))
  | .madds _ _ _ => .ok (.madds (dField w) (aField w) (sField w))
  | .msubs _ _ _ => .ok (.msubs (dField w) (aField w) (sField w))
  | .mmuls _ _ _ => .ok (.mmuls (dField w) (aField w) (sField w))
  | .mdivs _ _ _ => .ok (.mdivs (dField w) (aField w) (sField w))
  | .mtrans _ _ => .ok (.mtrans (dField w) (aField w))
  | .mabs _ _ => .ok (.mabs (dField w) (aField w))
  | .mround _ _ => .ok (.mround (dField w) (aField w))
  | .mmin _ _ => .ok (.mmin (sField w) (aField w))
  | .mmax _ _ => .ok (.mmax (sField w) (aField w))
  | .mzigzag _ _ => .ok (.mzigzag (dField w) (aField w))
  | .meq _ _ => .ok (.meq (aField w) (bField w))
  | .fdct _ _ => .ok (.fdct (dField w) (aField w))
  | .idct _ _ => .ok (.idct (dField w) (aField w))
  | .quant _ _ => .ok (.quant (dField w) (aField w))
  | .dequant _ _ => .ok (.dequant (dField w) (aField w))
  | .lvlsub _ _ => .ok (.lvlsub (dField w) (aField w))
  | .lvladd _ _ => .ok (.lvladd (dField w) (aField w))
  | .xform _ _ => .ok (.xform (w.getLsbD 8) (w.getLsbD 9))
  | .nop => .ok .nop
  | .pqclr => .ok .pqclr
  | .pqenq => .ok .pqenq
  | .pqdeq => .ok .pqdeq
  | .pqpeek => .ok .pqpeek
  | .hcount => .ok .hcount
  | .hbuild => .ok .hbuild
  | .hassign => .ok .hassign
  | .hemit => .ok .hemit
  | .huff => .ok .huff

/-- A mapped result comes from a result. -/
theorem except_map_eq_ok {ε α β : Type} {g : α → β} {x : Except ε α} {v : β} (h : x.map g = .ok v) :
    ∃ a, x = .ok a ∧ g a = v := by
  cases x with
  | error e => cases h
  | ok a => exact ⟨a, rfl, Except.ok.inj h⟩

/-- A word with the OP value of a row is tested against that row alone. -/
theorem decode_of_opcode {w : Word} {i : Instr} (h : i.opcode = opField w) :
    decode w = rowOf i.format w (i.withFields w) := by
  cases i <;> (rw [decode, ← h]; rfl)

/-- One command of each row of the opcode map. -/
def rows : List Instr :=
  [.nop, .mzero 0 0 0, .mload 0 0 0 .f64, .mstore 0 .f64, .mget 0 0 0 0, .mset 0 0 0 0, .mmov 0 0, .madd 0 0 0,
    .msub 0 0 0, .mdiv 0 0 0, .memul 0 0 0, .mmul 0 0 0, .madds 0 0 0, .msubs 0 0 0, .mmuls 0 0 0, .mdivs 0 0 0,
    .mtrans 0 0, .mabs 0 0, .mround 0 0, .mmin 0 0, .mmax 0 0, .mzigzag 0 0, .meq 0 0, .fdct 0 0, .idct 0 0,
    .quant 0 0, .dequant 0 0, .lvlsub 0 0, .lvladd 0 0, .xform false false, .pqclr, .pqenq, .pqdeq, .pqpeek,
    .hcount, .hbuild, .hassign, .hemit, .huff]

/-- A word whose OP value no row has is refused. -/
theorem decode_of_no_opcode {w : Word} (h : ¬∃ i : Instr, i.opcode = opField w) :
    decode w = .error .unknownOp := by
  have hrows : ∀ i ∈ rows, i.opcode ≠ opField w := fun i _ hi => h ⟨i, hi⟩
  simp only [rows, List.forall_mem_cons, Instr.opcode] at hrows
  unfold decode
  split
  case h_40 => rfl
  all_goals simp_all

/-! ## The row test (R202, R210) -/

theorem rowOf_eq_ok_iff {f : Format} {w : Word} {r : Except DecodeError Instr} {i : Instr} :
    rowOf f w r = .ok i ↔ reservedField w = 0#5 ∧ w &&& f.mask = (opField w).setWidth 32 ∧ r = .ok i := by
  unfold rowOf
  split
  · simp_all
  · split <;> simp_all

theorem rowOf_eq_error_iff {f : Format} {w : Word} {r : Except DecodeError Instr} :
    (∃ e, rowOf f w r = .error e) ↔
      reservedField w ≠ 0#5 ∨ w &&& f.mask ≠ (opField w).setWidth 32 ∨ ∃ e, r = .error e := by
  unfold rowOf
  split
  · simp_all
  · split <;> simp_all

/-- A field whose bits the mask checks is 0 in a word that passes the test. -/
theorem extractLsb'_eq_zero_of_mask {w m : Word} (h : w &&& m = (opField w).setWidth 32) (start len : Nat)
    (hs : 8 ≤ start) (hm : m.extractLsb' start len = BitVec.allOnes len) : w.extractLsb' start len = 0#len := by
  have hfield := congrArg (BitVec.extractLsb' start len) h
  rw [BitVec.extractLsb'_and, hm, BitVec.and_allOnes] at hfield
  rw [hfield]
  ext k hk
  simp [BitVec.getLsbD_of_ge (opField w) (start + k) (by omega)]

/-- Every mask checks the reserved bits. -/
theorem reservedField_eq_zero_of_mask {w : Word} {f : Format} (h : w &&& f.mask = (opField w).setWidth 32) :
    reservedField w = 0#5 :=
  extractLsb'_eq_zero_of_mask h 27 5 (by omega) (by cases f <;> rfl)

/-! ## A word is its fields packed again (R201, R202) -/

theorem mBits_dField (w : Word) : mBits (dField w) = w.extractLsb' 8 3 := by
  simp only [mBits, dField, BitVec.val_toFin, BitVec.ofNat_toNat, BitVec.setWidth_eq]
theorem mBits_aField (w : Word) : mBits (aField w) = w.extractLsb' 11 3 := by
  simp only [mBits, aField, BitVec.val_toFin, BitVec.ofNat_toNat, BitVec.setWidth_eq]
theorem mBits_bField (w : Word) : mBits (bField w) = w.extractLsb' 14 3 := by
  simp only [mBits, bField, BitVec.val_toFin, BitVec.ofNat_toNat, BitVec.setWidth_eq]
theorem sBits_sField (w : Word) : sBits (sField w) = w.extractLsb' 17 2 := by
  simp only [sBits, sField, BitVec.val_toFin, BitVec.ofNat_toNat, BitVec.setWidth_eq]
theorem nibble_xField (w : Word) : nibble (xField w) = w.extractLsb' 19 4 := by
  simp only [nibble, xField, BitVec.ofNat_toNat, BitVec.setWidth_eq]
theorem nibble_yField (w : Word) : nibble (yField w) = w.extractLsb' 23 4 := by
  simp only [nibble, yField, BitVec.ofNat_toNat, BitVec.setWidth_eq]

theorem fitsNibble_xField (w : Word) : fitsNibble (xField w) = true := decide_eq_true (w.extractLsb' 19 4).isLt
theorem fitsNibble_yField (w : Word) : fitsNibble (yField w) = true := decide_eq_true (w.extractLsb' 23 4).isLt

/-- FMT is read back as the bits of the format it names (R206). -/
theorem fmtField_bits {w : Word} {f : Fmt} (h : fmtField w = .ok f) : f.bits = w.extractLsb' 14 3 := by
  rw [← mBits_bField]
  unfold fmtField at h
  split at h <;> cases h <;> simp [Fmt.bits, mBits, *]

/-- The FMT values 3 to 7 name no format (R206). -/
theorem fmtField_eq_error_iff {w : Word} : (∃ e, fmtField w = .error e) ↔ 3 ≤ (bField w).val := by
  unfold fmtField
  split
  case h_4 h0 h1 h2 =>
    have hne : (bField w).val ≠ 0 ∧ (bField w).val ≠ 1 ∧ (bField w).val ≠ 2 := ⟨h0, h1, h2⟩
    exact iff_of_true ⟨_, rfl⟩ (by omega)
  all_goals exact iff_of_false (by simp) (by omega)

/-- A word with reserved bits 0 is its fields, side by side. -/
theorem pack_fields {w : Word} (h : reservedField w = 0#5) :
    pack (opField w) (w.extractLsb' 8 3) (w.extractLsb' 11 3) (w.extractLsb' 14 3) (w.extractLsb' 17 2)
      (w.extractLsb' 19 4) (w.extractLsb' 23 4) = w := by
  rw [pack, opField, ← h, reservedField]
  simp only [BitVec.extractLsb'_append_extractLsb'_eq_extractLsb', BitVec.extractLsb'_eq_self]

theorem ofBool_getLsbD (w : Word) (k : Nat) : BitVec.ofBool (w.getLsbD k) = w.extractLsb' k 1 := by
  ext i hi
  simp [show i = 0 by omega]

/-- EREC and ETQ are the two low bits of the field D, the third is not used (R202). -/
theorem flags_append {w : Word} (h : w.extractLsb' 10 1 = 0#1) :
    0#1 ++ BitVec.ofBool (w.getLsbD 9) ++ BitVec.ofBool (w.getLsbD 8) = w.extractLsb' 8 3 := by
  rw [← h, ofBool_getLsbD, ofBool_getLsbD]
  simp only [BitVec.extractLsb'_append_extractLsb'_eq_extractLsb']

/-- The operands taken from a word that passes the test of its row, written back, give the word. -/
theorem encode_withFields {w : Word} {i j : Instr} (hop : i.opcode = opField w)
    (hmask : w &&& i.format.mask = (opField w).setWidth 32) (h : i.withFields w = .ok j) : encode j = w := by
  have hpack := pack_fields (reservedField_eq_zero_of_mask hmask)
  have hzero := extractLsb'_eq_zero_of_mask hmask
  rw [← hop] at hpack
  cases i
  all_goals
    simp only [Instr.format] at hzero
    simp (disch := decide) only [hzero] at hpack
  case mload | mstore =>
    obtain ⟨f, hf, rfl⟩ := except_map_eq_ok h
    simp only [encode, mBits_dField, mBits_aField, nibble_xField, nibble_yField, fmtField_bits hf]
    exact hpack
  case xform =>
    cases h
    simp only [encode, flags_append (hzero 10 1 (by decide) rfl)]
    exact hpack
  all_goals
    cases h
    simp only [encode, mBits_dField, mBits_aField, mBits_bField, sBits_sField, nibble_xField, nibble_yField]
    exact hpack

/-- The operands taken from a word fit their fields. -/
theorem wellFormed_withFields {w : Word} {i j : Instr} (h : i.withFields w = .ok j) : wellFormed j = true := by
  cases i
  case mload | mstore =>
    obtain ⟨f, -, rfl⟩ := except_map_eq_ok h
    simp [wellFormed, fitsNibble_xField, fitsNibble_yField]
  all_goals
    cases h
    simp [wellFormed, fitsNibble_xField, fitsNibble_yField]

/-! ## The fields of an encoded command -/

@[simp] theorem opField_encode (i : Instr) : opField (encode i) = i.opcode := by
  cases i <;> exact opField_pack ..

/-- The word of a command passes the test of its row. -/
theorem encode_and_mask (i : Instr) : encode i &&& i.format.mask = i.opcode.setWidth 32 := by
  cases i
  case nop | pqclr | pqenq | pqdeq | pqpeek | hcount | hbuild | hassign | hemit | huff => exact pack_mask_n ..
  case mmov | mtrans | mabs | mround | mzigzag | fdct | idct | quant | dequant | lvlsub | lvladd =>
    exact pack_mask_rr ..
  case madd | msub | mdiv | memul | mmul => exact pack_mask_rrr ..
  case madds | msubs | mmuls | mdivs => exact pack_mask_rrs ..
  case meq => exact pack_mask_ab ..
  case mmin | mmax => exact pack_mask_sa ..
  case mget => exact pack_mask_eg ..
  case mset => exact pack_mask_es ..
  case mzero => exact pack_mask_sh ..
  case mload => exact pack_mask_ld ..
  case mstore => exact pack_mask_st ..
  case xform => exact pack_mask_xf ..

/-- The operands of a well-formed command are read back from its word. -/
theorem withFields_encode {i : Instr} (h : wellFormed i = true) : i.withFields (encode i) = .ok i := by
  cases i
  case mload | mstore =>
    simp_all [Instr.withFields, encode, fmtField_pack, Except.map, wellFormed, nibble_toNat]
  case xform etq erec => cases etq <;> cases erec <;> rfl
  all_goals simp_all [Instr.withFields, encode, wellFormed, nibble_toNat]

/-! ## What decodes and what does not -/

/-- A word decodes to the command whose word it is, and to no other (R202, R210). -/
theorem decode_eq_ok_iff {w : Word} {i : Instr} : decode w = .ok i ↔ encode i = w ∧ wellFormed i = true := by
  constructor
  · intro h
    by_cases hrow : ∃ j : Instr, j.opcode = opField w
    · obtain ⟨j, hj⟩ := hrow
      rw [decode_of_opcode hj, rowOf_eq_ok_iff] at h
      obtain ⟨-, hmask, hfields⟩ := h
      exact ⟨encode_withFields hj hmask hfields, wellFormed_withFields hfields⟩
    · rw [decode_of_no_opcode hrow] at h
      cases h
  · rintro ⟨rfl, hwf⟩
    have hop := opField_encode i
    have hmask : encode i &&& i.format.mask = (opField (encode i)).setWidth 32 := hop ▸ encode_and_mask i
    rw [decode_of_opcode hop.symm, rowOf_eq_ok_iff]
    exact ⟨reservedField_eq_zero_of_mask hmask, hmask, withFields_encode hwf⟩

/-- Of the operands, FMT alone can be illegal (R206). -/
theorem withFields_eq_error_iff {w : Word} {i : Instr} :
    (∃ e, i.withFields w = .error e) ↔ (i.opcode = 0x11#8 ∨ i.opcode = 0x12#8) ∧ 3 ≤ (bField w).val := by
  rw [← fmtField_eq_error_iff]
  cases i
  case mload | mstore => cases hf : fmtField w <;> simp [Instr.withFields, hf, Except.map, Instr.opcode]
  all_goals simp [Instr.withFields, Instr.opcode]

/-- A word is refused exactly under the four conditions of R215. -/
theorem decode_eq_error_iff (w : Word) : (∃ e, decode w = .error e) ↔
    (¬∃ i : Instr, i.opcode = opField w) ∨ reservedField w ≠ 0#5 ∨
      (∃ i : Instr, i.opcode = opField w ∧ w &&& i.format.mask ≠ (opField w).setWidth 32) ∨
      ((opField w = 0x11#8 ∨ opField w = 0x12#8) ∧ 3 ≤ (bField w).val) := by
  by_cases hrow : ∃ i : Instr, i.opcode = opField w
  · obtain ⟨i, hi⟩ := hrow
    have hmask : (∃ j : Instr, j.opcode = opField w ∧ w &&& j.format.mask ≠ (opField w).setWidth 32) ↔
        w &&& i.format.mask ≠ (opField w).setWidth 32 :=
      ⟨fun ⟨j, hj, h⟩ => format_of_opcode (hj.trans hi.symm) ▸ h, fun h => ⟨i, hi, h⟩⟩
    rw [decode_of_opcode hi, rowOf_eq_error_iff, withFields_eq_error_iff, hi, hmask]
    simp only [not_exists]
    exact ⟨.inr, fun h => h.resolve_left fun hno => hno i hi⟩
  · exact iff_of_true ⟨_, decode_of_no_opcode hrow⟩ (.inl hrow)

end Sys2Proof

namespace Sys2Proof.Machine

/-- Settles O1: the word of a command passes the test of its row, and its fields are the operands. -/
theorem decodeOfEncode : Obligations.DecodeOfEncode := fun _ hwf => decode_eq_ok_iff.2 ⟨rfl, hwf⟩

/-- Settles O2: a word that passes the test of its row is its fields packed again. -/
theorem encodeOfDecode : Obligations.EncodeOfDecode := fun _ _ h => decode_eq_ok_iff.1 h

/-- Settles O3: the row test and FMT are all that the decoder checks, and ILLEGAL opens no region and no table. -/
theorem illegalWords : Obligations.IllegalWords := by
  refine ⟨decode_eq_error_iff, fun s e hin hb hr he => ?_, fun w h0 => ?_⟩
  · rw [step_of_empty hin, engineStep_busy hb hr, runCommand_illegal he, Raise.illegal, State.errorEntry_illegal]
  · refine (decode_eq_error_iff w).2 (.inl fun ⟨i, hi⟩ => ?_)
    rw [h0] at hi
    cases i <;> simp [Instr.opcode] at hi

/-- Settles O4: each of the fifteen words is the encoding of a well-formed command. -/
theorem workedEncodings : Obligations.WorkedEncodings := by
  intro p hp
  have hword : encode p.2 = p.1 ∧ wellFormed p.2 = true := by
    revert p
    decide
  exact ⟨decode_eq_ok_iff.2 hword, hword.1⟩

end Sys2Proof.Machine

/-! PROOFS. How every command ends (40_command.md R256 to R261): CMDCNT through the pseudocode, and the codes that a
command may raise; then completion and the error entry. -/

namespace Sys2Proof.Machine

/-! ## Errors of a command that decodes -/

/-- The result satisfies `P`, or is an error other than ILLEGAL, which only an undecodable word raises (R255). -/
def EndsNotIllegal {α : Type} (P : α → Prop) : Except Raise α → Prop
  | .ok v => P v
  | .error r => r.code ≠ .illegal

/-- No error of the result is ILLEGAL. -/
def NotIllegal {α : Type} (e : Except Raise α) : Prop := EndsNotIllegal (fun _ => True) e

section
variable {α β : Type} {P : α → Prop} {Q : β → Prop} {x : Except Raise α}

theorem EndsNotIllegal.ok {v : α} (h : P v) : EndsNotIllegal P (.ok v) := h

theorem EndsNotIllegal.bind {f : α → Except Raise β} (hx : NotIllegal x) (hf : ∀ v, EndsNotIllegal Q (f v)) :
    EndsNotIllegal Q (x >>= f) := by
  cases x with
  | error r => exact hx
  | ok v => exact hf v

theorem NotIllegal.bind {f : α → Except Raise β} (hx : NotIllegal x) (hf : ∀ v, NotIllegal (f v)) :
    NotIllegal (x >>= f) :=
  EndsNotIllegal.bind hx hf

theorem EndsNotIllegal.map {f : α → β} (hf : ∀ v, P v → Q (f v)) (h : EndsNotIllegal P x) :
    EndsNotIllegal Q (x.map f) := by
  cases x with
  | error r => exact h
  | ok v => exact hf v h

theorem NotIllegal.map (h : NotIllegal x) (f : α → β) : NotIllegal (x.map f) :=
  EndsNotIllegal.map (fun _ _ => trivial) h

theorem EndsNotIllegal.mapError {f : Raise → Raise} (hf : ∀ r, r.code ≠ .illegal → (f r).code ≠ .illegal)
    (h : EndsNotIllegal P x) : EndsNotIllegal P (x.mapError f) := by
  cases x with
  | error r => exact hf r h
  | ok v => exact h

end

/-! ### The checks and the accesses -/

theorem plain_notIllegal {α : Type} {c : ErrCode} (n : Word) (hc : c ≠ .illegal := by decide) :
    NotIllegal (.error (Raise.plain c n) : Except Raise α) := hc

theorem bus_notIllegal {α : Type} (w : Bool) (b i : Nat) :
    NotIllegal (.error (Raise.bus w b i) : Except Raise α) :=
  show ErrCode.bus ≠ .illegal by decide

theorem need_notIllegal (b : Bool) {c : ErrCode} (n : Word) (hc : c ≠ .illegal := by decide) :
    NotIllegal (need b (Raise.plain c n)) := by
  cases b with
  | false => exact hc
  | true => exact trivial

theorem readM_notIllegal (s : State) (a : MReg) : NotIllegal (s.readM a) := by
  unfold State.readM
  split
  · exact trivial
  · exact plain_notIllegal _

theorem checkQ_notIllegal (c : Csr) : NotIllegal (checkQ c) := by
  unfold checkQ
  split
  · exact plain_notIllegal _
  · exact trivial

theorem loadAll_notIllegal (hs : List Region) (m : Memory) (l : List Access) : NotIllegal (loadAll hs m l) := by
  induction l with
  | nil => exact trivial
  | cons x t ih =>
    unfold loadAll
    split
    · exact bus_notIllegal _ _ _
    · exact ih.map _

theorem storeAll_notIllegal (hs : List Region) (l : List Store) (m : Memory) : NotIllegal (storeAll hs l m) := by
  induction l generalizing m with
  | nil => exact trivial
  | cons x t ih =>
    unfold storeAll
    split
    · exact bus_notIllegal _ _ _
    · exact ih _

theorem enq_notIllegal (o : HeapOrder) (q : PQueue) (k p : Word) : NotIllegal (q.enq o k p) := by
  unfold PQueue.enq
  split
  · exact plain_notIllegal _
  · exact trivial

theorem deq_notIllegal (o : HeapOrder) (q : PQueue) : NotIllegal (q.deq o) := by
  unfold PQueue.deq
  split
  · exact plain_notIllegal _
  · exact trivial

theorem peek_notIllegal (q : PQueue) : NotIllegal q.peek := by
  unfold PQueue.peek
  split
  · exact plain_notIllegal _
  · exact trivial

theorem readSym_notIllegal (hs : List Region) (m : Memory) (c : Csr) (j : Nat) : NotIllegal (readSym hs m c j) := by
  simp only [readSym]
  split
  · exact bus_notIllegal _ _ _
  · exact trivial

theorem countFrom_notIllegal (hs : List Region) (m : Memory) (c : Csr) (n j : Nat) (t : List HSym) :
    NotIllegal (countFrom hs m c n j t) := by
  induction n generalizing j t with
  | zero => exact trivial
  | succ n ih =>
    have hread := readSym_notIllegal hs m c j
    unfold countFrom
    split
    · rename_i hr
      rwa [hr] at hread
    · split
      · exact ih _ _
      · exact show ErrCode.symcap ≠ .illegal by decide

theorem lookupFrom_notIllegal (hs : List Region) (m : Memory) (c : Csr) (syms : List HSym) (n j : Nat) :
    NotIllegal (lookupFrom hs m c syms n j) := by
  induction n generalizing j with
  | zero => exact trivial
  | succ n ih =>
    have hread := readSym_notIllegal hs m c j
    unfold lookupFrom
    split
    · rename_i hr
      rwa [hr] at hread
    · split
      · exact show ErrCode.nosym ≠ .illegal by decide
      · exact (ih _).map _

theorem seedQueue_notIllegal (o : HeapOrder) (syms : List HSym) (i : Nat) (q : PQueue) :
    NotIllegal (seedQueue o syms i q) := by
  induction syms generalizing i q with
  | nil => exact trivial
  | cons y t ih =>
    have henq := enq_notIllegal o q y.freq (BitVec.ofNat 32 i)
    unfold seedQueue
    split
    · rename_i hr
      rwa [hr] at henq
    · exact ih _ _

theorem mergeLoop_notIllegal (o : HeapOrder) (fuel : Nat) (q : PQueue) (ns : List Node) :
    NotIllegal (mergeLoop o fuel q ns) := by
  induction fuel generalizing q ns with
  | zero => exact trivial
  | succ n ih =>
    have honce : NotIllegal (mergeOnce o q ns) :=
      .bind (deq_notIllegal ..) fun _ => .bind (deq_notIllegal ..) fun _ => .bind (enq_notIllegal ..) fun _ => trivial
    unfold mergeLoop
    split
    · exact trivial
    · split
      · rename_i hr
        rwa [hr] at honce
      · exact ih _ _

theorem buildTree_notIllegal (o : HeapOrder) (syms : List HSym) : NotIllegal (buildTree o syms) :=
  .bind (seedQueue_notIllegal ..) fun _ => .bind (mergeLoop_notIllegal ..) fun _ => .bind (deq_notIllegal ..) fun _ =>
    trivial

theorem codesOf_notIllegal (paths : List (Nat × Nat)) : NotIllegal (codesOf paths) := by
  unfold codesOf
  split
  · exact plain_notIllegal _
  · exact trivial

theorem xformFrom_notIllegal (hs : List Region) (c : Csr) (etq erec : Bool) (n j : Nat) (m : Memory) :
    NotIllegal (xformFrom hs c etq erec n j m) := by
  induction n generalizing j m with
  | zero => exact trivial
  | succ n ih =>
    have hblock : NotIllegal (xformBlock hs c etq erec j m) :=
      .bind (loadAll_notIllegal ..) fun _ => storeAll_notIllegal ..
    unfold xformFrom
    split
    · exact ih _ _
    · rename_i hr
      rwa [hr] at hblock

theorem emitRaise_notIllegal (c : Csr) (device : Bool) (outs : List Region) {r : Raise} (h : r.code ≠ .illegal) :
    (emitRaise c device outs r).code ≠ .illegal := by
  obtain ⟨rs, n, e, -⟩ := emitRaise_spec c device outs r
  rw [e]
  exact h

/-! ## CMDCNT before completion -/

@[simp] theorem State.resultsOf_cmdcnt (s : State) (device : Bool) (n : Nat) (ks : List (Fin 4)) :
    (s.resultsOf device n ks).cmdcnt = s.cmdcnt := by
  obtain ⟨⟨r, i, e⟩, -⟩ := s.resultsOf_spec device n ks
  rw [e]

@[simp] theorem State.bitsOf_cmdcnt (s : State) (device : Bool) : (s.bitsOf device).cmdcnt = s.cmdcnt := by
  cases device <;> rfl

@[simp] theorem Written.settle_cmdcnt (w : Written) : w.settle.cmdcnt = w.state.cmdcnt := by
  obtain ⟨⟨m, i, e⟩, -⟩ := w.settle_spec
  rw [e]

/-! ## The pseudocode of each command -/

/-- `u` has the CMDCNT of `s`. -/
def Uncounted (s u : State) : Prop := u.cmdcnt = s.cmdcnt

section
variable (s : State)

theorem unary_uncounted (d a : MReg) (f : Mat → Mat) : EndsNotIllegal (Uncounted s) (s.unary d a f) :=
  .bind (readM_notIllegal s a) fun _ => .ok rfl

theorem elementwise_uncounted (d a b : MReg) (f : F64 → F64 → F64) :
    EndsNotIllegal (Uncounted s) (s.elementwise d a b f) :=
  .bind (readM_notIllegal s a) fun _ => .bind (readM_notIllegal s b) fun _ => .bind (need_notIllegal _ _) fun _ =>
    .ok rfl

theorem reduce_uncounted (k : SReg) (a : MReg) (before : F64 → F64 → Bool) :
    EndsNotIllegal (Uncounted s) (s.reduce k a before) :=
  .bind (readM_notIllegal s a) fun _ => .ok rfl

theorem transform88_uncounted (d a : MReg) (f : Mat → Mat) :
    EndsNotIllegal (Uncounted s) (s.transform88 d a f) :=
  .bind (readM_notIllegal s a) fun _ => .bind (need_notIllegal _ _) fun _ => .ok rfl

theorem quantized_uncounted (d a : MReg) (f : Mat → Mat) : EndsNotIllegal (Uncounted s) (s.quantized d a f) :=
  .bind (readM_notIllegal s a) fun _ => .bind (need_notIllegal _ _) fun _ => .bind (checkQ_notIllegal _) fun _ =>
    .ok rfl

theorem bodyMload_uncounted (d : MReg) (h w : Nat) (f : Fmt) :
    EndsNotIllegal (Uncounted s) (bodyMload d h w f s) := by
  refine .bind (need_notIllegal _ _) fun _ => .bind (loadAll_notIllegal ..) fun raw => .ok ?_
  split <;> rfl

theorem bodyMstore_uncounted (a : MReg) (f : Fmt) :
    EndsNotIllegal (fun w => Uncounted s w.state) (bodyMstore a f s) :=
  .bind ((readM_notIllegal s a).mapError fun _ h => h) fun _ =>
    .bind ((storeAll_notIllegal ..).mapError fun _ h => h) fun _ => .ok rfl

theorem bodyXform_uncounted (etq erec : Bool) :
    EndsNotIllegal (fun w => Uncounted s w.state) (bodyXform etq erec s) :=
  .bind ((need_notIllegal _ _).mapError fun _ h => h) fun _ =>
    .bind ((checkQ_notIllegal _).mapError fun _ h => h) fun _ =>
      .bind ((xformFrom_notIllegal ..).mapError fun _ h => h) fun _ => .ok (by simp [Uncounted])

theorem bodyHcount_uncounted : EndsNotIllegal (Uncounted s) (bodyHcount s) :=
  .bind ((countFrom_notIllegal ..).mapError fun _ h => h) fun _ => .ok (by simp [Uncounted])

theorem bodyHbuild_uncounted : EndsNotIllegal (Uncounted s) (bodyHbuild s) :=
  .bind (need_notIllegal _ _) fun _ => .bind (buildTree_notIllegal ..) fun _ => .ok (by simp [Uncounted])

theorem bodyHassign_uncounted : EndsNotIllegal (fun w => Uncounted s w.state) (bodyHassign s) :=
  .bind ((need_notIllegal _ _).mapError fun _ h => h) fun _ =>
    .bind ((codesOf_notIllegal _).mapError fun _ h => h) fun _ =>
      .bind ((storeAll_notIllegal ..).mapError fun _ h => h) fun _ => .ok (by simp [Uncounted])

theorem bodyHemit_uncounted : EndsNotIllegal (fun w => Uncounted s w.state) (bodyHemit s) :=
  .bind (need_notIllegal _ _) fun _ =>
    .bind (((lookupFrom_notIllegal ..).map _).mapError fun _ h => emitRaise_notIllegal _ _ _ h) fun _ =>
      .bind ((need_notIllegal _ _).mapError fun _ h => emitRaise_notIllegal _ _ _ h) fun _ =>
        .bind ((storeAll_notIllegal ..).mapError fun _ h => h) fun _ =>
          .ok (by simp [Uncounted])

theorem bodyHuff_uncounted : EndsNotIllegal (fun w => Uncounted s w.state) (bodyHuff s) :=
  .bind ((countFrom_notIllegal ..).mapError fun _ h => h) fun _ =>
    .bind ((buildTree_notIllegal ..).mapError fun _ h => h) fun _ =>
      .bind ((codesOf_notIllegal _).mapError fun _ h => h) fun _ =>
        .bind ((storeAll_notIllegal ..).mapError fun _ h => h) fun _ =>
          .bind (((lookupFrom_notIllegal ..).map _).mapError fun _ h => h) fun _ =>
            .bind ((need_notIllegal _ _).mapError fun _ h => h) fun _ =>
              .bind ((storeAll_notIllegal ..).mapError fun _ h => h) fun _ =>
                .ok (by simp [Uncounted])

/-- A storing command, whose clashing regions are left open at its end (20_memory.md R171). -/
theorem settle_uncounted {e : Except Raise Written} (h : EndsNotIllegal (fun w => Uncounted s w.state) e) :
    EndsNotIllegal (Uncounted s) (e.map Written.settle) :=
  h.map fun w hw => w.settle_cmdcnt.trans hw

/-! ## Every command -/

/-- Until completion no command counts, and none raises ILLEGAL. -/
theorem exec_uncounted (i : Instr) : ∃ e, exec i s = s.finish e ∧ EndsNotIllegal (Uncounted s) e := by
  cases i with
  | nop => exact ⟨.ok s, rfl, .ok rfl⟩
  | pqclr => exact ⟨.ok (s.setPq PQueue.empty), rfl, .ok rfl⟩
  | mzero d r c => exact ⟨_, rfl, .bind (need_notIllegal _ _) fun _ => .ok rfl⟩
  | mload d r c f => exact ⟨_, rfl, bodyMload_uncounted s d r c f⟩
  | mstore a f => exact ⟨_, rfl, settle_uncounted s (bodyMstore_uncounted s a f)⟩
  | mget k a row col | mset a k row col =>
    exact ⟨_, rfl, .bind (readM_notIllegal s a) fun _ => .bind (need_notIllegal _ _) fun _ => .ok rfl⟩
  | madd d a b | msub d a b | mdiv d a b | memul d a b => exact ⟨_, rfl, elementwise_uncounted s d a b _⟩
  | mmul d a b =>
    exact ⟨_, rfl, .bind (readM_notIllegal s a) fun _ => .bind (readM_notIllegal s b) fun _ =>
      .bind (need_notIllegal _ _) fun _ => .ok rfl⟩
  | mmov d a | madds d a k | msubs d a k | mmuls d a k | mdivs d a k | mtrans d a | mabs d a | mround d a
  | lvlsub d a | lvladd d a => exact ⟨_, rfl, unary_uncounted s d a _⟩
  | mmin k a | mmax k a => exact ⟨_, rfl, reduce_uncounted s k a _⟩
  | mzigzag d a | fdct d a | idct d a => exact ⟨_, rfl, transform88_uncounted s d a _⟩
  | meq a b =>
    exact ⟨_, rfl, .bind (readM_notIllegal s a) fun _ => .bind (readM_notIllegal s b) fun _ => .ok rfl⟩
  | quant d a | dequant d a => exact ⟨_, rfl, quantized_uncounted s d a _⟩
  | xform etq erec => exact ⟨_, rfl, settle_uncounted s (bodyXform_uncounted s etq erec)⟩
  | pqenq => exact ⟨_, rfl, .bind (enq_notIllegal ..) fun _ => .ok rfl⟩
  | pqdeq => exact ⟨_, rfl, .bind (deq_notIllegal ..) fun _ => .ok rfl⟩
  | pqpeek => exact ⟨_, rfl, .bind (peek_notIllegal _) fun _ => .ok rfl⟩
  | hcount => exact ⟨_, rfl, bodyHcount_uncounted s⟩
  | hbuild => exact ⟨_, rfl, (bodyHbuild_uncounted s).mapError fun _ h => h⟩
  | hassign => exact ⟨_, rfl, settle_uncounted s (bodyHassign_uncounted s)⟩
  | hemit => exact ⟨_, rfl, settle_uncounted s (bodyHemit_uncounted s)⟩
  | huff => exact ⟨_, rfl, settle_uncounted s (bodyHuff_uncounted s)⟩

end

/-! ## Completion or error -/

/-- How a command ends: completion of what its pseudocode left, or the error entry with a code from 0x02 on (R257). -/
theorem exec_cases {i : Instr} {s t : State} (h : exec i s = .next t) :
    (∃ u, t = u.complete ∧ Framed i s u ∧ t.cmdcnt = s.cmdcnt + 1#32) ∨
      ∃ r, t = s.errorEntry r ∧ r.code ≠ .illegal := by
  obtain ⟨e, he, hcount⟩ := exec_uncounted s i
  rcases State.finish_eq_next (he ▸ h) with ⟨u, rfl, rfl⟩ | ⟨r, rfl, rfl⟩
  · have hcnt : u.complete.cmdcnt = s.cmdcnt + 1#32 := congrArg (· + 1#32) hcount
    obtain ⟨e', he', hframed, -⟩ := exec_framed s i
    obtain ⟨v, hv, heq⟩ := State.finish_completed (he' ▸ h) hcnt
    exact .inl ⟨v, heq, hframed v hv, hcnt⟩
  · exact .inr ⟨r, rfl, hcount⟩

/-- The codes but ILLEGAL are 2 to 15 (60_exceptions.md R600). -/
theorem ErrCode.two_le_toByte {c : ErrCode} (h : c ≠ .illegal) : 2 ≤ c.toByte.toNat := by
  cases c with
  | illegal => exact absurd rfl h
  | _ => decide

/-- Settles O22: completion counts and keeps the error record; the error entry records a code other than ILLEGAL and
counts nothing. -/
theorem commandEndsOnce : Obligations.CommandEndsOnce := by
  intro i s
  obtain ⟨t, ht, -⟩ := exec_next i s
  refine ⟨t, ht, exec_busy ht, ?_⟩
  rcases exec_cases ht with ⟨u, rfl, hu, hcnt⟩ | ⟨r, rfl, hr⟩
  · exact .inl ⟨hcnt, rfl, (congrArg Status.err hu.status :), hu.errRec⟩
  · rw [State.errorEntry_eq]
    exact .inr ⟨rfl, rfl, rfl, r.code.toByte.toNat, ErrCode.two_le_toByte hr, r.code.toByte_range.2, by simp⟩

/-- A command that has not counted has failed. -/
theorem State.finish_failed {s t : State} {e : Except Raise State} (h : s.finish e = .next t)
    (hc : t.cmdcnt = s.cmdcnt) (he : EndsWith (Uncounted s) e) : ∃ r, e = .error r ∧ t = s.errorEntry r := by
  rcases State.finish_eq_next h with ⟨u, hu, rfl⟩ | hr
  · have hcnt : u.cmdcnt + 1#32 = s.cmdcnt := hc
    have hkept : u.cmdcnt = s.cmdcnt := he u hu
    exact absurd (hkept ▸ hcnt) (by bv_omega)
  · exact hr

/-- A failing command whose errors keep the queue leaves it. -/
theorem State.finish_failed_pq {s t : State} {e : Except Raise State} (h : s.finish e = .next t)
    (hc : t.cmdcnt = s.cmdcnt) (hs : Spares e) (he : EndsWith (Uncounted s) e) : t.pq = s.pq := by
  obtain ⟨r, rfl, rfl⟩ := State.finish_failed h hc he
  have hkeep : r.emptiesQueue = false := hs
  rw [State.errorEntry_eq]
  simp [hkeep]

/-- Of the commands that use the queue, HBUILD and HUFF alone change it when they fail (43_huffman.md R470). -/
theorem exec_failed_pq {i : Instr} {s t : State} (hop : opField s.cmd = i.opcode) (h : exec i s = .next t)
    (hc : t.cmdcnt = s.cmdcnt) (hbuild : i ≠ .hbuild) (hhuff : i ≠ .huff) : t.pq = s.pq := by
  by_cases hi : usesQueue i = true
  · simp only [usesQueue, List.mem_cons, List.not_mem_nil, or_false, decide_eq_true_eq] at hi
    rcases hi with rfl | rfl | rfl | rfl | rfl
    · exact State.finish_failed_pq (e := .ok (s.setPq PQueue.empty)) h hc trivial (.ok rfl)
    · exact State.finish_failed_pq h hc (.bind (enq_spares ..) fun _ => .ok trivial) (.bind fun _ _ => .ok rfl)
    · exact State.finish_failed_pq h hc (.bind (deq_spares ..) fun _ => .ok trivial) (.bind fun _ _ => .ok rfl)
    · exact absurd rfl hbuild
    · exact absurd rfl hhuff
  · obtain ⟨-, -, -, -, -, -, -, -, -, -, -, -, -, hpq, -⟩ := registerFrame i s t hop h
    exact hpq (by simpa using hi)

/-- Settles O25: a command that did not count took the error entry, which restores the registers and clears the Huffman
unit for the commands of that unit. -/
theorem errorWritesNoRegister : Obligations.ErrorWritesNoRegister := by
  intro i s t hop h hc
  have hpq := exec_failed_pq hop h hc
  rcases exec_cases h with ⟨u, -, -, hcnt⟩ | ⟨r, rfl, hr⟩
  · exact absurd (hcnt.symm.trans hc) (by bv_omega)
  · have hcode : (r.code != .illegal) = true := by simpa using hr
    refine ⟨?_, ?_, ?_, ?_, hpq, ?_⟩ <;> rw [State.errorEntry_eq]
    rw [hcode, hop, isHuffmanOp_opcode, Bool.true_and]

end Sys2Proof.Machine

/-! PROOFS. The engine's turn, and the host's writes to CMD and to the registers while the engine is busy (40_command.md
R250 to R262), and NOP (R270). -/

namespace Sys2Proof.Machine

/-! ## The engine's turn -/

theorem engineStep_runs {s : State} {i : Instr} (hb : s.status.busy = true) (hr : s.resetPin = false)
    (hd : decode s.cmd = .ok i) : engineStep s = exec i s :=
  (engineStep_busy hb hr).trans (runCommand_ok hd)

/-- Settles O5: each of the three steps is the busy engine's turn with the same command word. -/
theorem stepRunsDecodedCommand : Obligations.StepRunsDecodedCommand := by
  refine ⟨fun s i hb hr hd => ⟨fun hin => ?_, fun rest hin => ?_⟩, fun s w i hw hd => ?_⟩
  · exact (step_of_empty hin).trans (engineStep_runs hb hr hd)
  · exact (step_of_turn hin).trans (engineStep_runs hb hr hd)
  · have hcmd : (s.withFetchWord 32 w).cmd = BitVec.ofNat 32 w :=
      congrArg (BitVec.ofNat 32) (Nat.mod_eq_of_lt hw)
    exact (step_of_empty rfl).trans (engineStep_runs rfl rfl (hcmd.symm ▸ hd))

/-- Settles O6: `engineStep` does nothing while BUSY is 0. -/
theorem idleEngineDoesNothing : Obligations.IdleEngineDoesNothing := fun _ hb =>
  ⟨fun hin => (step_of_empty hin).trans (engineStep_idle (.inl hb)),
    fun _ hin => (step_of_turn hin).trans (engineStep_idle (.inl hb))⟩

/-! ## Writes to CMD -/

theorem State.offer_dropped {s : State} (h : s.status.busy = true ∨ s.status.err = true) (v : Word) :
    s.offer v = { s with status := { s.status with cmdDrop := true } } := by
  rw [State.offer, if_pos (by simpa using h)]

theorem step_writeCmd {s : State} {v : Word} {rest : List Input} (hp : s.resetPin = false)
    (h : s.hostWrites 0x010 v rest) : step s = .next ((({ s with inbox := rest } : State).offer v).setReply .written) :=
  step_portWrite hp (by decide) (by decide) h

/-- Settles O7: `offer` accepts when both bits are 0 and drops otherwise; the read answers CMD. -/
theorem offeredCommand : Obligations.OfferedCommand := by
  intro s v rest hp hw
  rw [step_writeCmd hp hw]
  refine ⟨fun ⟨hb, he⟩ => ?_, fun hbe => ?_, fun t more hpt hread => ?_⟩
  · rw [State.offer_free (s := { s with inbox := rest }) hb he]
    rfl
  · rw [State.offer_dropped (s := { s with inbox := rest }) hbe]
    rfl
  · exact step_portRead_word hpt (by decide) (by decide) hread (fun hres => absurd hres (by decide))

/-! ## Writes while busy (R253) -/

/-- An RW register is left alone while the engine is busy. -/
theorem State.writeReg_busy {s : State} (hb : s.status.busy = true) {r : PortReg} (hr : r.isConfig = true) (v : Word) :
    s.writeReg r.offset v = s.dropWrite := by
  rw [State.writeReg, portReg_offset]
  cases r with
  | ctrl | status | ie | cmd => simp [PortReg.isConfig] at hr
  | _ => simp [hb, hr]

theorem State.writeCtrl_reset (s : State) {v : Word} (hv : v.getLsbD 0 = true) : s.writeCtrl v = s.doReset := by
  rw [State.writeCtrl, if_pos hv]

theorem State.writeCtrl_busy {s : State} (hb : s.status.busy = true) {v : Word} (hv : v.getLsbD 0 = false) :
    s.writeCtrl v = s.dropWrite := by
  rw [State.writeCtrl, if_neg (by simpa using hv), if_pos hb]

theorem step_writeCtrl {s : State} {v : Word} {rest : List Input} (hp : s.resetPin = false)
    (h : s.hostWrites 0x004 v rest) :
    step s = .next ((({ s with inbox := rest } : State).writeCtrl v).setReply .written) :=
  step_portWrite hp (by decide) (by decide) h

/-- Settles O8: STATUS, IE, SRST and CMD are decoded before BUSY is looked at; every other RW register drops the
write. -/
theorem busyRegisterWrites : Obligations.BusyRegisterWrites := by
  intro s v rest hp hb
  refine ⟨fun h => ?_, fun h => ?_, fun h hv => ?_, fun h => ?_, ?_⟩
  · rw [step_writeStatus hp h]
    simp only [State.writeStatus, State.took, hb]
  · exact step_portWrite hp (by decide) (by decide) h
  · rw [step_writeCtrl hp h, State.writeCtrl_reset _ hv]
  · rw [step_writeCmd hp h, State.offer_dropped (s := { s with inbox := rest }) (.inl hb)]
    rfl
  · rintro off (⟨rfl, hv⟩ | hoff) h
    · rw [step_writeCtrl hp h, State.writeCtrl_busy (s := { s with inbox := rest }) hb hv]
      rfl
    · obtain ⟨r, hr, rfl⟩ := mem_rwOffsets_iff.1 hoff
      obtain ⟨hlt, ha⟩ := r.offset_aligned
      rw [step_portWrite hp hlt ha h, State.writeReg_busy (s := { s with inbox := rest }) hb hr]
      rfl

/-! ## NOP (R270) -/

/-- OP 0x01 is NOP's alone (30_encoding.md R210). -/
theorem eq_nop_of_opcode {i : Instr} (h : i.opcode = 0x01#8) : i = .nop := by
  cases i with
  | nop => rfl
  | _ => simp [Instr.opcode] at h

/-- Settles O31: NOP's pseudocode is empty, and its one word is 0x00000001. -/
theorem nopCompletes : Obligations.NopCompletes := by
  have hword : encode .nop = 0x00000001#32 := by decide
  refine ⟨fun s => rfl, decode_eq_ok_iff.2 ⟨hword, rfl⟩, fun w hop hne => ?_⟩
  cases hd : decode w with
  | error e => exact ⟨e, rfl⟩
  | ok i =>
    obtain ⟨rfl, -⟩ := decode_eq_ok_iff.1 hd
    rw [opField_encode] at hop
    rw [eq_nop_of_opcode hop] at hne
    exact absurd hword hne

end Sys2Proof.Machine

/-! PROOFS. The commands of the matrix unit on valid sources (41_matrix.md R310 to R343, 42_transform.md R410 to R415):
what each completes with, then the errors SHAPE, INDEX and DIM, one lemma per shared shape of command. -/

namespace Sys2Proof.Machine

/-! ## Checks that fail -/

theorem checkShape_error {h w : Nat} (hc : ¬(1 ≤ h ∧ h ≤ 8 ∧ 1 ≤ w ∧ w ≤ 8)) :
    checkShape h w = .error (Raise.plain .shape (BitVec.ofNat 32 (h * 16 + w))) :=
  need_error_iff.2 ⟨Bool.eq_false_iff.2 fun hb => hc (checkShape_ok_iff.1 (need_ok_iff.2 hb)), rfl⟩

theorem checkIndex_error {m : Mat} {r c : Nat} (hc : ¬(r < m.h ∧ c < m.w)) :
    checkIndex m r c = .error (Raise.plain .index (tuple4 r c m.h m.w)) :=
  need_error_iff.2 ⟨by simpa using hc, rfl⟩

theorem checkSame_error {x y : Mat} (hc : ¬(x.h = y.h ∧ x.w = y.w)) : checkSame x y = .error (dimRaise x y) :=
  need_error_iff.2 ⟨by simpa using hc, rfl⟩

theorem checkSquare_error {x y : Mat} (hc : ¬(x.w = x.h ∧ y.h = x.h ∧ y.w = x.h)) :
    checkSquare x y = .error (dimRaise x y) :=
  need_error_iff.2 ⟨by simpa [← and_assoc] using hc, rfl⟩

theorem check88_error {x : Mat} (hc : ¬(x.h = 8 ∧ x.w = 8)) :
    check88 x = .error (Raise.plain .dim (tuple4 x.h x.w 0 0)) :=
  need_error_iff.2 ⟨by simpa using hc, rfl⟩

/-- A command outside the Huffman unit that a check stops. -/
theorem State.finish_raise {s : State} {α : Type} {c : ErrCode} {n : Word} {x : Except Raise α}
    (hx : x = .error (Raise.plain c n)) (hop : isHuffmanOp (opField s.cmd) = false) (f : α → Except Raise State) :
    s.finish (x >>= f) = .next (s.stopped c.toByte 0#32 n) := by
  rw [hx]
  exact congrArg _ (s.errorEntry_plain c n hop)

/-! ## Shared shapes of command on valid sources -/

section
variable {s : State} {a : MReg} {x : Mat} (ha : s.mregs[a] = some x)
include ha

/-- A valid source is read. -/
theorem State.readM_bind {α : Type} (f : Mat → Except Raise α) : (s.readM a >>= f) = f x := by
  rw [State.readM_some ha]
  rfl

/-- A command that maps one matrix register to another without a shape law completes with the image. -/
theorem unary_hasElements {i : Instr} {d : MReg} {f : Mat → Mat} (hi : exec i s = s.finish (s.unary d a f)) {h w : Nat}
    {g : Nat → Nat → F64} (hf : HasElements (f x) h w g) :
    ∃ z, HasElements z h w g ∧ exec i s = .next (s.setM d z).complete :=
  ⟨f x, hf, hi.trans (State.unary_maps ha)⟩

theorem State.reduce_ok (k : SReg) (before : F64 → F64 → Bool) :
    s.finish (s.reduce k a before) = .next (s.setS k (x.scan before)).complete := by
  rw [State.reduce, State.readM_bind ha]
  rfl

/-- A command on an 8 by 8 operand refuses every other shape with DIM (R308). -/
theorem finish_dim_88 (hc : ¬(x.h = 8 ∧ x.w = 8)) (hop : isHuffmanOp (opField s.cmd) = false)
    (f : Mat → Unit → Except Raise State) :
    s.finish (s.readM a >>= fun m => check88 m >>= f m) = .next (s.stopped 0x02#8 0#32 (tuple4 x.h x.w 0 0)) := by
  rw [State.readM_bind ha]
  exact State.finish_raise (check88_error hc) hop _

variable {b : MReg} {y : Mat} (hb : s.mregs[b] = some y)
include hb

/-- Two sources of one shape are combined element by element. -/
theorem elementwise_hasElements (hh : x.h = y.h) (hw : x.w = y.w) (d : MReg) (f : F64 → F64 → F64) :
    ∃ z, HasElements z x.h x.w (fun r c => f (x.get r c) (y.get r c)) ∧
      s.finish (s.elementwise d a b f) = .next (s.setM d z).complete := by
  refine ⟨x.zip f y, Mat.zip_hasElements f x y, ?_⟩
  rw [State.elementwise, State.readM_bind ha, State.readM_bind hb, checkSame_ok hh hw]
  rfl

/-- A command of two operands whose shapes its check refuses raises DIM (R308). -/
theorem finish_dim_pair {check : Mat → Mat → Except Raise Unit} (hc : check x y = .error (dimRaise x y))
    (hop : isHuffmanOp (opField s.cmd) = false) (f : Mat → Mat → Unit → Except Raise State) :
    s.finish (s.readM a >>= fun ma => s.readM b >>= fun mb => check ma mb >>= f ma mb) =
      .next (s.stopped 0x02#8 0#32 (tuple4 x.h x.w y.h y.w)) := by
  rw [State.readM_bind ha, State.readM_bind hb]
  exact State.finish_raise hc hop _

end

/-! ## MZERO -/

theorem Mat.ofFn_zero (h w : Nat) : Mat.ofFn h w (fun _ _ => 0#64) = ⟨h, w, List.replicate (h * w) 0#64⟩ := by
  simp [Mat.ofFn]

/-- Settles O32: the check of the shape decides between the zeros and SHAPE. -/
theorem mzeroResult : Obligations.MzeroResult := by
  intro d h w s
  refine ⟨fun hc => ?_, fun hop hc => State.finish_raise (checkShape_error hc) (by rw [hop]; rfl) _⟩
  rw [exec, execMzero, checkShape_ok_iff.2 hc, Mat.ofFn_zero]
  rfl

/-! ## MGET and MSET -/

section
variable {s : State} {a : MReg} {m : Mat} (ha : s.mregs[a] = some m) {row col : Nat} (k : SReg)
include ha

theorem execMget_ok (hr : row < m.h) (hc : col < m.w) :
    exec (.mget k a row col) s = .next (s.setS k (m.get row col)).complete := by
  rw [exec, execMget, State.readM_bind ha, checkIndex_ok hr hc]
  rfl

theorem execMset_ok (hr : row < m.h) (hc : col < m.w) :
    exec (.mset a k row col) s = .next (s.setM a (m.set row col s.sregs[k])).complete := by
  rw [exec, execMset, State.readM_bind ha, checkIndex_ok hr hc]
  rfl

/-- A row or column outside the matrix raises INDEX, whatever the command goes on to do. -/
theorem finish_index (hc : ¬(row < m.h ∧ col < m.w)) (hop : isHuffmanOp (opField s.cmd) = false)
    (f : Mat → Unit → Except Raise State) :
    s.finish (s.readM a >>= fun n => checkIndex n row col >>= f n) =
      .next (s.stopped 0x03#8 0#32 (tuple4 row col m.h m.w)) := by
  rw [State.readM_bind ha]
  exact State.finish_raise (checkIndex_error hc) hop _

end

/-- Settles O35: both check the index first; MSET's one element is read back and the others are not moved. -/
theorem elementAccess : Obligations.ElementAccess := by
  intro k a row col m s ha
  refine ⟨fun hr hc => ⟨execMget_ok ha k hr hc, _, execMset_ok ha k hr hc, rfl, rfl, Mat.set_length .., ?_, ?_⟩,
    fun hc => ⟨fun hop => ?_, fun hop => ?_⟩⟩
  · exact fun hl => Mat.set_get_self hl _ hr hc
  · exact fun r c _ hc' hne => Mat.set_get_ne m _ hc hc' hne
  · exact finish_index ha hc (by rw [hop]; rfl) _
  · exact finish_index ha hc (by rw [hop]; rfl) _

/-! ## Commands of one source without a shape law -/

theorem lvlsubMat_hasElements (m : Mat) :
    HasElements (lvlsubMat m) m.h m.w fun r c => fsub (m.get r c) (f64 128) :=
  Mat.map_hasElements (fun x => fsub x levelOffset) m

theorem lvladdMat_hasElements (m : Mat) :
    HasElements (lvladdMat m) m.h m.w fun r c => fadd (m.get r c) (f64 128) :=
  Mat.map_hasElements (fun x => fadd x levelOffset) m

/-- Settles O36: each is `unary` of its function, whose elements are known. -/
theorem unaryResults : Obligations.UnaryResults := by
  intro d a m s ha
  refine ⟨State.unary_maps ha, ?_, ?_, ?_, ?_, ?_⟩
  · exact unary_hasElements ha rfl (Mat.trans_hasElements m)
  · exact unary_hasElements ha rfl (Mat.map_hasElements fabs m)
  · exact unary_hasElements ha rfl (Mat.map_hasElements (fun x => roundInt x s.cfg.rnd) m)
  · exact unary_hasElements ha rfl (lvlsubMat_hasElements m)
  · exact unary_hasElements ha rfl (lvladdMat_hasElements m)

/-- Settles O37: the second MTRANS reads what the first wrote, and transposing twice is the identity. -/
theorem transposeTwice : Obligations.TransposeTwice := by
  intro d a m s hs ha
  obtain ⟨-, -, -, -, hlen⟩ := Mat.wf_iff.1 (hs a m ha)
  have hd : (s.setM d m.trans).complete.mregs[d] = some m.trans := State.setM_get_self s d m.trans
  refine ⟨m.trans, State.unary_maps ha, ?_⟩
  have h : exec (.mtrans d d) (s.setM d m.trans).complete = _ := State.unary_maps hd
  rwa [Mat.trans_trans hlen] at h

/-! ## Arithmetic -/

/-- Settles O38: the four commands of two matrices are `elementwise`, the four with a scalar are `unary`. -/
theorem arithmeticResults : Obligations.ArithmeticResults := by
  refine ⟨fun d a b x y s ha hb hh hw => ?_, fun d a k x s ha => ?_⟩
  · have hall := elementwise_hasElements ha hb hh hw d
    exact ⟨hall fadd, hall fsub, hall fdiv, hall fmul⟩
  · have hall : ∀ f : F64 → F64 → F64, ∃ z, HasElements z x.h x.w (fun r c => f (x.get r c) s.sregs[k]) ∧
        s.finish (s.broadcast d a k f) = .next (s.setM d z).complete :=
      fun f => ⟨_, Mat.map_hasElements (fun v => f v s.sregs[k]) x, State.unary_maps ha⟩
    exact ⟨hall fadd, hall fsub, hall fmul, hall fdiv⟩

theorem execMmul_ok {s : State} {a b : MReg} {x y : Mat} (ha : s.mregs[a] = some x) (hb : s.mregs[b] = some y)
    (h1 : x.w = x.h) (h2 : y.h = x.h) (h3 : y.w = x.h) (d : MReg) :
    exec (.mmul d a b) s = .next (s.setM d (mprod x y x.h)).complete := by
  rw [exec, execMmul, State.readM_bind ha, State.readM_bind hb, checkSquare_ok h1 h2 h3]
  rfl

/-- Settles O39: the transforms are two products, each of the form of R322. -/
theorem productResults : Obligations.ProductResults := by
  refine ⟨fun d a b x y s ha hb h1 h2 h3 => ⟨_, mprod_isProduct x y x.h, execMmul_ok ha hb h1 h2 h3 d⟩,
    fun d a x s ha hh hw => ⟨⟨_, _, mprod_isProduct basis x 8, mprod_isProduct _ basisT 8, ?_⟩,
      _, _, mprod_isProduct basisT x 8, mprod_isProduct _ basis 8, ?_⟩⟩
  · exact fdct_maps s.cfg d a s x rfl ha hh hw
  · exact idct_maps s.cfg d a s x rfl ha hh hw

/-! ## MMIN and MMAX (R329, R330) -/

/-- `IsExtreme` of the elements in a list. -/
def ExtremeOf (before : F64 → F64 → Bool) (l : List F64) (v : F64) : Prop :=
  (∀ x ∈ l, before x v = false) ∧
  ∃ p, l[p]? = some v ∧ (fIsNaN v = true → p = 0) ∧ ((∃ x, l[0]? = some x ∧ fIsNaN x = true) → p = 0) ∧
    ∀ (q : Nat) (x : F64), q < p → l[q]? = some x → before v x = true ∨ fIsNaN x = true

theorem isExtreme_iff {before : F64 → F64 → Bool} {m : Mat} {v : F64} :
    IsExtreme before m v ↔ ExtremeOf before m.e v := Iff.rfl

/-- `before` orders the numbers strictly by a key and is false of NaNs, as `flt` and `fgt` are (R305). -/
def OrdersBy (before : F64 → F64 → Bool) (key : F64 → Int) : Prop :=
  ∀ x y, before x y = true ↔ fIsNaN x = false ∧ fIsNaN y = false ∧ key x < key y

theorem flt_ordersBy : OrdersBy flt fKey := fun x y => by simp [flt, and_assoc]

theorem fgt_ordersBy : OrdersBy fgt fun x => -fKey x := fun x y => by
  rw [fgt, flt_ordersBy y x, neg_lt_neg_iff]
  tauto

/-- One step of the scan: an element that is not before the best so far leaves it. -/
theorem ExtremeOf.keep {before : F64 → F64 → Bool} {l : List F64} {v y : F64} (h : ExtremeOf before l v)
    (hy : before y v = false) : ExtremeOf before (l ++ [y]) v := by
  obtain ⟨hall, p, hp, hnan, hfirst, hbefore⟩ := h
  have hlt : p < l.length := (List.getElem?_eq_some_iff.1 hp).1
  refine ⟨fun x hx => ?_, p, ?_, hnan, fun ⟨x, hx, hn⟩ => hfirst ⟨x, ?_, hn⟩, fun q x hq hx => hbefore q x hq ?_⟩
  · rcases List.mem_append.1 hx with hx | hx
    · exact hall x hx
    · rwa [List.mem_singleton.1 hx]
  · rwa [List.getElem?_append_left hlt]
  · rwa [List.getElem?_append_left (by omega)] at hx
  · rwa [List.getElem?_append_left (by omega)] at hx

section
variable {before : F64 → F64 → Bool} {key : F64 → Int} (hb : OrdersBy before key)
include hb

theorem OrdersBy.irrefl (x : F64) : before x x = false :=
  Bool.eq_false_iff.2 fun h => lt_irrefl _ ((hb x x).1 h).2.2

theorem OrdersBy.trans {x y z : F64} (hxy : before x y = true) (hyz : before y z = true) : before x z = true := by
  obtain ⟨hx, -, h1⟩ := (hb x y).1 hxy
  obtain ⟨-, hz, h2⟩ := (hb y z).1 hyz
  exact (hb x z).2 ⟨hx, hz, h1.trans h2⟩

/-- What is before `y` is before everything that is not before `y`, but for NaNs. -/
theorem OrdersBy.trans_not {x y z : F64} (hxy : before x y = true) (hzy : before z y = false) :
    before x z = true ∨ fIsNaN z = true := by
  obtain ⟨hx, hy, hlt⟩ := (hb x y).1 hxy
  refine or_iff_not_imp_right.2 fun hz => ?_
  have hz : fIsNaN z = false := Bool.eq_false_iff.2 hz
  have hle : key y ≤ key z := not_lt.1 fun h => Bool.eq_false_iff.1 hzy ((hb z y).2 ⟨hz, hy, h⟩)
  exact (hb x z).2 ⟨hx, hz, hlt.trans_le hle⟩

/-- One step of the scan: an element before the best so far is before all the others too, but for NaNs. -/
theorem ExtremeOf.replace {l : List F64} {v y : F64} (h : ExtremeOf before l v) (hy : before y v = true) :
    ExtremeOf before (l ++ [y]) y := by
  obtain ⟨hall, p, hp, -, hfirst, -⟩ := h
  obtain ⟨hny, hnv, -⟩ := (hb y v).1 hy
  have hlt : p < l.length := (List.getElem?_eq_some_iff.1 hp).1
  have hbest : ∀ x ∈ l, before y x = true ∨ fIsNaN x = true := fun x hx => hb.trans_not hy (hall x hx)
  refine ⟨fun x hx => ?_, l.length, by simp, by simp [hny], fun ⟨x, hx, hn⟩ => ?_, fun q x hq hx => ?_⟩
  · rcases List.mem_append.1 hx with hx | hx
    · refine Bool.eq_false_iff.2 fun hxy => ?_
      exact Bool.eq_false_iff.1 (hall x hx) (hb.trans hxy hy)
    · rw [List.mem_singleton.1 hx]
      exact hb.irrefl y
  · -- a NaN in front would be the best so far, and nothing is before a NaN
    rw [List.getElem?_append_left (by omega)] at hx
    rw [hfirst ⟨x, hx, hn⟩, hx] at hp
    rw [Option.some.inj hp, hnv] at hn
    simp at hn
  · rw [List.getElem?_append_left hq] at hx
    exact hbest x (List.mem_of_getElem? hx)

theorem foldl_extremeOf (x : F64) (l : List F64) :
    ExtremeOf before (x :: l) (l.foldl (fun best y => if before y best then y else best) x) := by
  induction l using List.reverseRecOn with
  | nil => exact ⟨by simp [hb.irrefl], 0, rfl, fun _ => rfl, fun _ => rfl, fun q _ hq => absurd hq (by omega)⟩
  | append_singleton l y ih =>
    rw [List.foldl_append, ← List.cons_append]
    simp only [List.foldl_cons, List.foldl_nil]
    split
    · exact ExtremeOf.replace hb ih ‹_›
    · exact ih.keep (Bool.eq_false_iff.2 ‹_›)

/-- The scan of a matrix with elements finds the first extreme one. -/
theorem Mat.scan_isExtreme {m : Mat} (hm : m.e ≠ []) : IsExtreme before m (m.scan before) := by
  rw [isExtreme_iff, Mat.scan]
  cases he : m.e with
  | nil => exact absurd he hm
  | cons x l => exact foldl_extremeOf hb x l

end

theorem Mat.e_ne_nil {m : Mat} (h : m.wf = true) : m.e ≠ [] := by
  obtain ⟨h1, -, w1, -, hl⟩ := Mat.wf_iff.1 h
  have : 0 < m.h * m.w := Nat.mul_pos h1 w1
  exact List.ne_nil_of_length_pos (by omega)

/-- Settles O40: both scan the row-major elements, each under its order. -/
theorem extremaResults : Obligations.ExtremaResults := by
  intro k a m s ha hm
  exact ⟨⟨_, Mat.scan_isExtreme flt_ordersBy (Mat.e_ne_nil hm), State.reduce_ok ha k flt⟩,
    _, Mat.scan_isExtreme fgt_ordersBy (Mat.e_ne_nil hm), State.reduce_ok ha k fgt⟩

/-! ## MZIGZAG (R332, R333) -/

theorem zzTable_perm : zzTable.Perm (List.range 64) := by decide

/-- The zigzag order visits the elements of the table's indices. -/
theorem Mat.zigzag_e {m : Mat} (hw : m.w = 8) : m.zigzag.e = zzTable.map fun i => m.e.getD i 0#64 := by
  have htable : zzTable = (List.range 64).map zz := by decide
  rw [htable, List.map_map]
  refine List.map_congr_left fun k _ => ?_
  dsimp only [Function.comp]
  rw [Nat.div_add_mod, Mat.get, hw, Nat.div_add_mod']

/-- The zigzag order moves every element and drops none. -/
theorem Mat.zigzag_perm {m : Mat} (hw : m.w = 8) (hl : m.e.length = 64) : m.zigzag.e.Perm m.e := by
  have hself : (List.range 64).map (fun i => m.e.getD i 0#64) = m.e :=
    List.ext_getElem (by simp [hl]) fun i h1 h2 => by simp [h2]
  rw [Mat.zigzag_e hw]
  calc zzTable.map (fun i => m.e.getD i 0#64)
    _ |>.Perm ((List.range 64).map fun i => m.e.getD i 0#64) := zzTable_perm.map _
    _ = m.e := hself

/-- Settles O41: MZIGZAG reads the cells in the order of ZZ, which is a permutation of all 64. -/
theorem zigzagResult : Obligations.ZigzagResult := by
  intro d a m s ha hh hw hl
  exact ⟨m.zigzag, rfl, rfl, Mat.ofFn_length .., fun i hi => m.zigzag_get hi, Mat.zigzag_perm hw hl,
    mzigzag_maps s.cfg d a s m rfl ha hh hw⟩

/-! ## DIM (R308) -/

/-- The record of a command of one operand. -/
theorem tuple4_zero (b3 b2 : Nat) : tuple4 b3 b2 0 0 = BitVec.ofNat 8 b3 ++ BitVec.ofNat 8 b2 ++ 0#16 := by
  rw [tuple4]
  exact BitVec.append_assoc

/-- Settles O45: every shape law is checked right after the sources are read. -/
theorem dimRaised : Obligations.DimRaised := by
  refine ⟨fun d a b x y s ha hb => ⟨fun hc i hi hop => ?_, fun hc hop => ?_⟩, fun d a x s ha hc i hi hop => ?_⟩
  · simp only [List.mem_cons, List.not_mem_nil, or_false] at hi
    rcases hi with rfl | rfl | rfl | rfl <;>
      exact finish_dim_pair ha hb (check := checkSame) (checkSame_error hc) (by rw [hop]; rfl) _
  · exact finish_dim_pair ha hb (check := checkSquare) (checkSquare_error hc) (by rw [hop]; rfl) _
  · rw [← tuple4_zero]
    simp only [List.mem_cons, List.not_mem_nil, or_false] at hi
    rcases hi with rfl | rfl | rfl | rfl | rfl <;> exact finish_dim_88 ha hc (by rw [hop]; rfl) _

/-! ## The constant tables -/

/-- Settles O46: the ROM's 64 entries and the 64 positions of the zigzag order, each against the rule's table. -/
theorem constantTables : Obligations.ConstantTables := by
  refine ⟨fun r c hr hc => ?_, fun r c hr hc => ?_, by decide⟩
  · rw [basis, Mat.ofFn_get hr hc]
    revert c
    revert r
    decide
  · exact Mat.ofFn_get hr hc

end Sys2Proof.Machine

/-! PROOFS. Binary64 beyond rounding (41_matrix.md R300 to R305, R323 to R325): the special values of each operation,
comparisons as the order of the values, rounding to an integer, and the two conversions. -/

namespace Sys2Proof.Machine

/-! ## Kinds of value -/

theorem fIsNaN_iff {x : F64} : fIsNaN x = true ↔ infMag < lowBits x := by
  simp only [fIsNaN, Bool.and_eq_true, beq_iff_eq, bne_iff_ne, fExp, fFrac, lowBits, infMag]
  omega

/-- A value that is no NaN has bits 62:0 up to those of an infinity. -/
theorem fIsNaN_eq_false_iff {x : F64} : fIsNaN x = false ↔ lowBits x ≤ infMag := by
  rw [← Bool.not_eq_true, fIsNaN_iff, not_lt]

theorem fIsNaN_of_isInf {x : F64} (h : fIsInf x = true) : fIsNaN x = false :=
  fIsNaN_eq_false_iff.2 (fIsInf_iff.1 h).le

theorem fIsZero_of_isInf {x : F64} (h : fIsInf x = true) : fIsZero x = false :=
  Bool.eq_false_iff.2 fun hz => absurd ((fIsZero_iff.1 hz).symm.trans (fIsInf_iff.1 h)) (by decide)

theorem fIsFinite_of_isZero {x : F64} (h : fIsZero x = true) : fIsFinite x = true :=
  fIsFinite_iff.2 ((fIsZero_iff.1 h).trans_lt (by decide))

/-- A value that is no NaN is an infinity or finite. -/
theorem isInf_or_isFinite {x : F64} (h : fIsNaN x = false) : fIsInf x = true ∨ fIsFinite x = true :=
  (fIsNaN_eq_false_iff.1 h).eq_or_lt.imp fIsInf_iff.2 fIsFinite_iff.2

theorem eq_ofSignMag (x : F64) : x = ofSignMag (fSign x) (lowBits x) := by
  apply BitVec.eq_of_toNat_eq
  have hx := x.isLt
  rw [ofSignMag, BitVec.toNat_ofNat, fSign, BitVec.msb_eq_decide, lowBits]
  simp only [decide_eq_true_eq]
  split <;> omega

theorem fIsNaN_ofSignMag (sgn : Bool) {m : Nat} (h : m ≤ infMag) : fIsNaN (ofSignMag sgn m) = false :=
  fIsNaN_eq_false_iff.2 ((lowBits_ofSignMag sgn h).trans_le h)

theorem lowBits_roundRat (sgn : Bool) (num den : Nat) : lowBits (roundRat sgn num den) = packMag num den :=
  lowBits_ofSignMag sgn (min_le_right _ _)

/-- Rounding gives no NaN. -/
@[simp] theorem fIsNaN_roundRat (sgn : Bool) (num den : Nat) : fIsNaN (roundRat sgn num den) = false :=
  fIsNaN_ofSignMag sgn (min_le_right _ _)

@[simp] theorem fIsNaN_fInf (sgn : Bool) : fIsNaN (fInf sgn) = false := fIsNaN_ofSignMag sgn le_rfl

@[simp] theorem fIsInf_fInf (sgn : Bool) : fIsInf (fInf sgn) = true := fIsInf_iff.2 (lowBits_ofSignMag sgn le_rfl)

@[simp] theorem fIsZero_fInf (sgn : Bool) : fIsZero (fInf sgn) = false := fIsZero_of_isInf (fIsInf_fInf sgn)

@[simp] theorem fSign_fInf (sgn : Bool) : fSign (fInf sgn) = sgn := fSign_ofSignMag sgn le_rfl

@[simp] theorem fIsNaN_fZero (sgn : Bool) : fIsNaN (fZero sgn) = false := fIsNaN_ofSignMag sgn (Nat.zero_le _)

theorem fneg_fInf (sgn : Bool) : fneg (fInf sgn) = fInf !sgn := by cases sgn <;> decide

theorem fIsNaN_fneg (x : F64) : fIsNaN (fneg x) = fIsNaN x := by
  rw [Bool.eq_iff_iff, fIsNaN_iff, fIsNaN_iff, lowBits_fneg]

/-- An exact zero is rounded to a zero. -/
theorem roundRat_zero (sgn : Bool) {den : Nat} (h : 0 < den) : roundRat sgn 0 den = fZero sgn := by
  have hpack : packMag 0 den = 0 := by
    simp [packMag, tieEven, h.ne]
  rw [roundRat, hpack]
  rfl

theorem fMag_of_isZero {x : F64} (h : fIsZero x = true) : fMag x = 0 := by
  rw [fMag_eq_magOf, fIsZero_iff.1 h, magOf_zero]

theorem fMag_pos {x : F64} (h : fIsZero x = false) : 0 < fMag x := by
  rw [fMag_eq_magOf]
  exact magOf_strictMono (Nat.pos_of_ne_zero fun h0 => Bool.eq_false_iff.1 h (fIsZero_iff.2 h0))

/-! ## Operations on finite values -/

section
variable {x y : F64} (hx : fIsFinite x = true) (hy : fIsFinite y = true)
include hx hy

theorem fadd_finite : fadd x y = addFinite x y := by
  simp [fadd, not_special_of_finite hx, not_special_of_finite hy]

theorem fmul_finite : fmul x y = roundRat (fSign x != fSign y) (fMag x * fMag y) fUnit := by
  simp [fmul, not_special_of_finite hx, not_special_of_finite hy]

theorem fdiv_finite (hz : fIsZero y = false) :
    fdiv x y = roundRat (fSign x != fSign y) (fMag x * fUnit) (fMag y) := by
  simp [fdiv, not_special_of_finite hx, not_special_of_finite hy, hz]

/-- A zero product has the exclusive-or of the signs (R302). -/
theorem fmul_zero (hz : fIsZero x = true ∨ fIsZero y = true) : fmul x y = fZero (fSign x != fSign y) := by
  have hmag : fMag x * fMag y = 0 := Nat.mul_eq_zero.2 (hz.imp fMag_of_isZero fMag_of_isZero)
  rw [fmul_finite hx hy, hmag, roundRat_zero _ fUnit_pos]

end

/-- The difference of a finite value and itself is +0 (R303). -/
theorem fsub_self {x : F64} (hx : fIsFinite x = true) : fsub x x = fZero false := by
  rw [fsub, fadd_finite hx (fIsFinite_fneg hx), addFinite, fVal_fneg, add_neg_cancel, fSign_fneg]
  simp

/-- A finite value over a zero, a zero over a zero, and a zero over any other finite value. -/
theorem fdiv_by_zero {x y : F64} (hx : fIsFinite x = true) (hy : fIsZero y = true) :
    fdiv x y = if fIsZero x then qNaN else fInf (fSign x != fSign y) := by
  simp [fdiv, not_special_of_finite hx, not_special_of_finite (fIsFinite_of_isZero hy), hy]

theorem fdiv_zero {x y : F64} (hx : fIsZero x = true) (hy : fIsFinite y = true) (hz : fIsZero y = false) :
    fdiv x y = fZero (fSign x != fSign y) := by
  rw [fdiv_finite (fIsFinite_of_isZero hx) hy hz, fMag_of_isZero hx, Nat.zero_mul, roundRat_zero _ (fMag_pos hz)]

/-! ## Operations on infinities -/

section
variable {x : F64} (hx : fIsFinite x = true) (b : Bool)
include hx

theorem fadd_finite_inf : fadd x (fInf b) = fInf b := by simp [fadd, not_special_of_finite hx]

theorem fadd_inf_finite : fadd (fInf b) x = fInf b := by simp [fadd, not_special_of_finite hx]

theorem fsub_finite_inf : fsub x (fInf b) = fInf !b := by rw [fsub, fneg_fInf, fadd_finite_inf hx]

theorem fsub_inf_finite : fsub (fInf b) x = fInf b := fadd_inf_finite (fIsFinite_fneg hx) b

theorem fdiv_inf_finite : fdiv (fInf b) x = fInf (b != fSign x) := by simp [fdiv, not_special_of_finite hx]

theorem fdiv_finite_inf : fdiv x (fInf b) = fZero (fSign x != b) := by simp [fdiv, not_special_of_finite hx]

theorem fmul_finite_inf (hz : fIsZero x = false) : fmul x (fInf b) = fInf (fSign x != b) := by
  simp [fmul, not_special_of_finite hx, hz]

theorem fmul_inf_finite (hz : fIsZero x = false) : fmul (fInf b) x = fInf (b != fSign x) := by
  simp [fmul, not_special_of_finite hx, hz]

end

theorem fadd_inf_inf (a b : Bool) : fadd (fInf a) (fInf b) = if a = b then fInf a else qNaN := by
  cases a <;> cases b <;> simp [fadd]

theorem fsub_inf_inf (a b : Bool) : fsub (fInf a) (fInf b) = if a = b then qNaN else fInf a := by
  rw [fsub, fneg_fInf, fadd_inf_inf]
  cases a <;> cases b <;> rfl

theorem fmul_inf_inf (a b : Bool) : fmul (fInf a) (fInf b) = fInf (a != b) := by simp [fmul]

theorem fdiv_inf_inf {x y : F64} (hx : fIsInf x = true) (hy : fIsInf y = true) : fdiv x y = qNaN := by
  simp [fdiv, fIsNaN_of_isInf hx, fIsNaN_of_isInf hy, hx, hy]

theorem fmul_zero_inf {x y : F64} (hx : fIsZero x = true) (hy : fIsInf y = true) :
    fmul x y = qNaN ∧ fmul y x = qNaN := by
  simp [fmul, not_special_of_finite (fIsFinite_of_isZero hx), fIsNaN_of_isInf hy, hx, hy]

/-! ## NaNs (R301) -/

/-- A NaN operand gives the canonical NaN. -/
theorem nan_operand {x y : F64} (h : fIsNaN x = true ∨ fIsNaN y = true) :
    fadd x y = qNaN ∧ fsub x y = qNaN ∧ fmul x y = qNaN ∧ fdiv x y = qNaN := by
  have hor : (fIsNaN x || fIsNaN y) = true := by simpa using h
  simp [fsub, fadd, fmul, fdiv, fIsNaN_fneg, hor]

theorem fIsNaN_addFinite (x y : F64) : fIsNaN (addFinite x y) = false := by
  unfold addFinite
  dsimp only
  split <;> simp

/-- A value that is a NaN only as the canonical one. -/
def NaNCanonical (z : F64) : Prop := fIsNaN z = true → z = qNaN

theorem NaNCanonical.of_not {z : F64} (h : fIsNaN z = false) : NaNCanonical z := fun hz => by simp [h] at hz

theorem NaNCanonical.qNaN : NaNCanonical qNaN := fun _ => rfl

theorem fadd_nanCanonical (x y : F64) : NaNCanonical (fadd x y) := by
  unfold fadd
  split
  · exact .qNaN
  · rename_i h
    simp only [Bool.or_eq_true, not_or, Bool.not_eq_true] at h
    obtain ⟨hx, hy⟩ := h
    split
    · split
      · exact .qNaN
      · exact .of_not hx
    · split
      · exact .of_not hy
      · exact .of_not (fIsNaN_addFinite x y)

theorem fmul_nanCanonical (x y : F64) : NaNCanonical (fmul x y) := by
  unfold fmul
  dsimp only
  split
  · exact .qNaN
  · split
    · split
      · exact .qNaN
      · exact .of_not (fIsNaN_fInf _)
    · exact .of_not (fIsNaN_roundRat ..)

theorem fdiv_nanCanonical (x y : F64) : NaNCanonical (fdiv x y) := by
  unfold fdiv
  dsimp only
  split
  · exact .qNaN
  · split
    · split
      · exact .qNaN
      · exact .of_not (fIsNaN_fInf _)
    · split
      · exact .of_not (fIsNaN_fZero _)
      · split
        · split
          · exact .qNaN
          · exact .of_not (fIsNaN_fInf _)
        · exact .of_not (fIsNaN_roundRat ..)

theorem roundInt_nan {x : F64} (h : fIsNaN x = true) (rm : Bool) : roundInt x rm = qNaN := by simp [roundInt, h]

/-- Infinities and zeros are integral values (R323). -/
theorem roundInt_self {x : F64} (h : fIsInf x = true ∨ fIsZero x = true) (rm : Bool) : roundInt x rm = x := by
  have hn : fIsNaN x = false :=
    h.elim fIsNaN_of_isInf fun hz => (not_special_of_finite (fIsFinite_of_isZero hz)).1
  have hor : (fIsInf x || fIsZero x) = true := by simpa using h
  simp [roundInt, hn, hor]

theorem roundInt_finite {x : F64} (hf : fIsFinite x = true) (hz : fIsZero x = false) (rm : Bool) :
    roundInt x rm = roundRat (fSign x) (roundedMag x rm * fUnit) 1 := by
  simp [roundInt, not_special_of_finite hf, hz]

/-- Only a NaN is rounded to a NaN. -/
theorem fIsNaN_roundInt {x : F64} (h : fIsNaN x = false) (rm : Bool) : fIsNaN (roundInt x rm) = false := by
  unfold roundInt
  rw [if_neg (by simp [h])]
  split
  · exact h
  · exact fIsNaN_roundRat ..

theorem roundInt_nanCanonical (x : F64) (rm : Bool) : NaNCanonical (roundInt x rm) := by
  cases hn : fIsNaN x with
  | true => exact fun _ => roundInt_nan hn rm
  | false => exact .of_not (fIsNaN_roundInt hn rm)

/-- Settles O26: the branches of each operation that decide its special values, one lemma each. -/
theorem specialValues : Obligations.SpecialValues := by
  refine ⟨fun x y => ?_, fun x y h => ?_, fun x y hf hx hy => ?_, fun x y h => ?_, fun x y hx hy => fmul_zero_inf hx hy,
    by decide, by decide, fun x hx => fsub_self hx, fun x y hx hy hz => fmul_zero hx hy hz, fun x b hx => ?_,
    fun a b => ⟨fmul_inf_inf a b, fadd_inf_inf a b, fsub_inf_inf a b⟩, fun x y hx hy hz => fdiv_zero hx hy hz,
    fdiv_zero (by decide) (by decide) (by decide)⟩
  · simp only [List.forall_mem_cons, List.not_mem_nil, IsEmpty.forall_iff, implies_true, and_true]
    exact ⟨fadd_nanCanonical x y, fadd_nanCanonical x (fneg y), fmul_nanCanonical x y, fdiv_nanCanonical x y,
      roundInt_nanCanonical x true, roundInt_nanCanonical x false⟩
  · simpa using nan_operand h
  · rw [fdiv_by_zero hf hy, hx]
    rfl
  · rcases h with ⟨hx, hy⟩ | ⟨hx, hy⟩
    · rw [fdiv_by_zero (fIsFinite_of_isZero hx) hy, hx]
      rfl
    · exact fdiv_inf_inf hx hy
  · exact ⟨fadd_finite_inf hx b, fadd_inf_finite hx b, fsub_finite_inf hx b, fsub_inf_finite hx b,
      fdiv_inf_finite hx b, fdiv_finite_inf hx b, fun hz => ⟨fmul_finite_inf hx b hz, fmul_inf_finite hx b hz⟩⟩

/-! ## Comparisons (R305) -/

/-- The value of bits 62:0 in units of 2^-1074 as `fExt` counts it, strictly rising in them. -/
def extMag (m : Nat) : Int := (magOf m : Int) + if infMag ≤ m then 2 ^ 2100 - (magOf infMag : Int) else 0

/-- The value of a key of the order. -/
def extKey (k : Int) : Int := k.sign * extMag k.natAbs

theorem natCast_le_two_pow {m k : Nat} (h : m ≤ 2 ^ k) : (m : Int) ≤ 2 ^ k := by exact_mod_cast h

theorem two_pow_mul_le {i j k : Nat} (h : i + j ≤ k) : 2 ^ i * 2 ^ j ≤ 2 ^ k := by
  rw [← Nat.pow_add]
  exact Nat.pow_le_pow_right (by decide) h

theorem magOf_infMag_le : (magOf infMag : Int) ≤ 2 ^ 2100 := by
  apply natCast_le_two_pow
  rw [show infMag = 2045 * 2 ^ 52 + 2 ^ 53 from rfl, magOf_binade (by omega) (by omega)]
  exact two_pow_mul_le (by decide)

theorem extMag_strictMono : StrictMono extMag := by
  intro m n h
  have hlt : magOf m < magOf n := magOf_strictMono h
  have hle := magOf_infMag_le
  unfold extMag
  split <;> split <;> omega

theorem extKey_natCast (m : Nat) : extKey m = extMag m := by
  cases m with
  | zero => rfl
  | succ m => rw [extKey, Int.sign_natCast_of_ne_zero (Nat.succ_ne_zero m), one_mul, Int.natAbs_natCast]

theorem extKey_neg (k : Int) : extKey (-k) = -extKey k := by
  rw [extKey, Int.sign_neg, Int.natAbs_neg, neg_mul, extKey]

theorem extKey_strictMono : StrictMono extKey := by
  refine strictMono_of_odd_strictMonoOn_nonneg extKey_neg fun i hi j hj h => ?_
  obtain ⟨m, rfl⟩ := Int.eq_ofNat_of_zero_le hi
  obtain ⟨n, rfl⟩ := Int.eq_ofNat_of_zero_le hj
  rw [extKey_natCast, extKey_natCast]
  exact extMag_strictMono (Int.ofNat_lt.1 h)

theorem fKey_eq (x : F64) : fKey x = if fSign x then -(lowBits x : Int) else lowBits x := by
  simp [fKey, lowBits]

theorem fExt_of_isInf {x : F64} (h : fIsInf x = true) : fExt x = if fSign x then -(2 ^ 2100) else 2 ^ 2100 := by
  rw [fExt, if_pos h]

theorem fExt_of_isFinite {x : F64} (h : fIsFinite x = true) : fExt x = fVal x := by
  rw [fExt, if_neg (by simp [not_special_of_finite h])]

/-- The value of a number is that of its key. -/
theorem fExt_eq_extKey {x : F64} (h : fIsNaN x = false) : fExt x = extKey (fKey x) := by
  have hkey : extKey (fKey x) = if fSign x then -extMag (lowBits x) else extMag (lowBits x) := by
    rw [fKey_eq]
    split
    · rw [extKey_neg, extKey_natCast]
    · rw [extKey_natCast]
  rw [hkey]
  rcases isInf_or_isFinite h with hi | hf
  · rw [fExt_of_isInf hi, fIsInf_iff.1 hi, extMag, if_pos le_rfl, add_sub_cancel]
  · rw [fExt_of_isFinite hf, fVal, fMag_eq_magOf, extMag, if_neg (not_le.2 (fIsFinite_iff.1 hf)), add_zero]

section
variable {x y : F64} (hx : fIsNaN x = false) (hy : fIsNaN y = false)
include hx hy

theorem flt_iff : flt x y = true ↔ fExt x < fExt y := by
  rw [fExt_eq_extKey hx, fExt_eq_extKey hy, extKey_strictMono.lt_iff_lt]
  simp [flt, hx, hy]

theorem fgt_iff : fgt x y = true ↔ fExt y < fExt x := flt_iff hy hx

theorem feq_iff : feq x y = true ↔ fExt x = fExt y := by
  rw [fExt_eq_extKey hx, fExt_eq_extKey hy, extKey_strictMono.injective.eq_iff]
  simp [feq, hx, hy]

theorem fge_iff : fge x y = true ↔ fExt y ≤ fExt x := by
  rw [fge, Bool.or_eq_true, fgt_iff hx hy, feq_iff hx hy, le_iff_lt_or_eq, eq_comm]

end

theorem compare_nan {x y : F64} (h : fIsNaN x = true ∨ fIsNaN y = true) :
    flt x y = false ∧ fgt x y = false ∧ feq x y = false := by
  rcases h with h | h <;> simp [flt, fgt, feq, h]

/-- The mask of `fabs` has bits 62:0 set. -/
theorem getLsbD_fabs (x : F64) {n : Nat} (h : n < 64) : (fabs x).getLsbD n = (x.getLsbD n && decide (n ≠ 63)) := by
  have hmask : ∀ k < 64, (0x7FFFFFFFFFFFFFFF#64).getLsbD k = decide (k ≠ 63) := by decide
  rw [fabs, BitVec.getLsbD_and, hmask n h]

/-- Settles O30: bits 62:0 with the sign order the numbers as their values do. -/
theorem absoluteAndComparisons : Obligations.AbsoluteAndComparisons :=
  ⟨fun x _ hn => getLsbD_fabs x hn, fun _ _ h => compare_nan h,
    fun _ _ hx hy => ⟨flt_iff hx hy, fgt_iff hx hy, feq_iff hx hy⟩⟩

/-! ## Rounding to an integer (R323) -/

/-- A magnitude is its significand at the scale of its binade. -/
theorem magOf_split (m : Nat) : ∃ k n, n < 2 ^ 53 ∧ magOf m = n * 2 ^ k := by
  refine ⟨m / 2 ^ 52 - 1, m - (m / 2 ^ 52 - 1) * 2 ^ 52, by omega, ?_⟩
  rw [← magOf_binade (by omega) (by omega)]
  congr 1
  omega

/-- A finite magnitude is rounded to itself. -/
theorem packMag_magOf {m : Nat} (h : m < infMag) : packMag (magOf m) 1 = m := by
  have hnear := (packUnbounded_nearest (magOf m) Nat.one_pos m).1
  rw [Nat.cast_one, div_one, sub_self, abs_zero] at hnear
  have heq : (magOf (packUnbounded (magOf m) 1) : ℚ) = magOf m :=
    sub_eq_zero.1 (abs_eq_zero.1 (le_antisymm hnear (abs_nonneg _)))
  rw [packMag_eq, magOf_strictMono.injective (Nat.cast_injective heq), min_eq_left h.le]

theorem roundRat_fMag {x : F64} (h : fIsFinite x = true) : roundRat (fSign x) (fMag x) 1 = x := by
  rw [roundRat, fMag_eq_magOf, packMag_magOf (fIsFinite_iff.1 h), ← eq_ofSignMag]

/-- The magnitude that `packUnbounded` gives: the rounded significand at its scale. -/
theorem magOf_packUnbounded (num den : Nat) : ∃ k,
    magOf (packUnbounded num den) = tieEven (num / (den * 2 ^ k)) (num % (den * 2 ^ k)) (den * 2 ^ k) * 2 ^ k := by
  obtain ⟨hk, hq⟩ := significand_range num den
  refine ⟨_, magOf_binade ?_ ?_⟩
  · exact hk.imp_right fun h => h.trans (by unfold tieEven; split <;> omega)
  · unfold tieEven
    split <;> omega

theorem tieEven_zero (q : Nat) {d : Nat} (h : 0 < d) : tieEven q 0 d = q := if_neg (by omega)

/-- An integral value is rounded to an integral value. -/
theorem fUnit_dvd_magOf_packUnbounded (n : Nat) : fUnit ∣ magOf (packUnbounded (n * fUnit) 1) := by
  obtain ⟨k, hk⟩ := magOf_packUnbounded (n * fUnit) 1
  rw [hk, Nat.one_mul]
  rcases le_total 1074 k with h | h
  · exact Dvd.dvd.mul_left (pow_dvd_pow 2 h) _
  · have hdvd : 2 ^ k ∣ n * fUnit := Dvd.dvd.mul_left (pow_dvd_pow 2 h) _
    rw [Nat.mod_eq_zero_of_dvd hdvd, tieEven_zero _ (by positivity), Nat.div_mul_cancel hdvd]
    exact Dvd.intro_left n rfl

/-- The rounded value is integral. -/
theorem fUnit_dvd_fMag_roundInt {x : F64} {rm : Bool} (h : fIsNaN x = false)
    (hf : fIsFinite (roundInt x rm) = true) : fUnit ∣ fMag (roundInt x rm) := by
  by_cases hz : fIsInf x = true ∨ fIsZero x = true
  · rw [roundInt_self hz] at hf ⊢
    have hi := (not_special_of_finite hf).2
    rw [fMag_of_isZero (hz.resolve_left (by simp [hi]))]
    exact dvd_zero _
  · simp only [not_or, Bool.not_eq_true] at hz
    obtain ⟨hi, hz⟩ := hz
    have hx : fIsFinite x = true := (isInf_or_isFinite h).resolve_left (by simp [hi])
    rw [roundInt_finite hx hz] at hf ⊢
    have hlow := fIsFinite_iff.1 hf
    rw [fMag_eq_magOf]
    rw [lowBits_roundRat, packMag_eq] at hlow ⊢
    rw [min_eq_left (by omega)]
    exact fUnit_dvd_magOf_packUnbounded _

theorem NearestInt.neg {n v : Int} {rm : Bool} (h : NearestInt n v rm) : NearestInt (-n) (-v) rm := by
  have he : |-n * (fUnit : Int) - -v| = |n * fUnit - v| := by
    rw [← abs_neg]
    congr 1
    ring
  have hmod : -n % 2 = 0 ↔ n % 2 = 0 := by omega
  simpa only [NearestInt, he, abs_neg, hmod] using h

section
variable {rm : Bool} {q r : Nat}

/-- The whole part, when the rest is at most the half, and a tie goes to an even one. -/
theorem nearestInt_down (h : 2 * r ≤ fUnit) (ht : 2 * r = fUnit → rm = false ∧ q % 2 = 0) :
    NearestInt q ((q * fUnit + r : Nat) : Int) rm := by
  have hdist : |(q : Int) * fUnit - ((q * fUnit + r : Nat) : Int)| = r := by
    push_cast
    rw [sub_add_cancel_left, abs_neg, Nat.abs_cast]
  rw [NearestInt, hdist]
  refine ⟨by exact_mod_cast h, fun he => ?_⟩
  obtain ⟨hrm, hq⟩ := ht (by exact_mod_cast he)
  exact ⟨fun _ => by exact_mod_cast hq, fun hrm' => by simp [hrm] at hrm'⟩

/-- The next integer, when the rest is at least the half, and a tie goes to it by the mode. -/
theorem nearestInt_up (hr : r < fUnit) (h : fUnit ≤ 2 * r) (ht : 2 * r = fUnit → rm = false → q % 2 = 1) :
    NearestInt (q + 1 : Nat) ((q * fUnit + r : Nat) : Int) rm := by
  have hdist : |((q + 1 : Nat) : Int) * fUnit - ((q * fUnit + r : Nat) : Int)| = fUnit - r := by
    push_cast
    rw [add_one_mul, add_sub_add_left_eq_sub, abs_of_nonneg (by omega)]
  have hlt : q * fUnit + r < (q + 1) * fUnit := by
    rw [Nat.succ_mul]
    omega
  rw [NearestInt, hdist]
  refine ⟨by omega, fun he => ⟨fun hrm => ?_, fun _ => ?_⟩⟩
  · have := ht (by omega) hrm
    omega
  · rw [Nat.abs_cast, Nat.abs_cast]
    exact_mod_cast hlt

/-- `roundHalf` picks the nearest integer, and at a tie what the mode says. -/
theorem roundHalf_nearestInt (hr : r < fUnit) :
    NearestInt (roundHalf rm q r fUnit : Nat) ((q * fUnit + r : Nat) : Int) rm := by
  unfold roundHalf
  split
  · rename_i hrm
    split
    · exact nearestInt_up hr ‹_› fun _ hf => by simp [hrm] at hf
    · exact nearestInt_down (by omega) fun _ => by omega
  · rename_i hrm
    have hrm : rm = false := by simpa using hrm
    unfold tieEven
    split
    · exact nearestInt_up hr (by omega) fun _ _ => by omega
    · exact nearestInt_down (by omega) fun _ => ⟨hrm, by omega⟩

end

/-- The integer a finite value is rounded to. -/
def roundedInt (x : F64) (rm : Bool) : Int := if fSign x then -(roundedMag x rm : Int) else roundedMag x rm

theorem roundedInt_nearestInt (x : F64) (rm : Bool) : NearestInt (roundedInt x rm) (fVal x) rm := by
  have hmag : NearestInt (roundedMag x rm) (fMag x) rm := by
    have h := roundHalf_nearestInt (rm := rm) (q := fMag x / fUnit) (Nat.mod_lt (fMag x) fUnit_pos)
    rwa [Nat.div_add_mod'] at h
  unfold roundedInt fVal
  split
  · exact hmag.neg
  · exact hmag

/-- A nonzero integer is rounded with its sign. -/
theorem f64_signed (sgn : Bool) {n : Nat} (h : n ≠ 0) :
    f64 (if sgn then -(n : Int) else n) = roundRat sgn (n * fUnit) 1 := by
  cases sgn
  · have hpos : ¬ (n : Int) < 0 := by omega
    simp [f64, hpos]
  · simp [f64, Nat.pos_of_ne_zero h]

/-- `roundInt` of a finite value in terms of the integer it is rounded to. -/
theorem roundInt_eq {x : F64} (hf : fIsFinite x = true) (hz : fIsZero x = false) (rm : Bool) :
    roundInt x rm = if roundedInt x rm = 0 then fZero (fSign x) else f64 (roundedInt x rm) := by
  have hzero : roundedInt x rm = 0 ↔ roundedMag x rm = 0 := by
    unfold roundedInt
    split <;> omega
  rw [roundInt_finite hf hz]
  split
  · rename_i h0
    rw [hzero.1 h0, Nat.zero_mul, roundRat_zero _ Nat.one_pos]
  · rename_i h0
    rw [roundedInt, f64_signed _ fun h => h0 (hzero.2 h)]

theorem two_pow_le_mul_fUnit {i j k : Nat} (h : i + j ≤ k + 1074) : 2 ^ i * 2 ^ j ≤ 2 ^ k * fUnit := by
  rw [fUnit, ← Nat.pow_add 2 k]
  exact two_pow_mul_le h

theorem two_pow_mul_fUnit_le {i k : Nat} (h : i + 1074 ≤ k) : 2 ^ i * fUnit ≤ 2 ^ k := by
  rw [fUnit]
  exact two_pow_mul_le h

/-- From 2^52 on every finite value is integral. -/
theorem fUnit_dvd_fMag {x : F64} (h : 2 ^ 52 * fUnit ≤ fMag x) : fUnit ∣ fMag x := by
  obtain ⟨k, n, hn, hmag⟩ := magOf_split (lowBits x)
  rw [fMag_eq_magOf, hmag] at h ⊢
  have hk : 1073 < k := by
    by_contra hk
    have hlt : n * 2 ^ k < 2 ^ 52 * fUnit :=
      calc n * 2 ^ k < 2 ^ 53 * 2 ^ k := Nat.mul_lt_mul_of_pos_right hn (by positivity)
        _ ≤ 2 ^ 52 * fUnit := two_pow_le_mul_fUnit (by omega)
    omega
  exact Dvd.dvd.mul_left (pow_dvd_pow 2 hk) n

theorem abs_fVal (x : F64) : |fVal x| = fMag x := by
  unfold fVal
  split <;> simp

theorem roundHalf_zero (rm : Bool) (q : Nat) {d : Nat} (h : 0 < d) : roundHalf rm q 0 d = q := by
  cases rm
  · exact tieEven_zero q h
  · rw [roundHalf, if_pos rfl, if_neg (by omega)]

/-- An integral value is left as it is. -/
theorem roundInt_of_dvd {x : F64} (hf : fIsFinite x = true) (h : fUnit ∣ fMag x) (rm : Bool) : roundInt x rm = x := by
  cases hz : fIsZero x with
  | true => exact roundInt_self (.inr hz) rm
  | false =>
    have hround : roundedMag x rm = fMag x / fUnit := by
      rw [roundedMag, Nat.mod_eq_zero_of_dvd h, roundHalf_zero _ _ fUnit_pos]
    rw [roundInt_finite hf hz, hround, Nat.div_mul_cancel h, roundRat_fMag hf]

/-- Settles O28: `roundHalf` picks the nearest integer magnitude; the examples are evaluated. -/
theorem roundToInteger : Obligations.RoundToInteger := by
  refine ⟨fun x rm => ⟨fun h => roundInt_nan h rm, fun h => roundInt_self h rm,
    fun hf hz => ⟨_, roundedInt_nearestInt x rm, roundInt_eq hf hz rm⟩, fun hf h => ?_⟩,
    by decide +kernel, by decide +kernel, by decide +kernel, by decide +kernel, by decide +kernel, by decide +kernel,
    by decide +kernel, by decide +kernel, rfl, fun d a m s ha => ?_⟩
  · rw [abs_fVal] at h
    exact roundInt_of_dvd hf (fUnit_dvd_fMag (by exact_mod_cast h)) rm
  · exact unary_hasElements ha rfl (Mat.map_hasElements (fun x => roundInt x s.cfg.rnd) m)

/-! ## Conversions (R324, R325) -/

theorem abs_fExt_of_isInf {x : F64} (h : fIsInf x = true) : |fExt x| = 2 ^ 2100 := by
  rw [fExt_of_isInf h]
  split
  · rw [abs_neg, abs_of_nonneg (by positivity)]
  · rw [abs_of_nonneg (by positivity)]

/-- An infinity is beyond the range of both conversions. -/
theorem isFinite_of_abs_fExt {x : F64} (h : fIsNaN x = false) (hlt : |fExt x| < ((2 ^ 15 * fUnit : Nat) : Int)) :
    fIsFinite x = true := by
  refine (isInf_or_isFinite h).resolve_left fun hinf => absurd hlt (not_lt.2 ?_)
  rw [abs_fExt_of_isInf hinf]
  exact natCast_le_two_pow (two_pow_mul_fUnit_le (by decide))

/-- The integer part of a positive or integral value is its floor. -/
theorem fTrunc_eq {x : F64} (hf : fIsFinite x = true) (h : fSign x = false ∨ fUnit ∣ fMag x) :
    fTrunc x = fExt x / fUnit := by
  rw [fExt_of_isFinite hf, fTrunc, fVal]
  split
  · rename_i hs
    have hdvd : (fUnit : Int) ∣ fMag x := by exact_mod_cast h.resolve_left (by simp [hs])
    rw [Int.neg_ediv_of_dvd hdvd]
    rfl
  · rfl

theorem fIsNaN_f64 (n : Int) : fIsNaN (f64 n) = false := fIsNaN_roundRat ..

/-- The ends of the two ranges. -/
def rangeEnds : List Int := [-32768, 0, 255, 32767]

theorem fExt_f64_rangeEnds : ∀ n ∈ rangeEnds, fExt (f64 n) = n * fUnit := by decide +kernel

section
variable {x : F64} (h : fIsNaN x = false) {n : Int} (hn : n ∈ rangeEnds)
include h hn

theorem fge_f64_iff : fge x (f64 n) = true ↔ n * fUnit ≤ fExt x := by
  rw [fge_iff h (fIsNaN_f64 n), fExt_f64_rangeEnds n hn]

theorem f64_fge_iff : fge (f64 n) x = true ↔ fExt x ≤ n * fUnit := by
  rw [fge_iff (fIsNaN_f64 n) h, fExt_f64_rangeEnds n hn]

end

/-- A value that is no NaN is rounded to an integral value, and that one saturated (R324). -/
theorem toI16_eq {x : F64} (h : fIsNaN x = false) (rm : Bool) :
    toI16 x rm = BitVec.ofInt 16 (max (-32768) (min 32767 (fExt (roundInt x rm) / fUnit))) := by
  have hy := fIsNaN_roundInt h rm
  have hdvd := fUnit_dvd_fMag_roundInt (rm := rm) h
  unfold toI16
  generalize roundInt x rm = y at hy hdvd
  have hu : (0 : Int) < fUnit := by exact_mod_cast fUnit_pos
  have htop := fge_f64_iff hy (n := 32767) (by decide)
  have hbottom := f64_fge_iff hy (n := -32768) (by decide)
  dsimp only
  rw [if_neg (by simp [hy])]
  split
  · rename_i hge
    have hquot : 32767 ≤ fExt y / fUnit := (Int.le_ediv_iff_mul_le hu).2 (htop.1 hge)
    rw [min_eq_left hquot]
    rfl
  · rename_i hlt
    have hlt : fExt y < 32767 * fUnit := not_le.1 (mt htop.2 hlt)
    split
    · rename_i hle
      have hquot := Int.ediv_le_ediv hu (hbottom.1 hle)
      rw [Int.mul_ediv_cancel _ hu.ne'] at hquot
      rw [max_eq_left ((min_le_right _ _).trans hquot)]
      rfl
    · rename_i hgt
      have hgt : -32768 * (fUnit : Int) < fExt y := not_le.1 (mt hbottom.2 hgt)
      have hf : fIsFinite y = true := isFinite_of_abs_fExt hy (abs_lt.2 ⟨by omega, by omega⟩)
      have hlow : -32768 ≤ fExt y / fUnit := (Int.le_ediv_iff_mul_le hu).2 hgt.le
      have hhigh : fExt y / fUnit < 32767 := Int.ediv_lt_of_lt_mul hu hlt
      rw [min_eq_right hhigh.le, max_eq_right hlow, fTrunc_eq hf (.inr (hdvd hf))]

theorem fSign_of_fExt_pos {x : F64} (hf : fIsFinite x = true) (h : 0 < fExt x) : fSign x = false := by
  refine Bool.eq_false_iff.2 fun hs => ?_
  rw [fExt_of_isFinite hf, fVal, if_pos hs] at h
  omega

section
variable {x : F64} (h : fIsNaN x = false)
include h

theorem clampByte_low (hx : fExt x ≤ 0) : clampByte x = 0#8 := by
  have hge : fge (f64 0) x = true := (f64_fge_iff h (by decide)).2 (by omega)
  rw [clampByte, hge, Bool.or_true, if_pos rfl]

theorem clampByte_positive (hx : 0 < fExt x) :
    clampByte x = if fge x (f64 255) then 255#8 else BitVec.ofInt 8 (fTrunc x) := by
  have hge : fge (f64 0) x = false := Bool.eq_false_iff.2 (mt (f64_fge_iff h (by decide)).1 (by omega))
  rw [clampByte, h, hge, Bool.or_false, if_neg Bool.false_ne_true]

end

/-- Settles O29: the comparisons with the ends of the ranges are those of the values. -/
theorem integerConversions : Obligations.IntegerConversions := by
  have hu := fUnit_pos
  refine ⟨fun x rm => ⟨fun h => ?_, fun h => toI16_eq h rm⟩, fun x => ⟨fun h => ?_, fun h hx => ?_, fun h h0 hx => ?_⟩⟩
  · rw [toI16, roundInt_nan h]
    rfl
  · cases hn : fIsNaN x with
    | true => simp [clampByte, hn]
    | false => exact clampByte_low hn (h.resolve_left (by simp [hn]))
  · rw [clampByte_positive h (by omega), if_pos ((fge_f64_iff h (by decide)).2 hx)]
  · have hf : fIsFinite x = true := isFinite_of_abs_fExt h (abs_lt.2 ⟨by omega, by omega⟩)
    rw [clampByte_positive h h0, if_neg (mt (fge_f64_iff h (by decide)).1 (not_le.2 hx)),
      fTrunc_eq hf (.inl (fSign_of_fExt_pos hf h0))]

end Sys2Proof.Machine

/-! PROOFS. HBUILD (43_huffman.md R456): the queue has room for the leaves and for each new node, so the tree is built;
the lighter entry leaves first, so it becomes the first child. -/

namespace Sys2Proof.Machine

/-! ## The tree is built -/

section
variable {o : HeapOrder}

theorem PQueue.exists_deq {q : PQueue} (h : 0 < q.heap.length) :
    ∃ r, q.deq o = .ok r ∧ r.2.heap.length + 1 = q.heap.length := by
  obtain ⟨top, rest, hq⟩ := List.exists_cons_of_length_pos h
  obtain ⟨q', hdeq, -⟩ := PQueue.deq_ok o q hq
  exact ⟨_, hdeq, PQueue.deq_length hdeq⟩

theorem PQueue.exists_enq {q : PQueue} (k p : Word) (h : q.heap.length < Config.pqCap) :
    ∃ q', q.enq o k p = .ok q' ∧ q'.heap.length = q.heap.length + 1 := by
  obtain ⟨q', henq, hperm, -⟩ := PQueue.enq_ok o q k p h.ne
  exact ⟨q', henq, hperm.length_eq⟩

theorem exists_seedQueue {syms : List HSym} {i : Nat} {q : PQueue}
    (h : q.heap.length + syms.length ≤ Config.pqCap) :
    ∃ q', seedQueue o syms i q = .ok q' ∧ q'.heap.length = q.heap.length + syms.length := by
  induction syms generalizing i q with
  | nil => exact ⟨q, rfl, rfl⟩
  | cons y t ih =>
    rw [List.length_cons] at h
    obtain ⟨q1, henq, hlen⟩ := PQueue.exists_enq (o := o) y.freq (BitVec.ofNat 32 i) (q := q) (by omega)
    obtain ⟨q', hseed, hlen'⟩ := ih (i := i + 1) (q := q1) (by omega)
    refine ⟨q', ?_, by rw [hlen', hlen, List.length_cons]; omega⟩
    simp only [seedQueue, henq, hseed]

/-- A round takes two entries and brings one, so it does not fill the queue. -/
theorem exists_mergeOnce {q : PQueue} (ns : List Node) (h : 2 ≤ q.heap.length) (hcap : q.heap.length ≤ Config.pqCap) :
    ∃ p, mergeOnce o q ns = .ok p ∧ p.1.heap.length + 1 = q.heap.length := by
  obtain ⟨x, hx, hxlen⟩ := PQueue.exists_deq (o := o) (q := q) (by omega)
  obtain ⟨y, hy, hylen⟩ := PQueue.exists_deq (o := o) (q := x.2) (by omega)
  obtain ⟨q', henq, hlen⟩ := PQueue.exists_enq (o := o) (weightSum x.1.key y.1.key) (BitVec.ofNat 32 ns.length)
    (q := y.2) (by omega)
  refine ⟨_, by simp only [mergeOnce, hx, hy, henq, ok_bind]; rfl, ?_⟩
  dsimp only
  omega

theorem exists_mergeLoop {fuel : Nat} {q : PQueue} {ns : List Node} (h : 1 ≤ q.heap.length)
    (hcap : q.heap.length ≤ Config.pqCap) : ∃ p, mergeLoop o fuel q ns = .ok p ∧ 1 ≤ p.1.heap.length := by
  induction fuel generalizing q ns with
  | zero => exact ⟨_, rfl, h⟩
  | succ n ih =>
    rw [mergeLoop]
    split
    · exact ⟨_, rfl, h⟩
    · obtain ⟨p, hp, hlen⟩ := exists_mergeOnce (o := o) ns (show 2 ≤ q.heap.length by omega) hcap
      rw [hp]
      exact ih (by omega) (by omega)

/-- A table of 1 to NSYM_MAX symbols has a tree. -/
theorem exists_buildTree {syms : List HSym} (h : 1 ≤ syms.length) (hd : syms.length ≤ Config.nsymMax) :
    ∃ t, buildTree o syms = .ok t := by
  obtain ⟨q, hq, hlen⟩ := exists_seedQueue (o := o) (syms := syms) (i := 0) (q := PQueue.empty)
    (by rw [PQueue.empty, List.length_nil, Nat.zero_add]; exact hd)
  rw [PQueue.empty, List.length_nil, Nat.zero_add] at hlen
  obtain ⟨p, hp, hpos⟩ := exists_mergeLoop (o := o) (fuel := syms.length) (ns := leaves syms) (hlen ▸ h) (hlen ▸ hd)
  obtain ⟨r, hr, -⟩ := PQueue.exists_deq (o := o) hpos
  exact ⟨_, by rw [buildTree, hq, ok_bind, hp, ok_bind, hr, ok_bind]⟩

end

/-! ## The weights of children -/

/-- No internal node's first child is the heavier. -/
def LighterFirst (ns : List Node) : Prop :=
  ∀ (i : Nat) (wt : Word) (l r : Nat), ns[i]? = some (Node.internal wt l r) → nodeWeight ns l ≤ nodeWeight ns r

section
variable {o : HeapOrder} {syms : List HSym} {q : PQueue} {ns : List Node} {p : PQueue × List Node}
  (ho : o.maxheap = false) (hd : syms.length ≤ Config.nsymMax)
include ho

/-- The two entries of a round leave the lighter first. -/
theorem Building.lighterFirst_mergeOnce (h : Building o syms q ns) (hl : LighterFirst ns)
    (hm : mergeOnce o q ns = .ok p) : LighterFirst p.2 := by
  obtain ⟨x, y, hx, hy, -, hns⟩ := mergeOnce_eq hm
  obtain ⟨-, hbest⟩ := PQueue.deq_heapOrdered h.ordered hx
  have hyx : y.1 ∈ x.2.heap := (PQueue.deq_perm hy).symm.subset List.mem_cons_self
  have hxq : x.1 ∈ q.heap := (PQueue.deq_perm hx).symm.subset List.mem_cons_self
  have hyq : y.1 ∈ q.heap := (PQueue.deq_perm hx).symm.subset (List.mem_cons_of_mem _ hyx)
  rw [hns]
  intro i wt l r hi
  rcases Nat.lt_or_ge i ns.length with hlt | hge
  · rw [List.getElem?_append_left hlt] at hi
    obtain ⟨hli, hri⟩ := h.forest.below i wt l r hi
    rw [nodeWeight_append (hli.trans hlt), nodeWeight_append (hri.trans hlt)]
    exact hl i wt l r hi
  · rw [List.getElem?_append_right hge, List.getElem?_singleton] at hi
    obtain ⟨-, rfl, rfl⟩ := Node.internal.inj (Option.some.inj (Option.ite_none_right_eq_some.1 hi).2)
    rw [nodeWeight_append (h.handle_lt hxq), nodeWeight_append (h.handle_lt hyq), h.keys _ hxq, h.keys _ hyq]
    exact key_le_of_not_better ho (hbest _ hyx)

include hd

theorem Building.lighterFirst_mergeLoop {fuel : Nat} (h : Building o syms q ns) (hl : LighterFirst ns)
    (hm : mergeLoop o fuel q ns = .ok p) : LighterFirst p.2 := by
  induction fuel generalizing q ns with
  | zero => exact Except.ok.inj hm ▸ hl
  | succ n ih =>
    rw [mergeLoop] at hm
    split at hm
    · exact Except.ok.inj hm ▸ hl
    · split at hm
      · simp at hm
      · rename_i p1 h1
        exact ih (h.after_mergeOnce h1 hd) (h.lighterFirst_mergeOnce ho hl h1) hm

end

theorem leaves_getElem?_ne_internal (syms : List HSym) (i : Nat) (wt : Word) (l r : Nat) :
    (leaves syms)[i]? ≠ some (Node.internal wt l r) := by
  rw [leaves, List.getElem?_map]
  intro h
  obtain ⟨y, -, hy⟩ := Option.map_eq_some_iff.1 h
  simp at hy

/-- Step 2 of R456 leaves the leaves as roots, when the counts do not overflow a weight. -/
theorem seedQueue_building {o : HeapOrder} {syms : List HSym} {q : PQueue} (h : seedQueue o syms 0 PQueue.empty = .ok q)
    (hd : syms.length ≤ Config.nsymMax) (hsum : (syms.map fun y => y.freq.toNat).sum < 2 ^ 32) :
    Building o syms q (leaves syms) := by
  obtain ⟨hord, hkeys, hweights⟩ := seedQueue_spec (all := syms) h rfl hd (fun k _ hk => absurd hk (Nat.not_lt_zero k))
    (by simp [PQueue.empty])
  have hseed := seedQueue_handles h (by simp only [Config.nsymMax] at hd; omega)
  rw [← List.range_eq_range'] at hseed
  have hempty : PQueue.empty.weights = 0 := rfl
  exact
    { forest := (Forest.init syms).perm hseed.symm
      ordered := hord
      keys := hkeys
      sums := fun i wt l r hi => absurd hi (leaves_getElem?_ne_internal syms i wt l r)
      total := by rwa [hweights, hempty, Multiset.zero_add, Multiset.sum_coe] }

/-- In the tree of a table whose counts sum below 2^32 the weights are those of R456. -/
theorem buildTree_weightsOk {o : HeapOrder} (ho : o.maxheap = false) {syms : List HSym} {t : List Node × Nat}
    (h : buildTree o syms = .ok t) (hd : syms.length ≤ Config.nsymMax)
    (hsum : (syms.map fun y => y.freq.toNat).sum < 2 ^ 32) : WeightsOk t.1 := by
  obtain ⟨hexact, -⟩ := buildTree_optimal ho h hd hsum
  obtain ⟨q, hq, h⟩ := bind_eq_ok h
  obtain ⟨p, hp, h⟩ := bind_eq_ok h
  obtain ⟨r, hr, h⟩ := bind_eq_ok h
  obtain rfl := Except.ok.inj h
  have hlighter : LighterFirst p.2 := (seedQueue_building hq hd hsum).lighterFirst_mergeLoop ho hd
    (fun i wt l r hi => absurd hi (leaves_getElem?_ne_internal syms i wt l r)) hp
  intro i wt l r hi
  have hwt := hexact i wt l r hi
  refine ⟨BitVec.eq_of_toNat_eq ?_, hlighter i wt l r hi⟩
  rw [BitVec.toNat_add, ← hwt, Nat.mod_eq_of_lt wt.isLt]

/-! ## HBUILD -/

theorem execHbuild_ok {s : State} (hs : s.huff.stage ≠ .empty) {t : List Node × Nat}
    (ht : buildTree s.cfg.huffOrder s.huff.syms = .ok t) :
    exec .hbuild s = .next ((((s.setPq PQueue.empty).setHuff (Huffman.afterBuild s.huff.syms t.1 t.2)).setRes 0
      (BitVec.ofNat 32 t.2)).setRes 1 (BitVec.ofNat 32 t.1.length)).complete := by
  have hstage : (s.huff.stage != .empty) = true := bne_iff_ne.2 hs
  simp only [exec, execHbuild, bodyHbuild, hstage, ht]
  rfl

/-- The counted symbols of vector T-H2. -/
def vectorH2 : List HSym := [⟨7#16, 2#32⟩, ⟨3#16, 2#32⟩, ⟨5#16, 2#32⟩, ⟨9#16, 1#32⟩]

/-- The tree of vector T-H2: the first joins the lightest symbol with one of the three next, by HTIE. -/
theorem buildTree_vectorH2 (tie : Bool) : buildTree ⟨false, tie⟩ vectorH2 = .ok (leaves vectorH2 ++
    (if tie then [.internal 3#32 3 0, .internal 4#32 1 2, .internal 7#32 4 5]
      else [.internal 3#32 3 1, .internal 4#32 2 0, .internal 7#32 4 5]), 6) := by
  cases tie <;> rfl

/-- Settles O53: the tree of the counted symbols is built, complete, weighed, and for T-H2 computed. -/
theorem hbuildResult : Obligations.HbuildResult := by
  intro s hs hpos hd d
  obtain ⟨t, ht⟩ := exists_buildTree (o := s.cfg.huffOrder) hpos hd
  have harena : ArenaOk s.huff.syms t.1 t.2 := buildTree_arenaOk ht hd
  have ⟨_, hlen, hroot, _⟩ := harena
  have hrootd : t.2 = 2 * d - 2 := by omega
  have hlend : t.1.length = 2 * d - 1 := by omega
  refine ⟨t.1, ?_, hrootd ▸ harena, fun hsum => buildTree_weightsOk rfl ht hd hsum, fun hsyms => ?_⟩
  · rw [execHbuild_ok hs ht, hlend, hrootd]
    rfl
  · rw [hsyms] at ht
    rw [← Except.ok.inj ((buildTree_vectorH2 s.cfg.htie).symm.trans ht)]
    rfl

end Sys2Proof.Machine

/-! PROOFS. The codewords of stage 3 (43_huffman.md R471): no path goes beyond a leaf, and the shares of the leaves in
Kraft's sum are those of the root. -/

namespace Sys2Proof.Machine

/-! ## Prefixes -/

/-- A path goes on from the node its first part leads to. -/
theorem walk_append {ns : List Node} {h m : Nat} {p : List Bool} (hw : walk ns h p = some m) (q : List Bool) :
    walk ns h (p ++ q) = walk ns m q := by
  induction p generalizing h with
  | nil =>
    obtain ⟨-, e⟩ := Option.ite_none_right_eq_some.1 hw
    rw [List.nil_append, Option.some.inj e]
  | cons b t ih =>
    rw [List.cons_append, walk]
    rw [walk] at hw
    split at hw
    · exact ih hw
    · simp at hw
    · simp at hw

/-- No path leads beyond a leaf. -/
theorem walk_leaf {ns : List Node} {h j : Nat} {wt : Word} {x : Half} {q : List Bool}
    (hn : ns[h]? = some (Node.leaf wt x)) (hw : walk ns h q = some j) : j = h := by
  cases q with
  | nil => exact (Option.some.inj (Option.ite_none_right_eq_some.1 hw).2).symm
  | cons b t => simp [walk, hn] at hw

theorem ArenaOk.leaf_of_lt {syms : List HSym} {ns : List Node} {root i : Nat} (h : ArenaOk syms ns root)
    (hi : i < syms.length) : ∃ wt x, ns[i]? = some (Node.leaf wt x) := by
  obtain ⟨-, -, -, htake, -⟩ := h
  exact ⟨syms[i].freq, syms[i].sym, by rw [← List.getElem?_take_of_lt hi, htake]; simp [leaves, hi]⟩

/-- A path through one leaf leads to no other. -/
theorem CodesOk.prefixFree {syms : List HSym} {ns : List Node} {root : Nat} {codes : List Code}
    (h : ArenaOk syms ns root) (hc : CodesOk ns root syms.length codes) : PrefixFree codes := by
  obtain ⟨hlen, hcode⟩ := hc
  rintro i j c d hi hj hne ⟨q, hq⟩
  obtain ⟨-, -, hwi⟩ := hcode i c hi
  obtain ⟨-, -, hwj⟩ := hcode j d hj
  obtain ⟨wt, x, hleaf⟩ := h.leaf_of_lt (hlen ▸ (List.getElem?_eq_some_iff.1 hi).1)
  rw [← hq, walk_append hwi] at hwj
  exact hne (walk_leaf hleaf hwj).symm

/-! ## Kraft's sum -/

/-- Over internal nodes with handles from `k` on: when each node's children have together what the node has, all
children have together what all nodes have. -/
theorem sum_childHandles_of_internal {g : Nat → ℚ} {ns : List Node} {k : Nat}
    (hg : ∀ i n, ns[i]? = some n → ∃ wt l r, n = Node.internal wt l r ∧ g l + g r = g (k + i)) :
    ((childHandles ns).map g).sum = ((List.range' k ns.length).map g).sum := by
  induction ns generalizing k with
  | nil => rfl
  | cons n t ih =>
    obtain ⟨wt, l, r, rfl, hn⟩ := hg 0 n rfl
    have ht := ih (k := k + 1) fun i n hi => by
      obtain ⟨wt, l, r, hn, hs⟩ := hg (i + 1) n hi
      exact ⟨wt, l, r, hn, by rw [hs, Nat.add_assoc, Nat.add_comm 1]⟩
    rw [childHandles_eq_flatMap] at ht ⊢
    simp only [List.flatMap_cons, Node.childList, List.cons_append, List.nil_append, List.map_cons, List.sum_cons,
      List.length_cons, List.range'_succ, ht, ← add_assoc, hn, Nat.add_zero]

/-- Only the internal nodes of an arena, which follow the leaves, have children. -/
theorem ArenaOk.childHandles_eq {syms : List HSym} {ns : List Node} {root : Nat} (h : ArenaOk syms ns root) :
    childHandles ns = childHandles (ns.drop syms.length) := by
  obtain ⟨-, -, -, htake, -⟩ := h
  conv_lhs => rw [← List.take_append_drop syms.length ns, htake, childHandles_eq_flatMap, List.flatMap_append,
    ← childHandles_eq_flatMap, childHandles_leaves, List.nil_append, ← childHandles_eq_flatMap]

/-- The depths of a tree's leaves meet Kraft's inequality with equality: a node's two children share what it has, and
every node but the root is one child, so the leaves share what the root has. -/
theorem ArenaOk.kraftSum_depths {syms : List HSym} {ns : List Node} {root : Nat} {dep : Nat → Nat}
    (h : ArenaOk syms ns root) (hdep : IsDepth ns root dep) :
    kraftSum ((List.range syms.length).map dep : List Nat) = 1 := by
  have hchildren := h.childHandles_eq
  have ⟨_, hlen, hroot, _, _, hinner, hperm⟩ := h
  have hinternal : ((List.range root).map fun i => (1 / 2 : ℚ) ^ dep i).sum =
      ((List.range' syms.length (ns.length - syms.length)).map fun i => (1 / 2 : ℚ) ^ dep i).sum := by
    rw [← (hperm.map _).sum_eq, hchildren, ← List.length_drop]
    refine sum_childHandles_of_internal fun i n hi => ?_
    rw [List.getElem?_drop] at hi
    obtain ⟨wt, l, r, hn⟩ := hinner _ (Nat.le_add_right _ i) (List.getElem?_eq_some_iff.1 hi).1
    obtain ⟨hl, hr⟩ := IsDepth.child h hdep hn
    exact ⟨wt, l, r, Option.some.inj (hi.symm.trans hn), by rw [hl, hr]; ring⟩
  have hall : List.range root ++ [root] =
      List.range syms.length ++ List.range' syms.length (ns.length - syms.length) := by
    have happend := List.range'_append_1 (s := 0) (m := syms.length) (n := ns.length - syms.length)
    rw [Nat.zero_add, Nat.add_sub_cancel' (by omega)] at happend
    rw [← List.range_succ, List.range_eq_range', List.range_eq_range', happend, ← hroot]
  have hsum := congrArg (fun l => (l.map fun i => (1 / 2 : ℚ) ^ dep i).sum) hall
  simp only [List.map_append, List.sum_append, hinternal, List.map_singleton, List.sum_singleton,
    IsDepth.root_eq h hdep, pow_zero] at hsum
  rw [kraftSum, Multiset.map_coe, Multiset.sum_coe, List.map_map]
  exact (add_left_cancel (hsum.trans (add_comm _ _))).symm

/-- So do the lengths of its codewords. -/
theorem CodesOk.kraftSum_lengths {syms : List HSym} {ns : List Node} {root : Nat} {codes : List Code}
    (h : ArenaOk syms ns root) (hc : CodesOk ns root syms.length codes) :
    kraftSum (codes.map Code.len : List Nat) = 1 := by
  obtain ⟨dep, hdep⟩ := h.exists_depth
  obtain ⟨hlen, hcode⟩ := hc
  have hlens : codes.map Code.len = (List.range syms.length).map dep := by
    refine List.ext_getElem (by simp [hlen]) fun i h1 h2 => ?_
    obtain ⟨-, -, hw⟩ := hcode i _ (List.getElem?_eq_getElem (by simpa using h1))
    simp [← hdep i _ hw]
  rw [hlens, h.kraftSum_depths hdep]

/-- Settles O57: a codeword ends at a leaf, and each internal node's share is that of its two children. -/
theorem codesPrefixFreeAndComplete : Obligations.CodesPrefixFreeAndComplete := by
  rintro s ⟨-, -, hs⟩ hstage
  rw [hstage] at hs
  obtain ⟨harena, hcodes, -⟩ := hs
  refine ⟨hcodes.prefixFree harena, fun _ => ?_⟩
  have hkraft := hcodes.kraftSum_lengths harena
  rwa [kraftSum_coe, List.map_map] at hkraft

end Sys2Proof.Machine

/-! PROOFS. The errors of the Huffman stages (43_huffman.md R451, R456, R466, R470): SEQ of HBUILD, HASSIGN and HEMIT,
EMPTY of HBUILD and HUFF. -/

namespace Sys2Proof.Machine

/-! ## Errors that record only HSTAGE or nothing -/

/-- An error of HBUILD or HUFF that records only `n` empties the queue too (43_huffman.md R470). -/
theorem State.errorEntry_emptying_plain (s : State) (c : ErrCode) (n : Word) (hc : c ≠ .illegal)
    (hop : isHuffmanOp (opField s.cmd) = true) :
    s.errorEntry (Raise.plain c n).emptying = (s.stoppedHuffman c.toByte 0#32 n).setPq PQueue.empty := by
  obtain ⟨hm, hf⟩ := s.errorEntry_quiet (r := (Raise.plain c n).emptying) rfl rfl
  rw [s.errorEntry_eq_emptied (r := (Raise.plain c n).emptying) hop hc rfl, hm, hf]
  rfl

theorem buildTree_nil (o : HeapOrder) : buildTree o [] = .error (Raise.plain .empty 0#32) := rfl

/-! ## SEQ -/

section
variable {s : State}

theorem execHbuild_seq (hs : s.huff.stage = .empty) :
    exec .hbuild s = .next (s.errorEntry (Raise.plain .seq (BitVec.ofNat 32 s.huff.stage.toNat)).emptying) := by
  have hstage : (s.huff.stage != .empty) = false := by rw [hs]; rfl
  simp only [exec, execHbuild, bodyHbuild, hstage]
  rfl

theorem execHassign_seq (hs : s.huff.stage = .empty ∨ s.huff.stage = .counted) :
    exec .hassign s = .next (s.errorEntry ((Raise.plain .seq (BitVec.ofNat 32 s.huff.stage.toNat)).sparing
      [tableRegion s.cfg s.huff.syms.length])) := by
  have hstage : (s.huff.stage == .built || s.huff.stage == .assigned) = false := by
    rcases hs with hs | hs <;> rw [hs] <;> rfl
  simp only [exec, execHassign, bodyHassign, hstage]
  rfl

theorem execHemit_seq (hs : s.huff.stage ≠ .assigned) :
    exec .hemit s = .next (s.errorEntry (Raise.plain .seq (BitVec.ofNat 32 s.huff.stage.toNat))) := by
  have hstage : (s.huff.stage == .assigned) = false := beq_false_of_ne hs
  simp only [exec, execHemit, bodyHemit, hstage]
  rfl

/-! ## EMPTY -/

theorem execHbuild_empty (hs : s.huff.stage ≠ .empty) (hd : s.huff.syms = []) :
    exec .hbuild s = .next (s.errorEntry (Raise.plain .empty 0#32).emptying) := by
  have hstage : (s.huff.stage != .empty) = true := bne_iff_ne.2 hs
  simp only [exec, execHbuild, bodyHbuild, hstage, hd, buildTree_nil]
  rfl

/-- An input of no symbol has no byte on a device, so HUFF's tree of no symbol stops it. -/
theorem execHuff_empty (hl : s.cfg.hinLen = 0#32) :
    exec .huff s = .next (s.errorEntry (Raise.plain .empty 0#32).emptying) := by
  have hoff : s.OffDevices [hinRegion s.cfg] := fun r hr d _ a h => by
    obtain rfl := List.mem_singleton.1 hr
    obtain ⟨hfrom, hto⟩ := Region.has_eq_true.1 h.1
    have hlen : s.cfg.hinLen.toNat = 0 := by rw [hl]; rfl
    simp only [hinRegion, hlen] at hfrom hto
    omega
  have hdev := State.onDevice_eq_false_iff.2 hoff
  have hcount : countSyms s.holes s.mem s.cfg = .ok [] := by rw [countSyms, hl]; rfl
  simp only [exec, execHuff, bodyHuff, State.readView_off hdev, hdev, hcount, mapError_ok, ok_bind, buildTree_nil]
  rfl

end

/-- Settles O59: each command stops at its stage, or at the tree of no symbol. -/
theorem huffmanStageErrors : Obligations.HuffmanStageErrors := by
  refine fun s => ⟨fun hs hop => ?_, fun hs hop => ?_, fun hs hop => ?_, fun hs hd hop => ?_, fun hl hop => ?_⟩ <;>
    have huff : isHuffmanOp (opField s.cmd) = true := by rw [hop]; rfl
  · rw [execHbuild_seq hs, hs, s.errorEntry_emptying_plain .seq _ (by decide) huff]
    rfl
  · rw [execHassign_seq hs, s.errorEntry_sparing rfl, s.errorEntry_plain_huffman .seq _ (by decide) huff]
    rfl
  · rw [execHemit_seq hs, s.errorEntry_plain_huffman .seq _ (by decide) huff]
    rfl
  · rw [execHbuild_empty hs hd, s.errorEntry_emptying_plain .empty _ (by decide) huff]
    rfl
  · rw [execHuff_empty hl, s.errorEntry_emptying_plain .empty _ (by decide) huff]
    rfl

end Sys2Proof.Machine

/-! PROOFS. The queue commands (44_pqueue.md R501 to R511): how each ends, the order in which equal keys leave, and the
heap order under every step. -/

namespace Sys2Proof.Machine

/-! ## How the queue commands end -/

section
variable {s : State}

theorem execPqenq_ok {q : PQueue} (h : s.pq.enq s.cfg.heapOrder s.cfg.arg0 s.cfg.arg1 = .ok q) :
    exec .pqenq s = .next (s.setPq q).complete := by
  simp only [exec, execPqenq, h]
  rfl

theorem execPqdeq_ok {e : Entry} {q : PQueue} (h : s.pq.deq s.cfg.heapOrder = .ok (e, q)) :
    exec .pqdeq s = .next (((s.setPq q).setRes 0 e.key).setRes 1 e.payload).complete := by
  simp only [exec, execPqdeq, h]
  rfl

theorem execPqpeek_ok {top : Entry} {rest : List Entry} (h : s.pq.heap = top :: rest) :
    exec .pqpeek s = .next ((s.setRes 0 top.key).setRes 1 top.payload).complete := by
  simp only [exec, execPqpeek, PQueue.peek, h]
  rfl

theorem execPqenq_full (h : s.pq.heap.length = Config.pqCap) :
    exec .pqenq s = .next (s.errorEntry (Raise.plain .pqfull (BitVec.ofNat 32 Config.pqCap))) := by
  simp only [exec, execPqenq, PQueue.enq_full _ _ _ _ h]
  rfl

theorem execPqdeq_empty (h : s.pq.heap = []) :
    exec .pqdeq s = .next (s.errorEntry (Raise.plain .empty 0#32)) := by
  simp only [exec, execPqdeq, PQueue.deq_empty _ _ h]
  rfl

theorem execPqpeek_empty (h : s.pq.heap = []) :
    exec .pqpeek s = .next (s.errorEntry (Raise.plain .empty 0#32)) := by
  simp only [exec, execPqpeek, PQueue.peek, h]
  rfl

end

/-- Settles O49: `enq` adds the entry or finds the queue full. -/
theorem queueInsertResults : Obligations.QueueInsertResults := by
  refine fun s => ⟨rfl, fun hroom => ?_, fun hfull hop => ?_⟩
  · obtain ⟨q, henq, hperm, hseq⟩ := PQueue.enq_ok s.cfg.heapOrder s.pq s.cfg.arg0 s.cfg.arg1 hroom
    exact ⟨q, execPqenq_ok henq, hperm, hseq⟩
  · rw [execPqenq_full hfull, s.errorEntry_plain .pqfull _ (by rw [hop]; rfl)]
    rfl

/-! ## Equal keys (R511) -/

/-- The keys and payloads of `n` entries that leave the queue one after the other. -/
def PQueue.deqAll (o : HeapOrder) : Nat → PQueue → Except Raise (List (Word × Word))
  | 0, _ => .ok []
  | n + 1, q => do
    let r ← q.deq o
    let l ← PQueue.deqAll o n r.2
    .ok ((r.1.key, r.1.payload) :: l)

/-- PQENQ after PQENQ does to the queue what `enq` after `enq` does, and keeps the order. -/
theorem enqueueAll_ok {l : List (Word × Word)} {s : State} {q : PQueue}
    (h : l.foldlM (fun q p => q.enq s.cfg.heapOrder p.1 p.2) s.pq = .ok q) :
    ∃ t, enqueueAll l s = .next t ∧ t.pq = q ∧ t.cfg.heapOrder = s.cfg.heapOrder := by
  induction l generalizing s with
  | nil => exact ⟨s, rfl, Except.ok.inj h, rfl⟩
  | cons p l ih =>
    rw [List.foldlM_cons] at h
    obtain ⟨q1, henq, hrest⟩ := bind_eq_ok h
    rw [enqueueAll, execPqenq_ok henq]
    exact ih hrest

/-- PQDEQ after PQDEQ answers what leaves the queue by `deq` after `deq`. -/
theorem dequeueAll_ok {n : Nat} {s : State} {l : List (Word × Word)} (h : s.pq.deqAll s.cfg.heapOrder n = .ok l) :
    dequeueAll n s = some l := by
  induction n generalizing s l with
  | zero => rw [← Except.ok.inj h, dequeueAll]
  | succ n ih =>
    obtain ⟨r, hdeq, hrest⟩ := bind_eq_ok h
    obtain ⟨l', hl', hcons⟩ := bind_eq_ok hrest
    rw [dequeueAll, execPqdeq_ok hdeq, ← Except.ok.inj hcons]
    dsimp only
    rw [ih hl']
    simp

/-- The keys and payloads of R511. -/
def equalKeys : List (Word × Word) := [(2#32, 0#32), (2#32, 1#32), (2#32, 2#32), (2#32, 3#32), (1#32, 4#32)]

/-- R511's table, on the queue itself. -/
theorem equalKeys_order (tie : Bool) :
    ∃ q, equalKeys.foldlM (fun q p => q.enq ⟨false, tie⟩ p.1 p.2) (⟨[], 0#32⟩ : PQueue) = .ok q ∧
      q.deqAll ⟨false, tie⟩ 5 = .ok (if tie then
          [(1#32, 4#32), (2#32, 0#32), (2#32, 1#32), (2#32, 2#32), (2#32, 3#32)]
        else [(1#32, 4#32), (2#32, 1#32), (2#32, 3#32), (2#32, 2#32), (2#32, 0#32)]) := by
  cases tie <;> exact ⟨_, rfl, rfl⟩

/-- Settles O50: `deq` and `peek` give the root or find no entry; R511's table is that of the queue alone. -/
theorem queueRemoveResults : Obligations.QueueRemoveResults := by
  refine ⟨fun s => ⟨fun top rest hq => ⟨?_, execPqpeek_ok hq⟩, fun hq => ⟨fun hop => ?_, fun hop => ?_⟩⟩,
    fun s hq hmin => ?_⟩
  · obtain ⟨q, hdeq, hperm, hseq⟩ := PQueue.deq_ok s.cfg.heapOrder s.pq hq
    exact ⟨q, execPqdeq_ok hdeq, hperm, hseq⟩
  · rw [execPqdeq_empty hq, s.errorEntry_plain .empty _ (by rw [hop]; rfl)]
    rfl
  · rw [execPqpeek_empty hq, s.errorEntry_plain .empty _ (by rw [hop]; rfl)]
    rfl
  · have horder : s.cfg.heapOrder = ⟨false, s.cfg.htie⟩ := by rw [Csr.heapOrder, hmin]
    obtain ⟨q, henq, hdeq⟩ := equalKeys_order s.cfg.htie
    rw [← hq, ← horder] at henq
    obtain ⟨t, ht, rfl, hkeep⟩ := enqueueAll_ok henq
    exact ⟨t, ht, dequeueAll_ok (by rw [hkeep, horder, hdeq])⟩

/-! ## What a command, and a step, may make of the queue -/

/-- The queues that one command may leave (10_state.md R90, 43_huffman.md R456, R470). -/
inductive QueueMove (s : State) : PQueue → Prop
  | kept : QueueMove s s.pq
  | emptied : QueueMove s PQueue.empty
  | enq {q : PQueue} (h : s.pq.enq s.cfg.heapOrder s.cfg.arg0 s.cfg.arg1 = .ok q) : QueueMove s q
  | deq {r : Entry × PQueue} (h : s.pq.deq s.cfg.heapOrder = .ok r) : QueueMove s r.2

theorem QueueMove.of_eq {s : State} {q : PQueue} (h : q = s.pq) : QueueMove s q := h ▸ .kept

theorem State.errorEntry_queueMove (s : State) (r : Raise) : QueueMove s (s.errorEntry r).pq := by
  rw [State.errorEntry_eq]
  dsimp only
  split
  · exact .emptied
  · exact .kept

theorem State.finish_queueMove {s t : State} {e : Except Raise State} (he : EndsWith (fun u => QueueMove s u.pq) e)
    (h : s.finish e = .next t) : QueueMove s t.pq := by
  rcases State.finish_eq_next h with ⟨u, hu, rfl⟩ | ⟨r, -, rfl⟩
  · exact he u hu
  · exact s.errorEntry_queueMove r

theorem exec_queueMove {i : Instr} {s t : State} (h : exec i s = .next t) : QueueMove s t.pq := by
  by_cases hi : usesQueue i = true
  · simp only [usesQueue, List.mem_cons, List.not_mem_nil, or_false, decide_eq_true_eq] at hi
    rcases hi with rfl | rfl | rfl | rfl | rfl
    · exact s.finish_queueMove (e := .ok (s.setPq PQueue.empty)) (.ok .emptied) h
    · exact State.finish_queueMove (.bind fun q henq => .ok (.enq henq)) h
    · exact State.finish_queueMove (.bind fun r hdeq => .ok (.deq hdeq)) h
    · exact State.finish_queueMove (.mapError _ (.bind fun _ _ => .bind fun _ _ => .ok .emptied)) h
    · refine State.finish_queueMove (.map (fun w hw => ?_) (bodyHuff_pq s)) h
      rw [Written.settle_pq, hw]
      exact .emptied
  · obtain ⟨e, he, hok, -⟩ := exec_framed s i
    exact State.finish_queueMove (fun u hu => QueueMove.of_eq ((hok u hu).pq (by simpa using hi))) (he ▸ h)

theorem engineStep_queueMove {s t : State} (h : engineStep s = .next t) : QueueMove s t.pq := by
  rcases engineStep_cases h with ⟨i, -, -, hx⟩ | rfl | rfl
  · exact exec_queueMove hx
  · exact s.errorEntry_queueMove _
  · exact .kept

/-- The host keeps the queue or resets it, so a step leaves it as one command may (R254, R700). -/
theorem step_queueMove {s t : State} (h : step s = .next t) : ∃ rest, QueueMove { s with inbox := rest } t.pq := by
  obtain ⟨rest, h | ⟨act, h⟩⟩ := step_cases h
  · exact ⟨rest, engineStep_queueMove h⟩
  · refine ⟨rest, ?_⟩
    rcases hostStep_keeps h with hk | hk <;> rw [hk.pq]
    · exact .kept
    · exact .emptied

/-! ## The heap order (R507) -/

theorem heapOrdered_nil (o : HeapOrder) : HeapOrdered o [] := fun k _ hk => absurd hk (Nat.not_lt_zero k)

theorem QueueMove.heapOrdered {s : State} {q : PQueue} (h : QueueMove s q)
    (hs : HeapOrdered s.cfg.heapOrder s.pq.heap) : HeapOrdered s.cfg.heapOrder q.heap := by
  cases h with
  | kept => exact hs
  | emptied => exact heapOrdered_nil _
  | enq h => exact PQueue.enq_heapOrdered hs h
  | deq h => exact (PQueue.deq_heapOrdered hs h).1

/-! ## The root is best (R501) -/

/-- No entry of an ordered heap is better than its first. -/
theorem HeapOrdered.head_best {o : HeapOrder} {top : Entry} {rest : List Entry} (hh : HeapOrdered o (top :: rest))
    {e : Entry} (he : e ∈ top :: rest) : better o e top = false := by
  obtain ⟨i, hi, rfl⟩ := List.mem_iff_getElem.1 he
  exact heapAt_of_lt hi ▸ hh.root_best hi

/-- What is not better is not ahead by its key, under either PQMAX. -/
theorem key_order_of_not_better {o : HeapOrder} {x y : Entry} (h : better o y x = false) :
    if o.maxheap then y.key ≤ x.key else x.key ≤ y.key := by
  unfold better at h
  by_cases hk : y.key = x.key
  · rw [hk, ite_self]
    exact BitVec.le_refl _
  · rw [if_pos hk] at h
    split at h
    · rw [if_pos ‹_›]
      exact BitVec.not_lt.1 (of_decide_eq_false h)
    · rw [if_neg ‹_›]
      exact BitVec.not_lt.1 (of_decide_eq_false h)

/-- With HTIE = 1 what is not better, of an equal key, has no lower sequence number. -/
theorem seq_le_of_not_better {o : HeapOrder} (ho : o.tie = true) {x y : Entry} (h : better o y x = false)
    (hk : y.key = x.key) : x.seq ≤ y.seq := by
  simpa [better, hk, ho] using h

/-- Settles O51: a step keeps, resets, empties, or adds to or takes from the queue, and sifting restores the order;
no entry of an ordered heap is better than the root. -/
theorem heapOrderKept : Obligations.HeapOrderKept := by
  intro s t hs
  have hexec : ∀ i, exec i s = .next t → HeapOrdered s.cfg.heapOrder t.pq.heap := fun _ h =>
    (exec_queueMove h).heapOrdered hs
  refine ⟨fun h hmax htie => ?_, hexec .pqenq, hexec .pqdeq, fun top rest hq => ?_⟩
  · obtain ⟨rest, hmove⟩ := step_queueMove h
    rw [Csr.heapOrder, hmax, htie]
    exact hmove.heapOrdered hs
  · rw [hq] at hs ⊢
    have hbest : ∀ e ∈ top :: rest, better s.cfg.heapOrder e top = false := fun e he => hs.head_best he
    exact ⟨hbest, fun e he => key_order_of_not_better (hbest e he),
      fun htie e he hk => seq_le_of_not_better htie (hbest e he) hk⟩

end Sys2Proof.Machine
